-- ==== Sys2Proof/Word.lean ====
section
/-! DEFINITION. The widths the spec gives its words, as abbreviations of `BitVec`
(`spec/00_scope.md` R8, R11). -/

namespace Sys2Proof

/-- A storage byte, an 8-bit immediate or length field (R80, R133). -/
abbrev Byte := BitVec 8

/-- A halfword (R84). -/
abbrev Half := BitVec 16

/-- A 32-bit word, the width of a general register (R30). -/
abbrev Word := BitVec 32

/-- A 64-bit doubleword, the width of a floating-point register and of a packed PSW (R34, R50). -/
abbrev DWord := BitVec 64

/-- A 24-bit storage address. Its arithmetic wraps modulo 2^24, as R80 says of every address. -/
abbrev Addr := BitVec 24

/-- A 4-bit field: a register number, a mask, a length code, a digit or a storage key
(R55, R132, R133, R135). -/
abbrev Nib := BitVec 4

/-- A 12-bit unsigned displacement (R131). -/
abbrev Disp := BitVec 12

end Sys2Proof
end

