-- ==== Sys2Proof/Syntax.lean ====
section
/-! DEFINITION. The instructions, one constructor per row of `spec/opcode_table.json`, over the
operand fields of their format (`spec/30_encoding.md` R121 to R126). A field that the
instruction's rule does not read (R147) is kept as an operand, so that no bit of an encoding is
dropped. -/

namespace Sys2Proof

/-- RR (R121): bits 8-11 and 12-15. BCR's mask M1 stands in `r1`; SPM ignores `r2`. -/
structure OpsRR where
  r1 : Nib
  r2 : Nib
  deriving DecidableEq, Repr

/-- RX (R122): bits 8-11, 12-15, 16-19, 20-31. BC's mask M1 stands in `r1`. -/
structure OpsRX where
  r1 : Nib
  x2 : Nib
  b2 : Nib
  d2 : Disp
  deriving DecidableEq, Repr

/-- RS (R123): bits 8-11, 12-15, 16-19, 20-31. The mask M3 of ICM, STCM and CLM stands in `r3`;
the shifts ignore `r3`; DIAG hands all four fields to the host. -/
structure OpsRS where
  r1 : Nib
  r3 : Nib
  b2 : Nib
  d2 : Disp
  deriving DecidableEq, Repr

/-- SI (R124): bits 8-15, 16-19, 20-31. SSM, LPSW and TS ignore `i2`. -/
structure OpsSI where
  i2 : Byte
  b1 : Nib
  d1 : Disp
  deriving DecidableEq, Repr

/-- S (R125): bits 16-19 and 20-31 of the instructions with a 16-bit opcode. -/
structure OpsS where
  b2 : Nib
  d2 : Disp
  deriving DecidableEq, Repr

/-- SS with one length (R126): bits 8-15, then two base and displacement pairs. -/
structure OpsSS where
  l  : Byte
  b1 : Nib
  d1 : Disp
  b2 : Nib
  d2 : Disp
  deriving DecidableEq, Repr

/-- SS with two lengths (R126): bits 8-11 and 12-15, then two base and displacement pairs. SRP's
rounding digit I3 stands in `l2`. -/
structure OpsSS2 where
  l1 : Nib
  l2 : Nib
  b1 : Nib
  d1 : Disp
  b2 : Nib
  d2 : Disp
  deriving DecidableEq, Repr

/-- The instructions of `spec/opcode_table.json`, in its order. `fn` of the channel instructions is
bits 8-14 (bit 15 chooses the instruction, R140); `fn` of TCH and of the B2xx catch-all is the whole
second byte, which the host is handed (R651). -/
inductive Instr where
  /-- SPM, Set Program Mask, opcode 04 (R661). -/
  | spm (o : OpsRR)
  /-- BALR, Branch and Link Register, opcode 05 (R603). -/
  | balr (o : OpsRR)
  /-- BCTR, Branch on Count Register, opcode 06 (R615). -/
  | bctr (o : OpsRR)
  /-- BCR, Branch on Condition Register, opcode 07 (R611). -/
  | bcr (o : OpsRR)
  /-- SSK, Set Storage Key, opcode 08 (R657). -/
  | ssk (o : OpsRR)
  /-- ISK, Insert Storage Key, opcode 09 (R656). -/
  | isk (o : OpsRR)
  /-- SVC, Supervisor Call, opcode 0A (R660). -/
  | svc (i : Byte)
  /-- MVCL, Move Long, opcode 0E (R516). -/
  | mvcl (o : OpsRR)
  /-- CLCL, Compare Logical Long, opcode 0F (R418). -/
  | clcl (o : OpsRR)
  /-- LPR, Load Positive Register, opcode 10 (R214). -/
  | lpr (o : OpsRR)
  /-- LNR, Load Negative Register, opcode 11 (R213). -/
  | lnr (o : OpsRR)
  /-- LTR, Load and Test Register, opcode 12 (R211). -/
  | ltr (o : OpsRR)
  /-- LCR, Load Complement Register, opcode 13 (R212). -/
  | lcr (o : OpsRR)
  /-- NR, AND Register, opcode 14 (R401). -/
  | nr (o : OpsRR)
  /-- CLR, Compare Logical Register, opcode 15 (R413). -/
  | clr (o : OpsRR)
  /-- OR, OR Register, opcode 16 (R405). -/
  | or (o : OpsRR)
  /-- XR, Exclusive OR Register, opcode 17 (R409). -/
  | xr (o : OpsRR)
  /-- LR, Load Register, opcode 18 (R210). -/
  | lr (o : OpsRR)
  /-- CR, Compare Register, opcode 19 (R225). -/
  | cr (o : OpsRR)
  /-- AR, Add Register, opcode 1A (R215). -/
  | ar (o : OpsRR)
  /-- SR, Subtract Register, opcode 1B (R218). -/
  | sr (o : OpsRR)
  /-- MR, Multiply Register, opcode 1C (R228). -/
  | mr (o : OpsRR)
  /-- DR, Divide Register, opcode 1D (R231). -/
  | dr (o : OpsRR)
  /-- ALR, Add Logical Register, opcode 1E (R221). -/
  | alr (o : OpsRR)
  /-- SLR, Subtract Logical Register, opcode 1F (R223). -/
  | slr (o : OpsRR)
  /-- LPDR, Load Positive Long, opcode 20 (R333). -/
  | lpdr (o : OpsRR)
  /-- LNDR, Load Negative Long, opcode 21 (R331). -/
  | lndr (o : OpsRR)
  /-- LTDR, Load and Test Long, opcode 22 (R327). -/
  | ltdr (o : OpsRR)
  /-- LCDR, Load Complement Long, opcode 23 (R329). -/
  | lcdr (o : OpsRR)
  /-- HDR, Halve Long, opcode 24 (R363). -/
  | hdr (o : OpsRR)
  /-- LDR, Load Long Register, opcode 28 (R321). -/
  | ldr (o : OpsRR)
  /-- CDR, Compare Long, opcode 29 (R352). -/
  | cdr (o : OpsRR)
  /-- ADR, Add Normalized Long, opcode 2A (R336). -/
  | adr (o : OpsRR)
  /-- SDR, Subtract Normalized Long, opcode 2B (R340). -/
  | sdr (o : OpsRR)
  /-- MDR, Multiply Long, opcode 2C (R356). -/
  | mdr (o : OpsRR)
  /-- DDR, Divide Long, opcode 2D (R360). -/
  | ddr (o : OpsRR)
  /-- AWR, Add Unnormalized Long, opcode 2E (R344). -/
  | awr (o : OpsRR)
  /-- SWR, Subtract Unnormalized Long, opcode 2F (R348). -/
  | swr (o : OpsRR)
  /-- LPER, Load Positive Short, opcode 30 (R332). -/
  | lper (o : OpsRR)
  /-- LNER, Load Negative Short, opcode 31 (R330). -/
  | lner (o : OpsRR)
  /-- LTER, Load and Test Short, opcode 32 (R326). -/
  | lter (o : OpsRR)
  /-- LCER, Load Complement Short, opcode 33 (R328). -/
  | lcer (o : OpsRR)
  /-- HER, Halve Short, opcode 34 (R362). -/
  | her (o : OpsRR)
  /-- LER, Load Short Register, opcode 38 (R320). -/
  | ler (o : OpsRR)
  /-- CER, Compare Short, opcode 39 (R350). -/
  | cer (o : OpsRR)
  /-- AER, Add Normalized Short, opcode 3A (R334). -/
  | aer (o : OpsRR)
  /-- SER, Subtract Normalized Short, opcode 3B (R338). -/
  | ser (o : OpsRR)
  /-- MER, Multiply Short to Long, opcode 3C (R354). -/
  | mer (o : OpsRR)
  /-- DER, Divide Short, opcode 3D (R358). -/
  | der (o : OpsRR)
  /-- AUR, Add Unnormalized Short, opcode 3E (R342). -/
  | aur (o : OpsRR)
  /-- SUR, Subtract Unnormalized Short, opcode 3F (R346). -/
  | sur (o : OpsRR)
  /-- STH, Store Halfword, opcode 40 (R504). -/
  | sth (o : OpsRX)
  /-- LA, Load Address, opcode 41 (R505). -/
  | la (o : OpsRX)
  /-- STC, Store Character, opcode 42 (R507). -/
  | stc (o : OpsRX)
  /-- IC, Insert Character, opcode 43 (R506). -/
  | ic (o : OpsRX)
  /-- EX, Execute, opcode 44 (R620). -/
  | ex (o : OpsRX)
  /-- BAL, Branch and Link, opcode 45 (R602). -/
  | bal (o : OpsRX)
  /-- BCT, Branch on Count, opcode 46 (R614). -/
  | bct (o : OpsRX)
  /-- BC, Branch on Condition, opcode 47 (R610). -/
  | bc (o : OpsRX)
  /-- LH, Load Halfword, opcode 48 (R502). -/
  | lh (o : OpsRX)
  /-- CH, Compare Halfword, opcode 49 (R227). -/
  | ch (o : OpsRX)
  /-- AH, Add Halfword, opcode 4A (R217). -/
  | ah (o : OpsRX)
  /-- SH, Subtract Halfword, opcode 4B (R220). -/
  | sh (o : OpsRX)
  /-- MH, Multiply Halfword, opcode 4C (R230). -/
  | mh (o : OpsRX)
  /-- CVD, Convert to Decimal, opcode 4E (R721). -/
  | cvd (o : OpsRX)
  /-- CVB, Convert to Binary, opcode 4F (R720). -/
  | cvb (o : OpsRX)
  /-- ST, Store, opcode 50 (R503). -/
  | st (o : OpsRX)
  /-- N, AND, opcode 54 (R402). -/
  | n (o : OpsRX)
  /-- CL, Compare Logical, opcode 55 (R414). -/
  | cl (o : OpsRX)
  /-- O, OR, opcode 56 (R406). -/
  | o (o : OpsRX)
  /-- X, Exclusive OR, opcode 57 (R410). -/
  | x (o : OpsRX)
  /-- L, Load, opcode 58 (R501). -/
  | l (o : OpsRX)
  /-- C, Compare, opcode 59 (R226). -/
  | c (o : OpsRX)
  /-- A, Add, opcode 5A (R216). -/
  | a (o : OpsRX)
  /-- S, Subtract, opcode 5B (R219). -/
  | s (o : OpsRX)
  /-- M, Multiply, opcode 5C (R229). -/
  | m (o : OpsRX)
  /-- D, Divide, opcode 5D (R232). -/
  | d (o : OpsRX)
  /-- AL, Add Logical, opcode 5E (R222). -/
  | al (o : OpsRX)
  /-- SL, Subtract Logical, opcode 5F (R224). -/
  | sl (o : OpsRX)
  /-- STD, Store Long, opcode 60 (R325). -/
  | std (o : OpsRX)
  /-- LD, Load Long, opcode 68 (R323). -/
  | ld (o : OpsRX)
  /-- CD, Compare Long, opcode 69 (R353). -/
  | cd (o : OpsRX)
  /-- AD, Add Normalized Long, opcode 6A (R337). -/
  | ad (o : OpsRX)
  /-- SD, Subtract Normalized Long, opcode 6B (R341). -/
  | sd (o : OpsRX)
  /-- MD, Multiply Long, opcode 6C (R357). -/
  | md (o : OpsRX)
  /-- DD, Divide Long, opcode 6D (R361). -/
  | dd (o : OpsRX)
  /-- AW, Add Unnormalized Long, opcode 6E (R345). -/
  | aw (o : OpsRX)
  /-- SW, Subtract Unnormalized Long, opcode 6F (R349). -/
  | sw (o : OpsRX)
  /-- STE, Store Short, opcode 70 (R324). -/
  | ste (o : OpsRX)
  /-- LE, Load Short, opcode 78 (R322). -/
  | le (o : OpsRX)
  /-- CE, Compare Short, opcode 79 (R351). -/
  | ce (o : OpsRX)
  /-- AE, Add Normalized Short, opcode 7A (R335). -/
  | ae (o : OpsRX)
  /-- SE, Subtract Normalized Short, opcode 7B (R339). -/
  | se (o : OpsRX)
  /-- ME, Multiply Short to Long, opcode 7C (R355). -/
  | me (o : OpsRX)
  /-- DE, Divide Short, opcode 7D (R359). -/
  | de (o : OpsRX)
  /-- AU, Add Unnormalized Short, opcode 7E (R343). -/
  | au (o : OpsRX)
  /-- SU, Subtract Unnormalized Short, opcode 7F (R347). -/
  | su (o : OpsRX)
  /-- SSM, Set System Mask, opcode 80 (R654). -/
  | ssm (o : OpsSI)
  /-- LPSW, Load PSW, opcode 82 (R652). -/
  | lpsw (o : OpsSI)
  /-- DIAG, Diagnose, opcode 83 (R673). -/
  | diag (o : OpsRS)
  /-- WRD, Write Direct, opcode 84 (R674). -/
  | wrd (o : OpsSI)
  /-- RDD, Read Direct, opcode 85 (R675). -/
  | rdd (o : OpsSI)
  /-- BXH, Branch on Index High, opcode 86 (R631). -/
  | bxh (o : OpsRS)
  /-- BXLE, Branch on Index Low or Equal, opcode 87 (R632). -/
  | bxle (o : OpsRS)
  /-- SRL, Shift Right Single Logical, opcode 88 (R238). -/
  | srl (o : OpsRS)
  /-- SLL, Shift Left Single Logical, opcode 89 (R237). -/
  | sll (o : OpsRS)
  /-- SRA, Shift Right Single, opcode 8A (R234). -/
  | sra (o : OpsRS)
  /-- SLA, Shift Left Single, opcode 8B (R233). -/
  | sla (o : OpsRS)
  /-- SRDL, Shift Right Double Logical, opcode 8C (R240). -/
  | srdl (o : OpsRS)
  /-- SLDL, Shift Left Double Logical, opcode 8D (R239). -/
  | sldl (o : OpsRS)
  /-- SRDA, Shift Right Double, opcode 8E (R236). -/
  | srda (o : OpsRS)
  /-- SLDA, Shift Left Double, opcode 8F (R235). -/
  | slda (o : OpsRS)
  /-- STM, Store Multiple, opcode 90 (R511). -/
  | stm (o : OpsRS)
  /-- TM, Test under Mask, opcode 91 (R419). -/
  | tm (o : OpsSI)
  /-- MVI, Move Immediate, opcode 92 (R512). -/
  | mvi (o : OpsSI)
  /-- TS, Test and Set, opcode 93 (R517). -/
  | ts (o : OpsSI)
  /-- NI, AND Immediate, opcode 94 (R403). -/
  | ni (o : OpsSI)
  /-- CLI, Compare Logical Immediate, opcode 95 (R415). -/
  | cli (o : OpsSI)
  /-- OI, OR Immediate, opcode 96 (R407). -/
  | oi (o : OpsSI)
  /-- XI, Exclusive OR Immediate, opcode 97 (R411). -/
  | xi (o : OpsSI)
  /-- LM, Load Multiple, opcode 98 (R510). -/
  | lm (o : OpsRS)
  /-- SIO, Start I/O, opcode 9C, bit 15 = 0 (R677). -/
  | sio (fn : BitVec 7) (o : OpsS)
  /-- SIOF, Start I/O Fast Release, opcode 9C, bit 15 = 1 (R678). -/
  | siof (fn : BitVec 7) (o : OpsS)
  /-- TIO, Test I/O, opcode 9D, bit 15 = 0 (R679). -/
  | tio (fn : BitVec 7) (o : OpsS)
  /-- CLRIO, Clear I/O, opcode 9D, bit 15 = 1 (R681). -/
  | clrio (fn : BitVec 7) (o : OpsS)
  /-- HIO, Halt I/O, opcode 9E, bit 15 = 0 (R682). -/
  | hio (fn : BitVec 7) (o : OpsS)
  /-- HDV, Halt Device, opcode 9E, bit 15 = 1 (R683). -/
  | hdv (fn : BitVec 7) (o : OpsS)
  /-- TCH, Test Channel, opcode 9F (R684). -/
  | tch (fn : Byte) (o : OpsS)
  /-- STNSM, Store Then AND System Mask, opcode AC (R655). -/
  | stnsm (o : OpsSI)
  /-- STOSM, Store Then OR System Mask, opcode AD (R658). -/
  | stosm (o : OpsSI)
  /-- SIGP, Signal Processor, opcode AE (R676). -/
  | sigp (o : OpsRS)
  /-- MC, Monitor Call, opcode AF (R662). -/
  | mc (o : OpsSI)
  /-- LRA, Load Real Address, opcode B1 (R670). -/
  | lra (o : OpsRX)
  /-- STIDP, Store CPU ID, opcode B202 (R685). -/
  | stidp (o : OpsS)
  /-- STIDC, Store Channel ID, opcode B203 (R686). -/
  | stidc (o : OpsS)
  /-- SCK, Set Clock, opcode B204 (R687). -/
  | sck (o : OpsS)
  /-- STCK, Store Clock, opcode B205 (R688). -/
  | stck (o : OpsS)
  /-- SCKC, Set Clock Comparator, opcode B206 (R689). -/
  | sckc (o : OpsS)
  /-- STCKC, Store Clock Comparator, opcode B207 (R690). -/
  | stckc (o : OpsS)
  /-- SPT, Set CPU Timer, opcode B208 (R691). -/
  | spt (o : OpsS)
  /-- STPT, Store CPU Timer, opcode B209 (R692). -/
  | stpt (o : OpsS)
  /-- SPKA, Set PSW Key from Address, opcode B20A (R693). -/
  | spka (o : OpsS)
  /-- IPK, Insert PSW Key, opcode B20B (R694). -/
  | ipk (o : OpsS)
  /-- PTLB, Purge TLB, opcode B20D (R695). -/
  | ptlb (o : OpsS)
  /-- SPX, Set Prefix, opcode B210 (R696). -/
  | spx (o : OpsS)
  /-- STPX, Store Prefix, opcode B211 (R697). -/
  | stpx (o : OpsS)
  /-- STAP, Store CPU Address, opcode B212 (R698). -/
  | stap (o : OpsS)
  /-- RRB, Reset Reference Bit, opcode B213 (R699). -/
  | rrb (o : OpsS)
  /-- B2xx, Other B2-page instructions (any second byte without a named row), opcode B2 (R680). -/
  | b2xx (fn : Byte) (o : OpsS)
  /-- STCTL, Store Control, opcode B6 (R671). -/
  | stctl (o : OpsRS)
  /-- LCTL, Load Control, opcode B7 (R672). -/
  | lctl (o : OpsRS)
  /-- CS, Compare and Swap, opcode BA (R518). -/
  | cs (o : OpsRS)
  /-- CDS, Compare Double and Swap, opcode BB (R519). -/
  | cds (o : OpsRS)
  /-- CLM, Compare Logical Characters under Mask, opcode BD (R417). -/
  | clm (o : OpsRS)
  /-- STCM, Store Characters under Mask, opcode BE (R509). -/
  | stcm (o : OpsRS)
  /-- ICM, Insert Characters under Mask, opcode BF (R508). -/
  | icm (o : OpsRS)
  /-- MVN, Move Numerics, opcode D1 (R514). -/
  | mvn (o : OpsSS)
  /-- MVC, Move Character, opcode D2 (R513). -/
  | mvc (o : OpsSS)
  /-- MVZ, Move Zones, opcode D3 (R515). -/
  | mvz (o : OpsSS)
  /-- NC, AND Character, opcode D4 (R404). -/
  | nc (o : OpsSS)
  /-- CLC, Compare Logical Character, opcode D5 (R416). -/
  | clc (o : OpsSS)
  /-- OC, OR Character, opcode D6 (R408). -/
  | oc (o : OpsSS)
  /-- XC, Exclusive OR Character, opcode D7 (R412). -/
  | xc (o : OpsSS)
  /-- TR, Translate, opcode DC (R425). -/
  | tr (o : OpsSS)
  /-- TRT, Translate and Test, opcode DD (R426). -/
  | trt (o : OpsSS)
  /-- ED, Edit, opcode DE (R722). -/
  | ed (o : OpsSS)
  /-- EDMK, Edit and Mark, opcode DF (R723). -/
  | edmk (o : OpsSS)
  /-- SRP, Shift and Round Decimal, opcode F0 (R716). -/
  | srp (o : OpsSS2)
  /-- MVO, Move with Offset, opcode F1 (R717). -/
  | mvo (o : OpsSS2)
  /-- PACK, Pack, opcode F2 (R718). -/
  | pack (o : OpsSS2)
  /-- UNPK, Unpack, opcode F3 (R719). -/
  | unpk (o : OpsSS2)
  /-- ZAP, Zero and Add, opcode F8 (R712). -/
  | zap (o : OpsSS2)
  /-- CP, Compare Decimal, opcode F9 (R713). -/
  | cp (o : OpsSS2)
  /-- AP, Add Decimal, opcode FA (R710). -/
  | ap (o : OpsSS2)
  /-- SP, Subtract Decimal, opcode FB (R711). -/
  | sp (o : OpsSS2)
  /-- MP, Multiply Decimal, opcode FC (R714). -/
  | mp (o : OpsSS2)
  /-- DP, Divide Decimal, opcode FD (R715). -/
  | dp (o : OpsSS2)
  deriving DecidableEq, Repr

end Sys2Proof
end

