-- ==== Sys2Proof/WellFormed.lean ====
section
/-! DEFINITION. What an instruction must satisfy to be one that the decoder reads: only the B2xx
catch-all row has a condition, since "the longest matching mask wins" (`spec/INDEX.md`, R140). Every
other combination of operand fields is an instruction; an operand the architecture forbids (an odd
register of a pair, a floating-point register 1) is an exception its meaning raises. -/

namespace Sys2Proof

/-- The second opcode bytes of the named B2 rows (R685 to R699). -/
def namedB2 : List Byte :=
  [0x02, 0x03, 0x04, 0x05, 0x06, 0x07, 0x08, 0x09, 0x0A, 0x0B, 0x0D, 0x10, 0x11, 0x12, 0x13]

/-- Well-formed: a B2xx catch-all instruction does not hold a named row's second byte (R680). -/
def Instr.wellFormed : Instr → Bool
  | .b2xx fn _ => !namedB2.contains fn
  | .spm _ => true
  | .balr _ => true
  | .bctr _ => true
  | .bcr _ => true
  | .ssk _ => true
  | .isk _ => true
  | .svc _ => true
  | .mvcl _ => true
  | .clcl _ => true
  | .lpr _ => true
  | .lnr _ => true
  | .ltr _ => true
  | .lcr _ => true
  | .nr _ => true
  | .clr _ => true
  | .or _ => true
  | .xr _ => true
  | .lr _ => true
  | .cr _ => true
  | .ar _ => true
  | .sr _ => true
  | .mr _ => true
  | .dr _ => true
  | .alr _ => true
  | .slr _ => true
  | .lpdr _ => true
  | .lndr _ => true
  | .ltdr _ => true
  | .lcdr _ => true
  | .hdr _ => true
  | .ldr _ => true
  | .cdr _ => true
  | .adr _ => true
  | .sdr _ => true
  | .mdr _ => true
  | .ddr _ => true
  | .awr _ => true
  | .swr _ => true
  | .lper _ => true
  | .lner _ => true
  | .lter _ => true
  | .lcer _ => true
  | .her _ => true
  | .ler _ => true
  | .cer _ => true
  | .aer _ => true
  | .ser _ => true
  | .mer _ => true
  | .der _ => true
  | .aur _ => true
  | .sur _ => true
  | .sth _ => true
  | .la _ => true
  | .stc _ => true
  | .ic _ => true
  | .ex _ => true
  | .bal _ => true
  | .bct _ => true
  | .bc _ => true
  | .lh _ => true
  | .ch _ => true
  | .ah _ => true
  | .sh _ => true
  | .mh _ => true
  | .cvd _ => true
  | .cvb _ => true
  | .st _ => true
  | .n _ => true
  | .cl _ => true
  | .o _ => true
  | .x _ => true
  | .l _ => true
  | .c _ => true
  | .a _ => true
  | .s _ => true
  | .m _ => true
  | .d _ => true
  | .al _ => true
  | .sl _ => true
  | .std _ => true
  | .ld _ => true
  | .cd _ => true
  | .ad _ => true
  | .sd _ => true
  | .md _ => true
  | .dd _ => true
  | .aw _ => true
  | .sw _ => true
  | .ste _ => true
  | .le _ => true
  | .ce _ => true
  | .ae _ => true
  | .se _ => true
  | .me _ => true
  | .de _ => true
  | .au _ => true
  | .su _ => true
  | .ssm _ => true
  | .lpsw _ => true
  | .diag _ => true
  | .wrd _ => true
  | .rdd _ => true
  | .bxh _ => true
  | .bxle _ => true
  | .srl _ => true
  | .sll _ => true
  | .sra _ => true
  | .sla _ => true
  | .srdl _ => true
  | .sldl _ => true
  | .srda _ => true
  | .slda _ => true
  | .stm _ => true
  | .tm _ => true
  | .mvi _ => true
  | .ts _ => true
  | .ni _ => true
  | .cli _ => true
  | .oi _ => true
  | .xi _ => true
  | .lm _ => true
  | .sio _ _ => true
  | .siof _ _ => true
  | .tio _ _ => true
  | .clrio _ _ => true
  | .hio _ _ => true
  | .hdv _ _ => true
  | .tch _ _ => true
  | .stnsm _ => true
  | .stosm _ => true
  | .sigp _ => true
  | .mc _ => true
  | .lra _ => true
  | .stidp _ => true
  | .stidc _ => true
  | .sck _ => true
  | .stck _ => true
  | .sckc _ => true
  | .stckc _ => true
  | .spt _ => true
  | .stpt _ => true
  | .spka _ => true
  | .ipk _ => true
  | .ptlb _ => true
  | .spx _ => true
  | .stpx _ => true
  | .stap _ => true
  | .rrb _ => true
  | .stctl _ => true
  | .lctl _ => true
  | .cs _ => true
  | .cds _ => true
  | .clm _ => true
  | .stcm _ => true
  | .icm _ => true
  | .mvn _ => true
  | .mvc _ => true
  | .mvz _ => true
  | .nc _ => true
  | .clc _ => true
  | .oc _ => true
  | .xc _ => true
  | .tr _ => true
  | .trt _ => true
  | .ed _ => true
  | .edmk _ => true
  | .srp _ => true
  | .mvo _ => true
  | .pack _ => true
  | .unpk _ => true
  | .zap _ => true
  | .cp _ => true
  | .ap _ => true
  | .sp _ => true
  | .mp _ => true
  | .dp _ => true

end Sys2Proof
end

