-- ==== Sys2Proof/Decode.lean ====
section
/-! DEFINITION. The decoder and the encoder (`spec/30_encoding.md` R120 to R148), over big-endian
bytes (R84). The decoder is total on any bytes and rejects by name; the encoder is written from the
same tables. -/

namespace Sys2Proof

/-! ## Fields of bytes -/

/-- Bits 0-3 of a byte (big-endian numbering, R10). -/
def hiNib (b : Byte) : Nib := b.extractLsb' 4 4

/-- Bits 4-7 of a byte. -/
def loNib (b : Byte) : Nib := b.extractLsb' 0 4

/-- The displacement of a base and displacement pair: bits 4-15 of its halfword (R122). -/
def dispOf (hi lo : Byte) : Disp := loNib hi ++ lo

/-- The first byte of a base and displacement pair. -/
def baseByte (b : Nib) (d : Disp) : Byte := b ++ d.extractLsb' 8 4

/-- The second byte of a base and displacement pair. -/
def dispByte (d : Disp) : Byte := d.extractLsb' 0 8

/-! ## The opcode table -/

/-- The length in bytes, from bits 0-1 of the opcode byte (R120). -/
def instrLength (op : Byte) : Nat :=
  if op.toNat < 0x40 then 2 else if op.toNat < 0xC0 then 4 else 6

/-- The RR rows (R121, R145). -/
def rowRR (op : Nat) (b1 : Byte) : Option Instr :=
  let o : OpsRR := { r1 := hiNib b1, r2 := loNib b1 }
  match op with
  | 0x04 => some (.spm o)
  | 0x05 => some (.balr o)
  | 0x06 => some (.bctr o)
  | 0x07 => some (.bcr o)
  | 0x08 => some (.ssk o)
  | 0x09 => some (.isk o)
  | 0x0E => some (.mvcl o)
  | 0x0F => some (.clcl o)
  | 0x10 => some (.lpr o)
  | 0x11 => some (.lnr o)
  | 0x12 => some (.ltr o)
  | 0x13 => some (.lcr o)
  | 0x14 => some (.nr o)
  | 0x15 => some (.clr o)
  | 0x16 => some (.or o)
  | 0x17 => some (.xr o)
  | 0x18 => some (.lr o)
  | 0x19 => some (.cr o)
  | 0x1A => some (.ar o)
  | 0x1B => some (.sr o)
  | 0x1C => some (.mr o)
  | 0x1D => some (.dr o)
  | 0x1E => some (.alr o)
  | 0x1F => some (.slr o)
  | 0x20 => some (.lpdr o)
  | 0x21 => some (.lndr o)
  | 0x22 => some (.ltdr o)
  | 0x23 => some (.lcdr o)
  | 0x24 => some (.hdr o)
  | 0x28 => some (.ldr o)
  | 0x29 => some (.cdr o)
  | 0x2A => some (.adr o)
  | 0x2B => some (.sdr o)
  | 0x2C => some (.mdr o)
  | 0x2D => some (.ddr o)
  | 0x2E => some (.awr o)
  | 0x2F => some (.swr o)
  | 0x30 => some (.lper o)
  | 0x31 => some (.lner o)
  | 0x32 => some (.lter o)
  | 0x33 => some (.lcer o)
  | 0x34 => some (.her o)
  | 0x38 => some (.ler o)
  | 0x39 => some (.cer o)
  | 0x3A => some (.aer o)
  | 0x3B => some (.ser o)
  | 0x3C => some (.mer o)
  | 0x3D => some (.der o)
  | 0x3E => some (.aur o)
  | 0x3F => some (.sur o)
  | 0x0A => some (.svc b1)
  | _ => none

/-- The RX rows (R122, R145). -/
def rowRX (op : Nat) (b1 b2 b3 : Byte) : Option Instr :=
  let o : OpsRX := { r1 := hiNib b1, x2 := loNib b1, b2 := hiNib b2, d2 := dispOf b2 b3 }
  match op with
  | 0x40 => some (.sth o)
  | 0x41 => some (.la o)
  | 0x42 => some (.stc o)
  | 0x43 => some (.ic o)
  | 0x44 => some (.ex o)
  | 0x45 => some (.bal o)
  | 0x46 => some (.bct o)
  | 0x47 => some (.bc o)
  | 0x48 => some (.lh o)
  | 0x49 => some (.ch o)
  | 0x4A => some (.ah o)
  | 0x4B => some (.sh o)
  | 0x4C => some (.mh o)
  | 0x4E => some (.cvd o)
  | 0x4F => some (.cvb o)
  | 0x50 => some (.st o)
  | 0x54 => some (.n o)
  | 0x55 => some (.cl o)
  | 0x56 => some (.o o)
  | 0x57 => some (.x o)
  | 0x58 => some (.l o)
  | 0x59 => some (.c o)
  | 0x5A => some (.a o)
  | 0x5B => some (.s o)
  | 0x5C => some (.m o)
  | 0x5D => some (.d o)
  | 0x5E => some (.al o)
  | 0x5F => some (.sl o)
  | 0x60 => some (.std o)
  | 0x68 => some (.ld o)
  | 0x69 => some (.cd o)
  | 0x6A => some (.ad o)
  | 0x6B => some (.sd o)
  | 0x6C => some (.md o)
  | 0x6D => some (.dd o)
  | 0x6E => some (.aw o)
  | 0x6F => some (.sw o)
  | 0x70 => some (.ste o)
  | 0x78 => some (.le o)
  | 0x79 => some (.ce o)
  | 0x7A => some (.ae o)
  | 0x7B => some (.se o)
  | 0x7C => some (.me o)
  | 0x7D => some (.de o)
  | 0x7E => some (.au o)
  | 0x7F => some (.su o)
  | 0xB1 => some (.lra o)
  | _ => none

/-- The RS rows (R123, R145). -/
def rowRS (op : Nat) (b1 b2 b3 : Byte) : Option Instr :=
  let o : OpsRS := { r1 := hiNib b1, r3 := loNib b1, b2 := hiNib b2, d2 := dispOf b2 b3 }
  match op with
  | 0x83 => some (.diag o)
  | 0x86 => some (.bxh o)
  | 0x87 => some (.bxle o)
  | 0x88 => some (.srl o)
  | 0x89 => some (.sll o)
  | 0x8A => some (.sra o)
  | 0x8B => some (.sla o)
  | 0x8C => some (.srdl o)
  | 0x8D => some (.sldl o)
  | 0x8E => some (.srda o)
  | 0x8F => some (.slda o)
  | 0x90 => some (.stm o)
  | 0x98 => some (.lm o)
  | 0xAE => some (.sigp o)
  | 0xB6 => some (.stctl o)
  | 0xB7 => some (.lctl o)
  | 0xBA => some (.cs o)
  | 0xBB => some (.cds o)
  | 0xBD => some (.clm o)
  | 0xBE => some (.stcm o)
  | 0xBF => some (.icm o)
  | _ => none

/-- The SI rows (R124, R145). -/
def rowSI (op : Nat) (b1 b2 b3 : Byte) : Option Instr :=
  let o : OpsSI := { i2 := b1, b1 := hiNib b2, d1 := dispOf b2 b3 }
  match op with
  | 0x80 => some (.ssm o)
  | 0x82 => some (.lpsw o)
  | 0x84 => some (.wrd o)
  | 0x85 => some (.rdd o)
  | 0x91 => some (.tm o)
  | 0x92 => some (.mvi o)
  | 0x93 => some (.ts o)
  | 0x94 => some (.ni o)
  | 0x95 => some (.cli o)
  | 0x96 => some (.oi o)
  | 0x97 => some (.xi o)
  | 0xAC => some (.stnsm o)
  | 0xAD => some (.stosm o)
  | 0xAF => some (.mc o)
  | _ => none

/-- The S rows (R125, R140, R145): bit 15 chooses in 9C to 9E; in B2 the second byte chooses a named
row, and any other second byte takes the catch-all. -/
def rowS (op : Nat) (b1 b2 b3 : Byte) : Option Instr :=
  let o : OpsS := { b2 := hiNib b2, d2 := dispOf b2 b3 }
  let fn : BitVec 7 := b1.extractLsb' 1 7
  match op with
  | 0x9C => if b1.getLsbD 0 then some (.siof fn o) else some (.sio fn o)
  | 0x9D => if b1.getLsbD 0 then some (.clrio fn o) else some (.tio fn o)
  | 0x9E => if b1.getLsbD 0 then some (.hdv fn o) else some (.hio fn o)
  | 0x9F => some (.tch b1 o)
  | 0xB2 =>
    match b1.toNat with
    | 0x02 => some (.stidp o)
    | 0x03 => some (.stidc o)
    | 0x04 => some (.sck o)
    | 0x05 => some (.stck o)
    | 0x06 => some (.sckc o)
    | 0x07 => some (.stckc o)
    | 0x08 => some (.spt o)
    | 0x09 => some (.stpt o)
    | 0x0A => some (.spka o)
    | 0x0B => some (.ipk o)
    | 0x0D => some (.ptlb o)
    | 0x10 => some (.spx o)
    | 0x11 => some (.stpx o)
    | 0x12 => some (.stap o)
    | 0x13 => some (.rrb o)
    | _ => some (.b2xx b1 o)
  | _ => none

/-- The SS rows, with one length and with two (R126, R145). -/
def rowSS (op : Nat) (b1 b2 b3 b4 b5 : Byte) : Option Instr :=
  let o : OpsSS :=
    { l := b1, b1 := hiNib b2, d1 := dispOf b2 b3, b2 := hiNib b4, d2 := dispOf b4 b5 }
  match op with
  | 0xD1 => some (.mvn o)
  | 0xD2 => some (.mvc o)
  | 0xD3 => some (.mvz o)
  | 0xD4 => some (.nc o)
  | 0xD5 => some (.clc o)
  | 0xD6 => some (.oc o)
  | 0xD7 => some (.xc o)
  | 0xDC => some (.tr o)
  | 0xDD => some (.trt o)
  | 0xDE => some (.ed o)
  | 0xDF => some (.edmk o)
  | _ =>
  let o : OpsSS2 :=
    { l1 := hiNib b1, l2 := loNib b1, b1 := hiNib b2, d1 := dispOf b2 b3, b2 := hiNib b4,
      d2 := dispOf b4 b5 }
  match op with
  | 0xF0 => some (.srp o)
  | 0xF1 => some (.mvo o)
  | 0xF2 => some (.pack o)
  | 0xF3 => some (.unpk o)
  | 0xF8 => some (.zap o)
  | 0xF9 => some (.cp o)
  | 0xFA => some (.ap o)
  | 0xFB => some (.sp o)
  | 0xFC => some (.mp o)
  | 0xFD => some (.dp o)
  | _ => none

/-- The row of `spec/opcode_table.json` that six bytes match, with its fields cut out (R140). Bytes
past the row's length are not looked at. -/
def assemble (b0 b1 b2 b3 b4 b5 : Byte) : Option Instr :=
  if instrLength b0 = 2 then rowRR b0.toNat b1
  else if instrLength b0 = 6 then rowSS b0.toNat b1 b2 b3 b4 b5
  else rowRX b0.toNat b1 b2 b3 <|> rowRS b0.toNat b1 b2 b3 <|> rowSI b0.toNat b1 b2 b3 <|>
    rowS b0.toNat b1 b2 b3

/-- Whether an opcode byte has a row: the first byte alone decides (R140, R146). -/
def opcodeDefined (op : Byte) : Bool := (assemble op 0 0 0 0 0).isSome

/-! ## Decoding -/

/-- Why bytes are no instruction. -/
inductive DecodeError where
  /-- No bytes at all. -/
  | noBytes
  /-- The opcode byte has no row (R146). -/
  | undefinedOpcode (op : Byte)
  /-- The row is longer than the bytes given. -/
  | truncated (op : Byte)
  deriving DecidableEq, Repr

/-- Decode the instruction at the head of `bs`, and answer the bytes after it (R140). -/
def decode (bs : List Byte) : Except DecodeError (Instr × List Byte) :=
  match bs with
  | [] => .error .noBytes
  | b0 :: rest =>
    match assemble b0 (rest.getD 0 0) (rest.getD 1 0) (rest.getD 2 0) (rest.getD 3 0)
        (rest.getD 4 0) with
    | none => .error (.undefinedOpcode b0)
    | some i =>
      if bs.length < instrLength b0 then .error (.truncated b0)
      else .ok (i, bs.drop (instrLength b0))

/-! ## Encoding -/

/-- The bytes of an RR instruction (R121). -/
def encRR (op : Byte) (o : OpsRR) : List Byte := [op, o.r1 ++ o.r2]

/-- The bytes of an RX instruction (R122). -/
def encRX (op : Byte) (o : OpsRX) : List Byte := [op, o.r1 ++ o.x2, baseByte o.b2 o.d2, dispByte o.d2]

/-- The bytes of an RS instruction (R123). -/
def encRS (op : Byte) (o : OpsRS) : List Byte := [op, o.r1 ++ o.r3, baseByte o.b2 o.d2, dispByte o.d2]

/-- The bytes of an SI instruction (R124). -/
def encSI (op : Byte) (o : OpsSI) : List Byte := [op, o.i2, baseByte o.b1 o.d1, dispByte o.d1]

/-- The bytes of an S instruction (R125). -/
def encS (op b1 : Byte) (o : OpsS) : List Byte := [op, b1, baseByte o.b2 o.d2, dispByte o.d2]

/-- The bytes of an SS instruction with one length (R126). -/
def encSS (op : Byte) (o : OpsSS) : List Byte :=
  [op, o.l, baseByte o.b1 o.d1, dispByte o.d1, baseByte o.b2 o.d2, dispByte o.d2]

/-- The bytes of an SS instruction with two lengths (R126). -/
def encSS2 (op : Byte) (o : OpsSS2) : List Byte :=
  [op, o.l1 ++ o.l2, baseByte o.b1 o.d1, dispByte o.d1, baseByte o.b2 o.d2, dispByte o.d2]

/-- The bytes of an instruction, the first at the lowest address (R84, R145). -/
def encode : Instr → List Byte
  | .spm o => encRR 0x04 o
  | .balr o => encRR 0x05 o
  | .bctr o => encRR 0x06 o
  | .bcr o => encRR 0x07 o
  | .ssk o => encRR 0x08 o
  | .isk o => encRR 0x09 o
  | .svc i => [0x0A, i]
  | .mvcl o => encRR 0x0E o
  | .clcl o => encRR 0x0F o
  | .lpr o => encRR 0x10 o
  | .lnr o => encRR 0x11 o
  | .ltr o => encRR 0x12 o
  | .lcr o => encRR 0x13 o
  | .nr o => encRR 0x14 o
  | .clr o => encRR 0x15 o
  | .or o => encRR 0x16 o
  | .xr o => encRR 0x17 o
  | .lr o => encRR 0x18 o
  | .cr o => encRR 0x19 o
  | .ar o => encRR 0x1A o
  | .sr o => encRR 0x1B o
  | .mr o => encRR 0x1C o
  | .dr o => encRR 0x1D o
  | .alr o => encRR 0x1E o
  | .slr o => encRR 0x1F o
  | .lpdr o => encRR 0x20 o
  | .lndr o => encRR 0x21 o
  | .ltdr o => encRR 0x22 o
  | .lcdr o => encRR 0x23 o
  | .hdr o => encRR 0x24 o
  | .ldr o => encRR 0x28 o
  | .cdr o => encRR 0x29 o
  | .adr o => encRR 0x2A o
  | .sdr o => encRR 0x2B o
  | .mdr o => encRR 0x2C o
  | .ddr o => encRR 0x2D o
  | .awr o => encRR 0x2E o
  | .swr o => encRR 0x2F o
  | .lper o => encRR 0x30 o
  | .lner o => encRR 0x31 o
  | .lter o => encRR 0x32 o
  | .lcer o => encRR 0x33 o
  | .her o => encRR 0x34 o
  | .ler o => encRR 0x38 o
  | .cer o => encRR 0x39 o
  | .aer o => encRR 0x3A o
  | .ser o => encRR 0x3B o
  | .mer o => encRR 0x3C o
  | .der o => encRR 0x3D o
  | .aur o => encRR 0x3E o
  | .sur o => encRR 0x3F o
  | .sth o => encRX 0x40 o
  | .la o => encRX 0x41 o
  | .stc o => encRX 0x42 o
  | .ic o => encRX 0x43 o
  | .ex o => encRX 0x44 o
  | .bal o => encRX 0x45 o
  | .bct o => encRX 0x46 o
  | .bc o => encRX 0x47 o
  | .lh o => encRX 0x48 o
  | .ch o => encRX 0x49 o
  | .ah o => encRX 0x4A o
  | .sh o => encRX 0x4B o
  | .mh o => encRX 0x4C o
  | .cvd o => encRX 0x4E o
  | .cvb o => encRX 0x4F o
  | .st o => encRX 0x50 o
  | .n o => encRX 0x54 o
  | .cl o => encRX 0x55 o
  | .o o => encRX 0x56 o
  | .x o => encRX 0x57 o
  | .l o => encRX 0x58 o
  | .c o => encRX 0x59 o
  | .a o => encRX 0x5A o
  | .s o => encRX 0x5B o
  | .m o => encRX 0x5C o
  | .d o => encRX 0x5D o
  | .al o => encRX 0x5E o
  | .sl o => encRX 0x5F o
  | .std o => encRX 0x60 o
  | .ld o => encRX 0x68 o
  | .cd o => encRX 0x69 o
  | .ad o => encRX 0x6A o
  | .sd o => encRX 0x6B o
  | .md o => encRX 0x6C o
  | .dd o => encRX 0x6D o
  | .aw o => encRX 0x6E o
  | .sw o => encRX 0x6F o
  | .ste o => encRX 0x70 o
  | .le o => encRX 0x78 o
  | .ce o => encRX 0x79 o
  | .ae o => encRX 0x7A o
  | .se o => encRX 0x7B o
  | .me o => encRX 0x7C o
  | .de o => encRX 0x7D o
  | .au o => encRX 0x7E o
  | .su o => encRX 0x7F o
  | .ssm o => encSI 0x80 o
  | .lpsw o => encSI 0x82 o
  | .diag o => encRS 0x83 o
  | .wrd o => encSI 0x84 o
  | .rdd o => encSI 0x85 o
  | .bxh o => encRS 0x86 o
  | .bxle o => encRS 0x87 o
  | .srl o => encRS 0x88 o
  | .sll o => encRS 0x89 o
  | .sra o => encRS 0x8A o
  | .sla o => encRS 0x8B o
  | .srdl o => encRS 0x8C o
  | .sldl o => encRS 0x8D o
  | .srda o => encRS 0x8E o
  | .slda o => encRS 0x8F o
  | .stm o => encRS 0x90 o
  | .tm o => encSI 0x91 o
  | .mvi o => encSI 0x92 o
  | .ts o => encSI 0x93 o
  | .ni o => encSI 0x94 o
  | .cli o => encSI 0x95 o
  | .oi o => encSI 0x96 o
  | .xi o => encSI 0x97 o
  | .lm o => encRS 0x98 o
  | .sio fn o => encS 0x9C (fn ++ 0#1) o
  | .siof fn o => encS 0x9C (fn ++ 1#1) o
  | .tio fn o => encS 0x9D (fn ++ 0#1) o
  | .clrio fn o => encS 0x9D (fn ++ 1#1) o
  | .hio fn o => encS 0x9E (fn ++ 0#1) o
  | .hdv fn o => encS 0x9E (fn ++ 1#1) o
  | .tch fn o => encS 0x9F fn o
  | .stnsm o => encSI 0xAC o
  | .stosm o => encSI 0xAD o
  | .sigp o => encRS 0xAE o
  | .mc o => encSI 0xAF o
  | .lra o => encRX 0xB1 o
  | .stidp o => encS 0xB2 0x02 o
  | .stidc o => encS 0xB2 0x03 o
  | .sck o => encS 0xB2 0x04 o
  | .stck o => encS 0xB2 0x05 o
  | .sckc o => encS 0xB2 0x06 o
  | .stckc o => encS 0xB2 0x07 o
  | .spt o => encS 0xB2 0x08 o
  | .stpt o => encS 0xB2 0x09 o
  | .spka o => encS 0xB2 0x0A o
  | .ipk o => encS 0xB2 0x0B o
  | .ptlb o => encS 0xB2 0x0D o
  | .spx o => encS 0xB2 0x10 o
  | .stpx o => encS 0xB2 0x11 o
  | .stap o => encS 0xB2 0x12 o
  | .rrb o => encS 0xB2 0x13 o
  | .b2xx fn o => encS 0xB2 fn o
  | .stctl o => encRS 0xB6 o
  | .lctl o => encRS 0xB7 o
  | .cs o => encRS 0xBA o
  | .cds o => encRS 0xBB o
  | .clm o => encRS 0xBD o
  | .stcm o => encRS 0xBE o
  | .icm o => encRS 0xBF o
  | .mvn o => encSS 0xD1 o
  | .mvc o => encSS 0xD2 o
  | .mvz o => encSS 0xD3 o
  | .nc o => encSS 0xD4 o
  | .clc o => encSS 0xD5 o
  | .oc o => encSS 0xD6 o
  | .xc o => encSS 0xD7 o
  | .tr o => encSS 0xDC o
  | .trt o => encSS 0xDD o
  | .ed o => encSS 0xDE o
  | .edmk o => encSS 0xDF o
  | .srp o => encSS2 0xF0 o
  | .mvo o => encSS2 0xF1 o
  | .pack o => encSS2 0xF2 o
  | .unpk o => encSS2 0xF3 o
  | .zap o => encSS2 0xF8 o
  | .cp o => encSS2 0xF9 o
  | .ap o => encSS2 0xFA o
  | .sp o => encSS2 0xFB o
  | .mp o => encSS2 0xFC o
  | .dp o => encSS2 0xFD o

/-- The instruction's length in bytes (R120). -/
def Instr.length (i : Instr) : Nat := (encode i).length

/-! ## Words as the opcode table numbers their bits -/

/-- The bytes of an instruction whose bits are the low `nbits` bits of `w`, numbered as
`spec/opcode_table.json` numbers them: bits 15 to 0 are the first halfword, bits 31 to 16 the second,
bits 47 to 32 the third; a halfword's more significant byte lies at the lower address (R84). Bits at
and above `nbits` are 0. Always six bytes, the longest instruction. -/
def tableWordBytes (nbits w : Nat) : List Byte :=
  let v := w % 2 ^ nbits
  [BitVec.ofNat 8 (v >>> 8), BitVec.ofNat 8 v, BitVec.ofNat 8 (v >>> 24), BitVec.ofNat 8 (v >>> 16),
    BitVec.ofNat 8 (v >>> 40), BitVec.ofNat 8 (v >>> 32)]

/-- The instruction the decoder reads from such a word. -/
def decodeTableWord (nbits w : Nat) : Option Instr :=
  match decode (tableWordBytes nbits w) with
  | .ok (i, _) => some i
  | .error _ => none

end Sys2Proof
end

