-- ==== Sys2Proof/Config.lean ====
section
/-! DEFINITION. The two parameters that `spec/00_scope.md` R9 says a model takes as arguments.
They stand in `State` (a step takes nothing else), and no step writes them: log 1. -/

namespace Sys2Proof

/-- What an opcode without a row does (R146, C1, D1). -/
inductive UndefOpcodeAction where
  /-- The call returns `InvalidOpcode` and changes no state (the default). -/
  | returnInvalid
  /-- Program interruption 0x0001, suppressed. -/
  | operationException
  deriving DecidableEq, Repr

/-- The parameters of R9. -/
structure Config where
  /-- `MEM_SIZE`: the number of installed bytes; an engine access to a byte address at or above it
  is an addressing exception (R81). -/
  memSize : Nat
  /-- `UNDEF_OPCODE_ACTION` (R146). -/
  undefOpcodeAction : UndefOpcodeAction
  deriving DecidableEq, Repr

/-- The defaults R9 fixes: every address installed, `ReturnInvalid`. -/
def Config.default : Config :=
  { memSize := 2 ^ 24, undefOpcodeAction := .returnInvalid }

/-- The range R9 gives `MEM_SIZE`: 128 to 2^24, so that the PSW slots 32 to 111 exist. -/
def Config.wf (c : Config) : Bool :=
  decide (128 ≤ c.memSize) && decide (c.memSize ≤ 2 ^ 24)

end Sys2Proof
end

