-- ==== Sys2Proof/Machine/State.lean ====
section
/-! DEFINITION. The machine's state as plain data (`spec/10_state.md`), the reasons a step could stop,
and the state after reset (`spec/70_reset_and_hazards.md` R1000). -/

namespace Sys2Proof.Machine

/-- The live BC-mode PSW (R40). -/
structure Psw where
  /-- `SYSMASK`: six channel masks, the "other" channels, external (R41). -/
  sysMask : BitVec 8
  /-- `KEY`: the PSW key, held and never compared (R48). -/
  key : BitVec 4
  /-- `E`: EC mode. -/
  e : Bool
  /-- `M`: machine-check enabled; stored only (R47). -/
  m : Bool
  /-- `W`: wait state (R960). -/
  w : Bool
  /-- `P`: problem state (R47, R950). -/
  p : Bool
  /-- `INTCODE`: the interruption code (R46). -/
  intCode : BitVec 16
  /-- `ILC`: the instruction-length code (R44). -/
  ilc : BitVec 2
  /-- `CC`: the condition code (R45). -/
  cc : BitVec 2
  /-- `PM`: the program mask FO, DO, EU, SG, the first the most significant bit (R42). -/
  pm : BitVec 4
  /-- `IA`: the address of the next instruction to fetch (R43). -/
  ia : BitVec 24
  deriving DecidableEq, Repr

/-- Why LPSW rejects the PSW it loaded (R653). -/
inductive PswReason where
  | ecMode
  | disabledWait
  deriving DecidableEq, Repr

/-- What a call of `execute_instruction` returns to the host (R66). -/
inductive CallResult where
  /-- Completed, or an interruption was delivered, or the engine idled in the wait state. -/
  | ok
  /-- The opcode has no row in the opcode table. -/
  | invalidOpcode
  /-- A privileged or intercepted instruction, handed to the host unexecuted, with R651's value. -/
  | privileged (v : BitVec 32)
  /-- LPSW loaded a PSW the engine rejects. -/
  | pswInvalid (reason : PswReason)
  deriving DecidableEq, Repr

/-- Everything the spec gives the machine, and three fields more: the two parameters of R9 (`cfg`,
log 1) and the value the last call returned (`result`, log 2). -/
structure State where
  /-- `GR[0]` to `GR[15]` (R30). -/
  gr : Vector (BitVec 32) 16
  /-- `FR[0]`, `FR[2]`, `FR[4]`, `FR[6]`, in this order (R34). -/
  fr : Vector (BitVec 64) 4
  /-- The live PSW (R40). -/
  psw : Psw
  /-- Main storage (R56, R80): the bytes that are not 0, at strictly rising addresses. -/
  mem : List Host.Cell
  /-- The storage keys (R55): the pages whose key is not 0, at strictly rising page numbers. -/
  keys : List (Nat × BitVec 4)
  /-- `MEM_SIZE` and `UNDEF_OPCODE_ACTION` (R9). No step writes them. -/
  cfg : Config
  /-- The MODEL's own field: what the last call returned (R66). No step reads it. -/
  result : CallResult
  deriving DecidableEq, Repr

/-- Why a step could stop with a fault: never. The spec gives every call a next state: an access
outside the installed storage is the addressing exception of R905, and every other exception is
delivered too ("there is no silent failure path", R900). So no constructor is needed; that is safe. -/
inductive Fault where
  deriving DecidableEq, Repr

/-- Why a step could be refused. -/
inductive Refusal where
  /-- Raised by an arm of `exec` whose instruction has no meaning yet: none is left, so no step answers
  it. Safe: it only stops. -/
  | notModelled (mnemonic : String)
  deriving DecidableEq, Repr

/-- The PSW after reset: every field 0 (R1001). -/
def Psw.reset : Psw :=
  { sysMask := 0, key := 0, e := false, m := false, w := false, p := false, intCode := 0, ilc := 0,
    cc := 0, pm := 0, ia := 0 }

/-- The machine right after `reset()` (R1000): registers, PSW, storage and keys 0; the parameters at
R9's defaults; and, a DESIGN CHOICE (log 2), the last result `Ok`. -/
def State.reset : State :=
  { gr := Vector.replicate 16 0, fr := Vector.replicate 4 0, psw := Psw.reset, mem := [], keys := [],
    cfg := Config.default, result := .ok }

end Sys2Proof.Machine
end

