-- ==== Sys2Proof/Machine/Memory.lean ====
section
/-! DEFINITION. Main storage and the storage keys as sparse lists in one canonical form, and the bytes
of a value in storage order (`spec/20_memory.md` R80 to R84, `spec/10_state.md` R55, R56). -/

namespace Sys2Proof.Machine

/-! ## Sparse arrays: entries at strictly rising indexes, none of them 0 -/

/-- The entry at an index. An unlisted one reads as 0, the reset contents (R56, R1000). -/
def Sparse.read {n : Nat} : List (Nat × BitVec n) → Nat → BitVec n
  | [], _ => 0
  | (k, v) :: rest, a => if k = a then v else Sparse.read rest a

/-- Write an entry. Writing 0 removes it, so that equal contents are equal lists. -/
def Sparse.write {n : Nat} : List (Nat × BitVec n) → Nat → BitVec n → List (Nat × BitVec n)
  | [], a, v => if v = 0 then [] else [(a, v)]
  | (k, w) :: rest, a, v =>
    if a < k then (if v = 0 then (k, w) :: rest else (a, v) :: (k, w) :: rest)
    else if a = k then (if v = 0 then rest else (a, v) :: rest)
    else (k, w) :: Sparse.write rest a v

/-- The canonical form, from index `lo` on: indexes strictly rising and below `bound`, no entry 0. -/
def Sparse.wfFrom {n : Nat} (bound lo : Nat) : List (Nat × BitVec n) → Bool
  | [] => true
  | (k, v) :: rest =>
    decide (lo ≤ k) && decide (k < bound) && decide (v ≠ 0) && Sparse.wfFrom bound (k + 1) rest

/-- The canonical form of main storage: addresses below 2^24 (R80). -/
def Memory.wf (m : List Host.Cell) : Bool := Sparse.wfFrom (2 ^ 24) 0 m

/-- The canonical form of the key store: pages 0 to 8191 (R55). -/
def Keys.wf (k : List (Nat × BitVec 4)) : Bool := Sparse.wfFrom 8192 0 k

/-! ## Bytes of a value, big-endian (R84) -/

/-- The `n` low-order bytes of a value, the most significant first. -/
def beBytes {w : Nat} : Nat → BitVec w → List Byte
  | 0, _ => []
  | n + 1, v => v.extractLsb' (8 * n) 8 :: beBytes n v

/-- The value whose bytes these are, the first the most significant. -/
def beValue (w : Nat) (bs : List Byte) : BitVec w :=
  bs.foldl (fun acc b => (acc <<< 8) ||| b.setWidth w) 0

/-! ## Bytes of storage -/

/-- The byte at an address, `M[a]`. -/
def State.byteAt (s : State) (a : Addr) : Byte := Sparse.read s.mem a.toNat

/-- Store one byte, unchecked. -/
def State.setByte (s : State) (a : Addr) (v : Byte) : State :=
  { s with mem := Sparse.write s.mem a.toNat v }

/-- The `n` bytes at `a, a+1, ...`, each address modulo 2^24 (R82). -/
def State.bytesAt (s : State) (a : Addr) : Nat → List Byte
  | 0 => []
  | n + 1 => s.byteAt a :: State.bytesAt s (a + 1) n

/-- Store bytes at `a, a+1, ...`, the first first, each address modulo 2^24, unchecked. -/
def State.setBytes (s : State) (a : Addr) : List Byte → State
  | [] => s
  | b :: bs => State.setBytes (s.setByte a b) (a + 1) bs

/-- The big-endian value of `w` bits at `a`, unchecked: R82's and R60's reading. -/
def State.peek (s : State) (w : Nat) (a : Addr) : BitVec w := beValue w (s.bytesAt a (w / 8))

/-- Store a value of `w` bits big-endian at `a`, unchecked: R82's and R60's writing. -/
def State.poke {w : Nat} (s : State) (a : Addr) (v : BitVec w) : State :=
  s.setBytes a (beBytes (w / 8) v)

/-- Whether the `n` bytes at `a, a+1, ...` modulo 2^24 are all below `MEM_SIZE` (R81, R82). -/
def State.installed (s : State) (a : Addr) : Nat → Bool
  | 0 => true
  | n + 1 => decide (a.toNat < s.cfg.memSize) && State.installed s (a + 1) n

/-- The page of an address, `(a mod 2^24) >> 11` (R55). -/
def pageOf (a : Addr) : Nat := a.toNat >>> 11

/-- `KEY[p]`, read (R55). -/
def State.keyOf (s : State) (page : Nat) : BitVec 4 := Sparse.read s.keys page

/-- `KEY[p] <- v` (R55, R657). -/
def State.setKey (s : State) (page : Nat) (v : BitVec 4) : State :=
  { s with keys := Sparse.write s.keys page v }

end Sys2Proof.Machine
end

