-- ==== Sys2Proof/Machine/Ops.lean ====
section
/-! DEFINITION. The named operations over registers, PSW and storage; raising an exception; taking an
interruption and loading a PSW; and how a call ends (`spec/10_state.md`, `spec/20_memory.md`,
`spec/30_encoding.md` R150, `spec/60_exceptions.md` R900 to R934). -/

namespace Sys2Proof.Machine

/-! ## General registers -/

/-- `GR[r]` (R12, R30). -/
def State.getGr (s : State) (r : Nib) : Word := s.gr[r.toNat]'r.isLt

/-- `GR[r] <- v` (R12, R30). -/
def State.setGr (s : State) (r : Nib) (v : Word) : State :=
  { s with gr := s.gr.set r.toNat v r.isLt }

/-- The pair `GR[r]:GR[r+1]`, `GR[r]` the more significant half (R33). -/
def State.getPair (s : State) (r : Nib) : DWord := s.getGr r ++ s.getGr (r + 1)

/-- Write the pair `GR[r]:GR[r+1]` (R33). -/
def State.setPair (s : State) (r : Nib) (v : DWord) : State :=
  (s.setGr r (v.extractLsb' 32 32)).setGr (r + 1) (v.extractLsb' 0 32)

/-! ## Floating-point registers, by place: 0, 1, 2, 3 for the registers 0, 2, 4, 6 -/

/-- The place of a floating-point register number; none for a number not in 0, 2, 4, 6 (R34, R35). -/
def frPlace (r : Nib) : Option (Fin 4) :=
  match r.toNat with
  | 0 => some 0
  | 2 => some 1
  | 4 => some 2
  | 6 => some 3
  | _ => none

/-- `FR[r]` (R12, R34). -/
def State.getFr (s : State) (r : Fin 4) : DWord := s.fr[r]

/-- `FR[r] <- v` (R302). -/
def State.setFr (s : State) (r : Fin 4) (v : DWord) : State := { s with fr := s.fr.set r v }

/-- `FRH[r]`, bits 0-31 of `FR[r]` (R12, R34). -/
def State.getFrh (s : State) (r : Fin 4) : Word := (s.getFr r).extractLsb' 32 32

/-- `FRH[r] <- v`: bits 32-63 of `FR[r]` stay (R34, R302). -/
def State.setFrh (s : State) (r : Fin 4) (v : Word) : State :=
  s.setFr r (v ++ (s.getFr r).extractLsb' 0 32)

/-! ## Fields of the PSW -/

/-- `CC <- v` (R45). -/
def State.setCc (s : State) (v : BitVec 2) : State := { s with psw := { s.psw with cc := v } }

/-- `PM <- v` (R661). -/
def State.setPm (s : State) (v : BitVec 4) : State := { s with psw := { s.psw with pm := v } }

/-- `SYSMASK <- v` (R654, R655, R658). -/
def State.setSysMask (s : State) (v : BitVec 8) : State :=
  { s with psw := { s.psw with sysMask := v } }

/-- Fixed-point-overflow mask, PSW bit 36 (R42). -/
def Psw.pmFo (p : Psw) : Bool := p.pm.getLsbD 3

/-- Decimal-overflow mask, PSW bit 37 (R42). -/
def Psw.pmDo (p : Psw) : Bool := p.pm.getLsbD 2

/-- Exponent-underflow mask, PSW bit 38 (R42). -/
def Psw.pmEu (p : Psw) : Bool := p.pm.getLsbD 1

/-- Significance mask, PSW bit 39 (R42). -/
def Psw.pmSg (p : Psw) : Bool := p.pm.getLsbD 0

/-- The byte `ILC<<6 | CC<<4 | PM`: packed byte 4 of the PSW and the high byte of link information
(R50, R52). -/
def linkByte (ilc cc : BitVec 2) (pm : BitVec 4) : Byte := ilc ++ cc ++ pm

/-- The packed 8-byte PSW (R50). -/
def Psw.pack (p : Psw) : DWord :=
  p.sysMask ++ p.key ++ BitVec.ofBool p.e ++ BitVec.ofBool p.m ++ BitVec.ofBool p.w ++
    BitVec.ofBool p.p ++ p.intCode ++ linkByte p.ilc p.cc p.pm ++ p.ia

/-- The PSW of eight packed bytes; nothing is validated (R51). -/
def Psw.unpack (w : DWord) : Psw :=
  { sysMask := w.extractLsb' 56 8, key := w.extractLsb' 52 4, e := w.getLsbD 51, m := w.getLsbD 50,
    w := w.getLsbD 49, p := w.getLsbD 48, intCode := w.extractLsb' 32 16, ilc := w.extractLsb' 30 2,
    cc := w.extractLsb' 28 2, pm := w.extractLsb' 24 4, ia := w.extractLsb' 0 24 }

/-! ## How an instruction's rule ends -/

/-- The program-interruption codes that this engine raises (R901 to R915). -/
inductive ProgramCode where
  | operation
  | execute
  | addressing
  | specification
  | data
  | fixedOverflow
  | fixedDivide
  | decimalOverflow
  | decimalDivide
  | exponentOverflow
  | exponentUnderflow
  | significance
  | floatDivide
  deriving DecidableEq, Repr

/-- The interruption code stored in the old PSW (R901 to R915). -/
def interruptionCode : ProgramCode → Half
  | .operation => 0x0001
  | .execute => 0x0003
  | .addressing => 0x0005
  | .specification => 0x0006
  | .data => 0x0007
  | .fixedOverflow => 0x0008
  | .fixedDivide => 0x0009
  | .decimalOverflow => 0x000A
  | .decimalDivide => 0x000B
  | .exponentOverflow => 0x000C
  | .exponentUnderflow => 0x000D
  | .significance => 0x000E
  | .floatDivide => 0x000F

/-- What ends a rule other than its completion (R14). A state stands with those that carry what the
rule wrote before the raise. -/
inductive Raise where
  /-- `raise ProgramInterruption(code)`. -/
  | program (code : ProgramCode) (s : State)
  /-- `raise SupervisorCall(i)`. -/
  | supervisorCall (i : Byte) (s : State)
  /-- `return Privileged(v)`, no state change. -/
  | intercepted (v : Word)
  /-- An opcode without a row (R146). -/
  | undefinedOpcode
  /-- `reject PswInvalid(reason)` (R653). -/
  | pswInvalid (reason : PswReason) (s : State)

/-- How a rule completes (R150): without a branch, with a branch to `t`, or having loaded a PSW that
stands entirely (R652). -/
inductive Completion where
  | advance (s : State)
  | branch (t : Addr) (s : State)
  | pswLoaded (s : State)

/-- The outcome of a rule. -/
abbrev Effect := Except Raise Completion

/-- `next` and `ILC_cur` of the running instruction; under EX, those of the EX (R16, R620). -/
structure Ctx where
  next : Addr
  ilc : BitVec 2

/-- End the rule with a program interruption, with the state as written so far (R14). -/
def raiseProgram {α : Type} (code : ProgramCode) (s : State) : Except Raise α :=
  .error (.program code s)

/-- Raise unless a condition holds. -/
def demand (ok : Bool) (code : ProgramCode) (s : State) : Except Raise Unit :=
  if ok then .ok () else raiseProgram code s

/-! ## Checked storage accesses -/

/-- `MemRead(a, w/8)`: the big-endian value, or an addressing exception (R13, R82). -/
def State.load (s : State) (w : Nat) (a : Addr) : Except Raise (BitVec w) := do
  demand (s.installed a (w / 8)) .addressing s
  return s.peek w a

/-- `MemWrite(a, w/8, v)`: every byte address is checked before any byte is written (R13, R82). -/
def State.store {w : Nat} (s : State) (a : Addr) (v : BitVec w) : Except Raise State := do
  demand (s.installed a (w / 8)) .addressing s
  return s.poke a v

/-- Read `n` bytes, all of them checked first (R82, R701). -/
def State.loadBytes (s : State) (a : Addr) (n : Nat) : Except Raise (List Byte) := do
  demand (s.installed a n) .addressing s
  return s.bytesAt a n

/-- Store bytes, all of their addresses checked first (R82). -/
def State.storeBytes (s : State) (a : Addr) (bs : List Byte) : Except Raise State := do
  demand (s.installed a bs.length) .addressing s
  return s.setBytes a bs

/-- Store bytes one after the other, each checked when it is reached: earlier ones stay stored (R83). -/
def State.storeEach (s : State) (a : Addr) : List Byte → Except Raise State
  | [] => .ok s
  | b :: bs => do
    let s ← s.store a b
    s.storeEach (a + 1) bs

/-! ## Taking an interruption, and loading a PSW -/

/-- Where a program interruption stores the old PSW (R95). -/
def programOldPsw : Addr := 40

/-- Where a program interruption loads the new PSW from (R95). -/
def programNewPsw : Addr := 104

/-- Where a supervisor call stores the old PSW (R95). -/
def svcOldPsw : Addr := 32

/-- Where a supervisor call loads the new PSW from (R95). -/
def svcNewPsw : Addr := 96

/-- Taking an interruption (R930, R931, R932): the live PSW, with the interruption code, ILC and IA
put in, is stored at `old`; the PSW at `new` becomes the live one, unvalidated (D13). Neither access is
checked: the slots always exist (R9, R930). The call returns `Ok` (R934). -/
def State.interrupt (s : State) (old new : Addr) (code : Half) (ilc : BitVec 2) (ia : Addr) : State :=
  let s' := s.poke old { s.psw with intCode := code, ilc := ilc, ia := ia }.pack
  { s' with psw := Psw.unpack (s'.peek 64 new), result := .ok }

/-- Program interruption entry (R930); `ilc` 0 and the unchanged `ia` at fetch time (R932). -/
def State.programInterrupt (s : State) (code : ProgramCode) (ilc : BitVec 2) (ia : Addr) : State :=
  s.interrupt programOldPsw programNewPsw (interruptionCode code) ilc ia

/-- Supervisor-call entry (R931): the code is 0x00 followed by the SVC's byte (R917). -/
def State.svcInterrupt (s : State) (i : Byte) (ilc : BitVec 2) (ia : Addr) : State :=
  s.interrupt svcOldPsw svcNewPsw (i.setWidth 16) ilc ia

/-- LPSW's validation of the PSW it has made live (R653): EC mode first, then a disabled wait. -/
def Psw.rejection (p : Psw) : Option PswReason :=
  if p.e then some .ecMode
  else if p.w && decide (p.sysMask = 0) then some .disabledWait
  else none

/-- Loading a PSW, the return from an interruption handler (R652, R653, R940): it becomes live whole,
and only then is it validated; a rejected one stays live. -/
def State.loadPsw (s : State) (w : DWord) : Effect :=
  let s' := { s with psw := Psw.unpack w }
  match s'.psw.rejection with
  | some reason => .error (.pswInvalid reason s')
  | none => .ok (.pswLoaded s')

/-! ## Ending a call -/

/-- An opcode without a row, with `next` and ILC as R146 and R620 give them. -/
def State.undefinedOpcode (s : State) (c : Ctx) : State :=
  match s.cfg.undefOpcodeAction with
  | .returnInvalid => { s with result := .invalidOpcode }
  | .operationException => s.programInterrupt .operation c.ilc c.next

/-- The end of a call (R150): from the state the call began in and the outcome of the rule, the state
the call leaves. A completion writes IA and ILC after everything else (R151). -/
def conclude (c : Ctx) (s : State) : Effect → State
  | .ok (.advance t) => { t with psw := { t.psw with ia := c.next, ilc := c.ilc }, result := .ok }
  | .ok (.branch a t) => { t with psw := { t.psw with ia := a, ilc := c.ilc }, result := .ok }
  | .ok (.pswLoaded t) => { t with result := .ok }
  | .error (.program code t) => t.programInterrupt code c.ilc c.next
  | .error (.supervisorCall i t) => t.svcInterrupt i c.ilc c.next
  | .error (.intercepted v) => { s with result := .privileged v }
  | .error .undefinedOpcode => s.undefinedOpcode c
  | .error (.pswInvalid reason t) => { t with result := .pswInvalid reason }

/-- `next` and `ILC_cur` of an instruction of `len` bytes at the live IA (R16, R150). -/
def State.ctx (s : State) (len : Nat) : Ctx :=
  { next := s.psw.ia + BitVec.ofNat 24 len, ilc := BitVec.ofNat 2 (len / 2) }

/-- One call that executes the rule `sem` of an instruction of `len` bytes at the live IA (R150). -/
def call (len : Nat) (sem : Ctx → State → Effect) (s : State) : Host.Outcome State Fault Refusal :=
  .next (conclude (s.ctx len) s (sem (s.ctx len) s))

/-! ## Privilege and interception -/

/-- The value `Privileged` carries, from the instruction's first four bytes (R651). -/
def privValue (bytes : List Byte) : Word :=
  let b (k : Nat) : Byte := bytes.getD k 0
  if b 0 = 0x83 then b 0 ++ b 1 ++ b 2 ++ b 3
  else if [0x9C, 0x9D, 0x9E, 0x9F, 0xB2].contains (b 0) then (b 0 ++ b 1).setWidth 32
  else (b 0).setWidth 32

/-- `return Privileged(PrivValue)` (R650, R651). -/
def intercept {α : Type} (i : Instr) : Except Raise α := .error (.intercepted (privValue (encode i)))

/-- A privileged instruction is intercepted in problem state, before any other check (R650, D31). -/
def supervisorOnly (i : Instr) (s : State) : Except Raise Unit :=
  if s.psw.p then intercept i else .ok ()

end Sys2Proof.Machine
end

