-- ==== Sys2Proof/Machine/Operands.lean ====
section
/-! DEFINITION. Operand forms: effective addresses, shift counts, storage operands and the checks on
register fields (`spec/30_encoding.md` R130 to R135, `spec/10_state.md` R31 to R35). -/

namespace Sys2Proof.Machine

/-! ## Addresses -/

/-- What an index or base field adds to an address: nothing for field 0, "not 'use GPR0's content'"
(R31, R130). -/
def State.addrReg (s : State) (r : Nib) : Addr := if r = 0 then 0 else (s.getGr r).setWidth 24

/-- `EA(B, D)` (R130): RS, SI, S and SS operands. -/
def State.ea (s : State) (b : Nib) (d : Disp) : Addr := s.addrReg b + d.setWidth 24

/-- `EA(X2, B2, D2)` (R130): RX operands. -/
def State.eaRX (s : State) (o : OpsRX) : Addr := s.addrReg o.x2 + s.ea o.b2 o.d2

/-- A register branch target: bits 8-31 of the register (R600). -/
def State.regTarget (s : State) (r : Nib) : Addr := (s.getGr r).setWidth 24

/-- `EA(B2, D2) & 63`, a shift count; no storage is referenced (R134). -/
def State.shiftCount (s : State) (b : Nib) (d : Disp) : Nat := (s.ea b d).toNat % 64

/-! ## Register fields -/

/-- A register field that names a pair must be even (R33, R204). -/
def demandEven (r : Nib) (s : State) : Except Raise Unit := demand (!r.getLsbD 0) .specification s

/-- The floating-point register a field names, or a specification exception (R35). -/
def floatReg (r : Nib) (s : State) : Except Raise (Fin 4) :=
  match frPlace r with
  | some k => .ok k
  | none => raiseProgram .specification s

/-! ## Storage operands -/

/-- The word at an RX operand's address. -/
def State.wordRX (s : State) (o : OpsRX) : Except Raise Word := s.load 32 (s.eaRX o)

/-- The halfword at an RX operand's address, sign-extended to a word (R11, R217). -/
def State.halfRX (s : State) (o : OpsRX) : Except Raise Word := do
  let h ← s.load 16 (s.eaRX o)
  return h.signExtend 32

/-- The doubleword at an RX operand's address. -/
def State.dwordRX (s : State) (o : OpsRX) : Except Raise DWord := s.load 64 (s.eaRX o)

/-! ## Masks over the four bytes of a register (R133) -/

/-- Byte `j` of a word, 0 the leftmost: bits `8j` to `8j+7`. -/
def byteOfWord (v : Word) (j : Nat) : Byte := v.extractLsb' (24 - 8 * j) 8

/-- A word with byte `j` replaced. -/
def setByteOfWord (v : Word) (j : Nat) (b : Byte) : Word :=
  (v &&& ~~~((0xFF : Word) <<< (24 - 8 * j))) ||| (b.setWidth 32 <<< (24 - 8 * j))

/-- The bytes a mask selects, leftmost first: bit `j` of the mask, the most significant first, stands
for byte `j`. -/
def maskBytes (m : Nib) : List Nat := [0, 1, 2, 3].filter fun j => m.getLsbD (3 - j)

end Sys2Proof.Machine
end

