-- ==== Sys2Proof/Machine/Branch.lean ====
section
/-! DEFINITION. Branches (`spec/44_branch.md`); EX is in `Execute.lean`. -/

namespace Sys2Proof.Machine

/-- Branch to `t` if a condition holds, else go on (R600). -/
def branchIf (c : Bool) (t : Addr) (s : State) : Effect :=
  .ok (if c then .branch t s else .advance s)

/-- Link information: ILC, CC and program mask, then the address of the next instruction (R601). -/
def linkInfo (c : Ctx) (s : State) : Word := linkByte c.ilc s.psw.cc s.psw.pm ++ c.next

/-- Whether a branch mask selects the CC: its most significant bit stands for CC 0 (R610). -/
def maskSelects (m : Nib) (cc : BitVec 2) : Bool := m.getLsbD (3 - cc.toNat)

/-- BAL (R602): the address is formed before the register is written. -/
def opBal (o : OpsRX) (c : Ctx) (s : State) : Effect :=
  .ok (.branch (s.eaRX o) (s.setGr o.r1 (linkInfo c s)))

/-- BALR (R603): field R2 = 0 means no branch (D36); the target is read before R1 is written. -/
def opBalr (o : OpsRR) (c : Ctx) (s : State) : Effect :=
  branchIf (o.r2 != 0) (s.regTarget o.r2) (s.setGr o.r1 (linkInfo c s))

/-- BC (R610). -/
def opBc (o : OpsRX) (_ : Ctx) (s : State) : Effect :=
  branchIf (maskSelects o.r1 s.psw.cc) (s.eaRX o) s

/-- BCR (R611, R612). -/
def opBcr (o : OpsRR) (_ : Ctx) (s : State) : Effect :=
  branchIf (o.r2 != 0 && maskSelects o.r1 s.psw.cc) (s.regTarget o.r2) s

/-- BCT (R614). -/
def opBct (o : OpsRX) (_ : Ctx) (s : State) : Effect :=
  let n := s.getGr o.r1 - 1
  branchIf (n != 0) (s.eaRX o) (s.setGr o.r1 n)

/-- BCTR (R615). -/
def opBctr (o : OpsRR) (_ : Ctx) (s : State) : Effect :=
  let n := s.getGr o.r1 - 1
  branchIf (n != 0 && o.r2 != 0) (s.regTarget o.r2) (s.setGr o.r1 n)

/-- The sum of BXH and BXLE, from the registers before the instruction (R630). -/
def indexSum (o : OpsRS) (s : State) : Word := s.getGr o.r1 + s.getGr o.r3

/-- The comparand of BXH and BXLE, `GR[R3 | 1]` before the instruction (R630). -/
def indexComparand (o : OpsRS) (s : State) : Word := s.getGr (o.r3 ||| 1)

/-- BXH (R631). -/
def opBxh (o : OpsRS) (_ : Ctx) (s : State) : Effect :=
  branchIf (decide ((indexComparand o s).toInt < (indexSum o s).toInt)) (s.ea o.b2 o.d2)
    (s.setGr o.r1 (indexSum o s))

/-- BXLE (R632). -/
def opBxle (o : OpsRS) (_ : Ctx) (s : State) : Effect :=
  branchIf (decide ((indexSum o s).toInt ≤ (indexComparand o s).toInt)) (s.ea o.b2 o.d2)
    (s.setGr o.r1 (indexSum o s))

/-! ## Calls that execute one instruction (R150) -/

/-- A call that executes BAL. -/
def execBal (o : OpsRX) (s : State) : Host.Outcome State Fault Refusal :=
  call 4 (opBal o) s

/-- A call that executes BALR. -/
def execBalr (o : OpsRR) (s : State) : Host.Outcome State Fault Refusal :=
  call 2 (opBalr o) s

/-- A call that executes BC. -/
def execBc (o : OpsRX) (s : State) : Host.Outcome State Fault Refusal :=
  call 4 (opBc o) s

/-- A call that executes BCR. -/
def execBcr (o : OpsRR) (s : State) : Host.Outcome State Fault Refusal :=
  call 2 (opBcr o) s

/-- A call that executes BCT. -/
def execBct (o : OpsRX) (s : State) : Host.Outcome State Fault Refusal :=
  call 4 (opBct o) s

/-- A call that executes BCTR. -/
def execBctr (o : OpsRR) (s : State) : Host.Outcome State Fault Refusal :=
  call 2 (opBctr o) s

/-- A call that executes BXH. -/
def execBxh (o : OpsRS) (s : State) : Host.Outcome State Fault Refusal :=
  call 4 (opBxh o) s

/-- A call that executes BXLE. -/
def execBxle (o : OpsRS) (s : State) : Host.Outcome State Fault Refusal :=
  call 4 (opBxle o) s

end Sys2Proof.Machine
end

