-- ==== Sys2Proof/Machine/Control.lean ====
section
/-! DEFINITION. Privileged, control and intercepted instructions (`spec/45_control.md`). A privileged
instruction in problem state, and an always-intercepted one in either, is handed to the host with no
other effect, before any operand is looked at (R650, D31). -/

namespace Sys2Proof.Machine

/-! ## PSW load and mask control -/

/-- LPSW (R652, R653). -/
def opLpsw (o : OpsSI) (_ : Ctx) (s : State) : Effect := do
  supervisorOnly (.lpsw o) s
  let a := s.ea o.b1 o.d1
  demand (a.toNat % 8 == 0) .specification s
  let w ← s.load 64 a
  s.loadPsw w

/-- SSM (R654). -/
def opSsm (o : OpsSI) (_ : Ctx) (s : State) : Effect := do
  supervisorOnly (.ssm o) s
  let b ← s.load 8 (s.ea o.b1 o.d1)
  return .advance (s.setSysMask b)

/-- STNSM (R655): the old mask is stored. -/
def opStnsm (o : OpsSI) (_ : Ctx) (s : State) : Effect := do
  supervisorOnly (.stnsm o) s
  let t ← s.store (s.ea o.b1 o.d1) s.psw.sysMask
  return .advance (t.setSysMask (s.psw.sysMask &&& o.i2))

/-- STOSM (R658): the old mask is stored. -/
def opStosm (o : OpsSI) (_ : Ctx) (s : State) : Effect := do
  supervisorOnly (.stosm o) s
  let t ← s.store (s.ea o.b1 o.d1) s.psw.sysMask
  return .advance (t.setSysMask (s.psw.sysMask ||| o.i2))

/-! ## Storage keys -/

/-- The page a register addresses; its bits 28-31 must be zero (R656, R657). -/
def keyPage (r : Nib) (s : State) : Except Raise Nat := do
  demand (decide ((s.getGr r).extractLsb' 0 4 = 0)) .specification s
  return pageOf (s.regTarget r)

/-- ISK (R656): the key to bits 24-27, zeros to bits 28-31. -/
def opIsk (o : OpsRR) (_ : Ctx) (s : State) : Effect := do
  supervisorOnly (.isk o) s
  let page ← keyPage o.r2 s
  let key : Byte := s.keyOf page ++ (0 : Nib)
  return .advance (s.setGr o.r1 ((s.getGr o.r1 &&& 0xFFFFFF00) ||| key.setWidth 32))

/-- SSK (R657): bits 24-27 of R1. -/
def opSsk (o : OpsRR) (_ : Ctx) (s : State) : Effect := do
  supervisorOnly (.ssk o) s
  let page ← keyPage o.r2 s
  return .advance (s.setKey page ((s.getGr o.r1).extractLsb' 4 4))

/-! ## Unprivileged control -/

/-- SVC (R660): raises the supervisor-call interruption. -/
def opSvc (i : Byte) (_ : Ctx) (s : State) : Effect := .error (.supervisorCall i s)

/-- SPM (R661): CC from bits 2-3 and the program mask from bits 4-7. -/
def opSpm (o : OpsRR) (_ : Ctx) (s : State) : Effect :=
  let v := s.getGr o.r1
  .ok (.advance ((s.setCc (v.extractLsb' 28 2)).setPm (v.extractLsb' 24 4)))

/-- MC (R662): every monitor class is masked, so only the class field is checked (D18, D19). -/
def opMc (o : OpsSI) (_ : Ctx) (s : State) : Effect := do
  demand (decide (hiNib o.i2 = 0)) .specification s
  return .advance s

/-! ## Intercepted in both states (R680): the whole effect is `Privileged(v)` -/

/-- LRA (R670). -/
def opLra (o : OpsRX) (_ : Ctx) (_ : State) : Effect := intercept (.lra o)

/-- STCTL (R671). -/
def opStctl (o : OpsRS) (_ : Ctx) (_ : State) : Effect := intercept (.stctl o)

/-- LCTL (R672). -/
def opLctl (o : OpsRS) (_ : Ctx) (_ : State) : Effect := intercept (.lctl o)

/-- DIAG (R673). -/
def opDiag (o : OpsRS) (_ : Ctx) (_ : State) : Effect := intercept (.diag o)

/-- WRD (R674). -/
def opWrd (o : OpsSI) (_ : Ctx) (_ : State) : Effect := intercept (.wrd o)

/-- RDD (R675). -/
def opRdd (o : OpsSI) (_ : Ctx) (_ : State) : Effect := intercept (.rdd o)

/-- SIGP (R676). -/
def opSigp (o : OpsRS) (_ : Ctx) (_ : State) : Effect := intercept (.sigp o)

/-- SIO (R677). -/
def opSio (fn : BitVec 7) (o : OpsS) (_ : Ctx) (_ : State) : Effect := intercept (.sio fn o)

/-- SIOF (R678). -/
def opSiof (fn : BitVec 7) (o : OpsS) (_ : Ctx) (_ : State) : Effect := intercept (.siof fn o)

/-- TIO (R679). -/
def opTio (fn : BitVec 7) (o : OpsS) (_ : Ctx) (_ : State) : Effect := intercept (.tio fn o)

/-- B2xx (R680). -/
def opB2xx (fn : Byte) (o : OpsS) (_ : Ctx) (_ : State) : Effect := intercept (.b2xx fn o)

/-- CLRIO (R681). -/
def opClrio (fn : BitVec 7) (o : OpsS) (_ : Ctx) (_ : State) : Effect := intercept (.clrio fn o)

/-- HIO (R682). -/
def opHio (fn : BitVec 7) (o : OpsS) (_ : Ctx) (_ : State) : Effect := intercept (.hio fn o)

/-- HDV (R683). -/
def opHdv (fn : BitVec 7) (o : OpsS) (_ : Ctx) (_ : State) : Effect := intercept (.hdv fn o)

/-- TCH (R684). -/
def opTch (fn : Byte) (o : OpsS) (_ : Ctx) (_ : State) : Effect := intercept (.tch fn o)

/-- STIDP (R685). -/
def opStidp (o : OpsS) (_ : Ctx) (_ : State) : Effect := intercept (.stidp o)

/-- STIDC (R686). -/
def opStidc (o : OpsS) (_ : Ctx) (_ : State) : Effect := intercept (.stidc o)

/-- SCK (R687). -/
def opSck (o : OpsS) (_ : Ctx) (_ : State) : Effect := intercept (.sck o)

/-- STCK (R688). -/
def opStck (o : OpsS) (_ : Ctx) (_ : State) : Effect := intercept (.stck o)

/-- SCKC (R689). -/
def opSckc (o : OpsS) (_ : Ctx) (_ : State) : Effect := intercept (.sckc o)

/-- STCKC (R690). -/
def opStckc (o : OpsS) (_ : Ctx) (_ : State) : Effect := intercept (.stckc o)

/-- SPT (R691). -/
def opSpt (o : OpsS) (_ : Ctx) (_ : State) : Effect := intercept (.spt o)

/-- STPT (R692). -/
def opStpt (o : OpsS) (_ : Ctx) (_ : State) : Effect := intercept (.stpt o)

/-- SPKA (R693). -/
def opSpka (o : OpsS) (_ : Ctx) (_ : State) : Effect := intercept (.spka o)

/-- IPK (R694). -/
def opIpk (o : OpsS) (_ : Ctx) (_ : State) : Effect := intercept (.ipk o)

/-- PTLB (R695). -/
def opPtlb (o : OpsS) (_ : Ctx) (_ : State) : Effect := intercept (.ptlb o)

/-- SPX (R696). -/
def opSpx (o : OpsS) (_ : Ctx) (_ : State) : Effect := intercept (.spx o)

/-- STPX (R697). -/
def opStpx (o : OpsS) (_ : Ctx) (_ : State) : Effect := intercept (.stpx o)

/-- STAP (R698). -/
def opStap (o : OpsS) (_ : Ctx) (_ : State) : Effect := intercept (.stap o)

/-- RRB (R699). -/
def opRrb (o : OpsS) (_ : Ctx) (_ : State) : Effect := intercept (.rrb o)

/-! ## Calls that execute one instruction (R150) -/

/-- A call that executes LPSW. -/
def execLpsw (o : OpsSI) (s : State) : Host.Outcome State Fault Refusal :=
  call 4 (opLpsw o) s

/-- A call that executes SSM. -/
def execSsm (o : OpsSI) (s : State) : Host.Outcome State Fault Refusal :=
  call 4 (opSsm o) s

/-- A call that executes STNSM. -/
def execStnsm (o : OpsSI) (s : State) : Host.Outcome State Fault Refusal :=
  call 4 (opStnsm o) s

/-- A call that executes ISK. -/
def execIsk (o : OpsRR) (s : State) : Host.Outcome State Fault Refusal :=
  call 2 (opIsk o) s

/-- A call that executes SSK. -/
def execSsk (o : OpsRR) (s : State) : Host.Outcome State Fault Refusal :=
  call 2 (opSsk o) s

/-- A call that executes STOSM. -/
def execStosm (o : OpsSI) (s : State) : Host.Outcome State Fault Refusal :=
  call 4 (opStosm o) s

/-- A call that executes SVC. -/
def execSvc (i : Byte) (s : State) : Host.Outcome State Fault Refusal :=
  call 2 (opSvc i) s

/-- A call that executes SPM. -/
def execSpm (o : OpsRR) (s : State) : Host.Outcome State Fault Refusal :=
  call 2 (opSpm o) s

/-- A call that executes MC. -/
def execMc (o : OpsSI) (s : State) : Host.Outcome State Fault Refusal :=
  call 4 (opMc o) s

/-- A call that executes LRA. -/
def execLra (o : OpsRX) (s : State) : Host.Outcome State Fault Refusal :=
  call 4 (opLra o) s

/-- A call that executes STCTL. -/
def execStctl (o : OpsRS) (s : State) : Host.Outcome State Fault Refusal :=
  call 4 (opStctl o) s

/-- A call that executes LCTL. -/
def execLctl (o : OpsRS) (s : State) : Host.Outcome State Fault Refusal :=
  call 4 (opLctl o) s

/-- A call that executes DIAG. -/
def execDiag (o : OpsRS) (s : State) : Host.Outcome State Fault Refusal :=
  call 4 (opDiag o) s

/-- A call that executes WRD. -/
def execWrd (o : OpsSI) (s : State) : Host.Outcome State Fault Refusal :=
  call 4 (opWrd o) s

/-- A call that executes RDD. -/
def execRdd (o : OpsSI) (s : State) : Host.Outcome State Fault Refusal :=
  call 4 (opRdd o) s

/-- A call that executes SIGP. -/
def execSigp (o : OpsRS) (s : State) : Host.Outcome State Fault Refusal :=
  call 4 (opSigp o) s

/-- A call that executes SIO. -/
def execSio (fn : BitVec 7) (o : OpsS) (s : State) : Host.Outcome State Fault Refusal :=
  call 4 (opSio fn o) s

/-- A call that executes SIOF. -/
def execSiof (fn : BitVec 7) (o : OpsS) (s : State) : Host.Outcome State Fault Refusal :=
  call 4 (opSiof fn o) s

/-- A call that executes TIO. -/
def execTio (fn : BitVec 7) (o : OpsS) (s : State) : Host.Outcome State Fault Refusal :=
  call 4 (opTio fn o) s

/-- A call that executes B2xx. -/
def execB2xx (fn : Byte) (o : OpsS) (s : State) : Host.Outcome State Fault Refusal :=
  call 4 (opB2xx fn o) s

/-- A call that executes CLRIO. -/
def execClrio (fn : BitVec 7) (o : OpsS) (s : State) : Host.Outcome State Fault Refusal :=
  call 4 (opClrio fn o) s

/-- A call that executes HIO. -/
def execHio (fn : BitVec 7) (o : OpsS) (s : State) : Host.Outcome State Fault Refusal :=
  call 4 (opHio fn o) s

/-- A call that executes HDV. -/
def execHdv (fn : BitVec 7) (o : OpsS) (s : State) : Host.Outcome State Fault Refusal :=
  call 4 (opHdv fn o) s

/-- A call that executes TCH. -/
def execTch (fn : Byte) (o : OpsS) (s : State) : Host.Outcome State Fault Refusal :=
  call 4 (opTch fn o) s

/-- A call that executes STIDP. -/
def execStidp (o : OpsS) (s : State) : Host.Outcome State Fault Refusal :=
  call 4 (opStidp o) s

/-- A call that executes STIDC. -/
def execStidc (o : OpsS) (s : State) : Host.Outcome State Fault Refusal :=
  call 4 (opStidc o) s

/-- A call that executes SCK. -/
def execSck (o : OpsS) (s : State) : Host.Outcome State Fault Refusal :=
  call 4 (opSck o) s

/-- A call that executes STCK. -/
def execStck (o : OpsS) (s : State) : Host.Outcome State Fault Refusal :=
  call 4 (opStck o) s

/-- A call that executes SCKC. -/
def execSckc (o : OpsS) (s : State) : Host.Outcome State Fault Refusal :=
  call 4 (opSckc o) s

/-- A call that executes STCKC. -/
def execStckc (o : OpsS) (s : State) : Host.Outcome State Fault Refusal :=
  call 4 (opStckc o) s

/-- A call that executes SPT. -/
def execSpt (o : OpsS) (s : State) : Host.Outcome State Fault Refusal :=
  call 4 (opSpt o) s

/-- A call that executes STPT. -/
def execStpt (o : OpsS) (s : State) : Host.Outcome State Fault Refusal :=
  call 4 (opStpt o) s

/-- A call that executes SPKA. -/
def execSpka (o : OpsS) (s : State) : Host.Outcome State Fault Refusal :=
  call 4 (opSpka o) s

/-- A call that executes IPK. -/
def execIpk (o : OpsS) (s : State) : Host.Outcome State Fault Refusal :=
  call 4 (opIpk o) s

/-- A call that executes PTLB. -/
def execPtlb (o : OpsS) (s : State) : Host.Outcome State Fault Refusal :=
  call 4 (opPtlb o) s

/-- A call that executes SPX. -/
def execSpx (o : OpsS) (s : State) : Host.Outcome State Fault Refusal :=
  call 4 (opSpx o) s

/-- A call that executes STPX. -/
def execStpx (o : OpsS) (s : State) : Host.Outcome State Fault Refusal :=
  call 4 (opStpx o) s

/-- A call that executes STAP. -/
def execStap (o : OpsS) (s : State) : Host.Outcome State Fault Refusal :=
  call 4 (opStap o) s

/-- A call that executes RRB. -/
def execRrb (o : OpsS) (s : State) : Host.Outcome State Fault Refusal :=
  call 4 (opRrb o) s

end Sys2Proof.Machine
end

