-- ==== Sys2Proof/Machine/Flags.lean ====
section
/-! DEFINITION. Condition codes and the checked sums they come from (`spec/00_scope.md` R15,
`spec/40_fixed_point.md` R200 to R202). -/

namespace Sys2Proof.Machine

/-- `CC_arith(v)`: 0 zero, 1 negative, 2 positive (R15). -/
def ccArith (v : Int) : BitVec 2 := if v = 0 then 0 else if v < 0 then 1 else 2

/-- `CC_logic(v)`: 0 if every bit is zero, else 1 (R15, R400). -/
def ccLogic {w : Nat} (v : BitVec w) : BitVec 2 := if v = 0 then 0 else 1

/-- `CC_cmp(a, b)` on integers: 0 equal, 1 first low, 2 first high (R15). -/
def ccCmp (a b : Int) : BitVec 2 := if a = b then 0 else if a < b then 1 else 2

/-- Whether an exact result fits `w`-bit two's complement (R200). -/
def fitsSigned (w : Nat) (r : Int) : Bool :=
  decide (-(2 ^ (w - 1)) ≤ r) && decide (r ≤ 2 ^ (w - 1) - 1)

/-- The CC of a signed result `res` with overflow `ovf` (R200). -/
def ccSigned {w : Nat} (ovf : Bool) (res : BitVec w) : BitVec 2 :=
  if ovf then 3 else ccArith res.toInt

/-- `AddL(x, y, cin)`: the sum and its CC, 1 for nonzero plus 2 for a carry (R202). -/
def addLogical (x y : Word) (cin : Bool) : Word × BitVec 2 :=
  let sum := x.toNat + y.toNat + cin.toNat
  let res := BitVec.ofNat 32 sum
  (res, (if res ≠ 0 then 1 else 0) + (if 2 ^ 32 ≤ sum then 2 else 0))

/-- The end of an instruction whose signed result may overflow, its result and CC already written: with
`PM.FO` an overflow interrupts, completed (R201). -/
def fixedOverflowExit (ovf : Bool) (s : State) : Effect :=
  if ovf && s.psw.pmFo then raiseProgram .fixedOverflow s else .ok (.advance s)

end Sys2Proof.Machine
end

