-- ==== Sys2Proof/Machine/Decimal.lean ====
section
/-! DEFINITION. Decimal instructions (`spec/46_decimal.md`). Decimal arithmetic checks every storage
operand, then every digit and sign code, and only then the result (R925, log 6), whose bytes it stores one
after the other: of ZAP, which does not read its first operand, that is where an addressing exception can still
end the instruction (R83, R702, log 5). PACK, UNPK, MVO, ED and EDMK go byte by byte and are terminated with earlier stores kept (R83, R905). -/

namespace Sys2Proof.Machine

/-! ## Data formats (R700 to R702) -/

/-- The two half-bytes of each byte, left to right (R701). -/
def nibblesOf : List Byte → List Nat
  | [] => []
  | b :: bs => (hiNib b).toNat :: (loNib b).toNat :: nibblesOf bs

/-- A packed number: magnitude, and whether its sign code is minus. A negative zero is a value of its
own (R701). -/
structure Packed where
  mag : Nat
  neg : Bool
  deriving DecidableEq, Repr

/-- The signed value (R700). -/
def packedValue (x : Packed) : Int := if x.neg then -(x.mag : Int) else x.mag

/-- The number whose decimal digits these are, the first the most significant (R701). -/
def digitsValue (ds : List Nat) : Nat := ds.foldl (fun acc d => acc * 10 + d) 0

/-- Read a packed field: none if a digit code is above 9 or the sign code below 0xA (R700, R701). -/
def packedOfBytes (bs : List Byte) : Option Packed :=
  let ns := nibblesOf bs
  let digits := ns.dropLast
  let sign := ns.getLastD 0
  if digits.all (· ≤ 9) && decide (0xA ≤ sign) then
    some { mag := digitsValue digits, neg := sign == 0xB || sign == 0xD }
  else none

/-- A packed field's number, or a data exception, suppressed (R701, R907). -/
def demandPacked (bs : List Byte) (s : State) : Except Raise Packed :=
  match packedOfBytes bs with
  | some x => .ok x
  | none => raiseProgram .data s

/-- The decimal digit of weight 10^k. -/
def digitAt (mag k : Nat) : Nib := BitVec.ofNat 4 (mag / 10 ^ k % 10)

/-- The last `n+1` bytes of a packed field, with a preferred sign (R702). -/
def packedBytes (mag : Nat) (neg : Bool) : Nat → List Byte
  | 0 => [digitAt mag 0 ++ (if neg then 0xD else 0xC : Nib)]
  | n + 1 => (digitAt mag (2 * n + 2) ++ digitAt mag (2 * n + 1)) :: packedBytes mag neg n

/-- `DecWrite`: a packed field with a preferred sign, its bytes left to right (R702). -/
def decWrite (a : Addr) (l : Nat) (mag : Nat) (neg : Bool) (s : State) : Except Raise State :=
  s.storeEach a (packedBytes mag neg l)

/-! ## Operands of the two-length format -/

/-- `A1` and `A2` of an SS instruction with two lengths. -/
def State.addr1 (s : State) (o : OpsSS2) : Addr := s.ea o.b1 o.d1

/-- The second operand's address. -/
def State.addr2 (s : State) (o : OpsSS2) : Addr := s.ea o.b2 o.d2

/-- The bytes of the first operand. -/
def State.field1 (s : State) (o : OpsSS2) : Except Raise (List Byte) :=
  s.loadBytes (s.addr1 o) (o.l1.toNat + 1)

/-- The bytes of the second operand. -/
def State.field2 (s : State) (o : OpsSS2) : Except Raise (List Byte) :=
  s.loadBytes (s.addr2 o) (o.l2.toNat + 1)

/-- Both decimal operands: storage accesses in order, then the codes in order (R701, R925, log 6). -/
def State.packedPair (s : State) (o : OpsSS2) : Except Raise (Packed × Packed) := do
  let bs1 ← s.field1 o
  let bs2 ← s.field2 o
  let x ← demandPacked bs1 s
  let y ← demandPacked bs2 s
  return (x, y)

/-! ## Decimal arithmetic -/

/-- The CC of a decimal result (R703, R716). -/
def ccDecimal (ovf : Bool) (mag : Nat) (neg : Bool) : BitVec 2 :=
  if ovf then 3 else if mag = 0 then 0 else if neg then 1 else 2

/-- Store a decimal result that may have lost high-order digits, with its CC; with `PM.DO` an overflow
interrupts, completed (R703, R716, R910). -/
def decimalResult (a : Addr) (l : Nat) (mag : Nat) (neg ovf : Bool) (s : State) : Effect := do
  let s ← decWrite a l mag neg s
  let s := s.setCc (ccDecimal ovf mag neg)
  if ovf && s.psw.pmDo then raiseProgram .decimalOverflow s else return .advance s

/-- `DecFinish`: a zero result is positive unless it overflowed (R703). -/
def decFinish (a : Addr) (l : Nat) (v : Int) (s : State) : Effect :=
  let cap := 10 ^ (2 * l + 1)
  let ovf := decide (cap ≤ v.natAbs)
  let m := v.natAbs % cap
  decimalResult a l m (decide (v < 0) && (decide (m ≠ 0) || ovf)) ovf s

/-- AP (R710). -/
def opAp (o : OpsSS2) (_ : Ctx) (s : State) : Effect := do
  let (x, y) ← s.packedPair o
  decFinish (s.addr1 o) o.l1.toNat (packedValue x + packedValue y) s

/-- SP (R711). -/
def opSp (o : OpsSS2) (_ : Ctx) (s : State) : Effect := do
  let (x, y) ← s.packedPair o
  decFinish (s.addr1 o) o.l1.toNat (packedValue x - packedValue y) s

/-- ZAP (R712): the first operand is neither read nor checked. A byte of it that is not installed ends the
instruction with the bytes before it stored and the CC kept (R83, R702). DEDUCED (log 5): R905's suppression is
that of R701, of source operands only; and with an invalid code in the second operand, of which no byte can be
stored, an addressing exception on the first goes before the data exception, as R925 orders. -/
def opZap (o : OpsSS2) (_ : Ctx) (s : State) : Effect := do
  let bs ← s.field2 o
  demand ((packedOfBytes bs).isSome || s.installed (s.addr1 o) (o.l1.toNat + 1)) .addressing s
  let y ← demandPacked bs s
  decFinish (s.addr1 o) o.l1.toNat (packedValue y) s

/-- CP (R713). -/
def opCp (o : OpsSS2) (_ : Ctx) (s : State) : Effect := do
  let (x, y) ← s.packedPair o
  return .advance (s.setCc (ccCmp (packedValue x) (packedValue y)))

/-- The lengths MP and DP accept: L2 at most 7 and below L1 (R714, R715). -/
def lengthsOk (o : OpsSS2) : Bool := decide (o.l2.toNat ≤ 7) && decide (o.l2.toNat < o.l1.toNat)

/-- MP (R714): the first operand needs L2+1 leading zero bytes; the sign is algebraic even for zero. -/
def opMp (o : OpsSS2) (_ : Ctx) (s : State) : Effect := do
  demand (lengthsOk o) .specification s
  let (x, y) ← s.packedPair o
  demand (decide (x.mag < 10 ^ (2 * (o.l1.toNat - o.l2.toNat) - 1))) .data s
  let s ← decWrite (s.addr1 o) o.l1.toNat (x.mag * y.mag) (xor x.neg y.neg) s
  return .advance s

/-- DP (R715): quotient in the leftmost L1-L2 bytes, remainder in the rightmost L2+1. -/
def opDp (o : OpsSS2) (_ : Ctx) (s : State) : Effect := do
  demand (lengthsOk o) .specification s
  let (x, y) ← s.packedPair o
  let l1 := o.l1.toNat
  let l2 := o.l2.toNat
  demand (decide (y.mag ≠ 0) && decide (x.mag / y.mag < 10 ^ (2 * (l1 - l2) - 1))) .decimalDivide s
  let t ← decWrite (s.addr1 o) (l1 - l2 - 1) (x.mag / y.mag) (xor x.neg y.neg) s
  let t ← decWrite (s.addr1 o + BitVec.ofNat 24 (l1 - l2)) l2 (x.mag % y.mag) x.neg t
  return .advance t

/-- SRP (R716): a 6-bit signed shift, 0 to 31 left and 32 to 63 right by 64 less it; the rounding digit
stands in `l2`, and a bad one is a data exception (R907), after the operand's storage check (R925). -/
def opSrp (o : OpsSS2) (_ : Ctx) (s : State) : Effect := do
  let n := s.shiftCount o.b2 o.d2
  let bs ← s.field1 o
  demand (decide (o.l2.toNat ≤ 9)) .data s
  let x ← demandPacked bs s
  let cap := 10 ^ (2 * o.l1.toNat + 1)
  if n ≤ 31 then
    let m := x.mag * 10 ^ n
    let ovf := decide (cap ≤ m)
    decimalResult (s.addr1 o) o.l1.toNat (m % cap) (x.neg && (decide (m % cap ≠ 0) || ovf)) ovf s
  else
    let m := (x.mag + o.l2.toNat * 10 ^ (64 - n - 1)) / 10 ^ (64 - n)
    decimalResult (s.addr1 o) o.l1.toNat m (x.neg && decide (m ≠ 0)) false s

/-! ## Moves and format conversion: right to left, one byte at a time (R705) -/

/-- R717's loop: `i` bytes are left to store, the last at `a1 + i - 1`; `j` source bytes are left, the
last at `a2 + j - 1`; `hi` is the half-byte carried over. -/
def moveOffset (a1 a2 : Addr) : Nat → Nat → Nib → State → Except Raise State
  | 0, _, _, s => .ok s
  | i + 1, 0, hi, s => do
    let s ← s.store (a1 + BitVec.ofNat 24 i) ((0 : Nib) ++ hi)
    moveOffset a1 a2 i 0 0 s
  | i + 1, j + 1, hi, s => do
    let b ← s.load 8 (a2 + BitVec.ofNat 24 j)
    let s ← s.store (a1 + BitVec.ofNat 24 i) (loNib b ++ hi)
    moveOffset a1 a2 i j (hiNib b) s

/-- MVO (R717): the first operand keeps its rightmost half-byte. -/
def opMvo (o : OpsSS2) (_ : Ctx) (s : State) : Effect := do
  let a1 := s.addr1 o
  let a2 := s.addr2 o
  let b1 ← s.load 8 (a1 + o.l1.setWidth 24)
  let b2 ← s.load 8 (a2 + o.l2.setWidth 24)
  let s ← s.store (a1 + o.l1.setWidth 24) (loNib b2 ++ loNib b1)
  let s ← moveOffset a1 a2 o.l1.toNat o.l2.toNat (hiNib b2) s
  return .advance s

/-- The numeric of the source byte `j` bytes from the left end plus one; 0 once the source is exhausted
(R718). -/
def packDigit (a2 : Addr) (j : Nat) (s : State) : Except Raise Nib :=
  match j with
  | 0 => .ok 0
  | j + 1 => do return loNib (← s.load 8 (a2 + BitVec.ofNat 24 j))

/-- R718's loop, `i` result bytes and `j` source bytes left. -/
def packLoop (a1 a2 : Addr) : Nat → Nat → State → Except Raise State
  | 0, _, s => .ok s
  | i + 1, j, s => do
    let lo ← packDigit a2 j s
    let hi ← packDigit a2 (j - 1) s
    let s ← s.store (a1 + BitVec.ofNat 24 i) (hi ++ lo)
    packLoop a1 a2 i (j - 2) s

/-- The rightmost byte of PACK and UNPK: the halves swapped (R718, R719). -/
def swapRightmost (o : OpsSS2) (s : State) : Except Raise State := do
  let b ← s.load 8 (s.addr2 o + o.l2.setWidth 24)
  s.store (s.addr1 o + o.l1.setWidth 24) (loNib b ++ hiNib b)

/-- PACK (R718). -/
def opPack (o : OpsSS2) (_ : Ctx) (s : State) : Effect := do
  let a1 := s.addr1 o
  let a2 := s.addr2 o
  let s ← swapRightmost o s
  let s ← packLoop a1 a2 o.l1.toNat o.l2.toNat s
  return .advance s

/-- R719's loop, `i` result bytes and `j` source bytes left. `pend` is the left half of a source byte
whose right half has been stored. -/
def unpackLoop (a1 a2 : Addr) : Nat → Nat → Option Nib → State → Except Raise State
  | 0, _, _, s => .ok s
  | i + 1, j, some d, s => do
    let s ← s.store (a1 + BitVec.ofNat 24 i) ((0xF : Nib) ++ d)
    unpackLoop a1 a2 i j none s
  | i + 1, 0, none, s => do
    let s ← s.store (a1 + BitVec.ofNat 24 i) (0xF0 : Byte)
    unpackLoop a1 a2 i 0 none s
  | i + 1, j + 1, none, s => do
    let b ← s.load 8 (a2 + BitVec.ofNat 24 j)
    let s ← s.store (a1 + BitVec.ofNat 24 i) ((0xF : Nib) ++ loNib b)
    unpackLoop a1 a2 i j (some (hiNib b)) s

/-- UNPK (R719). -/
def opUnpk (o : OpsSS2) (_ : Ctx) (s : State) : Effect := do
  let a1 := s.addr1 o
  let a2 := s.addr2 o
  let s ← swapRightmost o s
  let s ← unpackLoop a1 a2 o.l1.toNat o.l2.toNat none s
  return .advance s

/-! ## Conversion to and from binary -/

/-- CVB (R720): a result out of range is a fixed-point divide exception, completed (D28). -/
def opCvb (o : OpsRX) (_ : Ctx) (s : State) : Effect := do
  let bs ← s.loadBytes (s.eaRX o) 8
  let x ← demandPacked bs s
  let s := s.setGr o.r1 (BitVec.ofInt 32 (packedValue x))
  demand (fitsSigned 32 (packedValue x)) .fixedDivide s
  return .advance s

/-- CVD (R721): eight bytes, all checked before the store. -/
def opCvd (o : OpsRX) (_ : Ctx) (s : State) : Effect := do
  let v := (s.getGr o.r1).toInt
  let s ← s.storeBytes (s.eaRX o) (packedBytes v.natAbs (decide (v < 0)) 7)
  return .advance s

/-! ## Editing (R722, R723) -/

/-- What R722's loop carries from one pattern byte to the next. -/
structure EditState where
  /-- Significance, `S`. -/
  sig : Bool
  /-- A nonzero digit in the current field, `nz`. -/
  nz : Bool
  /-- The address of the next source byte. -/
  src : Addr
  /-- The source byte whose right half is still to be used. -/
  pend : Option Byte

/-- Fetch the source byte a digit comes from, and the digit (R722). -/
def editDigit (e : EditState) (s : State) : Except Raise (Byte × Nat × Addr) :=
  match e.pend with
  | some b => .ok (b, (loNib b).toNat, e.src)
  | none => do
    let b ← s.load 8 e.src
    return (b, (hiNib b).toNat, e.src + 1)

/-- Whether a right half is a sign code, and whether it is plus (R700, R722). -/
def plusSign (n : Nat) : Bool := n == 0xA || n == 0xC || n == 0xE || n == 0xF

/-- The mark of EDMK: bits 8-31 of register 1 (R723). -/
def State.markEdit (s : State) (mark : Bool) (a : Addr) : State :=
  if mark then s.setGr 1 ((s.getGr 1 &&& 0xFF000000) ||| a.setWidth 32) else s

/-- A digit selector (0x20) or significance starter (0x21): fetch a digit, and give the result byte and
what is carried on (R722). A digit code above 9 is a data exception, which terminates. -/
def editSelector (mark : Bool) (fill p : Byte) (a : Addr) (e : EditState) (s : State) :
    Except Raise (Byte × EditState × State) := do
  let (b, d, src) ← editDigit e s
  demand (decide (d ≤ 9)) .data s
  let digit : Byte := (0xF : Nib) ++ BitVec.ofNat 4 d
  let starts := !e.sig && decide (d ≠ 0)
  let s := s.markEdit (mark && starts) a
  let r := if e.sig || starts then digit else fill
  let sig := e.sig || starts || p == 0x21
  let isSign := e.pend.isNone && decide (0xA ≤ (loNib b).toNat)
  let e' : EditState :=
    { sig := sig && !(isSign && plusSign (loNib b).toNat), nz := e.nz || decide (d ≠ 0), src := src,
      pend := if e.pend.isNone && !isSign then some b else none }
  return (r, e', s)

/-- `n` pattern bytes from `a` on (R722). -/
def editLoop (mark : Bool) (fill : Byte) :
    Nat → Addr → EditState → State → Except Raise (EditState × State)
  | 0, _, e, s => .ok (e, s)
  | n + 1, a, e, s => do
    let p ← s.load 8 a
    let (r, e, s) ←
      if p = 0x20 ∨ p = 0x21 then editSelector mark fill p a e s
      else if p = 0x22 then .ok (fill, { e with sig := false, nz := false }, s)
      else .ok (if e.sig then p else fill, e, s)
    let s ← s.store a r
    editLoop mark fill n (a + 1) e s

/-- ED and EDMK: the fill byte is the first pattern byte; the CC is of the last field (R722). -/
def edit (mark : Bool) (o : OpsSS) (s : State) : Effect := do
  let a1 := s.ea o.b1 o.d1
  let fill ← s.load 8 a1
  let e : EditState := { sig := false, nz := false, src := s.ea o.b2 o.d2, pend := none }
  let (e, s) ← editLoop mark fill (o.l.toNat + 1) a1 e s
  return .advance (s.setCc (if e.nz then (if e.sig then 1 else 2) else 0))

/-- ED (R722). -/
def opEd (o : OpsSS) (_ : Ctx) (s : State) : Effect := edit false o s

/-- EDMK (R723): a mark already made stays when the instruction is terminated. DEDUCED for an addressing
exception, where R83 says otherwise (log 8). -/
def opEdmk (o : OpsSS) (_ : Ctx) (s : State) : Effect := edit true o s

/-! ## Calls that execute one instruction (R150) -/

/-- A call that executes AP. -/
def execAp (o : OpsSS2) (s : State) : Host.Outcome State Fault Refusal :=
  call 6 (opAp o) s

/-- A call that executes SP. -/
def execSp (o : OpsSS2) (s : State) : Host.Outcome State Fault Refusal :=
  call 6 (opSp o) s

/-- A call that executes ZAP. -/
def execZap (o : OpsSS2) (s : State) : Host.Outcome State Fault Refusal :=
  call 6 (opZap o) s

/-- A call that executes CP. -/
def execCp (o : OpsSS2) (s : State) : Host.Outcome State Fault Refusal :=
  call 6 (opCp o) s

/-- A call that executes MP. -/
def execMp (o : OpsSS2) (s : State) : Host.Outcome State Fault Refusal :=
  call 6 (opMp o) s

/-- A call that executes DP. -/
def execDp (o : OpsSS2) (s : State) : Host.Outcome State Fault Refusal :=
  call 6 (opDp o) s

/-- A call that executes SRP. -/
def execSrp (o : OpsSS2) (s : State) : Host.Outcome State Fault Refusal :=
  call 6 (opSrp o) s

/-- A call that executes MVO. -/
def execMvo (o : OpsSS2) (s : State) : Host.Outcome State Fault Refusal :=
  call 6 (opMvo o) s

/-- A call that executes PACK. -/
def execPack (o : OpsSS2) (s : State) : Host.Outcome State Fault Refusal :=
  call 6 (opPack o) s

/-- A call that executes UNPK. -/
def execUnpk (o : OpsSS2) (s : State) : Host.Outcome State Fault Refusal :=
  call 6 (opUnpk o) s

/-- A call that executes CVB. -/
def execCvb (o : OpsRX) (s : State) : Host.Outcome State Fault Refusal :=
  call 4 (opCvb o) s

/-- A call that executes CVD. -/
def execCvd (o : OpsRX) (s : State) : Host.Outcome State Fault Refusal :=
  call 4 (opCvd o) s

/-- A call that executes ED. -/
def execEd (o : OpsSS) (s : State) : Host.Outcome State Fault Refusal :=
  call 6 (opEd o) s

/-- A call that executes EDMK. -/
def execEdmk (o : OpsSS) (s : State) : Host.Outcome State Fault Refusal :=
  call 6 (opEdmk o) s

end Sys2Proof.Machine
end

