-- ==== Sys2Proof/Machine/FixedPoint.lean ====
section
/-! DEFINITION. Fixed-point arithmetic (`spec/40_fixed_point.md`). `op<Mnemonic>` is an instruction's
rule, which EX runs too; `exec<Mnemonic>` is a call that executes the instruction. -/

namespace Sys2Proof.Machine

/-! ## Shared operations -/

/-- Write an exact signed result, truncated, and its CC; overflow as R201 says (R200). -/
def signedResult (r : Nib) (v : Int) (s : State) : Effect :=
  let res := BitVec.ofInt 32 v
  let ovf := !fitsSigned 32 v
  fixedOverflowExit ovf ((s.setGr r res).setCc (ccSigned ovf res))

/-- Write a logical sum and its CC (R202). -/
def logicalSum (r : Nib) (x y : Word) (cin : Bool) (s : State) : Effect :=
  let (res, cc) := addLogical x y cin
  .ok (.advance ((s.setGr r res).setCc cc))

/-- Multiply the odd register of the pair at `r` by `m` into the pair (R228). -/
def multiplyPair (r : Nib) (m : Word) (s : State) : Effect :=
  .ok (.advance (s.setPair r (BitVec.ofInt 64 ((s.getGr (r + 1)).toInt * m.toInt))))

/-- Divide the pair at `r` by `d`: remainder to the even register, quotient to the odd one; a zero
divisor or a quotient out of range is a fixed-point divide exception, suppressed (R231, D25). -/
def dividePair (r : Nib) (d : Word) (s : State) : Effect := do
  let n := (s.getPair r).toInt
  let q := n.tdiv d.toInt
  demand (decide (d ≠ 0) && fitsSigned 32 q) .fixedDivide s
  return .advance ((s.setGr r (BitVec.ofInt 32 (n - q * d.toInt))).setGr (r + 1) (BitVec.ofInt 32 q))

/-! ## Load and sign instructions -/

/-- LR (R210). -/
def opLr (o : OpsRR) (_ : Ctx) (s : State) : Effect := .ok (.advance (s.setGr o.r1 (s.getGr o.r2)))

/-- LTR (R211). -/
def opLtr (o : OpsRR) (_ : Ctx) (s : State) : Effect :=
  .ok (.advance ((s.setGr o.r1 (s.getGr o.r2)).setCc (ccArith (s.getGr o.r2).toInt)))

/-- LCR (R212). -/
def opLcr (o : OpsRR) (_ : Ctx) (s : State) : Effect := signedResult o.r1 (-(s.getGr o.r2).toInt) s

/-- LNR (R213): the negative of a magnitude always fits. -/
def opLnr (o : OpsRR) (_ : Ctx) (s : State) : Effect :=
  let v := (s.getGr o.r2).toInt
  let r := if v ≤ 0 then v else -v
  .ok (.advance ((s.setGr o.r1 (BitVec.ofInt 32 r)).setCc (ccArith r)))

/-- LPR (R214). -/
def opLpr (o : OpsRR) (_ : Ctx) (s : State) : Effect :=
  signedResult o.r1 (s.getGr o.r2).toInt.natAbs s

/-! ## Add and subtract -/

/-- AR (R215). -/
def opAr (o : OpsRR) (_ : Ctx) (s : State) : Effect :=
  signedResult o.r1 ((s.getGr o.r1).toInt + (s.getGr o.r2).toInt) s

/-- A (R216). -/
def opA (o : OpsRX) (_ : Ctx) (s : State) : Effect := do
  let m ← s.wordRX o
  signedResult o.r1 ((s.getGr o.r1).toInt + m.toInt) s

/-- AH (R217). -/
def opAh (o : OpsRX) (_ : Ctx) (s : State) : Effect := do
  let m ← s.halfRX o
  signedResult o.r1 ((s.getGr o.r1).toInt + m.toInt) s

/-- SR (R218). -/
def opSr (o : OpsRR) (_ : Ctx) (s : State) : Effect :=
  signedResult o.r1 ((s.getGr o.r1).toInt - (s.getGr o.r2).toInt) s

/-- S (R219). -/
def opS (o : OpsRX) (_ : Ctx) (s : State) : Effect := do
  let m ← s.wordRX o
  signedResult o.r1 ((s.getGr o.r1).toInt - m.toInt) s

/-- SH (R220). -/
def opSh (o : OpsRX) (_ : Ctx) (s : State) : Effect := do
  let m ← s.halfRX o
  signedResult o.r1 ((s.getGr o.r1).toInt - m.toInt) s

/-- ALR (R221). -/
def opAlr (o : OpsRR) (_ : Ctx) (s : State) : Effect :=
  logicalSum o.r1 (s.getGr o.r1) (s.getGr o.r2) false s

/-- AL (R222). -/
def opAl (o : OpsRX) (_ : Ctx) (s : State) : Effect := do
  let m ← s.wordRX o
  logicalSum o.r1 (s.getGr o.r1) m false s

/-- SLR (R223): the complement and a carry in. -/
def opSlr (o : OpsRR) (_ : Ctx) (s : State) : Effect :=
  logicalSum o.r1 (s.getGr o.r1) (~~~(s.getGr o.r2)) true s

/-- SL (R224). -/
def opSl (o : OpsRX) (_ : Ctx) (s : State) : Effect := do
  let m ← s.wordRX o
  logicalSum o.r1 (s.getGr o.r1) (~~~m) true s

/-! ## Compare -/

/-- CR (R225). -/
def opCr (o : OpsRR) (_ : Ctx) (s : State) : Effect :=
  .ok (.advance (s.setCc (ccCmp (s.getGr o.r1).toInt (s.getGr o.r2).toInt)))

/-- C (R226). -/
def opC (o : OpsRX) (_ : Ctx) (s : State) : Effect := do
  let m ← s.wordRX o
  return .advance (s.setCc (ccCmp (s.getGr o.r1).toInt m.toInt))

/-- CH (R227). -/
def opCh (o : OpsRX) (_ : Ctx) (s : State) : Effect := do
  let m ← s.halfRX o
  return .advance (s.setCc (ccCmp (s.getGr o.r1).toInt m.toInt))

/-! ## Multiply and divide -/

/-- MR (R228). -/
def opMr (o : OpsRR) (_ : Ctx) (s : State) : Effect := do
  demandEven o.r1 s
  multiplyPair o.r1 (s.getGr o.r2) s

/-- M (R229): the register check comes before the operand fetch. -/
def opM (o : OpsRX) (_ : Ctx) (s : State) : Effect := do
  demandEven o.r1 s
  let m ← s.wordRX o
  multiplyPair o.r1 m s

/-- MH (R230): no overflow is recognised. -/
def opMh (o : OpsRX) (_ : Ctx) (s : State) : Effect := do
  let m ← s.halfRX o
  return .advance (s.setGr o.r1 (BitVec.ofInt 32 ((s.getGr o.r1).toInt * m.toInt)))

/-- DR (R231). -/
def opDr (o : OpsRR) (_ : Ctx) (s : State) : Effect := do
  demandEven o.r1 s
  dividePair o.r1 (s.getGr o.r2) s

/-- D (R232): register check, operand fetch, divide checks. -/
def opD (o : OpsRX) (_ : Ctx) (s : State) : Effect := do
  demandEven o.r1 s
  let d ← s.wordRX o
  dividePair o.r1 d s

/-! ## Shifts -/

/-- The arithmetic left shift of R233 and R235: the sign bit stays, and overflow is recognised when the
exact product does not fit. -/
def shiftLeftSigned {w : Nat} (v : BitVec w) (n : Nat) : BitVec w × Bool :=
  let sign := BitVec.intMin w
  ((v &&& sign) ||| ((v <<< n) &&& ~~~sign), !fitsSigned w (v.toInt * 2 ^ n))

/-- SLA (R233). -/
def opSla (o : OpsRS) (_ : Ctx) (s : State) : Effect :=
  let (res, ovf) := shiftLeftSigned (s.getGr o.r1) (s.shiftCount o.b2 o.d2)
  fixedOverflowExit ovf ((s.setGr o.r1 res).setCc (ccSigned ovf res))

/-- SRA (R234). -/
def opSra (o : OpsRS) (_ : Ctx) (s : State) : Effect :=
  let res := (s.getGr o.r1).sshiftRight (s.shiftCount o.b2 o.d2)
  .ok (.advance ((s.setGr o.r1 res).setCc (ccArith res.toInt)))

/-- SLDA (R235). -/
def opSlda (o : OpsRS) (_ : Ctx) (s : State) : Effect := do
  demandEven o.r1 s
  let (res, ovf) := shiftLeftSigned (s.getPair o.r1) (s.shiftCount o.b2 o.d2)
  fixedOverflowExit ovf ((s.setPair o.r1 res).setCc (ccSigned ovf res))

/-- SRDA (R236). -/
def opSrda (o : OpsRS) (_ : Ctx) (s : State) : Effect := do
  demandEven o.r1 s
  let res := (s.getPair o.r1).sshiftRight (s.shiftCount o.b2 o.d2)
  return .advance ((s.setPair o.r1 res).setCc (ccArith res.toInt))

/-- SLL (R237): a count of 32 or more gives 0. -/
def opSll (o : OpsRS) (_ : Ctx) (s : State) : Effect :=
  .ok (.advance (s.setGr o.r1 (s.getGr o.r1 <<< s.shiftCount o.b2 o.d2)))

/-- SRL (R238): a count of 32 or more gives 0. -/
def opSrl (o : OpsRS) (_ : Ctx) (s : State) : Effect :=
  .ok (.advance (s.setGr o.r1 (s.getGr o.r1 >>> s.shiftCount o.b2 o.d2)))

/-- SLDL (R239). -/
def opSldl (o : OpsRS) (_ : Ctx) (s : State) : Effect := do
  demandEven o.r1 s
  return .advance (s.setPair o.r1 (s.getPair o.r1 <<< s.shiftCount o.b2 o.d2))

/-- SRDL (R240). -/
def opSrdl (o : OpsRS) (_ : Ctx) (s : State) : Effect := do
  demandEven o.r1 s
  return .advance (s.setPair o.r1 (s.getPair o.r1 >>> s.shiftCount o.b2 o.d2))

/-! ## Calls that execute one instruction (R150) -/

/-- A call that executes LR. -/
def execLr (o : OpsRR) (s : State) : Host.Outcome State Fault Refusal :=
  call 2 (opLr o) s

/-- A call that executes LTR. -/
def execLtr (o : OpsRR) (s : State) : Host.Outcome State Fault Refusal :=
  call 2 (opLtr o) s

/-- A call that executes LCR. -/
def execLcr (o : OpsRR) (s : State) : Host.Outcome State Fault Refusal :=
  call 2 (opLcr o) s

/-- A call that executes LNR. -/
def execLnr (o : OpsRR) (s : State) : Host.Outcome State Fault Refusal :=
  call 2 (opLnr o) s

/-- A call that executes LPR. -/
def execLpr (o : OpsRR) (s : State) : Host.Outcome State Fault Refusal :=
  call 2 (opLpr o) s

/-- A call that executes AR. -/
def execAr (o : OpsRR) (s : State) : Host.Outcome State Fault Refusal :=
  call 2 (opAr o) s

/-- A call that executes A. -/
def execA (o : OpsRX) (s : State) : Host.Outcome State Fault Refusal :=
  call 4 (opA o) s

/-- A call that executes AH. -/
def execAh (o : OpsRX) (s : State) : Host.Outcome State Fault Refusal :=
  call 4 (opAh o) s

/-- A call that executes SR. -/
def execSr (o : OpsRR) (s : State) : Host.Outcome State Fault Refusal :=
  call 2 (opSr o) s

/-- A call that executes S. -/
def execS (o : OpsRX) (s : State) : Host.Outcome State Fault Refusal :=
  call 4 (opS o) s

/-- A call that executes SH. -/
def execSh (o : OpsRX) (s : State) : Host.Outcome State Fault Refusal :=
  call 4 (opSh o) s

/-- A call that executes ALR. -/
def execAlr (o : OpsRR) (s : State) : Host.Outcome State Fault Refusal :=
  call 2 (opAlr o) s

/-- A call that executes AL. -/
def execAl (o : OpsRX) (s : State) : Host.Outcome State Fault Refusal :=
  call 4 (opAl o) s

/-- A call that executes SLR. -/
def execSlr (o : OpsRR) (s : State) : Host.Outcome State Fault Refusal :=
  call 2 (opSlr o) s

/-- A call that executes SL. -/
def execSl (o : OpsRX) (s : State) : Host.Outcome State Fault Refusal :=
  call 4 (opSl o) s

/-- A call that executes CR. -/
def execCr (o : OpsRR) (s : State) : Host.Outcome State Fault Refusal :=
  call 2 (opCr o) s

/-- A call that executes C. -/
def execC (o : OpsRX) (s : State) : Host.Outcome State Fault Refusal :=
  call 4 (opC o) s

/-- A call that executes CH. -/
def execCh (o : OpsRX) (s : State) : Host.Outcome State Fault Refusal :=
  call 4 (opCh o) s

/-- A call that executes MR. -/
def execMr (o : OpsRR) (s : State) : Host.Outcome State Fault Refusal :=
  call 2 (opMr o) s

/-- A call that executes M. -/
def execM (o : OpsRX) (s : State) : Host.Outcome State Fault Refusal :=
  call 4 (opM o) s

/-- A call that executes MH. -/
def execMh (o : OpsRX) (s : State) : Host.Outcome State Fault Refusal :=
  call 4 (opMh o) s

/-- A call that executes DR. -/
def execDr (o : OpsRR) (s : State) : Host.Outcome State Fault Refusal :=
  call 2 (opDr o) s

/-- A call that executes D. -/
def execD (o : OpsRX) (s : State) : Host.Outcome State Fault Refusal :=
  call 4 (opD o) s

/-- A call that executes SLA. -/
def execSla (o : OpsRS) (s : State) : Host.Outcome State Fault Refusal :=
  call 4 (opSla o) s

/-- A call that executes SRA. -/
def execSra (o : OpsRS) (s : State) : Host.Outcome State Fault Refusal :=
  call 4 (opSra o) s

/-- A call that executes SLDA. -/
def execSlda (o : OpsRS) (s : State) : Host.Outcome State Fault Refusal :=
  call 4 (opSlda o) s

/-- A call that executes SRDA. -/
def execSrda (o : OpsRS) (s : State) : Host.Outcome State Fault Refusal :=
  call 4 (opSrda o) s

/-- A call that executes SLL. -/
def execSll (o : OpsRS) (s : State) : Host.Outcome State Fault Refusal :=
  call 4 (opSll o) s

/-- A call that executes SRL. -/
def execSrl (o : OpsRS) (s : State) : Host.Outcome State Fault Refusal :=
  call 4 (opSrl o) s

/-- A call that executes SLDL. -/
def execSldl (o : OpsRS) (s : State) : Host.Outcome State Fault Refusal :=
  call 4 (opSldl o) s

/-- A call that executes SRDL. -/
def execSrdl (o : OpsRS) (s : State) : Host.Outcome State Fault Refusal :=
  call 4 (opSrdl o) s

end Sys2Proof.Machine
end

