-- ==== Sys2Proof/Machine/Float.lean ====
section
/-! DEFINITION. Hexadecimal floating point (`spec/41_floating_point.md`): operands as exact integers,
the arithmetic primitives R304 to R308, and the instructions. Every instruction checks its register
fields first (R35). -/

namespace Sys2Proof.Machine

/-! ## Formats and values (R300 to R303) -/

/-- Short (6 hex digits) or long (14). -/
inductive HfpFormat where
  | short
  | long
  deriving DecidableEq, Repr

/-- The number of hex digits of the fraction, `n` (R300). -/
def hfpDigits : HfpFormat → Nat
  | .short => 6
  | .long => 14

/-- A number in parts: sign (true for 1), characteristic, fraction (R300). The characteristic is an
exact integer, so that it may leave 0 to 127 on the way. -/
structure Hfp where
  sign : Bool
  char : Int
  frac : Nat
  deriving DecidableEq, Repr

/-- The parts of a short pattern (R300). -/
def hfpOfWord (v : Word) : Hfp :=
  { sign := v.getLsbD 31, char := (v.extractLsb' 24 7).toNat, frac := (v.extractLsb' 0 24).toNat }

/-- The parts of a long pattern (R300). -/
def hfpOfDWord (v : DWord) : Hfp :=
  { sign := v.getLsbD 63, char := (v.extractLsb' 56 7).toNat, frac := (v.extractLsb' 0 56).toNat }

/-- The short pattern of parts in range (R300). -/
def wordOfHfp (x : Hfp) : Word :=
  BitVec.ofBool x.sign ++ BitVec.ofInt 7 x.char ++ BitVec.ofNat 24 x.frac

/-- The long pattern of parts in range (R300). -/
def dwordOfHfp (x : Hfp) : DWord :=
  BitVec.ofBool x.sign ++ BitVec.ofInt 7 x.char ++ BitVec.ofNat 56 x.frac

/-- The true zero, every bit 0 (R17, R301). -/
def trueZero : Hfp := { sign := false, char := 0, frac := 0 }

/-- `HfpCC(v)` (R303). -/
def ccHfp (x : Hfp) : BitVec 2 := if x.frac = 0 then 0 else if x.sign then 1 else 2

/-- The register operand in a format: `FRH[r]` or `FR[r]` (R302). -/
def State.getHfp (s : State) (f : HfpFormat) (r : Fin 4) : Hfp :=
  match f with
  | .short => hfpOfWord (s.getFrh r)
  | .long => hfpOfDWord (s.getFr r)

/-- `Write(v)`: a short result leaves bits 32-63 of the register, a long one replaces all (R302). -/
def State.setHfp (s : State) (f : HfpFormat) (r : Fin 4) (x : Hfp) : State :=
  match f with
  | .short => s.setFrh r (wordOfHfp x)
  | .long => s.setFr r (dwordOfHfp x)

/-- The storage operand of an RX form in a format (R302). -/
def State.loadHfp (s : State) (f : HfpFormat) (a : Addr) : Except Raise Hfp :=
  match f with
  | .short => do return hfpOfWord (← s.load 32 a)
  | .long => do return hfpOfDWord (← s.load 64 a)

/-! ## Arithmetic primitives (R304 to R308) -/

/-- Shift the fraction left a digit at a time while it is below `limit`, at most `fuel` times. -/
def normalizeHfp (limit : Nat) : Nat → Hfp → Hfp
  | 0, x => x
  | fuel + 1, x =>
    if x.frac < limit then
      normalizeHfp limit fuel { x with char := x.char - 1, frac := x.frac * 16 }
    else x

/-- More digits than any fraction has, so enough steps to normalize every nonzero one. -/
def normalizeFuel : Nat := 16

/-- A signed fraction (R304). -/
def signedFrac (sign : Bool) (f : Nat) : Int := if sign then -(f : Int) else f

/-- `HfpAddCore`: aligned addition with one guard digit (R304). The fraction of the result has `n+1`
digits. -/
def hfpAddCore (x y : Hfp) (n : Nat) (negate : Bool) : Hfp :=
  let f1 := x.frac * 16
  let f2 := y.frac * 16
  let s2 := xor negate y.sign
  let d := x.char - y.char
  let f1' := if d < 0 then f1 / 16 ^ (-d).toNat else f1
  let f2' := if d < 0 then f2 else f2 / 16 ^ d.toNat
  let c := if d < 0 then y.char else x.char
  let v := signedFrac x.sign f1' + signedFrac s2 f2'
  let m := v.natAbs
  if 16 ^ (n + 1) ≤ m then { sign := decide (v < 0), char := c + 1, frac := m / 16 }
  else { sign := decide (v < 0), char := c, frac := m }

/-- `HfpAddFinish`: significance, normalization, truncation of the guard digit, exponent checks, result
and CC (R305, R921). DEDUCED (log 11): an unnormalized sum of which only the guard digit is nonzero is stored
with its characteristic, a plus sign and a zero fraction, as R305's pseudocode has it, and not as the true zero
that D27 speaks of. -/
def hfpAddFinish (f : HfpFormat) (r : Fin 4) (x : Hfp) (norm : Bool) (s : State) : Effect :=
  if x.frac = 0 then
    if s.psw.pmSg then
      raiseProgram .significance
        ((s.setHfp f r { sign := false, char := x.char % 128, frac := 0 }).setCc 0)
    else .ok (.advance ((s.setHfp f r trueZero).setCc 0))
  else
    let y := if norm then normalizeHfp (16 ^ hfpDigits f) normalizeFuel x else x
    let frac := y.frac / 16
    let z : Hfp := { sign := y.sign && decide (frac ≠ 0), char := y.char, frac := frac }
    if 127 < z.char then
      let z' := { z with char := z.char - 128 }
      raiseProgram .exponentOverflow ((s.setHfp f r z').setCc (ccHfp z'))
    else if z.char < 0 then
      if s.psw.pmEu then
        let z' := { z with char := z.char + 128 }
        raiseProgram .exponentUnderflow ((s.setHfp f r z').setCc (ccHfp z'))
      else .ok (.advance ((s.setHfp f r trueZero).setCc 0))
    else .ok (.advance ((s.setHfp f r z).setCc (ccHfp z)))

/-- `HfpExpFinish`: exponent checks and the result; the CC is never set (R306). -/
def hfpExpFinish (f : HfpFormat) (r : Fin 4) (x : Hfp) (s : State) : Effect :=
  if 127 < x.char then
    raiseProgram .exponentOverflow (s.setHfp f r { x with char := x.char - 128 })
  else if x.char < 0 then
    if s.psw.pmEu then
      raiseProgram .exponentUnderflow (s.setHfp f r { x with char := x.char + 128 })
    else .ok (.advance (s.setHfp f r trueZero))
  else .ok (.advance (s.setHfp f r x))

/-- Prenormalization of a nonzero operand of `n` digits (R307). -/
def prenormalize (n : Nat) (x : Hfp) : Hfp := normalizeHfp (16 ^ (n - 1)) normalizeFuel x

/-- `HfpMul`: operands of format `fin`, the result in format `fout` (R307). -/
def hfpMul (fin fout : HfpFormat) (r : Fin 4) (x y : Hfp) (s : State) : Effect :=
  if x.frac = 0 ∨ y.frac = 0 then .ok (.advance (s.setHfp fout r trueZero))
  else
    let n := hfpDigits fin
    let x := prenormalize n x
    let y := prenormalize n y
    let c := x.char + y.char - 64
    let p := x.frac * y.frac
    let low := decide (p < 16 ^ (2 * n - 1))
    let p' := if low then p * 16 else p
    let c' := if low then c - 1 else c
    let m := hfpDigits fout
    let frac := if 2 * n ≤ m then p' * 16 ^ (m - 2 * n) else p' / 16 ^ (2 * n - m)
    hfpExpFinish fout r { sign := xor x.sign y.sign, char := c', frac := frac } s

/-- `HfpDiv` (R308): a zero divisor fraction is a floating-point divide exception, suppressed. -/
def hfpDiv (f : HfpFormat) (r : Fin 4) (x y : Hfp) (s : State) : Effect :=
  if y.frac = 0 then raiseProgram .floatDivide s
  else if x.frac = 0 then .ok (.advance (s.setHfp f r trueZero))
  else
    let n := hfpDigits f
    let x := prenormalize n x
    let y := prenormalize n y
    let c := x.char - y.char + 64
    let sign := xor x.sign y.sign
    if y.frac ≤ x.frac then
      hfpExpFinish f r { sign := sign, char := c + 1, frac := x.frac * 16 ^ (n - 1) / y.frac } s
    else hfpExpFinish f r { sign := sign, char := c, frac := x.frac * 16 ^ n / y.frac } s

/-- Halve (R362, D26): shift right one bit into the guard digit, normalize, truncate. -/
def hfpHalve (f : HfpFormat) (r : Fin 4) (x : Hfp) (s : State) : Effect :=
  if x.frac = 0 then .ok (.advance (s.setHfp f r trueZero))
  else
    let y := normalizeHfp (16 ^ hfpDigits f) normalizeFuel { x with frac := x.frac * 16 / 2 }
    hfpExpFinish f r { y with frac := y.frac / 16 } s

/-! ## Instruction shapes -/

/-- An RR instruction over two floating-point registers (R35, R302). -/
def floatRR (o : OpsRR) (k : Fin 4 → Fin 4 → Effect) (s : State) : Effect := do
  let r1 ← floatReg o.r1 s
  let r2 ← floatReg o.r2 s
  k r1 r2

/-- An arithmetic RR instruction in one format. -/
def arithRR (f : HfpFormat) (o : OpsRR) (k : Fin 4 → Hfp → Hfp → State → Effect) (s : State) : Effect :=
  floatRR o (fun r1 r2 => k r1 (s.getHfp f r1) (s.getHfp f r2) s) s

/-- An arithmetic RX instruction in one format: the register check comes before the storage access. -/
def arithRX (f : HfpFormat) (o : OpsRX) (k : Fin 4 → Hfp → Hfp → State → Effect) (s : State) : Effect := do
  let r1 ← floatReg o.r1 s
  let y ← s.loadHfp f (s.eaRX o)
  k r1 (s.getHfp f r1) y s

/-- Add or subtract, normalized or not (R334 to R349). -/
def addSub (f : HfpFormat) (negate norm : Bool) (r : Fin 4) (x y : Hfp) (s : State) : Effect :=
  hfpAddFinish f r (hfpAddCore x y (hfpDigits f) negate) norm s

/-- Compare: only the CC is written (R350 to R353). -/
def compareHfp (f : HfpFormat) (_ : Fin 4) (x y : Hfp) (s : State) : Effect :=
  let d := hfpAddCore x y (hfpDigits f) true
  .ok (.advance (s.setCc (ccHfp d)))

/-- A load in the short format that changes at most the sign, with CC (R326 to R332). -/
def signShort (o : OpsRR) (f : Word → Word) (s : State) : Effect :=
  floatRR o (fun r1 r2 =>
    let v := f (s.getFrh r2)
    .ok (.advance ((s.setFrh r1 v).setCc (ccHfp (hfpOfWord v))))) s

/-- A load in the long format that changes at most the sign, with CC (R327 to R333). -/
def signLong (o : OpsRR) (f : DWord → DWord) (s : State) : Effect :=
  floatRR o (fun r1 r2 =>
    let v := f (s.getFr r2)
    .ok (.advance ((s.setFr r1 v).setCc (ccHfp (hfpOfDWord v))))) s

/-! ## Load and store (no normalization, C6) -/

/-- LER (R320). -/
def opLer (o : OpsRR) (_ : Ctx) (s : State) : Effect :=
  floatRR o (fun r1 r2 => .ok (.advance (s.setFrh r1 (s.getFrh r2)))) s

/-- LDR (R321). -/
def opLdr (o : OpsRR) (_ : Ctx) (s : State) : Effect :=
  floatRR o (fun r1 r2 => .ok (.advance (s.setFr r1 (s.getFr r2)))) s

/-- LE (R322). -/
def opLe (o : OpsRX) (_ : Ctx) (s : State) : Effect := do
  let r ← floatReg o.r1 s
  let m ← s.wordRX o
  return .advance (s.setFrh r m)

/-- LD (R323). -/
def opLd (o : OpsRX) (_ : Ctx) (s : State) : Effect := do
  let r ← floatReg o.r1 s
  let m ← s.dwordRX o
  return .advance (s.setFr r m)

/-- STE (R324). -/
def opSte (o : OpsRX) (_ : Ctx) (s : State) : Effect := do
  let r ← floatReg o.r1 s
  let s ← s.store (s.eaRX o) (s.getFrh r)
  return .advance s

/-- STD (R325). -/
def opStd (o : OpsRX) (_ : Ctx) (s : State) : Effect := do
  let r ← floatReg o.r1 s
  let s ← s.store (s.eaRX o) (s.getFr r)
  return .advance s

/-! ## Load and test, complement, negative, positive -/

/-- LTER (R326). -/
def opLter (o : OpsRR) (_ : Ctx) (s : State) : Effect := signShort o (fun v => v) s

/-- LTDR (R327). -/
def opLtdr (o : OpsRR) (_ : Ctx) (s : State) : Effect := signLong o (fun v => v) s

/-- LCER (R328). -/
def opLcer (o : OpsRR) (_ : Ctx) (s : State) : Effect := signShort o (· ^^^ 0x80000000) s

/-- LCDR (R329). -/
def opLcdr (o : OpsRR) (_ : Ctx) (s : State) : Effect := signLong o (· ^^^ 0x8000000000000000) s

/-- LNER (R330). -/
def opLner (o : OpsRR) (_ : Ctx) (s : State) : Effect := signShort o (· ||| 0x80000000) s

/-- LNDR (R331). -/
def opLndr (o : OpsRR) (_ : Ctx) (s : State) : Effect := signLong o (· ||| 0x8000000000000000) s

/-- LPER (R332). -/
def opLper (o : OpsRR) (_ : Ctx) (s : State) : Effect := signShort o (· &&& 0x7FFFFFFF) s

/-- LPDR (R333). -/
def opLpdr (o : OpsRR) (_ : Ctx) (s : State) : Effect := signLong o (· &&& 0x7FFFFFFFFFFFFFFF) s

/-! ## Add and subtract, normalized -/

/-- AER (R334). -/
def opAer (o : OpsRR) (_ : Ctx) (s : State) : Effect := arithRR .short o (addSub .short false true) s

/-- AE (R335). -/
def opAe (o : OpsRX) (_ : Ctx) (s : State) : Effect := arithRX .short o (addSub .short false true) s

/-- ADR (R336). -/
def opAdr (o : OpsRR) (_ : Ctx) (s : State) : Effect := arithRR .long o (addSub .long false true) s

/-- AD (R337). -/
def opAd (o : OpsRX) (_ : Ctx) (s : State) : Effect := arithRX .long o (addSub .long false true) s

/-- SER (R338). -/
def opSer (o : OpsRR) (_ : Ctx) (s : State) : Effect := arithRR .short o (addSub .short true true) s

/-- SE (R339). -/
def opSe (o : OpsRX) (_ : Ctx) (s : State) : Effect := arithRX .short o (addSub .short true true) s

/-- SDR (R340). -/
def opSdr (o : OpsRR) (_ : Ctx) (s : State) : Effect := arithRR .long o (addSub .long true true) s

/-- SD (R341). -/
def opSd (o : OpsRX) (_ : Ctx) (s : State) : Effect := arithRX .long o (addSub .long true true) s

/-! ## Add and subtract, unnormalized -/

/-- AUR (R342). -/
def opAur (o : OpsRR) (_ : Ctx) (s : State) : Effect := arithRR .short o (addSub .short false false) s

/-- AU (R343). -/
def opAu (o : OpsRX) (_ : Ctx) (s : State) : Effect := arithRX .short o (addSub .short false false) s

/-- AWR (R344). -/
def opAwr (o : OpsRR) (_ : Ctx) (s : State) : Effect := arithRR .long o (addSub .long false false) s

/-- AW (R345). -/
def opAw (o : OpsRX) (_ : Ctx) (s : State) : Effect := arithRX .long o (addSub .long false false) s

/-- SUR (R346). -/
def opSur (o : OpsRR) (_ : Ctx) (s : State) : Effect := arithRR .short o (addSub .short true false) s

/-- SU (R347). -/
def opSu (o : OpsRX) (_ : Ctx) (s : State) : Effect := arithRX .short o (addSub .short true false) s

/-- SWR (R348). -/
def opSwr (o : OpsRR) (_ : Ctx) (s : State) : Effect := arithRR .long o (addSub .long true false) s

/-- SW (R349). -/
def opSw (o : OpsRX) (_ : Ctx) (s : State) : Effect := arithRX .long o (addSub .long true false) s

/-! ## Compare -/

/-- CER (R350). -/
def opCer (o : OpsRR) (_ : Ctx) (s : State) : Effect := arithRR .short o (compareHfp .short) s

/-- CE (R351). -/
def opCe (o : OpsRX) (_ : Ctx) (s : State) : Effect := arithRX .short o (compareHfp .short) s

/-- CDR (R352). -/
def opCdr (o : OpsRR) (_ : Ctx) (s : State) : Effect := arithRR .long o (compareHfp .long) s

/-- CD (R353). -/
def opCd (o : OpsRX) (_ : Ctx) (s : State) : Effect := arithRX .long o (compareHfp .long) s

/-! ## Multiply -/

/-- MER (R354): short operands, a long result. -/
def opMer (o : OpsRR) (_ : Ctx) (s : State) : Effect := arithRR .short o (hfpMul .short .long) s

/-- ME (R355): short operands, a long result. -/
def opMe (o : OpsRX) (_ : Ctx) (s : State) : Effect := arithRX .short o (hfpMul .short .long) s

/-- MDR (R356). -/
def opMdr (o : OpsRR) (_ : Ctx) (s : State) : Effect := arithRR .long o (hfpMul .long .long) s

/-- MD (R357). -/
def opMd (o : OpsRX) (_ : Ctx) (s : State) : Effect := arithRX .long o (hfpMul .long .long) s

/-! ## Divide -/

/-- DER (R358). -/
def opDer (o : OpsRR) (_ : Ctx) (s : State) : Effect := arithRR .short o (hfpDiv .short) s

/-- DE (R359). -/
def opDe (o : OpsRX) (_ : Ctx) (s : State) : Effect := arithRX .short o (hfpDiv .short) s

/-- DDR (R360). -/
def opDdr (o : OpsRR) (_ : Ctx) (s : State) : Effect := arithRR .long o (hfpDiv .long) s

/-- DD (R361). -/
def opDd (o : OpsRX) (_ : Ctx) (s : State) : Effect := arithRX .long o (hfpDiv .long) s

/-! ## Halve -/

/-- HER (R362). -/
def opHer (o : OpsRR) (_ : Ctx) (s : State) : Effect :=
  arithRR .short o (fun r _ y => hfpHalve .short r y) s

/-- HDR (R363). -/
def opHdr (o : OpsRR) (_ : Ctx) (s : State) : Effect :=
  arithRR .long o (fun r _ y => hfpHalve .long r y) s

/-! ## Calls that execute one instruction (R150) -/

/-- A call that executes LER. -/
def execLer (o : OpsRR) (s : State) : Host.Outcome State Fault Refusal :=
  call 2 (opLer o) s

/-- A call that executes LDR. -/
def execLdr (o : OpsRR) (s : State) : Host.Outcome State Fault Refusal :=
  call 2 (opLdr o) s

/-- A call that executes LE. -/
def execLe (o : OpsRX) (s : State) : Host.Outcome State Fault Refusal :=
  call 4 (opLe o) s

/-- A call that executes LD. -/
def execLd (o : OpsRX) (s : State) : Host.Outcome State Fault Refusal :=
  call 4 (opLd o) s

/-- A call that executes STE. -/
def execSte (o : OpsRX) (s : State) : Host.Outcome State Fault Refusal :=
  call 4 (opSte o) s

/-- A call that executes STD. -/
def execStd (o : OpsRX) (s : State) : Host.Outcome State Fault Refusal :=
  call 4 (opStd o) s

/-- A call that executes LTER. -/
def execLter (o : OpsRR) (s : State) : Host.Outcome State Fault Refusal :=
  call 2 (opLter o) s

/-- A call that executes LTDR. -/
def execLtdr (o : OpsRR) (s : State) : Host.Outcome State Fault Refusal :=
  call 2 (opLtdr o) s

/-- A call that executes LCER. -/
def execLcer (o : OpsRR) (s : State) : Host.Outcome State Fault Refusal :=
  call 2 (opLcer o) s

/-- A call that executes LCDR. -/
def execLcdr (o : OpsRR) (s : State) : Host.Outcome State Fault Refusal :=
  call 2 (opLcdr o) s

/-- A call that executes LNER. -/
def execLner (o : OpsRR) (s : State) : Host.Outcome State Fault Refusal :=
  call 2 (opLner o) s

/-- A call that executes LNDR. -/
def execLndr (o : OpsRR) (s : State) : Host.Outcome State Fault Refusal :=
  call 2 (opLndr o) s

/-- A call that executes LPER. -/
def execLper (o : OpsRR) (s : State) : Host.Outcome State Fault Refusal :=
  call 2 (opLper o) s

/-- A call that executes LPDR. -/
def execLpdr (o : OpsRR) (s : State) : Host.Outcome State Fault Refusal :=
  call 2 (opLpdr o) s

/-- A call that executes AER. -/
def execAer (o : OpsRR) (s : State) : Host.Outcome State Fault Refusal :=
  call 2 (opAer o) s

/-- A call that executes AE. -/
def execAe (o : OpsRX) (s : State) : Host.Outcome State Fault Refusal :=
  call 4 (opAe o) s

/-- A call that executes ADR. -/
def execAdr (o : OpsRR) (s : State) : Host.Outcome State Fault Refusal :=
  call 2 (opAdr o) s

/-- A call that executes AD. -/
def execAd (o : OpsRX) (s : State) : Host.Outcome State Fault Refusal :=
  call 4 (opAd o) s

/-- A call that executes SER. -/
def execSer (o : OpsRR) (s : State) : Host.Outcome State Fault Refusal :=
  call 2 (opSer o) s

/-- A call that executes SE. -/
def execSe (o : OpsRX) (s : State) : Host.Outcome State Fault Refusal :=
  call 4 (opSe o) s

/-- A call that executes SDR. -/
def execSdr (o : OpsRR) (s : State) : Host.Outcome State Fault Refusal :=
  call 2 (opSdr o) s

/-- A call that executes SD. -/
def execSd (o : OpsRX) (s : State) : Host.Outcome State Fault Refusal :=
  call 4 (opSd o) s

/-- A call that executes AUR. -/
def execAur (o : OpsRR) (s : State) : Host.Outcome State Fault Refusal :=
  call 2 (opAur o) s

/-- A call that executes AU. -/
def execAu (o : OpsRX) (s : State) : Host.Outcome State Fault Refusal :=
  call 4 (opAu o) s

/-- A call that executes AWR. -/
def execAwr (o : OpsRR) (s : State) : Host.Outcome State Fault Refusal :=
  call 2 (opAwr o) s

/-- A call that executes AW. -/
def execAw (o : OpsRX) (s : State) : Host.Outcome State Fault Refusal :=
  call 4 (opAw o) s

/-- A call that executes SUR. -/
def execSur (o : OpsRR) (s : State) : Host.Outcome State Fault Refusal :=
  call 2 (opSur o) s

/-- A call that executes SU. -/
def execSu (o : OpsRX) (s : State) : Host.Outcome State Fault Refusal :=
  call 4 (opSu o) s

/-- A call that executes SWR. -/
def execSwr (o : OpsRR) (s : State) : Host.Outcome State Fault Refusal :=
  call 2 (opSwr o) s

/-- A call that executes SW. -/
def execSw (o : OpsRX) (s : State) : Host.Outcome State Fault Refusal :=
  call 4 (opSw o) s

/-- A call that executes CER. -/
def execCer (o : OpsRR) (s : State) : Host.Outcome State Fault Refusal :=
  call 2 (opCer o) s

/-- A call that executes CE. -/
def execCe (o : OpsRX) (s : State) : Host.Outcome State Fault Refusal :=
  call 4 (opCe o) s

/-- A call that executes CDR. -/
def execCdr (o : OpsRR) (s : State) : Host.Outcome State Fault Refusal :=
  call 2 (opCdr o) s

/-- A call that executes CD. -/
def execCd (o : OpsRX) (s : State) : Host.Outcome State Fault Refusal :=
  call 4 (opCd o) s

/-- A call that executes MER. -/
def execMer (o : OpsRR) (s : State) : Host.Outcome State Fault Refusal :=
  call 2 (opMer o) s

/-- A call that executes ME. -/
def execMe (o : OpsRX) (s : State) : Host.Outcome State Fault Refusal :=
  call 4 (opMe o) s

/-- A call that executes MDR. -/
def execMdr (o : OpsRR) (s : State) : Host.Outcome State Fault Refusal :=
  call 2 (opMdr o) s

/-- A call that executes MD. -/
def execMd (o : OpsRX) (s : State) : Host.Outcome State Fault Refusal :=
  call 4 (opMd o) s

/-- A call that executes DER. -/
def execDer (o : OpsRR) (s : State) : Host.Outcome State Fault Refusal :=
  call 2 (opDer o) s

/-- A call that executes DE. -/
def execDe (o : OpsRX) (s : State) : Host.Outcome State Fault Refusal :=
  call 4 (opDe o) s

/-- A call that executes DDR. -/
def execDdr (o : OpsRR) (s : State) : Host.Outcome State Fault Refusal :=
  call 2 (opDdr o) s

/-- A call that executes DD. -/
def execDd (o : OpsRX) (s : State) : Host.Outcome State Fault Refusal :=
  call 4 (opDd o) s

/-- A call that executes HER. -/
def execHer (o : OpsRR) (s : State) : Host.Outcome State Fault Refusal :=
  call 2 (opHer o) s

/-- A call that executes HDR. -/
def execHdr (o : OpsRR) (s : State) : Host.Outcome State Fault Refusal :=
  call 2 (opHdr o) s

end Sys2Proof.Machine
end

