-- ==== Sys2Proof/Machine/Logical.lean ====
section
/-! DEFINITION. AND, OR, exclusive OR, compare logical, test under mask and translate
(`spec/42_logical.md`). Storage-to-storage forms go one byte at a time, left to right, each byte
fetched just before it is used (R400); an addressing exception keeps the earlier stores (R83). -/

namespace Sys2Proof.Machine

/-! ## Shared operations -/

/-- Write a logical result to a register, with its CC (R400). -/
def logicalReg (r : Nib) (v : Word) (s : State) : Effect :=
  .ok (.advance ((s.setGr r v).setCc (ccLogic v)))

/-- The SI forms: combine a storage byte with the immediate, in place (R403). -/
def logicalImm (f : Byte → Byte → Byte) (o : OpsSI) (s : State) : Effect := do
  let a := s.ea o.b1 o.d1
  let b ← s.load 8 a
  let s ← s.store a (f b o.i2)
  return .advance (s.setCc (ccLogic (f b o.i2)))

/-- `n` steps of R404's loop; `nz` gathers the OR of the result bytes. -/
def combineChars (f : Byte → Byte → Byte) :
    Nat → Addr → Addr → Byte → State → Except Raise (Byte × State)
  | 0, _, _, nz, s => .ok (nz, s)
  | n + 1, a1, a2, nz, s => do
    let b1 ← s.load 8 a1
    let b2 ← s.load 8 a2
    let s ← s.store a1 (f b1 b2)
    combineChars f n (a1 + 1) (a2 + 1) (nz ||| f b1 b2) s

/-- The SS forms: combine `L+1` bytes in place; the CC covers the whole result (R400, R404). -/
def logicalChars (f : Byte → Byte → Byte) (o : OpsSS) (s : State) : Effect := do
  let (nz, s) ← combineChars f (o.l.toNat + 1) (s.ea o.b1 o.d1) (s.ea o.b2 o.d2) 0 s
  return .advance (s.setCc (ccLogic nz))

/-- The CC of an unsigned comparison (R400). -/
def ccUnsigned {w : Nat} (x y : BitVec w) : BitVec 2 := ccCmp x.toNat y.toNat

/-! ## AND -/

/-- NR (R401). -/
def opNr (o : OpsRR) (_ : Ctx) (s : State) : Effect :=
  logicalReg o.r1 (s.getGr o.r1 &&& s.getGr o.r2) s

/-- N (R402). -/
def opN (o : OpsRX) (_ : Ctx) (s : State) : Effect := do
  let m ← s.wordRX o
  logicalReg o.r1 (s.getGr o.r1 &&& m) s

/-- NI (R403). -/
def opNi (o : OpsSI) (_ : Ctx) (s : State) : Effect := logicalImm (· &&& ·) o s

/-- NC (R404). -/
def opNc (o : OpsSS) (_ : Ctx) (s : State) : Effect := logicalChars (· &&& ·) o s

/-! ## OR -/

/-- OR (R405). -/
def opOr (o : OpsRR) (_ : Ctx) (s : State) : Effect :=
  logicalReg o.r1 (s.getGr o.r1 ||| s.getGr o.r2) s

/-- O (R406). -/
def opO (o : OpsRX) (_ : Ctx) (s : State) : Effect := do
  let m ← s.wordRX o
  logicalReg o.r1 (s.getGr o.r1 ||| m) s

/-- OI (R407). -/
def opOi (o : OpsSI) (_ : Ctx) (s : State) : Effect := logicalImm (· ||| ·) o s

/-- OC (R408). -/
def opOc (o : OpsSS) (_ : Ctx) (s : State) : Effect := logicalChars (· ||| ·) o s

/-! ## Exclusive OR -/

/-- XR (R409). -/
def opXr (o : OpsRR) (_ : Ctx) (s : State) : Effect :=
  logicalReg o.r1 (s.getGr o.r1 ^^^ s.getGr o.r2) s

/-- X (R410). -/
def opX (o : OpsRX) (_ : Ctx) (s : State) : Effect := do
  let m ← s.wordRX o
  logicalReg o.r1 (s.getGr o.r1 ^^^ m) s

/-- XI (R411). -/
def opXi (o : OpsSI) (_ : Ctx) (s : State) : Effect := logicalImm (· ^^^ ·) o s

/-- XC (R412). -/
def opXc (o : OpsSS) (_ : Ctx) (s : State) : Effect := logicalChars (· ^^^ ·) o s

/-! ## Compare logical -/

/-- CLR (R413). -/
def opClr (o : OpsRR) (_ : Ctx) (s : State) : Effect :=
  .ok (.advance (s.setCc (ccUnsigned (s.getGr o.r1) (s.getGr o.r2))))

/-- CL (R414). -/
def opCl (o : OpsRX) (_ : Ctx) (s : State) : Effect := do
  let m ← s.wordRX o
  return .advance (s.setCc (ccUnsigned (s.getGr o.r1) m))

/-- CLI (R415): the storage byte is the first operand. -/
def opCli (o : OpsSI) (_ : Ctx) (s : State) : Effect := do
  let b ← s.load 8 (s.ea o.b1 o.d1)
  return .advance (s.setCc (ccUnsigned b o.i2))

/-- Compare `n` byte pairs; only the bytes reached are accessed (R416). -/
def compareChars (s : State) : Nat → Addr → Addr → Except Raise (BitVec 2)
  | 0, _, _ => .ok 0
  | n + 1, a1, a2 => do
    let b1 ← s.load 8 a1
    let b2 ← s.load 8 a2
    if b1 = b2 then compareChars s n (a1 + 1) (a2 + 1) else .ok (ccUnsigned b1 b2)

/-- CLC (R416). -/
def opClc (o : OpsSS) (_ : Ctx) (s : State) : Effect := do
  let cc ← compareChars s (o.l.toNat + 1) (s.ea o.b1 o.d1) (s.ea o.b2 o.d2)
  return .advance (s.setCc cc)

/-- Compare the listed bytes of a register with consecutive storage bytes, up to the first unequal one
(R417, log 9). -/
def compareMasked (s : State) (v : Word) : List Nat → Addr → Except Raise (BitVec 2)
  | [], _ => .ok 0
  | j :: js, a => do
    let b ← s.load 8 a
    if byteOfWord v j = b then compareMasked s v js (a + 1) else .ok (ccUnsigned (byteOfWord v j) b)

/-- CLM (R417). -/
def opClm (o : OpsRS) (_ : Ctx) (s : State) : Effect := do
  let cc ← compareMasked s (s.getGr o.r1) (maskBytes o.r3) (s.ea o.b2 o.d2)
  return .advance (s.setCc cc)

/-- An operand of CLCL or MVCL on its way: where it stands and how many bytes are left. -/
structure LongOperand where
  addr : Addr
  left : Nat

/-- The operand the pair at `r` describes: address in `r`, length in bits 8-31 of `r+1` (R418). -/
def State.longOperand (s : State) (r : Nib) : LongOperand :=
  { addr := (s.getGr r).setWidth 24, left := ((s.getGr (r + 1)).setWidth 24).toNat }

/-- The byte an operand gives, the pad once it is exhausted (R418). -/
def LongOperand.byte (x : LongOperand) (pad : Byte) (s : State) : Except Raise Byte :=
  if x.left = 0 then .ok pad else s.load 8 x.addr

/-- The operand after one byte (R418). -/
def LongOperand.next (x : LongOperand) : LongOperand :=
  if x.left = 0 then x else { addr := x.addr + 1, left := x.left - 1 }

/-- R418's loop; the longer length bounds the number of steps. -/
def compareLong (s : State) (pad : Byte) :
    Nat → LongOperand → LongOperand → Except Raise (BitVec 2 × LongOperand × LongOperand)
  | 0, x, y => .ok (0, x, y)
  | n + 1, x, y => do
    let b1 ← x.byte pad s
    let b2 ← y.byte pad s
    if b1 = b2 then compareLong s pad n x.next y.next else .ok (ccUnsigned b1 b2, x, y)

/-- Put an operand back: the address with bits 0-7 zero, the length with bits 0-7 kept (R418, R516). -/
def State.setLongOperand (s : State) (r : Nib) (x : LongOperand) : State :=
  let s := s.setGr r (x.addr.setWidth 32)
  s.setGr (r + 1) ((s.getGr (r + 1) &&& 0xFF000000) ||| BitVec.ofNat 32 x.left)

/-- CLCL (R418). On an addressing exception no register and no CC is updated (R83). -/
def opClcl (o : OpsRR) (_ : Ctx) (s : State) : Effect := do
  demandEven o.r1 s
  demandEven o.r2 s
  let x := s.longOperand o.r1
  let y := s.longOperand o.r2
  let pad := byteOfWord (s.getGr (o.r2 + 1)) 0
  let (cc, x, y) ← compareLong s pad (max x.left y.left) x y
  return .advance (((s.setLongOperand o.r1 x).setLongOperand o.r2 y).setCc cc)

/-! ## Test under mask, translate -/

/-- TM (R419). -/
def opTm (o : OpsSI) (_ : Ctx) (s : State) : Effect := do
  let b ← s.load 8 (s.ea o.b1 o.d1)
  let t := b &&& o.i2
  return .advance (s.setCc (if t = 0 then 0 else if t = o.i2 then 3 else 1))

/-- `n` steps of R425's loop. -/
def translateChars (table : Addr) : Nat → Addr → State → Except Raise State
  | 0, _, s => .ok s
  | n + 1, a, s => do
    let b ← s.load 8 a
    let t ← s.load 8 (table + b.setWidth 24)
    let s ← s.store a t
    translateChars table n (a + 1) s

/-- TR (R425). -/
def opTr (o : OpsSS) (_ : Ctx) (s : State) : Effect := do
  let s ← translateChars (s.ea o.b2 o.d2) (o.l.toNat + 1) (s.ea o.b1 o.d1) s
  return .advance s

/-- R426's search over `n` argument bytes: the first nonzero function byte, where its argument byte
stands, and whether that one is the last. -/
def scanChars (s : State) (table : Addr) : Nat → Addr → Except Raise (Option (Addr × Byte × Bool))
  | 0, _ => .ok none
  | n + 1, a => do
    let b ← s.load 8 a
    let f ← s.load 8 (table + b.setWidth 24)
    if f = 0 then scanChars s table n (a + 1) else .ok (some (a, f, n == 0))

/-- TRT (R426): registers 1 and 2 are implied. -/
def opTrt (o : OpsSS) (_ : Ctx) (s : State) : Effect := do
  match ← scanChars s (s.ea o.b2 o.d2) (o.l.toNat + 1) (s.ea o.b1 o.d1) with
  | none => return .advance (s.setCc 0)
  | some (a, f, last) =>
    let s := s.setGr 1 ((s.getGr 1 &&& 0xFF000000) ||| a.setWidth 32)
    let s := s.setGr 2 ((s.getGr 2 &&& 0xFFFFFF00) ||| f.setWidth 32)
    return .advance (s.setCc (if last then 2 else 1))

/-! ## Calls that execute one instruction (R150) -/

/-- A call that executes NR. -/
def execNr (o : OpsRR) (s : State) : Host.Outcome State Fault Refusal :=
  call 2 (opNr o) s

/-- A call that executes N. -/
def execN (o : OpsRX) (s : State) : Host.Outcome State Fault Refusal :=
  call 4 (opN o) s

/-- A call that executes NI. -/
def execNi (o : OpsSI) (s : State) : Host.Outcome State Fault Refusal :=
  call 4 (opNi o) s

/-- A call that executes NC. -/
def execNc (o : OpsSS) (s : State) : Host.Outcome State Fault Refusal :=
  call 6 (opNc o) s

/-- A call that executes OR. -/
def execOr (o : OpsRR) (s : State) : Host.Outcome State Fault Refusal :=
  call 2 (opOr o) s

/-- A call that executes O. -/
def execO (o : OpsRX) (s : State) : Host.Outcome State Fault Refusal :=
  call 4 (opO o) s

/-- A call that executes OI. -/
def execOi (o : OpsSI) (s : State) : Host.Outcome State Fault Refusal :=
  call 4 (opOi o) s

/-- A call that executes OC. -/
def execOc (o : OpsSS) (s : State) : Host.Outcome State Fault Refusal :=
  call 6 (opOc o) s

/-- A call that executes XR. -/
def execXr (o : OpsRR) (s : State) : Host.Outcome State Fault Refusal :=
  call 2 (opXr o) s

/-- A call that executes X. -/
def execX (o : OpsRX) (s : State) : Host.Outcome State Fault Refusal :=
  call 4 (opX o) s

/-- A call that executes XI. -/
def execXi (o : OpsSI) (s : State) : Host.Outcome State Fault Refusal :=
  call 4 (opXi o) s

/-- A call that executes XC. -/
def execXc (o : OpsSS) (s : State) : Host.Outcome State Fault Refusal :=
  call 6 (opXc o) s

/-- A call that executes CLR. -/
def execClr (o : OpsRR) (s : State) : Host.Outcome State Fault Refusal :=
  call 2 (opClr o) s

/-- A call that executes CL. -/
def execCl (o : OpsRX) (s : State) : Host.Outcome State Fault Refusal :=
  call 4 (opCl o) s

/-- A call that executes CLI. -/
def execCli (o : OpsSI) (s : State) : Host.Outcome State Fault Refusal :=
  call 4 (opCli o) s

/-- A call that executes CLC. -/
def execClc (o : OpsSS) (s : State) : Host.Outcome State Fault Refusal :=
  call 6 (opClc o) s

/-- A call that executes CLM. -/
def execClm (o : OpsRS) (s : State) : Host.Outcome State Fault Refusal :=
  call 4 (opClm o) s

/-- A call that executes CLCL. -/
def execClcl (o : OpsRR) (s : State) : Host.Outcome State Fault Refusal :=
  call 2 (opClcl o) s

/-- A call that executes TM. -/
def execTm (o : OpsSI) (s : State) : Host.Outcome State Fault Refusal :=
  call 4 (opTm o) s

/-- A call that executes TR. -/
def execTr (o : OpsSS) (s : State) : Host.Outcome State Fault Refusal :=
  call 6 (opTr o) s

/-- A call that executes TRT. -/
def execTrt (o : OpsSS) (s : State) : Host.Outcome State Fault Refusal :=
  call 6 (opTrt o) s

end Sys2Proof.Machine
end

