-- ==== Sys2Proof/Machine/LoadStore.lean ====
section
/-! DEFINITION. Load, store, insert, move and interlocked update (`spec/43_load_store.md`). -/

namespace Sys2Proof.Machine

/-! ## Load and store -/

/-- L (R501). -/
def opL (o : OpsRX) (_ : Ctx) (s : State) : Effect := do
  let m ← s.wordRX o
  return .advance (s.setGr o.r1 m)

/-- LH (R502). -/
def opLh (o : OpsRX) (_ : Ctx) (s : State) : Effect := do
  let m ← s.halfRX o
  return .advance (s.setGr o.r1 m)

/-- ST (R503). -/
def opSt (o : OpsRX) (_ : Ctx) (s : State) : Effect := do
  let s ← s.store (s.eaRX o) (s.getGr o.r1)
  return .advance s

/-- STH (R504): bits 16-31 of the register. -/
def opSth (o : OpsRX) (_ : Ctx) (s : State) : Effect := do
  let s ← s.store (s.eaRX o) ((s.getGr o.r1).extractLsb' 0 16)
  return .advance s

/-- LA (R505): no storage is accessed; bits 0-7 become zero. -/
def opLa (o : OpsRX) (_ : Ctx) (s : State) : Effect :=
  .ok (.advance (s.setGr o.r1 ((s.eaRX o).setWidth 32)))

/-! ## Characters and masks -/

/-- IC (R506). -/
def opIc (o : OpsRX) (_ : Ctx) (s : State) : Effect := do
  let b ← s.load 8 (s.eaRX o)
  return .advance (s.setGr o.r1 ((s.getGr o.r1 &&& 0xFFFFFF00) ||| b.setWidth 32))

/-- STC (R507). -/
def opStc (o : OpsRX) (_ : Ctx) (s : State) : Effect := do
  let s ← s.store (s.eaRX o) ((s.getGr o.r1).extractLsb' 0 8)
  return .advance s

/-- Put bytes into the listed places of a word (R508). -/
def insertBytes : List Nat → List Byte → Word → Word
  | j :: js, b :: bs, v => insertBytes js bs (setByteOfWord v j b)
  | _, _, v => v

/-- The CC of ICM: 0 for no byte or all bytes zero, else by the first byte's leftmost bit (R508). -/
def ccInserted (bs : List Byte) : BitVec 2 :=
  if bs.all (· == 0) then 0 else if (bs.headD 0).getLsbD 7 then 1 else 2

/-- ICM (R508): consecutive storage bytes (D35, C7), all checked before the register changes (D9). -/
def opIcm (o : OpsRS) (_ : Ctx) (s : State) : Effect := do
  let js := maskBytes o.r3
  let bs ← s.loadBytes (s.ea o.b2 o.d2) js.length
  return .advance ((s.setGr o.r1 (insertBytes js bs (s.getGr o.r1))).setCc (ccInserted bs))

/-- STCM (R509): all selected bytes are checked before the first store (D9). -/
def opStcm (o : OpsRS) (_ : Ctx) (s : State) : Effect := do
  let s ← s.storeBytes (s.ea o.b2 o.d2) ((maskBytes o.r3).map (byteOfWord (s.getGr o.r1)))
  return .advance s

/-! ## Multiple registers -/

/-- How many registers LM and STM move: from `r1` up to `r3`, 15 followed by 0 (R510). -/
def registerCount (o : OpsRS) : Nat := (o.r3 - o.r1).toNat + 1

/-- Load `n` registers from `r` on, 15 followed by 0, from consecutive words (R510). -/
def State.loadRegisters (s : State) : Nat → Nib → Addr → State
  | 0, _, _ => s
  | n + 1, r, a => State.loadRegisters (s.setGr r (s.peek 32 a)) n (r + 1) (a + 4)

/-- LM (R510): the whole operand is checked before a register changes (R500). -/
def opLm (o : OpsRS) (_ : Ctx) (s : State) : Effect := do
  let a := s.ea o.b2 o.d2
  demand (s.installed a (4 * registerCount o)) .addressing s
  return .advance (s.loadRegisters (registerCount o) o.r1 a)

/-- Store `n` registers from `r` on, 15 followed by 0, to consecutive words (R511). -/
def State.storeRegisters (s : State) : Nat → Nib → Addr → State
  | 0, _, _ => s
  | n + 1, r, a => State.storeRegisters (s.poke a (s.getGr r)) n (r + 1) (a + 4)

/-- STM (R511): the whole operand is checked before a byte changes (R500). -/
def opStm (o : OpsRS) (_ : Ctx) (s : State) : Effect := do
  let a := s.ea o.b2 o.d2
  demand (s.installed a (4 * registerCount o)) .addressing s
  return .advance (s.storeRegisters (registerCount o) o.r1 a)

/-! ## Moves -/

/-- MVI (R512). -/
def opMvi (o : OpsSI) (_ : Ctx) (s : State) : Effect := do
  let s ← s.store (s.ea o.b1 o.d1) o.i2
  return .advance s

/-- Move `n` bytes left to right, each fetched just before it is stored (R500, R513). -/
def moveChars : Nat → Addr → Addr → State → Except Raise State
  | 0, _, _, s => .ok s
  | n + 1, a1, a2, s => do
    let b ← s.load 8 a2
    let s ← s.store a1 b
    moveChars n (a1 + 1) (a2 + 1) s

/-- MVC (R513). -/
def opMvc (o : OpsSS) (_ : Ctx) (s : State) : Effect := do
  let s ← moveChars (o.l.toNat + 1) (s.ea o.b1 o.d1) (s.ea o.b2 o.d2) s
  return .advance s

/-- MVN (R514): the numerics, bits 4-7, of each byte. -/
def opMvn (o : OpsSS) (_ : Ctx) (s : State) : Effect := do
  let (_, s) ← combineChars (fun b1 b2 => (b1 &&& 0xF0) ||| (b2 &&& 0x0F)) (o.l.toNat + 1)
    (s.ea o.b1 o.d1) (s.ea o.b2 o.d2) 0 s
  return .advance s

/-- MVZ (R515): the zones, bits 0-3, of each byte. -/
def opMvz (o : OpsSS) (_ : Ctx) (s : State) : Effect := do
  let (_, s) ← combineChars (fun b1 b2 => (b2 &&& 0xF0) ||| (b1 &&& 0x0F)) (o.l.toNat + 1)
    (s.ea o.b1 o.d1) (s.ea o.b2 o.d2) 0 s
  return .advance s

/-- R516's loop: `n` bytes are left to store; `y` gives bytes, then the pad. -/
def moveLong (pad : Byte) : Nat → Addr → LongOperand → State → Except Raise State
  | 0, _, _, s => .ok s
  | n + 1, a, y, s => do
    let b ← y.byte pad s
    let s ← s.store a b
    moveLong pad n (a + 1) y.next s

/-- Whether a byte would be a source after it was a destination (R516). -/
def destructiveOverlap (x y : LongOperand) : Bool :=
  let n := min x.left y.left
  let apart := (x.addr - y.addr).toNat
  decide (1 < n) && decide (1 ≤ apart) && decide (apart ≤ n - 1)

/-- MVCL (R516). On an addressing exception no register and no CC is updated (R83). -/
def opMvcl (o : OpsRR) (_ : Ctx) (s : State) : Effect := do
  demandEven o.r1 s
  demandEven o.r2 s
  let x := s.longOperand o.r1
  let y := s.longOperand o.r2
  if destructiveOverlap x y then return .advance (s.setCc 3)
  else
    let s ← moveLong (byteOfWord (s.getGr (o.r2 + 1)) 0) x.left x.addr y s
    let n := min x.left y.left
    let s := s.setLongOperand o.r1 { addr := x.addr + BitVec.ofNat 24 x.left, left := 0 }
    let s := s.setLongOperand o.r2 { addr := y.addr + BitVec.ofNat 24 n, left := y.left - n }
    return .advance (s.setCc (ccCmp x.left y.left))

/-! ## Interlocked update -/

/-- TS (R517). -/
def opTs (o : OpsSI) (_ : Ctx) (s : State) : Effect := do
  let a := s.ea o.b1 o.d1
  let b ← s.load 8 a
  let s ← s.store a (0xFF : Byte)
  return .advance (s.setCc (if b.getLsbD 7 then 1 else 0))

/-- CS (R518). -/
def opCs (o : OpsRS) (_ : Ctx) (s : State) : Effect := do
  let a := s.ea o.b2 o.d2
  demand (a.toNat % 4 == 0) .specification s
  let v ← s.load 32 a
  if s.getGr o.r1 = v then
    let s ← s.store a (s.getGr o.r3)
    return .advance (s.setCc 0)
  else return .advance ((s.setGr o.r1 v).setCc 1)

/-- CDS (R519). -/
def opCds (o : OpsRS) (_ : Ctx) (s : State) : Effect := do
  demandEven o.r1 s
  demandEven o.r3 s
  let a := s.ea o.b2 o.d2
  demand (a.toNat % 8 == 0) .specification s
  let v ← s.load 64 a
  if s.getPair o.r1 = v then
    let s ← s.store a (s.getPair o.r3)
    return .advance (s.setCc 0)
  else return .advance ((s.setPair o.r1 v).setCc 1)

/-! ## Calls that execute one instruction (R150) -/

/-- A call that executes L. -/
def execL (o : OpsRX) (s : State) : Host.Outcome State Fault Refusal :=
  call 4 (opL o) s

/-- A call that executes LH. -/
def execLh (o : OpsRX) (s : State) : Host.Outcome State Fault Refusal :=
  call 4 (opLh o) s

/-- A call that executes ST. -/
def execSt (o : OpsRX) (s : State) : Host.Outcome State Fault Refusal :=
  call 4 (opSt o) s

/-- A call that executes STH. -/
def execSth (o : OpsRX) (s : State) : Host.Outcome State Fault Refusal :=
  call 4 (opSth o) s

/-- A call that executes LA. -/
def execLa (o : OpsRX) (s : State) : Host.Outcome State Fault Refusal :=
  call 4 (opLa o) s

/-- A call that executes IC. -/
def execIc (o : OpsRX) (s : State) : Host.Outcome State Fault Refusal :=
  call 4 (opIc o) s

/-- A call that executes STC. -/
def execStc (o : OpsRX) (s : State) : Host.Outcome State Fault Refusal :=
  call 4 (opStc o) s

/-- A call that executes ICM. -/
def execIcm (o : OpsRS) (s : State) : Host.Outcome State Fault Refusal :=
  call 4 (opIcm o) s

/-- A call that executes STCM. -/
def execStcm (o : OpsRS) (s : State) : Host.Outcome State Fault Refusal :=
  call 4 (opStcm o) s

/-- A call that executes LM. -/
def execLm (o : OpsRS) (s : State) : Host.Outcome State Fault Refusal :=
  call 4 (opLm o) s

/-- A call that executes STM. -/
def execStm (o : OpsRS) (s : State) : Host.Outcome State Fault Refusal :=
  call 4 (opStm o) s

/-- A call that executes MVI. -/
def execMvi (o : OpsSI) (s : State) : Host.Outcome State Fault Refusal :=
  call 4 (opMvi o) s

/-- A call that executes MVC. -/
def execMvc (o : OpsSS) (s : State) : Host.Outcome State Fault Refusal :=
  call 6 (opMvc o) s

/-- A call that executes MVN. -/
def execMvn (o : OpsSS) (s : State) : Host.Outcome State Fault Refusal :=
  call 6 (opMvn o) s

/-- A call that executes MVZ. -/
def execMvz (o : OpsSS) (s : State) : Host.Outcome State Fault Refusal :=
  call 6 (opMvz o) s

/-- A call that executes MVCL. -/
def execMvcl (o : OpsRR) (s : State) : Host.Outcome State Fault Refusal :=
  call 2 (opMvcl o) s

/-- A call that executes TS. -/
def execTs (o : OpsSI) (s : State) : Host.Outcome State Fault Refusal :=
  call 4 (opTs o) s

/-- A call that executes CS. -/
def execCs (o : OpsRS) (s : State) : Host.Outcome State Fault Refusal :=
  call 4 (opCs o) s

/-- A call that executes CDS. -/
def execCds (o : OpsRS) (s : State) : Host.Outcome State Fault Refusal :=
  call 4 (opCds o) s

end Sys2Proof.Machine
end

