-- ==== Sys2Proof/Machine/Execute.lean ====
section
/-! DEFINITION. EX: the rule of any target instruction, run with the EX's `next` and ILC on a modified
copy of the target (`spec/44_branch.md` R620, R621). -/

namespace Sys2Proof.Machine

/-- The rule of an instruction as EX's target. An EX is never one (R903). -/
def targetRule : Instr → Ctx → State → Effect
  | .spm o => opSpm o
  | .balr o => opBalr o
  | .bctr o => opBctr o
  | .bcr o => opBcr o
  | .ssk o => opSsk o
  | .isk o => opIsk o
  | .svc i => opSvc i
  | .mvcl o => opMvcl o
  | .clcl o => opClcl o
  | .lpr o => opLpr o
  | .lnr o => opLnr o
  | .ltr o => opLtr o
  | .lcr o => opLcr o
  | .nr o => opNr o
  | .clr o => opClr o
  | .or o => opOr o
  | .xr o => opXr o
  | .lr o => opLr o
  | .cr o => opCr o
  | .ar o => opAr o
  | .sr o => opSr o
  | .mr o => opMr o
  | .dr o => opDr o
  | .alr o => opAlr o
  | .slr o => opSlr o
  | .lpdr o => opLpdr o
  | .lndr o => opLndr o
  | .ltdr o => opLtdr o
  | .lcdr o => opLcdr o
  | .hdr o => opHdr o
  | .ldr o => opLdr o
  | .cdr o => opCdr o
  | .adr o => opAdr o
  | .sdr o => opSdr o
  | .mdr o => opMdr o
  | .ddr o => opDdr o
  | .awr o => opAwr o
  | .swr o => opSwr o
  | .lper o => opLper o
  | .lner o => opLner o
  | .lter o => opLter o
  | .lcer o => opLcer o
  | .her o => opHer o
  | .ler o => opLer o
  | .cer o => opCer o
  | .aer o => opAer o
  | .ser o => opSer o
  | .mer o => opMer o
  | .der o => opDer o
  | .aur o => opAur o
  | .sur o => opSur o
  | .sth o => opSth o
  | .la o => opLa o
  | .stc o => opStc o
  | .ic o => opIc o
  | .ex _ => fun _ s => raiseProgram .execute s
  | .bal o => opBal o
  | .bct o => opBct o
  | .bc o => opBc o
  | .lh o => opLh o
  | .ch o => opCh o
  | .ah o => opAh o
  | .sh o => opSh o
  | .mh o => opMh o
  | .cvd o => opCvd o
  | .cvb o => opCvb o
  | .st o => opSt o
  | .n o => opN o
  | .cl o => opCl o
  | .o o => opO o
  | .x o => opX o
  | .l o => opL o
  | .c o => opC o
  | .a o => opA o
  | .s o => opS o
  | .m o => opM o
  | .d o => opD o
  | .al o => opAl o
  | .sl o => opSl o
  | .std o => opStd o
  | .ld o => opLd o
  | .cd o => opCd o
  | .ad o => opAd o
  | .sd o => opSd o
  | .md o => opMd o
  | .dd o => opDd o
  | .aw o => opAw o
  | .sw o => opSw o
  | .ste o => opSte o
  | .le o => opLe o
  | .ce o => opCe o
  | .ae o => opAe o
  | .se o => opSe o
  | .me o => opMe o
  | .de o => opDe o
  | .au o => opAu o
  | .su o => opSu o
  | .ssm o => opSsm o
  | .lpsw o => opLpsw o
  | .diag o => opDiag o
  | .wrd o => opWrd o
  | .rdd o => opRdd o
  | .bxh o => opBxh o
  | .bxle o => opBxle o
  | .srl o => opSrl o
  | .sll o => opSll o
  | .sra o => opSra o
  | .sla o => opSla o
  | .srdl o => opSrdl o
  | .sldl o => opSldl o
  | .srda o => opSrda o
  | .slda o => opSlda o
  | .stm o => opStm o
  | .tm o => opTm o
  | .mvi o => opMvi o
  | .ts o => opTs o
  | .ni o => opNi o
  | .cli o => opCli o
  | .oi o => opOi o
  | .xi o => opXi o
  | .lm o => opLm o
  | .sio fn o => opSio fn o
  | .siof fn o => opSiof fn o
  | .tio fn o => opTio fn o
  | .clrio fn o => opClrio fn o
  | .hio fn o => opHio fn o
  | .hdv fn o => opHdv fn o
  | .tch fn o => opTch fn o
  | .stnsm o => opStnsm o
  | .stosm o => opStosm o
  | .sigp o => opSigp o
  | .mc o => opMc o
  | .lra o => opLra o
  | .stidp o => opStidp o
  | .stidc o => opStidc o
  | .sck o => opSck o
  | .stck o => opStck o
  | .sckc o => opSckc o
  | .stckc o => opStckc o
  | .spt o => opSpt o
  | .stpt o => opStpt o
  | .spka o => opSpka o
  | .ipk o => opIpk o
  | .ptlb o => opPtlb o
  | .spx o => opSpx o
  | .stpx o => opStpx o
  | .stap o => opStap o
  | .rrb o => opRrb o
  | .b2xx fn o => opB2xx fn o
  | .stctl o => opStctl o
  | .lctl o => opLctl o
  | .cs o => opCs o
  | .cds o => opCds o
  | .clm o => opClm o
  | .stcm o => opStcm o
  | .icm o => opIcm o
  | .mvn o => opMvn o
  | .mvc o => opMvc o
  | .mvz o => opMvz o
  | .nc o => opNc o
  | .clc o => opClc o
  | .oc o => opOc o
  | .xc o => opXc o
  | .tr o => opTr o
  | .trt o => opTrt o
  | .ed o => opEd o
  | .edmk o => opEdmk o
  | .srp o => opSrp o
  | .mvo o => opMvo o
  | .pack o => opPack o
  | .unpk o => opUnpk o
  | .zap o => opZap o
  | .cp o => opCp o
  | .ap o => opAp o
  | .sp o => opSp o
  | .mp o => opMp o
  | .dp o => opDp o

/-- The copy of the target that is run: the register's low byte is ORed into the second byte, unless the
field R1 is 0 (R620). -/
def modifiedCopy (r : Nib) (s : State) : List Byte → List Byte
  | b0 :: b1 :: rest => b0 :: (if r = 0 then b1 else b1 ||| (s.getGr r).extractLsb' 0 8) :: rest
  | bs => bs

/-- EX (R620). The target's own checks come after those of the EX (R621, D24); storage is not written
(C3); an undefined target takes R146's action with the EX's `next` and ILC (log 7). -/
def opEx (o : OpsRX) (c : Ctx) (s : State) : Effect := do
  let t := s.eaRX o
  demand (!t.getLsbD 0) .specification s
  demand (s.installed t 2) .addressing s
  demand (s.byteAt t != 0x44) .execute s
  let len := instrLength (s.byteAt t)
  demand (s.installed t len) .addressing s
  match decode (modifiedCopy o.r1 s (s.bytesAt t len)) with
  | .ok (i, _) => targetRule i c s
  | .error _ => .error .undefinedOpcode

/-- A call that executes EX. -/
def execEx (o : OpsRX) (s : State) : Host.Outcome State Fault Refusal := call 4 (opEx o) s

end Sys2Proof.Machine
end

