-- ==== Sys2Proof/Machine/Dispatch.lean ====
section
/-! DEFINITION. One call that executes a decoded instruction: one arm per constructor of `Instr`, each
one direct call of the instruction's meaning. -/

namespace Sys2Proof.Machine

def exec (i : Instr) (s : State) : Host.Outcome State Fault Refusal :=
  match i with
  | .spm o => Sys2Proof.Machine.execSpm o s
  | .balr o => Sys2Proof.Machine.execBalr o s
  | .bctr o => Sys2Proof.Machine.execBctr o s
  | .bcr o => Sys2Proof.Machine.execBcr o s
  | .ssk o => Sys2Proof.Machine.execSsk o s
  | .isk o => Sys2Proof.Machine.execIsk o s
  | .svc code => Sys2Proof.Machine.execSvc code s
  | .mvcl o => Sys2Proof.Machine.execMvcl o s
  | .clcl o => Sys2Proof.Machine.execClcl o s
  | .lpr o => Sys2Proof.Machine.execLpr o s
  | .lnr o => Sys2Proof.Machine.execLnr o s
  | .ltr o => Sys2Proof.Machine.execLtr o s
  | .lcr o => Sys2Proof.Machine.execLcr o s
  | .nr o => Sys2Proof.Machine.execNr o s
  | .clr o => Sys2Proof.Machine.execClr o s
  | .or o => Sys2Proof.Machine.execOr o s
  | .xr o => Sys2Proof.Machine.execXr o s
  | .lr o => Sys2Proof.Machine.execLr o s
  | .cr o => Sys2Proof.Machine.execCr o s
  | .ar o => Sys2Proof.Machine.execAr o s
  | .sr o => Sys2Proof.Machine.execSr o s
  | .mr o => Sys2Proof.Machine.execMr o s
  | .dr o => Sys2Proof.Machine.execDr o s
  | .alr o => Sys2Proof.Machine.execAlr o s
  | .slr o => Sys2Proof.Machine.execSlr o s
  | .lpdr o => Sys2Proof.Machine.execLpdr o s
  | .lndr o => Sys2Proof.Machine.execLndr o s
  | .ltdr o => Sys2Proof.Machine.execLtdr o s
  | .lcdr o => Sys2Proof.Machine.execLcdr o s
  | .hdr o => Sys2Proof.Machine.execHdr o s
  | .ldr o => Sys2Proof.Machine.execLdr o s
  | .cdr o => Sys2Proof.Machine.execCdr o s
  | .adr o => Sys2Proof.Machine.execAdr o s
  | .sdr o => Sys2Proof.Machine.execSdr o s
  | .mdr o => Sys2Proof.Machine.execMdr o s
  | .ddr o => Sys2Proof.Machine.execDdr o s
  | .awr o => Sys2Proof.Machine.execAwr o s
  | .swr o => Sys2Proof.Machine.execSwr o s
  | .lper o => Sys2Proof.Machine.execLper o s
  | .lner o => Sys2Proof.Machine.execLner o s
  | .lter o => Sys2Proof.Machine.execLter o s
  | .lcer o => Sys2Proof.Machine.execLcer o s
  | .her o => Sys2Proof.Machine.execHer o s
  | .ler o => Sys2Proof.Machine.execLer o s
  | .cer o => Sys2Proof.Machine.execCer o s
  | .aer o => Sys2Proof.Machine.execAer o s
  | .ser o => Sys2Proof.Machine.execSer o s
  | .mer o => Sys2Proof.Machine.execMer o s
  | .der o => Sys2Proof.Machine.execDer o s
  | .aur o => Sys2Proof.Machine.execAur o s
  | .sur o => Sys2Proof.Machine.execSur o s
  | .sth o => Sys2Proof.Machine.execSth o s
  | .la o => Sys2Proof.Machine.execLa o s
  | .stc o => Sys2Proof.Machine.execStc o s
  | .ic o => Sys2Proof.Machine.execIc o s
  | .ex o => Sys2Proof.Machine.execEx o s
  | .bal o => Sys2Proof.Machine.execBal o s
  | .bct o => Sys2Proof.Machine.execBct o s
  | .bc o => Sys2Proof.Machine.execBc o s
  | .lh o => Sys2Proof.Machine.execLh o s
  | .ch o => Sys2Proof.Machine.execCh o s
  | .ah o => Sys2Proof.Machine.execAh o s
  | .sh o => Sys2Proof.Machine.execSh o s
  | .mh o => Sys2Proof.Machine.execMh o s
  | .cvd o => Sys2Proof.Machine.execCvd o s
  | .cvb o => Sys2Proof.Machine.execCvb o s
  | .st o => Sys2Proof.Machine.execSt o s
  | .n o => Sys2Proof.Machine.execN o s
  | .cl o => Sys2Proof.Machine.execCl o s
  | .o o => Sys2Proof.Machine.execO o s
  | .x o => Sys2Proof.Machine.execX o s
  | .l o => Sys2Proof.Machine.execL o s
  | .c o => Sys2Proof.Machine.execC o s
  | .a o => Sys2Proof.Machine.execA o s
  | .s o => Sys2Proof.Machine.execS o s
  | .m o => Sys2Proof.Machine.execM o s
  | .d o => Sys2Proof.Machine.execD o s
  | .al o => Sys2Proof.Machine.execAl o s
  | .sl o => Sys2Proof.Machine.execSl o s
  | .std o => Sys2Proof.Machine.execStd o s
  | .ld o => Sys2Proof.Machine.execLd o s
  | .cd o => Sys2Proof.Machine.execCd o s
  | .ad o => Sys2Proof.Machine.execAd o s
  | .sd o => Sys2Proof.Machine.execSd o s
  | .md o => Sys2Proof.Machine.execMd o s
  | .dd o => Sys2Proof.Machine.execDd o s
  | .aw o => Sys2Proof.Machine.execAw o s
  | .sw o => Sys2Proof.Machine.execSw o s
  | .ste o => Sys2Proof.Machine.execSte o s
  | .le o => Sys2Proof.Machine.execLe o s
  | .ce o => Sys2Proof.Machine.execCe o s
  | .ae o => Sys2Proof.Machine.execAe o s
  | .se o => Sys2Proof.Machine.execSe o s
  | .me o => Sys2Proof.Machine.execMe o s
  | .de o => Sys2Proof.Machine.execDe o s
  | .au o => Sys2Proof.Machine.execAu o s
  | .su o => Sys2Proof.Machine.execSu o s
  | .ssm o => Sys2Proof.Machine.execSsm o s
  | .lpsw o => Sys2Proof.Machine.execLpsw o s
  | .diag o => Sys2Proof.Machine.execDiag o s
  | .wrd o => Sys2Proof.Machine.execWrd o s
  | .rdd o => Sys2Proof.Machine.execRdd o s
  | .bxh o => Sys2Proof.Machine.execBxh o s
  | .bxle o => Sys2Proof.Machine.execBxle o s
  | .srl o => Sys2Proof.Machine.execSrl o s
  | .sll o => Sys2Proof.Machine.execSll o s
  | .sra o => Sys2Proof.Machine.execSra o s
  | .sla o => Sys2Proof.Machine.execSla o s
  | .srdl o => Sys2Proof.Machine.execSrdl o s
  | .sldl o => Sys2Proof.Machine.execSldl o s
  | .srda o => Sys2Proof.Machine.execSrda o s
  | .slda o => Sys2Proof.Machine.execSlda o s
  | .stm o => Sys2Proof.Machine.execStm o s
  | .tm o => Sys2Proof.Machine.execTm o s
  | .mvi o => Sys2Proof.Machine.execMvi o s
  | .ts o => Sys2Proof.Machine.execTs o s
  | .ni o => Sys2Proof.Machine.execNi o s
  | .cli o => Sys2Proof.Machine.execCli o s
  | .oi o => Sys2Proof.Machine.execOi o s
  | .xi o => Sys2Proof.Machine.execXi o s
  | .lm o => Sys2Proof.Machine.execLm o s
  | .sio fn o => Sys2Proof.Machine.execSio fn o s
  | .siof fn o => Sys2Proof.Machine.execSiof fn o s
  | .tio fn o => Sys2Proof.Machine.execTio fn o s
  | .clrio fn o => Sys2Proof.Machine.execClrio fn o s
  | .hio fn o => Sys2Proof.Machine.execHio fn o s
  | .hdv fn o => Sys2Proof.Machine.execHdv fn o s
  | .tch fn o => Sys2Proof.Machine.execTch fn o s
  | .stnsm o => Sys2Proof.Machine.execStnsm o s
  | .stosm o => Sys2Proof.Machine.execStosm o s
  | .sigp o => Sys2Proof.Machine.execSigp o s
  | .mc o => Sys2Proof.Machine.execMc o s
  | .lra o => Sys2Proof.Machine.execLra o s
  | .stidp o => Sys2Proof.Machine.execStidp o s
  | .stidc o => Sys2Proof.Machine.execStidc o s
  | .sck o => Sys2Proof.Machine.execSck o s
  | .stck o => Sys2Proof.Machine.execStck o s
  | .sckc o => Sys2Proof.Machine.execSckc o s
  | .stckc o => Sys2Proof.Machine.execStckc o s
  | .spt o => Sys2Proof.Machine.execSpt o s
  | .stpt o => Sys2Proof.Machine.execStpt o s
  | .spka o => Sys2Proof.Machine.execSpka o s
  | .ipk o => Sys2Proof.Machine.execIpk o s
  | .ptlb o => Sys2Proof.Machine.execPtlb o s
  | .spx o => Sys2Proof.Machine.execSpx o s
  | .stpx o => Sys2Proof.Machine.execStpx o s
  | .stap o => Sys2Proof.Machine.execStap o s
  | .rrb o => Sys2Proof.Machine.execRrb o s
  | .b2xx fn o => Sys2Proof.Machine.execB2xx fn o s
  | .stctl o => Sys2Proof.Machine.execStctl o s
  | .lctl o => Sys2Proof.Machine.execLctl o s
  | .cs o => Sys2Proof.Machine.execCs o s
  | .cds o => Sys2Proof.Machine.execCds o s
  | .clm o => Sys2Proof.Machine.execClm o s
  | .stcm o => Sys2Proof.Machine.execStcm o s
  | .icm o => Sys2Proof.Machine.execIcm o s
  | .mvn o => Sys2Proof.Machine.execMvn o s
  | .mvc o => Sys2Proof.Machine.execMvc o s
  | .mvz o => Sys2Proof.Machine.execMvz o s
  | .nc o => Sys2Proof.Machine.execNc o s
  | .clc o => Sys2Proof.Machine.execClc o s
  | .oc o => Sys2Proof.Machine.execOc o s
  | .xc o => Sys2Proof.Machine.execXc o s
  | .tr o => Sys2Proof.Machine.execTr o s
  | .trt o => Sys2Proof.Machine.execTrt o s
  | .ed o => Sys2Proof.Machine.execEd o s
  | .edmk o => Sys2Proof.Machine.execEdmk o s
  | .srp o => Sys2Proof.Machine.execSrp o s
  | .mvo o => Sys2Proof.Machine.execMvo o s
  | .pack o => Sys2Proof.Machine.execPack o s
  | .unpk o => Sys2Proof.Machine.execUnpk o s
  | .zap o => Sys2Proof.Machine.execZap o s
  | .cp o => Sys2Proof.Machine.execCp o s
  | .ap o => Sys2Proof.Machine.execAp o s
  | .sp o => Sys2Proof.Machine.execSp o s
  | .mp o => Sys2Proof.Machine.execMp o s
  | .dp o => Sys2Proof.Machine.execDp o s

end Sys2Proof.Machine
end

