-- ==== Sys2Proof/Machine/Fetch.lean ====
section
/-! DEFINITION. Fetching an instruction (`spec/30_encoding.md` R140 to R142), and placing one where the
next fetch finds it. -/

namespace Sys2Proof.Machine

/-- What a fetch finds (R140). -/
inductive Fetched where
  /-- An odd address: a fetch-time specification exception (R141). -/
  | odd
  /-- A byte at or above `MEM_SIZE`: a fetch-time addressing exception (R142). -/
  | notInstalled
  /-- An opcode without a row (R146). -/
  | undefined (op : Byte)
  /-- An instruction. -/
  | instr (i : Instr)
  deriving DecidableEq, Repr

/-- Fetch and decode at an address (R140): the first halfword, the row, and only then the rest. DEDUCED (log 12):
an undefined opcode is found before it is asked whether bytes past the second are installed, as R140's pseudocode
has it, although R925, D24 and D41 put fetch addressing first. -/
def State.fetch (s : State) (a : Addr) : Fetched :=
  if a.getLsbD 0 then .odd
  else if !s.installed a 2 then .notInstalled
  else
    let op := s.byteAt a
    if !opcodeDefined op then .undefined op
    else if !s.installed a (instrLength op) then .notInstalled
    else
      match decode (s.bytesAt a (instrLength op)) with
      | .ok (i, _) => .instr i
      | .error _ => .undefined op

/-- The state with six instruction bytes stored where the next call fetches, and that call's fetch made
possible: the engine not waiting, IA even (log 4). -/
def State.placeInstruction (s : State) (bs : List Byte) : State :=
  let a : Addr := s.psw.ia &&& 0xFFFFFE
  { s with psw := { s.psw with w := false, ia := a } }.setBytes a bs

end Sys2Proof.Machine
end

