-- ==== Sys2Proof/Machine/Step.lean ====
section
/-! DEFINITION. One step: one call of `execute_instruction(0)` (`spec/30_encoding.md` R150). -/

namespace Sys2Proof.Machine

/-- One call (R150). In the wait state nothing happens (R960). A fetch-time exception is delivered with
ILC 0 and the unchanged IA (R932). An undefined opcode takes R146's action. Otherwise the instruction is
executed. -/
def step (s : State) : Host.Outcome State Fault Refusal :=
  if s.psw.w then .next { s with result := .ok }
  else
    match s.fetch s.psw.ia with
    | .odd => .next (s.programInterrupt .specification 0 s.psw.ia)
    | .notInstalled => .next (s.programInterrupt .addressing 0 s.psw.ia)
    | .undefined op => .next (s.undefinedOpcode (s.ctx (instrLength op)))
    | .instr i => exec i s

/-- `s` with the instruction whose bits are `w` (as the opcode table numbers them) stored where `step`
fetches its next instruction, so that the next step runs it: log 4. -/
def State.withFetchWord (s : State) (nbits w : Nat) : State :=
  s.placeInstruction (tableWordBytes nbits w)

end Sys2Proof.Machine
end

