-- ==== Sys2Proof/Machine/HostApi.lean ====
section
/-! DEFINITION. What the host may do between calls (`spec/10_state.md` R60 to R64, R67). No step calls
these. Nothing is checked or validated (D9, D45). Peek and poke of storage are `State.peek` and
`State.poke` at widths 8, 16, 32 and 64 (R60). -/

namespace Sys2Proof.Machine

/-- Get a general register as a signed integer (R61). -/
def State.hostGetGr (s : State) (r : Nib) : Int := (s.getGr r).toInt

/-- Set a general register to a value's two's-complement pattern (R61). -/
def State.hostSetGr (s : State) (r : Nib) (v : Int) : State := s.setGr r (BitVec.ofInt 32 v)

/-- Set a field of the PSW: the value arrives truncated to the field's width (R62). -/
def State.hostSetPsw (s : State) (f : Psw → Psw) : State := { s with psw := f s.psw }

/-- Set the condition code (R62). -/
def State.hostSetCc (s : State) (v : Nat) : State :=
  s.hostSetPsw fun p => { p with cc := BitVec.ofNat 2 v }

/-- Set the instruction address, odd or even (R62). -/
def State.hostSetIa (s : State) (v : Nat) : State :=
  s.hostSetPsw fun p => { p with ia := BitVec.ofNat 24 v }

/-- Set the instruction-length code (R62). -/
def State.hostSetIlc (s : State) (v : Nat) : State :=
  s.hostSetPsw fun p => { p with ilc := BitVec.ofNat 2 v }

/-- Set the interruption code (R62). -/
def State.hostSetIntCode (s : State) (v : Nat) : State :=
  s.hostSetPsw fun p => { p with intCode := BitVec.ofNat 16 v }

/-- Set the PSW key (R62). -/
def State.hostSetPswKey (s : State) (v : Nat) : State :=
  s.hostSetPsw fun p => { p with key := BitVec.ofNat 4 v }

/-- Replace one bit of a value, `k` counted from the least significant. -/
def setBit {w : Nat} (v : BitVec w) (k : Nat) (b : Bool) : BitVec w :=
  (v &&& ~~~(1#w <<< k)) ||| (if b then 1#w <<< k else 0)

/-- Set one program-mask bit, 0 for FO to 3 for SG (R42, R62). -/
def State.hostSetPmBit (s : State) (k : Nat) (b : Bool) : State :=
  s.hostSetPsw fun p => { p with pm := setBit p.pm (3 - k) b }

/-- Set one interrupt-mask bit, 0 for channel 0 to 7 for external (R41, R62). -/
def State.hostSetSysMaskBit (s : State) (k : Nat) (b : Bool) : State :=
  s.hostSetPsw fun p => { p with sysMask := setBit p.sysMask (7 - k) b }

/-- Set the mode bits E, M, W and P (R62). -/
def State.hostSetMode (s : State) (e m w p : Bool) : State :=
  s.hostSetPsw fun q => { q with e := e, m := m, w := w, p := p }

/-- Get a floating-point register by its place (R63, log 10). -/
def State.hostGetFr (s : State) (r : Fin 4) : DWord := s.getFr r

/-- Set a floating-point register by its place (R63, log 10). -/
def State.hostSetFr (s : State) (r : Fin 4) (v : DWord) : State := s.setFr r v

/-- Read a page's storage key; the index is 0 to 8191 (R64). -/
def State.hostGetKey (s : State) (page : Fin 8192) : BitVec 4 := s.keyOf page

/-- Set a page's storage key, truncated to 4 bits (R64). -/
def State.hostSetKey (s : State) (page : Fin 8192) (v : Nat) : State :=
  s.setKey page (BitVec.ofNat 4 v)

/-- `reset()`: the defined zero state; the parameters are the model's arguments and stay (R67, R1000,
R9, log 1). -/
def State.hostReset (s : State) : State := { State.reset with cfg := s.cfg }

end Sys2Proof.Machine
end

