-- ==== Sys2Proof/Safety.lean ====
section
/-! DEFINITION. The terms that statements about the machine are written in: the invariant, how a call can
end, what each instruction may write, and closed forms of results that the meanings compute by loops. -/

namespace Sys2Proof.Machine

/-! ## Safe states and safe runs -/

/-- The invariant: storage and keys in canonical form, the parameters in R9's range. -/
def State.Inv (s : State) : Prop :=
  Memory.wf s.mem = true ∧ Keys.wf s.keys = true ∧ s.cfg.wf = true

/-- A run of `k` calls is safe if it goes through, and ends in a state that meets the invariant. -/
def SafeRun (k : Nat) (s : State) : Prop :=
  ∃ t, Host.Core.run Sys2Proof.core k s = .next t ∧ State.Inv t

/-! ## How a call of an instruction of `len` bytes can end (R150, R151) -/

/-- It completes without a branch, leaving `t`: IA past the instruction, its ILC, the result `Ok`. -/
def State.completed (s : State) (len : Nat) (t : State) : State :=
  { t with
    psw := { t.psw with ia := s.psw.ia + BitVec.ofNat 24 len, ilc := BitVec.ofNat 2 (len / 2) },
    result := .ok }

/-- It completes with a branch to `a`. -/
def State.branched (_s : State) (len : Nat) (a : Addr) (t : State) : State :=
  { t with psw := { t.psw with ia := a, ilc := BitVec.ofNat 2 (len / 2) }, result := .ok }

/-- It completes with a branch to `a` if `c` holds, else without. -/
def State.branchedIf (s : State) (len : Nat) (c : Bool) (a : Addr) (t : State) : State :=
  if c then s.branched len a t else s.completed len t

/-- It ends in a program interruption, `t` standing so far (`t` is `s` if it is suppressed). -/
def State.trapped (s : State) (len : Nat) (code : ProgramCode) (t : State) : State :=
  t.programInterrupt code (BitVec.ofNat 2 (len / 2)) (s.psw.ia + BitVec.ofNat 24 len)

/-- It is handed to the host: nothing changes but the returned value (R650). -/
def State.handedOver (s : State) (v : Word) : State := { s with result := .privileged v }

/-! ## Signed results (R200, R201) -/

/-- Whether an exact value does not fit `w`-bit two's complement. -/
def overflows (w : Nat) (v : Int) : Bool := decide (v < -(2 ^ (w - 1)) ∨ 2 ^ (w - 1) ≤ v)

/-- The CC of an exact signed result `v` of `w` bits. -/
def ccOfExact (w : Nat) (v : Int) : BitVec 2 :=
  if overflows w v then 3 else if v = 0 then 0 else if v < 0 then 1 else 2

/-- The end of an instruction that leaves `t` and whose exact result is `v`: an overflow interrupts if
`PM.FO` is 1. -/
def State.signedEnd (s : State) (len w : Nat) (v : Int) (t : State) : State :=
  if overflows w v && s.psw.pm.getLsbD 3 then s.trapped len .fixedOverflow t else s.completed len t

/-- The end of an instruction whose exact result `v` goes to general register `r`. -/
def State.signedSum (s : State) (len : Nat) (r : Nib) (v : Int) : State :=
  s.signedEnd len 32 v ((s.setGr r (BitVec.ofInt 32 v)).setCc (ccOfExact 32 v))

/-- The CC of a comparison of exact values (R15). -/
def ccOfOrder (x y : Int) : BitVec 2 := if x < y then 1 else if y < x then 2 else 0

/-! ## Hexadecimal floating point in closed form (R304 to R308) -/

/-- The number of hex digits of a natural number, 0 for 0. -/
def hexLength (m : Nat) : Nat := if m = 0 then 0 else m.log2 / 4 + 1

/-- The `n` leading hex digits of a nonzero number: scaled up exactly, or truncated. -/
def leadingDigits (n m : Nat) : Nat :=
  if hexLength m ≤ n then m * 16 ^ (n - hexLength m) else m / 16 ^ (hexLength m - n)

/-- The larger characteristic of two operands. -/
def commonChar (x y : Hfp) : Int := max x.char y.char

/-- An operand's signed fraction with one guard digit, aligned to a characteristic `c`. -/
def alignedFrac (c : Int) (x : Hfp) : Int :=
  let m : Int := (x.frac * 16 / 16 ^ (c - x.char).toNat : Nat)
  if x.sign then -m else m

/-- The exact aligned sum with one guard digit (R304); a subtraction negates `y`'s sign. -/
def alignedSum (x y : Hfp) (negate : Bool) : Int :=
  alignedFrac (commonChar x y) x +
    alignedFrac (commonChar x y) { y with sign := xor negate y.sign }

/-- The sum with `n` leading digits (normalized), or at its own exponent (R305); its characteristic is kept if
only the guard digit was nonzero (log 11). -/
def sumResult (n : Nat) (norm : Bool) (x y : Hfp) (negate : Bool) : Hfp :=
  let v := alignedSum x y negate
  let m := v.natAbs
  let c := commonChar x y
  if norm then { sign := decide (v < 0), char := c + hexLength m - (n + 1), frac := leadingDigits n m }
  else if 16 ^ (n + 1) ≤ m then { sign := decide (v < 0), char := c + 1, frac := m / 256 }
  else { sign := decide (v < 0) && decide (16 ≤ m), char := c, frac := m / 16 }

/-- The product: the exact product's `m` leading digits, from `n`-digit operands (R307). -/
def productResult (n m : Nat) (x y : Hfp) : Hfp :=
  { sign := xor x.sign y.sign,
    char := x.char + y.char - 64 + hexLength (x.frac * y.frac) - 2 * n,
    frac := leadingDigits m (x.frac * y.frac) }

/-- The quotient: the `n` leading digits of the exact quotient (R308). -/
def quotientResult (n : Nat) (x y : Hfp) : Hfp :=
  let f := x.frac * 16 ^ (n - hexLength x.frac)
  let g := y.frac * 16 ^ (n - hexLength y.frac)
  let c := x.char - y.char + 64 + hexLength x.frac - hexLength y.frac
  { sign := xor x.sign y.sign,
    char := if g ≤ f then c + 1 else c,
    frac := if g ≤ f then f * 16 ^ (n - 1) / g else f * 16 ^ n / g }

/-- Half: `frac * 8` is the fraction with a guard digit, shifted right one bit (R362). -/
def halfResult (n : Nat) (x : Hfp) : Hfp :=
  { sign := x.sign, char := x.char + hexLength (x.frac * 8) - (n + 1),
    frac := leadingDigits n (x.frac * 8) }

/-- The end of a floating-point instruction with result `z` for register `r`: exponent overflow, exponent
underflow as `PM.EU` says, or completion (R305, R306). `cc` writes the CC of what is stored, or
does not. -/
def State.exponentEnd (s : State) (len : Nat) (f : HfpFormat) (r : Fin 4) (z : Hfp)
    (cc : Hfp → State → State) : State :=
  let put (y : Hfp) : State := cc y (s.setHfp f r y)
  if 127 < z.char then s.trapped len .exponentOverflow (put { z with char := z.char - 128 })
  else if 0 ≤ z.char then s.completed len (put z)
  else if s.psw.pm.getLsbD 1 then s.trapped len .exponentUnderflow (put { z with char := z.char + 128 })
  else s.completed len (put trueZero)

/-- The CC of a floating-point result (R303). -/
def ccOfHfp (z : Hfp) : BitVec 2 := if z.frac = 0 then 0 else if z.sign then 1 else 2

/-- The end of a floating-point add or subtract: significance, or the sum (R305, R914). -/
def State.sumEnd (s : State) (len : Nat) (f : HfpFormat) (r : Fin 4) (norm negate : Bool)
    (x y : Hfp) : State :=
  if alignedSum x y negate = 0 then
    if s.psw.pm.getLsbD 0 then
      s.trapped len .significance
        ((s.setHfp f r { sign := false, char := commonChar x y, frac := 0 }).setCc 0)
    else s.completed len ((s.setHfp f r trueZero).setCc 0)
  else
    s.exponentEnd len f r (sumResult (hfpDigits f) norm x y negate) fun z t => t.setCc (ccOfHfp z)

/-- The end of a floating-point multiply, divide or halve: a true zero, or a result (R306). -/
def State.resultEnd (s : State) (len : Nat) (f : HfpFormat) (r : Fin 4) (zero : Bool) (z : Hfp) :
    State :=
  if zero then s.completed len (s.setHfp f r trueZero) else s.exponentEnd len f r z fun _ t => t

/-! ## Storage operands that a loop goes through -/

/-- The byte at `x` that step `k` of a left-to-right loop over the operand at `a` sees: the loop's result
`t` where the loop has stored already, else what `s` holds (R400, R500). -/
def seenAfter (s t : State) (a : Addr) (k : Nat) (x : Addr) : Byte :=
  if (x - a).toNat < k then t.byteAt x else s.byteAt x

/-- The same for a right-to-left loop whose operand ends at `e` (R705). -/
def seenBefore (s t : State) (e : Addr) (k : Nat) (x : Addr) : Byte :=
  if (e - x).toNat < k then t.byteAt x else s.byteAt x

/-- The address `k` bytes after `a`. -/
def after (a : Addr) (k : Nat) : Addr := a + BitVec.ofNat 24 k

/-- The address `k` bytes before `a`. -/
def before (a : Addr) (k : Nat) : Addr := a - BitVec.ofNat 24 k

/-- The right half of the source byte `j` from the right end `b` of an operand of `n + 1` bytes, as step `k` of a
right-to-left loop that stores up to `e` sees it; 0 once the source is exhausted (R717 to R719). -/
def rightHalf (s t : State) (e b : Addr) (n k j : Nat) : Nib :=
  if j ≤ n then loNib (seenBefore s t e k (before b j)) else 0

/-- The left half, likewise. -/
def leftHalf (s t : State) (e b : Addr) (n k j : Nat) : Nib :=
  if j ≤ n then hiNib (seenBefore s t e k (before b j)) else 0

/-- The byte `k` from the right end that MVO stores: a right half, and the left half before it (R717). -/
def offsetByte (s t : State) (e b : Addr) (n k : Nat) : Byte :=
  if k = 0 then loNib (s.byteAt b) ++ loNib (s.byteAt e)
  else rightHalf s t e b n k k ++ leftHalf s t e b n (k - 1) (k - 1)

/-- The byte `k` from the right end that PACK stores: the rightmost swapped, else two right halves (R718). -/
def packByte (s t : State) (e b : Addr) (n k : Nat) : Byte :=
  if k = 0 then loNib (s.byteAt b) ++ hiNib (s.byteAt b)
  else rightHalf s t e b n k (2 * k) ++ rightHalf s t e b n k (2 * k - 1)

/-- The byte `k` from the right end that UNPK stores: the rightmost swapped, else a zone and a half of a byte
that was fetched for its right half (R719). -/
def unpackByte (s t : State) (e b : Addr) (n k : Nat) : Byte :=
  if k = 0 then loNib (s.byteAt b) ++ hiNib (s.byteAt b)
  else 0xF#4 ++ if k % 2 = 1 then rightHalf s t e b n k ((k + 1) / 2) else leftHalf s t e b n (k - 1) (k / 2)

/-! ## Editing over lists (R722) -/

/-- What editing carries along: significance, a nonzero digit in the field, the right half of a source
byte still to be used, and where significance was last turned on by a digit. -/
structure EditScan where
  sig : Bool
  nonzero : Bool
  half : Option Nat
  marked : Option Nat
  deriving DecidableEq, Repr

/-- The next digit and the source that is left; the second component is the right half of the byte it came
from, if the digit was the left half. -/
def nextDigit (e : EditScan) (src : List Byte) : Option (Nat × Option Nat × List Byte) :=
  match e.half, src with
  | some d, src => some (d, none, src)
  | none, b :: src => some (b.toNat / 16, some (b.toNat % 16), src)
  | none, [] => none

/-- Edit pattern bytes (R722): the result bytes and the final scan; none if a digit code is above 9 or the
source runs out. `k` counts the pattern bytes passed. -/
def editBytes (fill : Byte) : Nat → List Byte → List Byte → EditScan → Option (List Byte × EditScan)
  | _, [], _, e => some ([], e)
  | k, p :: ps, src, e =>
    if p = 0x20 ∨ p = 0x21 then
      match nextDigit e src with
      | none => none
      | some (d, right, src') =>
        if 9 < d then none
        else
          let r : Byte := if e.sig ∨ d ≠ 0 then 0xF0 + BitVec.ofNat 8 d else fill
          let on := e.sig || decide (d ≠ 0) || decide (p = 0x21)
          let marked := if ¬e.sig ∧ d ≠ 0 then some k else e.marked
          let nonzero := e.nonzero || decide (d ≠ 0)
          let e' : EditScan :=
            match right with
            | none => { sig := on, nonzero := nonzero, half := none, marked := marked }
            | some h =>
              if h ≤ 9 then { sig := on, nonzero := nonzero, half := some h, marked := marked }
              else if h = 0xB ∨ h = 0xD then
                { sig := on, nonzero := nonzero, half := none, marked := marked }
              else { sig := false, nonzero := nonzero, half := none, marked := marked }
          (editBytes fill (k + 1) ps src' e').map fun (rs, e'') => (r :: rs, e'')
    else if p = 0x22 then
      (editBytes fill (k + 1) ps src { e with sig := false, nonzero := false }).map
        fun (rs, e'') => (fill :: rs, e'')
    else
      (editBytes fill (k + 1) ps src e).map fun (rs, e'') => ((if e.sig then p else fill) :: rs, e'')

/-- `m` pattern bytes at `a` edited one after the other, each source byte from `b` on as it stands when it is
fetched (R722): the state with their results stored, how many source bytes were fetched, and the scan; none
once a digit code is above 9. Nothing is checked against `MEM_SIZE`, and no mark is made. -/
def editRun (s : State) (a b : Addr) : Nat → Option (State × Nat × EditScan)
  | 0 => some (s, 0, { sig := false, nonzero := false, half := none, marked := none })
  | m + 1 =>
    match editRun s a b m with
    | none => none
    | some (u, n, e) =>
      let p := u.byteAt (after a m)
      match editBytes (s.byteAt a) m [p] [u.byteAt (after b n)] e with
      | none => none
      | some (rs, e') =>
        some (u.setBytes (after a m) rs,
          if (p = 0x20 ∨ p = 0x21) ∧ e.half = none then n + 1 else n, e')

/-- A state with EDMK's mark, if there is one: bits 8-31 of register 1 (R723). -/
def State.withMark (mark : Bool) (a : Addr) (m : Option Nat) (s : State) : State :=
  match m with
  | some k => if mark then s.setGr 1 ((s.getGr 1).extractLsb' 24 8 ++ after a k) else s
  | none => s

/-! ## The opcode bytes of the opcode map (R145) -/

/-- The first bytes that have a row. -/
def opcodeBytes : List Byte :=
  [0x04, 0x05, 0x06, 0x07, 0x08, 0x09, 0x0A, 0x0E, 0x0F] ++
  [0x10, 0x11, 0x12, 0x13, 0x14, 0x15, 0x16, 0x17, 0x18, 0x19, 0x1A, 0x1B, 0x1C, 0x1D, 0x1E, 0x1F] ++
  [0x20, 0x21, 0x22, 0x23, 0x24, 0x28, 0x29, 0x2A, 0x2B, 0x2C, 0x2D, 0x2E, 0x2F] ++
  [0x30, 0x31, 0x32, 0x33, 0x34, 0x38, 0x39, 0x3A, 0x3B, 0x3C, 0x3D, 0x3E, 0x3F] ++
  [0x40, 0x41, 0x42, 0x43, 0x44, 0x45, 0x46, 0x47, 0x48, 0x49, 0x4A, 0x4B, 0x4C, 0x4E, 0x4F] ++
  [0x50, 0x54, 0x55, 0x56, 0x57, 0x58, 0x59, 0x5A, 0x5B, 0x5C, 0x5D, 0x5E, 0x5F] ++
  [0x60, 0x68, 0x69, 0x6A, 0x6B, 0x6C, 0x6D, 0x6E, 0x6F] ++
  [0x70, 0x78, 0x79, 0x7A, 0x7B, 0x7C, 0x7D, 0x7E, 0x7F] ++
  [0x80, 0x82, 0x83, 0x84, 0x85, 0x86, 0x87, 0x88, 0x89, 0x8A, 0x8B, 0x8C, 0x8D, 0x8E, 0x8F] ++
  [0x90, 0x91, 0x92, 0x93, 0x94, 0x95, 0x96, 0x97, 0x98, 0x9C, 0x9D, 0x9E, 0x9F] ++
  [0xAC, 0xAD, 0xAE, 0xAF, 0xB1, 0xB2, 0xB6, 0xB7, 0xBA, 0xBB, 0xBD, 0xBE, 0xBF] ++
  [0xD1, 0xD2, 0xD3, 0xD4, 0xD5, 0xD6, 0xD7, 0xDC, 0xDD, 0xDE, 0xDF] ++
  [0xF0, 0xF1, 0xF2, 0xF3, 0xF8, 0xF9, 0xFA, 0xFB, 0xFC, 0xFD]

/-! ## What an instruction may write -/

/-- The instruction whose rule a call runs: an EX's modified target, any other instruction itself (R620).
An EX that runs no target stays itself, and writes nothing. -/
def State.executed (s : State) (i : Instr) : Instr :=
  match i with
  | .ex o =>
    let t := s.eaRX o
    match decode (modifiedCopy o.r1 s (s.bytesAt t (instrLength (s.byteAt t)))) with
    | .ok (j, _) => j
    | .error _ => i
  | _ => i

/-- Whether an instruction may change general register `q`. -/
def writesGr : Instr → Nib → Bool
  | .lr o, q | .ltr o, q | .lcr o, q | .lnr o, q | .lpr o, q | .ar o, q | .sr o, q | .alr o, q
  | .slr o, q | .nr o, q | .or o, q | .xr o, q | .balr o, q | .bctr o, q | .isk o, q => q == o.r1
  | .a o, q | .ah o, q | .s o, q | .sh o, q | .al o, q | .sl o, q | .mh o, q | .n o, q | .o o, q
  | .x o, q | .l o, q | .lh o, q | .la o, q | .ic o, q | .bal o, q | .bct o, q | .cvb o, q => q == o.r1
  | .sla o, q | .sra o, q | .sll o, q | .srl o, q | .icm o, q | .bxh o, q | .bxle o, q | .cs o, q =>
    q == o.r1
  | .mr o, q | .dr o, q => q == o.r1 || q == o.r1 + 1
  | .m o, q | .d o, q => q == o.r1 || q == o.r1 + 1
  | .slda o, q | .srda o, q | .sldl o, q | .srdl o, q | .cds o, q => q == o.r1 || q == o.r1 + 1
  | .lm o, q => decide ((q - o.r1).toNat ≤ (o.r3 - o.r1).toNat)
  | .mvcl o, q | .clcl o, q => q == o.r1 || q == o.r1 + 1 || q == o.r2 || q == o.r2 + 1
  | .trt _, q => q == 1 || q == 2
  | .edmk _, q => q == 1
  | _, _ => false

/-- Whether an instruction may change the floating-point register in place `k` (R36). -/
def writesFr : Instr → Fin 4 → Bool
  | .ler o, k | .ldr o, k | .lter o, k | .ltdr o, k | .lcer o, k | .lcdr o, k | .lner o, k
  | .lndr o, k | .lper o, k | .lpdr o, k | .aer o, k | .adr o, k | .ser o, k | .sdr o, k
  | .aur o, k | .awr o, k | .sur o, k | .swr o, k | .mer o, k | .mdr o, k | .der o, k | .ddr o, k
  | .her o, k | .hdr o, k => frPlace o.r1 == some k
  | .le o, k | .ld o, k | .ae o, k | .ad o, k | .se o, k | .sd o, k | .au o, k | .aw o, k
  | .su o, k | .sw o, k | .me o, k | .md o, k | .de o, k | .dd o, k => frPlace o.r1 == some k
  | _, _ => false

/-- The bytes of storage an instruction may store to: an address and a number of bytes. -/
def storedBytes (s : State) : Instr → Addr × Nat
  | .stc o => (s.eaRX o, 1)
  | .sth o => (s.eaRX o, 2)
  | .st o | .ste o => (s.eaRX o, 4)
  | .std o | .cvd o => (s.eaRX o, 8)
  | .stcm o => (s.ea o.b2 o.d2, (maskBytes o.r3).length)
  | .stm o => (s.ea o.b2 o.d2, 4 * registerCount o)
  | .cs o => (s.ea o.b2 o.d2, 4)
  | .cds o => (s.ea o.b2 o.d2, 8)
  | .mvi o | .ni o | .oi o | .xi o | .ts o | .stnsm o | .stosm o => (s.ea o.b1 o.d1, 1)
  | .mvc o | .mvn o | .mvz o | .nc o | .oc o | .xc o | .tr o | .ed o | .edmk o =>
    (s.ea o.b1 o.d1, o.l.toNat + 1)
  | .mvcl o => (s.regTarget o.r1, ((s.getGr (o.r1 + 1)).extractLsb' 0 24).toNat)
  | .ap o | .sp o | .zap o | .mp o | .dp o | .srp o | .mvo o | .pack o | .unpk o =>
    (s.ea o.b1 o.d1, o.l1.toNat + 1)
  | _ => (0, 0)

/-- Whether an instruction may change the CC without loading a PSW (R45). -/
def setsCc : Instr → Bool
  | .ltr _ | .lcr _ | .lnr _ | .lpr _ | .ar _ | .a _ | .ah _ | .sr _ | .s _ | .sh _ | .alr _ | .al _
  | .slr _ | .sl _ | .cr _ | .c _ | .ch _ | .sla _ | .sra _ | .slda _ | .srda _ => true
  | .lter _ | .ltdr _ | .lcer _ | .lcdr _ | .lner _ | .lndr _ | .lper _ | .lpdr _ | .aer _ | .ae _
  | .adr _ | .ad _ | .ser _ | .se _ | .sdr _ | .sd _ | .aur _ | .au _ | .awr _ | .aw _ | .sur _
  | .su _ | .swr _ | .sw _ | .cer _ | .ce _ | .cdr _ | .cd _ => true
  | .nr _ | .n _ | .ni _ | .nc _ | .or _ | .o _ | .oi _ | .oc _ | .xr _ | .x _ | .xi _ | .xc _
  | .clr _ | .cl _ | .cli _ | .clc _ | .clm _ | .clcl _ | .tm _ | .trt _ => true
  | .icm _ | .mvcl _ | .ts _ | .cs _ | .cds _ | .spm _ => true
  | .ap _ | .sp _ | .zap _ | .cp _ | .srp _ | .ed _ | .edmk _ => true
  | _ => false

end Sys2Proof.Machine
end

