-- ==== Sys2Proof/Certificates/Slice0/Obligations.lean ====
section
/-! DEFINITION. The statements for the provers. Rules R<n> are those of `spec/`; a log entry is
`notes/assumptions/<n>.md`. `Memory.wf s.mem` is part of the invariant that `Obligations.InvariantKept`
states. The value a call returns (`State.result`) is a field of the model's own (log 2). -/

open Sys2Proof Sys2Proof.Machine

/-! ## Encoding -/

/-- Decoding an encoded well-formed instruction gives it back, whatever bytes follow
(`spec/30_encoding.md` R121 to R126, R140). -/
def Obligations.DecodeEncodeAgree : Prop :=
  ∀ (i : Instr) (rest : List Byte), i.wellFormed = true → decode (encode i ++ rest) = .ok (i, rest)

/-- What decodes is well-formed, and encoding it gives the bytes read back: no bit of an encoding is
dropped and each word has one reading (R140, R147). -/
def Obligations.EncodeDecodeAgree : Prop :=
  ∀ (bs rest : List Byte) (i : Instr), decode bs = .ok (i, rest) →
    i.wellFormed = true ∧ encode i ++ rest = bs

/-- Words of the spec's examples, and one of each format, decode to their instructions (R210, R602, R216,
R233, R655, R513, R710, R673, R679). -/
def Obligations.WrittenWordsDecode : Prop :=
  decode [0x18, 0x35] = .ok (.lr { r1 := 3, r2 := 5 }, []) ∧
  decode [0x45, 0x30, 0x2F, 0x80] = .ok (.bal { r1 := 3, x2 := 0, b2 := 2, d2 := 0xF80 }, []) ∧
  decode [0x5A, 0x10, 0x00, 0x00] = .ok (.a { r1 := 1, x2 := 0, b2 := 0, d2 := 0 }, []) ∧
  decode [0x8B, 0x10, 0x00, 0x01] = .ok (.sla { r1 := 1, r3 := 0, b2 := 0, d2 := 1 }, []) ∧
  decode [0xAC, 0x04, 0x03, 0x00] = .ok (.stnsm { i2 := 4, b1 := 0, d1 := 0x300 }, []) ∧
  decode [0xD2, 0x02, 0x50, 0x01, 0x50, 0x00] =
    .ok (.mvc { l := 2, b1 := 5, d1 := 1, b2 := 5, d2 := 0 }, []) ∧
  decode [0xFA, 0x10, 0x50, 0x00, 0x60, 0x00] =
    .ok (.ap { l1 := 1, l2 := 0, b1 := 5, d1 := 0, b2 := 6, d2 := 0 }, []) ∧
  decode [0x83, 0x12, 0x34, 0x56] = .ok (.diag { r1 := 1, r3 := 2, b2 := 3, d2 := 0x456 }, []) ∧
  decode [0x9D, 0x00, 0x12, 0x80] = .ok (.tio 0 { b2 := 1, d2 := 0x280 }, [])

/-! ## One call -/

/-- A call at which the bytes at IA decode to an instruction executes it (R150); nothing is added around
`exec`, which itself moves IA. -/
def Obligations.StepRunsDecoded : Prop :=
  ∀ (s : State) (i : Instr) (rest : List Byte), s.psw.w = false → s.psw.ia.toNat % 2 = 0 →
    s.installed s.psw.ia i.length = true → i.wellFormed = true →
    decode (s.bytesAt s.psw.ia i.length) = .ok (i, rest) → step s = exec i s

/-- A call without an instruction: in the wait state it returns `Ok` and changes nothing else (R960); an
odd IA, or bytes that are not installed, give a program interruption with ILC 0 and the unchanged IA
(R141, R142, R932). -/
def Obligations.CallsWithoutInstruction : Prop :=
  ∀ s : State,
    (s.psw.w = true → step s = .next { s with result := .ok }) ∧
    (s.psw.w = false → s.psw.ia.toNat % 2 = 1 →
      step s = .next (s.programInterrupt .specification 0 s.psw.ia)) ∧
    (s.psw.w = false → s.psw.ia.toNat % 2 = 0 → s.installed s.psw.ia 2 = false →
      step s = .next (s.programInterrupt .addressing 0 s.psw.ia)) ∧
    (s.psw.w = false → s.psw.ia.toNat % 2 = 0 → s.installed s.psw.ia 2 = true →
      s.byteAt s.psw.ia ∈ opcodeBytes →
      s.installed s.psw.ia (instrLength (s.byteAt s.psw.ia)) = false →
      step s = .next (s.programInterrupt .addressing 0 s.psw.ia))

/-- An opcode byte outside R145's map takes the action of `UNDEF_OPCODE_ACTION` (R146). That it does so although
bytes past the second are not installed is the model's choice between R140's pseudocode and R925 with D41,
log 12. -/
def Obligations.UndefinedOpcodes : Prop :=
  (∀ (op : Byte) (rest : List Byte), op ∉ opcodeBytes →
    decode (op :: rest) = .error (.undefinedOpcode op)) ∧
  ∀ s : State, s.psw.w = false → s.psw.ia.toNat % 2 = 0 → s.installed s.psw.ia 2 = true →
    s.byteAt s.psw.ia ∉ opcodeBytes →
    (s.cfg.undefOpcodeAction = .returnInvalid → step s = .next { s with result := .invalidOpcode }) ∧
    (s.cfg.undefOpcodeAction = .operationException →
      step s = .next (s.trapped (instrLength (s.byteAt s.psw.ia)) .operation s))

/-- A run of any number of calls from a state that meets the invariant never stops, and ends in such a
state: "there is no silent failure path" (R900). -/
def Obligations.RunsAreSafe : Prop := ∀ (k : Nat) (s : State), s.Inv → SafeRun k s

/-! ## Invariant and reset -/

/-- Every call keeps the invariant: storage and keys in canonical form, the parameters in range. -/
def Obligations.InvariantKept : Prop :=
  ∀ s t : State, s.Inv → step s = .next t → t.Inv

/-- The invariant holds after reset. -/
def Obligations.InvariantAtReset : Prop := State.reset.Inv

/-- After reset every register, every PSW field, every byte and every key is 0 (R1000, R1001). -/
def Obligations.ResetIsZero : Prop :=
  (∀ r : Nib, State.reset.getGr r = 0) ∧ (∀ r : Fin 4, State.reset.getFr r = 0) ∧
  State.reset.psw = Psw.unpack 0 ∧ State.reset.psw.ia = 0 ∧ State.reset.psw.p = false ∧
  State.reset.psw.w = false ∧ State.reset.psw.e = false ∧ State.reset.psw.m = false ∧
  State.reset.psw.sysMask = 0 ∧ State.reset.psw.key = 0 ∧ State.reset.psw.pm = 0 ∧
  State.reset.psw.cc = 0 ∧ State.reset.psw.ilc = 0 ∧ State.reset.psw.intCode = 0 ∧
  (∀ a : Addr, State.reset.byteAt a = 0) ∧ ∀ p : Nat, State.reset.keyOf p = 0

/-! ## Frames: what an instruction leaves unchanged, whatever happens -/

/-- A register changes only if the executed instruction (EX's target for EX) may write it; the
floating-point registers only by floating-point instructions (R36). -/
def Obligations.RegisterFrame : Prop :=
  ∀ (i : Instr) (s t : State), exec i s = .next t →
    (∀ q : Nib, writesGr (s.executed i) q = false → t.getGr q = s.getGr q) ∧
    ∀ k : Fin 4, writesFr (s.executed i) k = false → t.getFr k = s.getFr k

/-- A byte of storage changes only if the executed instruction may store to it, or it lies in the old PSW
of an interruption that was taken (R96, R930, R931). -/
def Obligations.StorageFrame : Prop :=
  ∀ (i : Instr) (s t : State), Memory.wf s.mem = true → exec i s = .next t →
    let stored := storedBytes s (s.executed i)
    let kept := fun x : Addr => stored.2 ≤ (x - stored.1).toNat → t.byteAt x = s.byteAt x
    (∀ x, kept x) ∨
    (t.psw = Psw.unpack (t.peek 64 104) ∧ ∀ x : Addr, 8 ≤ (x - 40).toNat → kept x) ∨
    ((∃ n, s.executed i = .svc n) ∧ t.psw = Psw.unpack (t.peek 64 96) ∧
      ∀ x : Addr, 8 ≤ (x - 32).toNat → kept x)

/-- The keys change only by SSK in supervisor state, and then only the addressed page's; the parameters
never change (R55, R9; that they stand in the state is log 1). -/
def Obligations.KeyAndParameterFrame : Prop :=
  ∀ (i : Instr) (s t : State), exec i s = .next t →
    t.cfg = s.cfg ∧ ((∀ o, s.executed i ≠ .ssk o) ∨ s.psw.p = true → t.keys = s.keys) ∧
    (Keys.wf s.keys = true → ∀ (o : OpsRR) (p : Nat), s.executed i = .ssk o →
      p ≠ (s.regTarget o.r2).toNat / 2048 → t.keyOf p = s.keyOf p)

/-- The PSW's fields other than IA and ILC change only by the instructions that name them, or whole by
loading a PSW: an interruption's new PSW, or LPSW's operand (R45, R46, R950). -/
def Obligations.PswFrame : Prop :=
  ∀ (i : Instr) (s t : State), exec i s = .next t →
    let j := s.executed i
    (t.psw.key = s.psw.key ∧ t.psw.e = s.psw.e ∧ t.psw.m = s.psw.m ∧ t.psw.w = s.psw.w ∧
      t.psw.p = s.psw.p ∧ t.psw.intCode = s.psw.intCode ∧
      (t.psw.sysMask = s.psw.sysMask ∨ ∃ o, j = .ssm o ∨ j = .stnsm o ∨ j = .stosm o) ∧
      (t.psw.pm = s.psw.pm ∨ ∃ o, j = .spm o) ∧ (t.psw.cc = s.psw.cc ∨ setsCc j = true)) ∨
    t.psw = Psw.unpack (t.peek 64 104) ∨
    ((∃ n, j = .svc n) ∧ t.psw = Psw.unpack (t.peek 64 96)) ∨
    (∃ o, j = .lpsw o ∧ s.psw.p = false ∧ t.psw = Psw.unpack (s.peek 64 (s.ea o.b1 o.d1)))

/-! ## Interruptions and the PSW -/

/-- The packed PSW, byte by byte (R50), and that packing and unpacking are inverse (R51). -/
def Obligations.PswPacking : Prop :=
  (∀ p : Psw,
    beBytes 8 p.pack =
      [p.sysMask, p.key ++ BitVec.ofBool p.e ++ BitVec.ofBool p.m ++ BitVec.ofBool p.w ++
          BitVec.ofBool p.p, p.intCode.extractLsb' 8 8, p.intCode.extractLsb' 0 8,
        p.ilc ++ p.cc ++ p.pm, p.ia.extractLsb' 16 8, p.ia.extractLsb' 8 8, p.ia.extractLsb' 0 8]) ∧
  (∀ p : Psw, Psw.unpack p.pack = p) ∧ ∀ w : DWord, (Psw.unpack w).pack = w

/-- Taking an interruption stores the live PSW, with code, ILC and IA put in, at the old slot of its class,
makes the PSW at the new slot live, unvalidated, and changes nothing else (R930, R931); the codes are
those of R901, R903 and R905 to R915. -/
def Obligations.InterruptionEntry : Prop :=
  ∀ (s : State) (ilc : BitVec 2) (ia : Addr), Memory.wf s.mem = true →
    (∀ p ∈ [(ProgramCode.operation, 0x0001#16), (.execute, 0x0003), (.addressing, 0x0005),
        (.specification, 0x0006), (.data, 0x0007), (.fixedOverflow, 0x0008), (.fixedDivide, 0x0009),
        (.decimalOverflow, 0x000A), (.decimalDivide, 0x000B), (.exponentOverflow, 0x000C),
        (.exponentUnderflow, 0x000D), (.significance, 0x000E), (.floatDivide, 0x000F)],
      let t := s.programInterrupt p.1 ilc ia
      Psw.unpack (t.peek 64 40) = { s.psw with intCode := p.2, ilc := ilc, ia := ia } ∧
      (∀ x : Addr, 8 ≤ (x - 40).toNat → t.byteAt x = s.byteAt x) ∧
      t = { s with mem := t.mem, psw := Psw.unpack (s.peek 64 104), result := .ok }) ∧
    ∀ n : Byte,
      let t := s.svcInterrupt n ilc ia
      Psw.unpack (t.peek 64 32) = { s.psw with intCode := 0#8 ++ n, ilc := ilc, ia := ia } ∧
      (∀ x : Addr, 8 ≤ (x - 32).toNat → t.byteAt x = s.byteAt x) ∧
      t = { s with mem := t.mem, psw := Psw.unpack (s.peek 64 96), result := .ok }

/-- SVC takes the supervisor-call interruption with its byte as the code, in either state (R660, R917). -/
def Obligations.SupervisorCall : Prop :=
  ∀ (n : Byte) (s : State),
    exec (.svc n) s = .next (s.svcInterrupt n 1 (s.psw.ia + 2))

/-- LPSW in supervisor state: the operand becomes the live PSW entirely, and only then is EC mode, then a
disabled wait, rejected (R652, R653); alignment comes first, then addressing. -/
def Obligations.LoadPsw : Prop :=
  ∀ (s : State) (o : OpsSI), s.psw.p = false →
    let a := s.ea o.b1 o.d1
    let p := Psw.unpack (s.peek 64 a)
    (a.toNat % 8 ≠ 0 → exec (.lpsw o) s = .next (s.trapped 4 .specification s)) ∧
    (a.toNat % 8 = 0 → s.installed a 8 = false →
      exec (.lpsw o) s = .next (s.trapped 4 .addressing s)) ∧
    (a.toNat % 8 = 0 → s.installed a 8 = true →
      exec (.lpsw o) s = .next
        { s with
          psw := p,
          result := if p.e = true then .pswInvalid .ecMode
            else if p.w = true ∧ p.sysMask = 0 then .pswInvalid .disabledWait else .ok })

/-- Return from an interruption handler: `LPSW 40(0)` after a program interruption, and `LPSW 32(0)` after
a supervisor call, make the interrupted PSW live again, with the stored code, ILC and IA (R940). -/
def Obligations.HandlerReturn : Prop :=
  ∀ (s : State) (ilc : BitVec 2) (ia : Addr) (i2 : Byte), s.Inv → s.psw.e = false → s.psw.w = false →
    (∀ code : ProgramCode,
      let t := s.programInterrupt code ilc ia
      t.psw.p = false →
      exec (.lpsw { i2 := i2, b1 := 0, d1 := 40 }) t = .next
        { t with psw := { s.psw with intCode := interruptionCode code, ilc := ilc, ia := ia } }) ∧
    ∀ n : Byte,
      let t := s.svcInterrupt n ilc ia
      t.psw.p = false →
      exec (.lpsw { i2 := i2, b1 := 0, d1 := 32 }) t = .next
        { t with psw := { s.psw with intCode := 0#8 ++ n, ilc := ilc, ia := ia } }

/-- A privileged instruction in problem state is handed to the host, whatever its operands, with its opcode
byte (R650, R651); the intercepted instructions are handed to it in either state, with the value of R651's
table (R670 to R699). -/
def Obligations.Interceptions : Prop :=
  (∀ (s : State) (o : OpsRR) (p : OpsSI), s.psw.p = true →
    ∀ x ∈ [(Instr.ssk o, 0x08), (.isk o, 0x09), (.ssm p, 0x80), (.lpsw p, 0x82), (.stnsm p, 0xAC),
        (.stosm p, 0xAD)],
      exec x.1 s = .next (s.handedOver x.2)) ∧
  ∀ (s : State) (x : OpsRX) (r : OpsRS) (i : OpsSI) (o : OpsS) (fn : BitVec 7) (b : Byte),
    ∀ y ∈ [(Instr.lra x, 0xB1#32), (.stctl r, 0xB6), (.lctl r, 0xB7), (.wrd i, 0x84), (.rdd i, 0x85),
        (.sigp r, 0xAE), (.diag r, (0x83#8 ++ r.r1 ++ r.r3 ++ r.b2 ++ r.d2 : BitVec 32)),
        (.sio fn o, (0x9C#24 ++ fn ++ 0#1 : BitVec 32)), (.siof fn o, (0x9C#24 ++ fn ++ 1#1 : BitVec 32)),
        (.tio fn o, (0x9D#24 ++ fn ++ 0#1 : BitVec 32)),
        (.clrio fn o, (0x9D#24 ++ fn ++ 1#1 : BitVec 32)),
        (.hio fn o, (0x9E#24 ++ fn ++ 0#1 : BitVec 32)), (.hdv fn o, (0x9E#24 ++ fn ++ 1#1 : BitVec 32)),
        (.tch b o, (0x9F#24 ++ b : BitVec 32)), (.b2xx b o, (0xB2#24 ++ b : BitVec 32)),
        (.stidp o, 0xB202), (.stidc o, 0xB203), (.sck o, 0xB204), (.stck o, 0xB205), (.sckc o, 0xB206),
        (.stckc o, 0xB207), (.spt o, 0xB208), (.stpt o, 0xB209), (.spka o, 0xB20A), (.ipk o, 0xB20B),
        (.ptlb o, 0xB20D), (.spx o, 0xB210), (.stpx o, 0xB211), (.stap o, 0xB212), (.rrb o, 0xB213)],
      exec y.1 s = .next (s.handedOver y.2)

/-! ## Exceptions that suppress an instruction -/

/-- A register field, a length or an alignment that the architecture forbids is a specification exception,
before any storage access (R906: R204, R35, R85, R516, R418, R714, R715, R656, R657, R662). -/
def Obligations.SpecificationExceptions : Prop :=
  ∀ s : State,
    (∀ o : OpsRR, o.r1.toNat % 2 = 1 → ∀ i ∈ [Instr.mr o, .dr o, .mvcl o, .clcl o],
      exec i s = .next (s.trapped 2 .specification s)) ∧
    (∀ o : OpsRR, o.r2.toNat % 2 = 1 → ∀ i ∈ [Instr.mvcl o, .clcl o],
      exec i s = .next (s.trapped 2 .specification s)) ∧
    (∀ o : OpsRX, o.r1.toNat % 2 = 1 → ∀ i ∈ [Instr.m o, .d o],
      exec i s = .next (s.trapped 4 .specification s)) ∧
    (∀ o : OpsRS, o.r1.toNat % 2 = 1 → ∀ i ∈ [Instr.slda o, .srda o, .sldl o, .srdl o, .cds o],
      exec i s = .next (s.trapped 4 .specification s)) ∧
    (∀ o : OpsRS, o.r3.toNat % 2 = 1 → exec (.cds o) s = .next (s.trapped 4 .specification s)) ∧
    (∀ o : OpsRS, (s.ea o.b2 o.d2).toNat % 4 ≠ 0 →
      exec (.cs o) s = .next (s.trapped 4 .specification s)) ∧
    (∀ o : OpsRS, (s.ea o.b2 o.d2).toNat % 8 ≠ 0 →
      exec (.cds o) s = .next (s.trapped 4 .specification s)) ∧
    (∀ o : OpsRR, o.r1 ∉ [0, 2, 4, 6] ∨ o.r2 ∉ [0, 2, 4, 6] →
      ∀ i ∈ [Instr.ler o, .ldr o, .lter o, .ltdr o, .lcer o, .lcdr o, .lner o, .lndr o, .lper o,
          .lpdr o, .aer o, .adr o, .ser o, .sdr o, .aur o, .awr o, .sur o, .swr o, .cer o, .cdr o,
          .mer o, .mdr o, .der o, .ddr o, .her o, .hdr o],
        exec i s = .next (s.trapped 2 .specification s)) ∧
    (∀ o : OpsRX, o.r1 ∉ [0, 2, 4, 6] →
      ∀ i ∈ [Instr.le o, .ld o, .ste o, .std o, .ae o, .ad o, .se o, .sd o, .au o, .aw o, .su o,
          .sw o, .ce o, .cd o, .me o, .md o, .de o, .dd o],
        exec i s = .next (s.trapped 4 .specification s)) ∧
    (∀ o : OpsSS2, 7 < o.l2.toNat ∨ o.l1.toNat ≤ o.l2.toNat → ∀ i ∈ [Instr.mp o, .dp o],
      exec i s = .next (s.trapped 6 .specification s)) ∧
    (∀ o : OpsRR, s.psw.p = false → (s.getGr o.r2).toNat % 16 ≠ 0 → ∀ i ∈ [Instr.isk o, .ssk o],
      exec i s = .next (s.trapped 2 .specification s)) ∧
    ∀ o : OpsSI, 16 ≤ o.i2.toNat → exec (.mc o) s = .next (s.trapped 4 .specification s)

/-- An operand byte that is not installed is an addressing exception, and suppresses the instruction
(R905, R82, R701): the instructions that check their storage operands whole, which are those not in SS format, CLM
apart, and decimal arithmetic with the operands it reads (that storage is checked before codes and SRP's rounding
digit is log 6). Those that go byte by byte are in the statements of their results, and ZAP's destination, which
it does not read, is in `ZapDestination`. -/
def Obligations.OperandAddressing : Prop :=
  ∀ s : State,
    (∀ o : OpsRX, s.installed (s.eaRX o) 1 = false → ∀ i ∈ [Instr.ic o, .stc o],
      exec i s = .next (s.trapped 4 .addressing s)) ∧
    (∀ o : OpsRX, s.installed (s.eaRX o) 2 = false →
      ∀ i ∈ [Instr.lh o, .sth o, .ah o, .sh o, .mh o, .ch o],
        exec i s = .next (s.trapped 4 .addressing s)) ∧
    (∀ o : OpsRX, s.installed (s.eaRX o) 4 = false →
      ∀ i ∈ [Instr.l o, .st o, .a o, .s o, .al o, .sl o, .c o, .cl o, .n o, .o o, .x o],
        exec i s = .next (s.trapped 4 .addressing s)) ∧
    (∀ o : OpsRX, s.installed (s.eaRX o) 4 = false → o.r1.toNat % 2 = 0 → ∀ i ∈ [Instr.m o, .d o],
      exec i s = .next (s.trapped 4 .addressing s)) ∧
    (∀ o : OpsRX, s.installed (s.eaRX o) 8 = false → ∀ i ∈ [Instr.cvb o, .cvd o],
      exec i s = .next (s.trapped 4 .addressing s)) ∧
    (∀ o : OpsRX, s.installed (s.eaRX o) 4 = false → o.r1 ∈ [0, 2, 4, 6] →
      ∀ i ∈ [Instr.le o, .ste o, .ae o, .se o, .au o, .su o, .ce o, .me o, .de o],
        exec i s = .next (s.trapped 4 .addressing s)) ∧
    (∀ o : OpsRX, s.installed (s.eaRX o) 8 = false → o.r1 ∈ [0, 2, 4, 6] →
      ∀ i ∈ [Instr.ld o, .std o, .ad o, .sd o, .aw o, .sw o, .cd o, .md o, .dd o],
        exec i s = .next (s.trapped 4 .addressing s)) ∧
    (∀ o : OpsSI, s.installed (s.ea o.b1 o.d1) 1 = false →
      ∀ i ∈ [Instr.mvi o, .ni o, .oi o, .xi o, .tm o, .cli o, .ts o],
        exec i s = .next (s.trapped 4 .addressing s)) ∧
    (∀ o : OpsSI, s.installed (s.ea o.b1 o.d1) 1 = false → s.psw.p = false →
      ∀ i ∈ [Instr.ssm o, .stnsm o, .stosm o], exec i s = .next (s.trapped 4 .addressing s)) ∧
    (∀ o : OpsRS, s.installed (s.ea o.b2 o.d2) (4 * ((o.r3 - o.r1).toNat + 1)) = false →
      ∀ i ∈ [Instr.lm o, .stm o], exec i s = .next (s.trapped 4 .addressing s)) ∧
    (∀ o : OpsRS, s.installed (s.ea o.b2 o.d2) (maskBytes o.r3).length = false →
      ∀ i ∈ [Instr.icm o, .stcm o], exec i s = .next (s.trapped 4 .addressing s)) ∧
    (∀ o : OpsRS, s.installed (s.ea o.b2 o.d2) 4 = false → (s.ea o.b2 o.d2).toNat % 4 = 0 →
      exec (.cs o) s = .next (s.trapped 4 .addressing s)) ∧
    (∀ o : OpsRS, s.installed (s.ea o.b2 o.d2) 8 = false → (s.ea o.b2 o.d2).toNat % 8 = 0 →
      o.r1.toNat % 2 = 0 → o.r3.toNat % 2 = 0 → exec (.cds o) s = .next (s.trapped 4 .addressing s)) ∧
    (∀ o : OpsSI, s.installed (s.ea o.b1 o.d1) 8 = false → (s.ea o.b1 o.d1).toNat % 8 = 0 →
      s.psw.p = false → exec (.lpsw o) s = .next (s.trapped 4 .addressing s)) ∧
    (∀ o : OpsSS2, s.installed (s.ea o.b2 o.d2) (o.l2.toNat + 1) = false →
      exec (.zap o) s = .next (s.trapped 6 .addressing s)) ∧
    (∀ o : OpsSS2, s.installed (s.ea o.b1 o.d1) (o.l1.toNat + 1) = false ∨
        s.installed (s.ea o.b2 o.d2) (o.l2.toNat + 1) = false →
      (∀ i ∈ [Instr.ap o, .sp o, .cp o], exec i s = .next (s.trapped 6 .addressing s)) ∧
      (o.l2.toNat ≤ 7 → o.l2.toNat < o.l1.toNat →
        ∀ i ∈ [Instr.mp o, .dp o], exec i s = .next (s.trapped 6 .addressing s))) ∧
    ∀ o : OpsSS2, s.installed (s.ea o.b1 o.d1) (o.l1.toNat + 1) = false →
      exec (.srp o) s = .next (s.trapped 6 .addressing s)

/-! ## Fixed point -/

/-- The loads of a general register: its new value, and for LTR the CC (R210, R211, R501, R502, R505,
R506). -/
def Obligations.RegisterLoads : Prop :=
  ∀ s : State,
    (∀ o : OpsRR, exec (.lr o) s = .next (s.completed 2 (s.setGr o.r1 (s.getGr o.r2)))) ∧
    (∀ o : OpsRR,
      let v := s.getGr o.r2
      exec (.ltr o) s = .next (s.completed 2
        ((s.setGr o.r1 v).setCc (if v = 0 then 0 else if v.msb then 1 else 2)))) ∧
    ∀ o : OpsRX,
      exec (.la o) s = .next (s.completed 4 (s.setGr o.r1 (0#8 ++ s.eaRX o))) ∧
      (s.installed (s.eaRX o) 4 = true →
        exec (.l o) s = .next (s.completed 4 (s.setGr o.r1 (s.peek 32 (s.eaRX o))))) ∧
      (s.installed (s.eaRX o) 2 = true →
        exec (.lh o) s = .next (s.completed 4 (s.setGr o.r1
          (BitVec.ofInt 32 (s.peek 16 (s.eaRX o)).toInt)))) ∧
      (s.installed (s.eaRX o) 1 = true →
        exec (.ic o) s = .next (s.completed 4 (s.setGr o.r1
          ((s.getGr o.r1).extractLsb' 8 24 ++ s.byteAt (s.eaRX o)))))

/-- The signed sums and signs: the exact result truncated, CC 3 exactly if it does not fit, and then an
interruption if `PM.FO` is 1 (R200, R201, R212 to R220). -/
def Obligations.SignedArithmetic : Prop :=
  ∀ s : State,
    (∀ o : OpsRR,
      let a := (s.getGr o.r1).toInt
      let b := (s.getGr o.r2).toInt
      ∀ p ∈ [(Instr.lcr o, -b), (.lpr o, |b|), (.lnr o, -|b|), (.ar o, a + b), (.sr o, a - b)],
        exec p.1 s = .next (s.signedSum 2 o.r1 p.2)) ∧
    (∀ o : OpsRX, s.installed (s.eaRX o) 4 = true →
      let a := (s.getGr o.r1).toInt
      let b := (s.peek 32 (s.eaRX o)).toInt
      ∀ p ∈ [(Instr.a o, a + b), (.s o, a - b)], exec p.1 s = .next (s.signedSum 4 o.r1 p.2)) ∧
    ∀ o : OpsRX, s.installed (s.eaRX o) 2 = true →
      let a := (s.getGr o.r1).toInt
      let b := (s.peek 16 (s.eaRX o)).toInt
      ∀ p ∈ [(Instr.ah o, a + b), (.sh o, a - b)], exec p.1 s = .next (s.signedSum 4 o.r1 p.2)

/-- Logical sums and differences: the result modulo 2^32, and the CC 1 for nonzero plus 2 for a carry, which
for a difference means no borrow (R202, R221 to R224). -/
def Obligations.LogicalArithmetic : Prop :=
  ∀ s : State,
    let sum := fun (len : Nat) (r : Nib) (x y : Word) => s.completed len ((s.setGr r (x + y)).setCc
      ((if x + y = 0 then 0 else 1) + (if 2 ^ 32 ≤ x.toNat + y.toNat then 2 else 0)))
    let difference := fun (len : Nat) (r : Nib) (x y : Word) => s.completed len
      ((s.setGr r (x - y)).setCc ((if x = y then 0 else 1) + (if y.toNat ≤ x.toNat then 2 else 0)))
    (∀ o : OpsRR,
      exec (.alr o) s = .next (sum 2 o.r1 (s.getGr o.r1) (s.getGr o.r2)) ∧
      exec (.slr o) s = .next (difference 2 o.r1 (s.getGr o.r1) (s.getGr o.r2))) ∧
    ∀ o : OpsRX, s.installed (s.eaRX o) 4 = true →
      exec (.al o) s = .next (sum 4 o.r1 (s.getGr o.r1) (s.peek 32 (s.eaRX o))) ∧
      exec (.sl o) s = .next (difference 4 o.r1 (s.getGr o.r1) (s.peek 32 (s.eaRX o)))

/-- The comparisons write the CC alone, signed or unsigned (R225 to R227, R413 to R415). -/
def Obligations.Comparisons : Prop :=
  ∀ s : State,
    (∀ o : OpsRR,
      exec (.cr o) s = .next (s.completed 2
        (s.setCc (ccOfOrder (s.getGr o.r1).toInt (s.getGr o.r2).toInt))) ∧
      exec (.clr o) s = .next (s.completed 2
        (s.setCc (ccOfOrder (s.getGr o.r1).toNat (s.getGr o.r2).toNat)))) ∧
    (∀ o : OpsRX, s.installed (s.eaRX o) 4 = true →
      let m := s.peek 32 (s.eaRX o)
      exec (.c o) s = .next (s.completed 4 (s.setCc (ccOfOrder (s.getGr o.r1).toInt m.toInt))) ∧
      exec (.cl o) s = .next (s.completed 4 (s.setCc (ccOfOrder (s.getGr o.r1).toNat m.toNat)))) ∧
    (∀ o : OpsRX, s.installed (s.eaRX o) 2 = true →
      exec (.ch o) s = .next (s.completed 4
        (s.setCc (ccOfOrder (s.getGr o.r1).toInt (s.peek 16 (s.eaRX o)).toInt)))) ∧
    ∀ o : OpsSI, s.installed (s.ea o.b1 o.d1) 1 = true →
      exec (.cli o) s = .next (s.completed 4
        (s.setCc (ccOfOrder (s.byteAt (s.ea o.b1 o.d1)).toNat o.i2.toNat)))

/-- Multiply: the odd register of an even pair times the operand, exactly, to the pair; MH the low 32 bits
to the register (R228 to R230). Divide: the quotient truncated toward zero to the odd register and the
remainder, with the dividend's sign, to the even one; a zero divisor or a quotient out of range is a
fixed-point divide exception, suppressed (R231, R232). No CC. -/
def Obligations.MultiplyDivide : Prop :=
  ∀ s : State,
    let divided := fun (len : Nat) (r : Nib) (d : Word) =>
      let n := (s.getPair r).toInt
      if d = 0 ∨ overflows 32 (n.tdiv d.toInt) then s.trapped len .fixedDivide s
      else s.completed len (s.setPair r
        (BitVec.ofInt 32 (n.tmod d.toInt) ++ BitVec.ofInt 32 (n.tdiv d.toInt)))
    (∀ o : OpsRR, o.r1.toNat % 2 = 0 →
      exec (.mr o) s = .next (s.completed 2 (s.setPair o.r1
        (BitVec.ofInt 64 ((s.getGr (o.r1 + 1)).toInt * (s.getGr o.r2).toInt))))) ∧
    (∀ o : OpsRX, o.r1.toNat % 2 = 0 → s.installed (s.eaRX o) 4 = true →
      exec (.m o) s = .next (s.completed 4 (s.setPair o.r1
        (BitVec.ofInt 64 ((s.getGr (o.r1 + 1)).toInt * (s.peek 32 (s.eaRX o)).toInt))))) ∧
    (∀ o : OpsRX, s.installed (s.eaRX o) 2 = true →
      exec (.mh o) s = .next (s.completed 4 (s.setGr o.r1
        (BitVec.ofInt 32 ((s.getGr o.r1).toInt * (s.peek 16 (s.eaRX o)).toInt))))) ∧
    (∀ o : OpsRR, o.r1.toNat % 2 = 0 →
      exec (.dr o) s = .next (divided 2 o.r1 (s.getGr o.r2))) ∧
    ∀ o : OpsRX, o.r1.toNat % 2 = 0 → s.installed (s.eaRX o) 4 = true →
      exec (.d o) s = .next (divided 4 o.r1 (s.peek 32 (s.eaRX o)))

/-- The shifts, by the low 6 bits of the second operand's address, of a register and of an even/odd pair:
products and quotients by powers of two; SLA and SLDA keep the sign and overflow when the exact product
does not fit (R134, R233 to R240). -/
def Obligations.Shifts : Prop :=
  ∀ (s : State) (o : OpsRS),
    let n := (s.ea o.b2 o.d2).toNat % 64
    (let v := s.getGr o.r1
     exec (.sla o) s = .next (s.signedEnd 4 32 (v.toInt * 2 ^ n)
       ((s.setGr o.r1 (BitVec.ofBool v.msb ++ BitVec.ofInt 31 (v.toInt * 2 ^ n))).setCc
         (ccOfExact 32 (v.toInt * 2 ^ n)))) ∧
     exec (.sra o) s = .next (s.completed 4
       ((s.setGr o.r1 (BitVec.ofInt 32 (v.toInt / 2 ^ n))).setCc (ccOfExact 32 (v.toInt / 2 ^ n)))) ∧
     exec (.sll o) s = .next (s.completed 4 (s.setGr o.r1 (BitVec.ofNat 32 (v.toNat * 2 ^ n)))) ∧
     exec (.srl o) s = .next (s.completed 4 (s.setGr o.r1 (BitVec.ofNat 32 (v.toNat / 2 ^ n))))) ∧
    (o.r1.toNat % 2 = 0 →
      let v := s.getPair o.r1
      exec (.slda o) s = .next (s.signedEnd 4 64 (v.toInt * 2 ^ n)
        ((s.setPair o.r1 (BitVec.ofBool v.msb ++ BitVec.ofInt 63 (v.toInt * 2 ^ n))).setCc
          (ccOfExact 64 (v.toInt * 2 ^ n)))) ∧
      exec (.srda o) s = .next (s.completed 4
        ((s.setPair o.r1 (BitVec.ofInt 64 (v.toInt / 2 ^ n))).setCc
          (ccOfExact 64 (v.toInt / 2 ^ n)))) ∧
      exec (.sldl o) s = .next (s.completed 4
        (s.setPair o.r1 (BitVec.ofNat 64 (v.toNat * 2 ^ n)))) ∧
      exec (.srdl o) s = .next (s.completed 4
        (s.setPair o.r1 (BitVec.ofNat 64 (v.toNat / 2 ^ n)))))

/-! ## Floating point -/

/-- Loads and stores of floating-point registers move bit patterns; a short load leaves bits 32-63 (R320
to R325, R302). -/
def Obligations.FloatLoadStore : Prop :=
  ∀ (s : State) (a : Fin 4),
    (∀ (o : OpsRR) (b : Fin 4), frPlace o.r1 = some a → frPlace o.r2 = some b →
      exec (.ldr o) s = .next (s.completed 2 (s.setFr a (s.getFr b))) ∧
      exec (.ler o) s = .next (s.completed 2 (s.setFr a
        ((s.getFr b).extractLsb' 32 32 ++ (s.getFr a).extractLsb' 0 32)))) ∧
    (∀ o : OpsRX, frPlace o.r1 = some a → s.installed (s.eaRX o) 4 = true →
      exec (.le o) s = .next (s.completed 4 (s.setFr a
        (s.peek 32 (s.eaRX o) ++ (s.getFr a).extractLsb' 0 32))) ∧
      exec (.ste o) s = .next (s.completed 4
        (s.poke (s.eaRX o) ((s.getFr a).extractLsb' 32 32)))) ∧
    ∀ o : OpsRX, frPlace o.r1 = some a → s.installed (s.eaRX o) 8 = true →
      exec (.ld o) s = .next (s.completed 4 (s.setFr a (s.peek 64 (s.eaRX o)))) ∧
      exec (.std o) s = .next (s.completed 4 (s.poke (s.eaRX o) (s.getFr a)))

/-- Load and test, complement, negative and positive: only the sign bit may change, and the CC is 0 for a
zero fraction, else the sign's (R326 to R333, R303). -/
def Obligations.FloatSigns : Prop :=
  ∀ (s : State) (o : OpsRR) (a b : Fin 4), frPlace o.r1 = some a → frPlace o.r2 = some b →
    let x := s.getFr b
    let cc := fun (zero neg : Bool) => (if zero then 0 else if neg then 1 else 2 : BitVec 2)
    let short := fun (sign : Bool) => s.completed 2
      ((s.setFr a (BitVec.ofBool sign ++ x.extractLsb' 32 31 ++ (s.getFr a).extractLsb' 0 32)).setCc
        (cc (decide (x.extractLsb' 32 24 = 0)) sign))
    let long := fun (sign : Bool) => s.completed 2
      ((s.setFr a (BitVec.ofBool sign ++ x.extractLsb' 0 63)).setCc
        (cc (decide (x.extractLsb' 0 56 = 0)) sign))
    exec (.lter o) s = .next (short x.msb) ∧ exec (.ltdr o) s = .next (long x.msb) ∧
    exec (.lcer o) s = .next (short !x.msb) ∧ exec (.lcdr o) s = .next (long !x.msb) ∧
    exec (.lner o) s = .next (short true) ∧ exec (.lndr o) s = .next (long true) ∧
    exec (.lper o) s = .next (short false) ∧ exec (.lpdr o) s = .next (long false)

/-- Add and subtract, normalized and unnormalized: the aligned sum with one guard digit, its leading digits
or the sum at its own exponent, and the exponent and significance exceptions (R304, R305, R334 to
R349). That an unnormalized sum of which only the guard digit is nonzero keeps its characteristic, with a zero
fraction, is the model's choice between R305's pseudocode and D27, log 11. -/
def Obligations.FloatAddSubtract : Prop :=
  ∀ (s : State) (a : Fin 4),
    (∀ (o : OpsRR) (b : Fin 4), frPlace o.r1 = some a → frPlace o.r2 = some b →
      let sum := fun (f : HfpFormat) (norm negate : Bool) =>
        s.sumEnd 2 f a norm negate (s.getHfp f a) (s.getHfp f b)
      exec (.aer o) s = .next (sum .short true false) ∧
      exec (.adr o) s = .next (sum .long true false) ∧
      exec (.ser o) s = .next (sum .short true true) ∧ exec (.sdr o) s = .next (sum .long true true) ∧
      exec (.aur o) s = .next (sum .short false false) ∧
      exec (.awr o) s = .next (sum .long false false) ∧
      exec (.sur o) s = .next (sum .short false true) ∧
      exec (.swr o) s = .next (sum .long false true)) ∧
    (∀ o : OpsRX, frPlace o.r1 = some a → s.installed (s.eaRX o) 4 = true →
      let sum := fun (norm negate : Bool) =>
        s.sumEnd 4 .short a norm negate (s.getHfp .short a) (hfpOfWord (s.peek 32 (s.eaRX o)))
      exec (.ae o) s = .next (sum true false) ∧ exec (.se o) s = .next (sum true true) ∧
      exec (.au o) s = .next (sum false false) ∧ exec (.su o) s = .next (sum false true)) ∧
    ∀ o : OpsRX, frPlace o.r1 = some a → s.installed (s.eaRX o) 8 = true →
      let sum := fun (norm negate : Bool) =>
        s.sumEnd 4 .long a norm negate (s.getHfp .long a) (hfpOfDWord (s.peek 64 (s.eaRX o)))
      exec (.ad o) s = .next (sum true false) ∧ exec (.sd o) s = .next (sum true true) ∧
      exec (.aw o) s = .next (sum false false) ∧ exec (.sw o) s = .next (sum false true)

/-- Compare: the CC is that of the aligned difference with one guard digit, and nothing else is written
(R350 to R353). -/
def Obligations.FloatCompare : Prop :=
  ∀ (s : State) (a : Fin 4),
    let compared := fun (len : Nat) (x y : Hfp) =>
      s.completed len (s.setCc (ccOfOrder (alignedFrac (commonChar x y) x)
        (alignedFrac (commonChar x y) y)))
    (∀ (o : OpsRR) (b : Fin 4), frPlace o.r1 = some a → frPlace o.r2 = some b →
      exec (.cer o) s = .next (compared 2 (s.getHfp .short a) (s.getHfp .short b)) ∧
      exec (.cdr o) s = .next (compared 2 (s.getHfp .long a) (s.getHfp .long b))) ∧
    (∀ o : OpsRX, frPlace o.r1 = some a → s.installed (s.eaRX o) 4 = true →
      exec (.ce o) s = .next
        (compared 4 (s.getHfp .short a) (hfpOfWord (s.peek 32 (s.eaRX o))))) ∧
    ∀ o : OpsRX, frPlace o.r1 = some a → s.installed (s.eaRX o) 8 = true →
      exec (.cd o) s = .next
        (compared 4 (s.getHfp .long a) (hfpOfDWord (s.peek 64 (s.eaRX o))))

/-- Multiply: the leading digits of the exact product; short operands give a long result; a zero operand a
true zero; the CC stays (R307, R354 to R357). -/
def Obligations.FloatMultiply : Prop :=
  ∀ (s : State) (a : Fin 4),
    let product := fun (len n : Nat) (x y : Hfp) =>
      s.resultEnd len .long a (decide (x.frac = 0 ∨ y.frac = 0)) (productResult n 14 x y)
    (∀ (o : OpsRR) (b : Fin 4), frPlace o.r1 = some a → frPlace o.r2 = some b →
      exec (.mer o) s = .next (product 2 6 (s.getHfp .short a) (s.getHfp .short b)) ∧
      exec (.mdr o) s = .next (product 2 14 (s.getHfp .long a) (s.getHfp .long b))) ∧
    (∀ o : OpsRX, frPlace o.r1 = some a → s.installed (s.eaRX o) 4 = true →
      exec (.me o) s = .next
        (product 4 6 (s.getHfp .short a) (hfpOfWord (s.peek 32 (s.eaRX o))))) ∧
    ∀ o : OpsRX, frPlace o.r1 = some a → s.installed (s.eaRX o) 8 = true →
      exec (.md o) s = .next
        (product 4 14 (s.getHfp .long a) (hfpOfDWord (s.peek 64 (s.eaRX o))))

/-- Divide: the leading digits of the exact quotient, truncated; a zero dividend gives a true zero; a zero
divisor fraction is a floating-point divide exception, suppressed; the CC stays (R308, R358 to R361). -/
def Obligations.FloatDivide : Prop :=
  ∀ (s : State) (a : Fin 4),
    let quotient := fun (len n : Nat) (f : HfpFormat) (x y : Hfp) =>
      if y.frac = 0 then s.trapped len .floatDivide s
      else s.resultEnd len f a (decide (x.frac = 0)) (quotientResult n x y)
    (∀ (o : OpsRR) (b : Fin 4), frPlace o.r1 = some a → frPlace o.r2 = some b →
      exec (.der o) s = .next (quotient 2 6 .short (s.getHfp .short a) (s.getHfp .short b)) ∧
      exec (.ddr o) s = .next (quotient 2 14 .long (s.getHfp .long a) (s.getHfp .long b))) ∧
    (∀ o : OpsRX, frPlace o.r1 = some a → s.installed (s.eaRX o) 4 = true →
      exec (.de o) s = .next
        (quotient 4 6 .short (s.getHfp .short a) (hfpOfWord (s.peek 32 (s.eaRX o))))) ∧
    ∀ o : OpsRX, frPlace o.r1 = some a → s.installed (s.eaRX o) 8 = true →
      exec (.dd o) s = .next
        (quotient 4 14 .long (s.getHfp .long a) (hfpOfDWord (s.peek 64 (s.eaRX o))))

/-- Halve: the leading digits of half the fraction with a guard digit; a zero operand gives a true zero; the
CC stays (R362, R363). -/
def Obligations.FloatHalve : Prop :=
  ∀ (s : State) (o : OpsRR) (a b : Fin 4), frPlace o.r1 = some a → frPlace o.r2 = some b →
    let halved := fun (f : HfpFormat) =>
      let x := s.getHfp f b
      s.resultEnd 2 f a (decide (x.frac = 0)) (halfResult (hfpDigits f) x)
    exec (.her o) s = .next (halved .short) ∧ exec (.hdr o) s = .next (halved .long)

/-! ## Logical -/

/-- AND, OR and exclusive OR to a register: the result, and the CC 1 exactly if it is not zero (R401,
R402, R405, R406, R409, R410). -/
def Obligations.LogicalRegister : Prop :=
  ∀ s : State,
    let put := fun (len : Nat) (r : Nib) (v : Word) =>
      s.completed len ((s.setGr r v).setCc (if v = 0 then 0 else 1))
    (∀ o : OpsRR,
      let x := s.getGr o.r1
      let y := s.getGr o.r2
      exec (.nr o) s = .next (put 2 o.r1 (x &&& y)) ∧ exec (.or o) s = .next (put 2 o.r1 (x ||| y)) ∧
      exec (.xr o) s = .next (put 2 o.r1 (x ^^^ y))) ∧
    ∀ o : OpsRX, s.installed (s.eaRX o) 4 = true →
      let x := s.getGr o.r1
      let y := s.peek 32 (s.eaRX o)
      exec (.n o) s = .next (put 4 o.r1 (x &&& y)) ∧ exec (.o o) s = .next (put 4 o.r1 (x ||| y)) ∧
      exec (.x o) s = .next (put 4 o.r1 (x ^^^ y))

/-- The instructions on one storage byte: what they store there, and the CC (R403, R407, R411, R512,
R517, R419). -/
def Obligations.StorageByte : Prop :=
  ∀ (s : State) (o : OpsSI), s.installed (s.ea o.b1 o.d1) 1 = true →
    let a := s.ea o.b1 o.d1
    let b := s.byteAt a
    let put := fun (v : Byte) =>
      s.completed 4 ((s.setByte a v).setCc (if v = 0 then 0 else 1))
    exec (.ni o) s = .next (put (b &&& o.i2)) ∧ exec (.oi o) s = .next (put (b ||| o.i2)) ∧
    exec (.xi o) s = .next (put (b ^^^ o.i2)) ∧
    exec (.mvi o) s = .next (s.completed 4 (s.setByte a o.i2)) ∧
    exec (.ts o) s = .next (s.completed 4
      ((s.setByte a 0xFF).setCc (if b.msb then 1 else 0))) ∧
    exec (.tm o) s = .next (s.completed 4 (s.setCc
      (if b &&& o.i2 = 0 then 0 else if b &&& o.i2 = o.i2 then 3 else 1)))

/-- The character moves and logical operations store, left to right, each byte from the first operand's
byte and the second's as it stands by then; the CC covers the whole result. A byte of either operand that is
not installed is an addressing exception when it is reached: the bytes before it stay stored, and the CC stays
(R404, R408, R412, R400, R513 to R515, R83). -/
def Obligations.CharacterStores : Prop :=
  ∀ (s : State) (o : OpsSS), Memory.wf s.mem = true →
    let a := s.ea o.b1 o.d1
    let b := s.ea o.b2 o.d2
    let ok := fun k => s.installed (after a k) 1 = true ∧ s.installed (after b k) 1 = true
    let stores := fun (f : Byte → Byte → Byte) (m : Nat) (u : State) =>
      u = { s with mem := u.mem } ∧
      (∀ k < m, u.byteAt (after a k) = f (s.byteAt (after a k)) (seenAfter s u a k (after b k))) ∧
      ∀ x : Addr, m ≤ (x - a).toNat → u.byteAt x = s.byteAt x
    let moves := [(Instr.mvc o, fun _ y : Byte => y), (.mvn o, fun x y => (x &&& 0xF0) ||| (y &&& 0x0F)),
      (.mvz o, fun x y => (y &&& 0xF0) ||| (x &&& 0x0F))]
    let combines := [(Instr.nc o, fun x y : Byte => x &&& y), (.oc o, fun x y => x ||| y),
      (.xc o, fun x y => x ^^^ y)]
    ((∀ k ≤ o.l.toNat, ok k) →
      (∀ p ∈ moves, ∃ u, stores p.2 (o.l.toNat + 1) u ∧ exec p.1 s = .next (s.completed 6 u)) ∧
      ∀ p ∈ combines, ∃ u, stores p.2 (o.l.toNat + 1) u ∧
        exec p.1 s = .next (s.completed 6
          (u.setCc (if ∀ k ≤ o.l.toNat, u.byteAt (after a k) = 0 then 0 else 1)))) ∧
    ∀ m ≤ o.l.toNat, (∀ k < m, ok k) → ¬ok m → ∀ p ∈ moves ++ combines,
      ∃ u, stores p.2 m u ∧ exec p.1 s = .next (s.trapped 6 .addressing u)

/-- CLC and CLM set the CC by the first unequal byte, and need only the bytes up to it (R416, R417); one of
these that is not installed is an addressing exception, and changes nothing else (R83; that CLM needs no
further byte is log 9). -/
def Obligations.CharacterCompare : Prop :=
  ∀ s : State,
    (∀ (o : OpsSS) (m : Nat),
      let a := s.ea o.b1 o.d1
      let b := s.ea o.b2 o.d2
      let x := fun k => s.byteAt (after a k)
      let y := fun k => s.byteAt (after b k)
      let ok := fun k => s.installed (after a k) 1 = true ∧ s.installed (after b k) 1 = true
      (∀ k < m, ok k ∧ x k = y k) →
      (m = o.l.toNat + 1 → exec (.clc o) s = .next (s.completed 6 (s.setCc 0))) ∧
      (m ≤ o.l.toNat → ok m → x m ≠ y m →
        exec (.clc o) s = .next (s.completed 6 (s.setCc (ccOfOrder (x m).toNat (y m).toNat)))) ∧
      (m ≤ o.l.toNat → ¬ok m → exec (.clc o) s = .next (s.trapped 6 .addressing s))) ∧
    ∀ (o : OpsRS) (m : Nat),
      let js := maskBytes o.r3
      let b := s.ea o.b2 o.d2
      let x := fun k => byteOfWord (s.getGr o.r1) (js.getD k 0)
      let y := fun k => s.byteAt (after b k)
      (∀ k < m, s.installed (after b k) 1 = true ∧ x k = y k) →
      (m = js.length → exec (.clm o) s = .next (s.completed 4 (s.setCc 0))) ∧
      (m < js.length → s.installed (after b m) 1 = true → x m ≠ y m →
        exec (.clm o) s = .next (s.completed 4 (s.setCc (ccOfOrder (x m).toNat (y m).toNat)))) ∧
      (m < js.length → s.installed (after b m) 1 = false →
        exec (.clm o) s = .next (s.trapped 4 .addressing s))

/-- CLCL: the shorter operand is extended by the pad; the registers end at the first unequal byte, or
after both operands; a byte that is reached and not installed is an addressing exception, and no register and
no CC is updated (R418, R83). -/
def Obligations.CompareLong : Prop :=
  ∀ (s : State) (o : OpsRR) (m : Nat), o.r1.toNat % 2 = 0 → o.r2.toNat % 2 = 0 →
    let a := s.regTarget o.r1
    let b := s.regTarget o.r2
    let n := ((s.getGr (o.r1 + 1)).extractLsb' 0 24).toNat
    let l := ((s.getGr (o.r2 + 1)).extractLsb' 0 24).toNat
    let pad := (s.getGr (o.r2 + 1)).extractLsb' 24 8
    let x := fun k => if k < n then s.byteAt (after a k) else pad
    let y := fun k => if k < l then s.byteAt (after b k) else pad
    let ok := fun k => (k < n → s.installed (after a k) 1 = true) ∧
      (k < l → s.installed (after b k) 1 = true)
    let ends := fun (cc : BitVec 2) =>
      let s1 := s.setGr o.r1 (0#8 ++ after a (min m n))
      let s2 := s1.setGr (o.r1 + 1)
        ((s1.getGr (o.r1 + 1)).extractLsb' 24 8 ++ BitVec.ofNat 24 (n - min m n))
      let s3 := s2.setGr o.r2 (0#8 ++ after b (min m l))
      let s4 := s3.setGr (o.r2 + 1)
        ((s3.getGr (o.r2 + 1)).extractLsb' 24 8 ++ BitVec.ofNat 24 (l - min m l))
      s.completed 2 (s4.setCc cc)
    (∀ k < m, ok k ∧ x k = y k) →
    (m = max n l → exec (.clcl o) s = .next (ends 0)) ∧
    (m < max n l → ok m → x m ≠ y m →
      exec (.clcl o) s = .next (ends (ccOfOrder (x m).toNat (y m).toNat))) ∧
    (m < max n l → ¬ok m → exec (.clcl o) s = .next (s.trapped 2 .addressing s))

/-- TR replaces each byte, left to right, by the table's byte as it stands by then; TRT looks for the first
nonzero function byte; only the table bytes used are accessed. A byte that is not installed is an addressing
exception when it is reached: TR keeps the bytes stored before it, and TRT changes nothing else (R425, R426,
R83). -/
def Obligations.Translate : Prop :=
  ∀ (s : State) (o : OpsSS),
    let a := s.ea o.b1 o.d1
    let entry := fun k => after (s.ea o.b2 o.d2) (s.byteAt (after a k)).toNat
    let ok := fun k => s.installed (after a k) 1 = true ∧ s.installed (entry k) 1 = true
    (Memory.wf s.mem = true →
      let stores := fun (m : Nat) (u : State) => u = { s with mem := u.mem } ∧
        (∀ k < m, u.byteAt (after a k) = seenAfter s u a k (entry k)) ∧
        ∀ x : Addr, m ≤ (x - a).toNat → u.byteAt x = s.byteAt x
      ((∀ k ≤ o.l.toNat, ok k) →
        ∃ u, stores (o.l.toNat + 1) u ∧ exec (.tr o) s = .next (s.completed 6 u)) ∧
      ∀ m ≤ o.l.toNat, (∀ k < m, ok k) → ¬ok m →
        ∃ u, stores m u ∧ exec (.tr o) s = .next (s.trapped 6 .addressing u)) ∧
    ∀ m : Nat, (∀ k < m, ok k ∧ s.byteAt (entry k) = 0) →
      (m = o.l.toNat + 1 → exec (.trt o) s = .next (s.completed 6 (s.setCc 0))) ∧
      (m ≤ o.l.toNat → ok m → s.byteAt (entry m) ≠ 0 →
        let s1 := s.setGr 1 ((s.getGr 1).extractLsb' 24 8 ++ after a m)
        let s2 := s1.setGr 2 ((s1.getGr 2).extractLsb' 8 24 ++ s.byteAt (entry m))
        exec (.trt o) s = .next (s.completed 6 (s2.setCc (if m = o.l.toNat then 2 else 1)))) ∧
      (m ≤ o.l.toNat → ¬ok m → exec (.trt o) s = .next (s.trapped 6 .addressing s))

/-! ## Load and store -/

/-- ST, STH, STC, STE, STD and STCM store the register's bytes, the most significant first, at the computed
address, and leave every other byte (R503, R504, R507, R509, R84, R324, R325). -/
def Obligations.StorageStores : Prop :=
  ∀ s : State, Memory.wf s.mem = true →
    let stored := fun (a : Addr) (bs : List Byte) (t : State) =>
      t = s.completed 4 { s with mem := t.mem } ∧ t.bytesAt a bs.length = bs ∧
      ∀ x : Addr, bs.length ≤ (x - a).toNat → t.byteAt x = s.byteAt x
    (∀ o : OpsRX,
      let a := s.eaRX o
      let v := s.getGr o.r1
      (s.installed a 4 = true → ∃ t, exec (.st o) s = .next t ∧
        stored a [byteOfWord v 0, byteOfWord v 1, byteOfWord v 2, byteOfWord v 3] t) ∧
      (s.installed a 2 = true → ∃ t, exec (.sth o) s = .next t ∧
        stored a [byteOfWord v 2, byteOfWord v 3] t) ∧
      (s.installed a 1 = true → ∃ t, exec (.stc o) s = .next t ∧ stored a [byteOfWord v 3] t) ∧
      ∀ k, frPlace o.r1 = some k →
        let w := fun j => (s.getFr k).extractLsb' (56 - 8 * j) 8
        (s.installed a 4 = true → ∃ t, exec (.ste o) s = .next t ∧
          stored a [w 0, w 1, w 2, w 3] t) ∧
        (s.installed a 8 = true → ∃ t, exec (.std o) s = .next t ∧
          stored a [w 0, w 1, w 2, w 3, w 4, w 5, w 6, w 7] t)) ∧
    ∀ o : OpsRS, s.installed (s.ea o.b2 o.d2) (maskBytes o.r3).length = true →
      ∃ t, exec (.stcm o) s = .next t ∧
        stored (s.ea o.b2 o.d2) ((maskBytes o.r3).map (byteOfWord (s.getGr o.r1))) t

/-- The round-trip law: what ST, STH, STC, STD or STE stores, the matching load reads back unchanged, from
the same address (R500). -/
def Obligations.RoundTripLaw : Prop :=
  ∀ (s t : State) (o q : OpsRX), Memory.wf s.mem = true → t.eaRX q = s.eaRX o →
    (s.installed (s.eaRX o) 4 = true → exec (.st o) s = .next t →
      ∃ u, exec (.l q) t = .next u ∧ u.getGr q.r1 = s.getGr o.r1) ∧
    (s.installed (s.eaRX o) 2 = true → exec (.sth o) s = .next t →
      ∃ u, exec (.lh q) t = .next u ∧
        (u.getGr q.r1).extractLsb' 0 16 = (s.getGr o.r1).extractLsb' 0 16) ∧
    (s.installed (s.eaRX o) 1 = true → exec (.stc o) s = .next t →
      ∃ u, exec (.ic q) t = .next u ∧
        (u.getGr q.r1).extractLsb' 0 8 = (s.getGr o.r1).extractLsb' 0 8) ∧
    ∀ a b : Fin 4, frPlace o.r1 = some a → frPlace q.r1 = some b →
      (s.installed (s.eaRX o) 4 = true → exec (.ste o) s = .next t →
        ∃ u, exec (.le q) t = .next u ∧ u.getFrh b = s.getFrh a) ∧
      (s.installed (s.eaRX o) 8 = true → exec (.std o) s = .next t →
        ∃ u, exec (.ld q) t = .next u ∧ u.getFr b = s.getFr a)

/-- ICM puts consecutive storage bytes into the register's bytes that the mask selects, and sets the CC by
all of them (R508). -/
def Obligations.InsertUnderMask : Prop :=
  ∀ (s : State) (o : OpsRS), s.installed (s.ea o.b2 o.d2) (maskBytes o.r3).length = true →
    let js := maskBytes o.r3
    let b := fun k => s.byteAt (after (s.ea o.b2 o.d2) k)
    ∃ v : Word,
      exec (.icm o) s = .next (s.completed 4 ((s.setGr o.r1 v).setCc
        (if ∀ k < js.length, b k = 0 then 0 else if (b 0).msb then 1 else 2))) ∧
      (∀ k < js.length, byteOfWord v (js.getD k 0) = b k) ∧
      ∀ j < 4, j ∉ js → byteOfWord v j = byteOfWord (s.getGr o.r1) j

/-- LM and STM move the registers from R1 up to R3, 15 followed by 0, from and to consecutive words (R510,
R511). -/
def Obligations.MultipleRegisters : Prop :=
  ∀ (s : State) (o : OpsRS),
    let n := (o.r3 - o.r1).toNat
    let a := s.ea o.b2 o.d2
    s.installed a (4 * (n + 1)) = true →
    (∃ t, exec (.lm o) s = .next t ∧ t = s.completed 4 { s with gr := t.gr } ∧
      (∀ k ≤ n, t.getGr (o.r1 + BitVec.ofNat 4 k) = s.peek 32 (after a (4 * k))) ∧
      ∀ q : Nib, n < (q - o.r1).toNat → t.getGr q = s.getGr q) ∧
    (Memory.wf s.mem = true →
      ∃ t, exec (.stm o) s = .next t ∧ t = s.completed 4 { s with mem := t.mem } ∧
        (∀ k ≤ n, t.peek 32 (after a (4 * k)) = s.getGr (o.r1 + BitVec.ofNat 4 k)) ∧
        ∀ x : Addr, 4 * (n + 1) ≤ (x - a).toNat → t.byteAt x = s.byteAt x)

/-- MVCL: with destructive overlap only the CC is set, to 3; else the first operand becomes the second's
bytes, then the pad, and the registers end after what was moved. A byte that is reached and not installed is an
addressing exception: the bytes before it stay stored, and no register and no CC is updated (R516, R83). -/
def Obligations.MoveLong : Prop :=
  ∀ (s : State) (o : OpsRR), o.r1.toNat % 2 = 0 → o.r2.toNat % 2 = 0 → Memory.wf s.mem = true →
    let a := s.regTarget o.r1
    let b := s.regTarget o.r2
    let n := ((s.getGr (o.r1 + 1)).extractLsb' 0 24).toNat
    let l := ((s.getGr (o.r2 + 1)).extractLsb' 0 24).toNat
    let pad := (s.getGr (o.r2 + 1)).extractLsb' 24 8
    let overlap := 1 < min n l ∧ 1 ≤ (a - b).toNat ∧ (a - b).toNat ≤ min n l - 1
    let ok := fun k => s.installed (after a k) 1 = true ∧ (k < l → s.installed (after b k) 1 = true)
    let stores := fun (m : Nat) (u : State) => u = { s with mem := u.mem } ∧
      (∀ k < m, u.byteAt (after a k) = if k < l then s.byteAt (after b k) else pad) ∧
      ∀ x : Addr, m ≤ (x - a).toNat → u.byteAt x = s.byteAt x
    (overlap → exec (.mvcl o) s = .next (s.completed 2 (s.setCc 3))) ∧
    (¬overlap → (∀ k < n, ok k) →
      ∃ u, stores n u ∧
        (let s1 := u.setGr o.r1 (0#8 ++ after a n)
         let s2 := s1.setGr (o.r1 + 1) ((s1.getGr (o.r1 + 1)).extractLsb' 24 8 ++ 0#24)
         let s3 := s2.setGr o.r2 (0#8 ++ after b (min n l))
         let s4 := s3.setGr (o.r2 + 1)
           ((s3.getGr (o.r2 + 1)).extractLsb' 24 8 ++ BitVec.ofNat 24 (l - min n l))
         exec (.mvcl o) s = .next (s.completed 2 (s4.setCc (ccOfOrder n l))))) ∧
    (¬overlap → ∀ m < n, (∀ k < m, ok k) → ¬ok m →
      ∃ u, stores m u ∧ exec (.mvcl o) s = .next (s.trapped 2 .addressing u))

/-- CS and CDS compare and either store, with CC 0, or load, with CC 1 (R518, R519). -/
def Obligations.CompareAndSwap : Prop :=
  ∀ (s : State) (o : OpsRS),
    let a := s.ea o.b2 o.d2
    (a.toNat % 4 = 0 → s.installed a 4 = true →
      exec (.cs o) s = .next (s.completed 4
        (if s.getGr o.r1 = s.peek 32 a then (s.poke a (s.getGr o.r3)).setCc 0
         else (s.setGr o.r1 (s.peek 32 a)).setCc 1))) ∧
    (o.r1.toNat % 2 = 0 → o.r3.toNat % 2 = 0 → a.toNat % 8 = 0 → s.installed a 8 = true →
      exec (.cds o) s = .next (s.completed 4
        (if s.getPair o.r1 = s.peek 64 a then (s.poke a (s.getPair o.r3)).setCc 0
         else (s.setPair o.r1 (s.peek 64 a)).setCc 1)))

/-! ## Branches and EX -/

/-- The branches: where they go, on what condition, and the register they write (R600 to R603, R610 to
R615, R630 to R632). -/
def Obligations.Branches : Prop :=
  ∀ s : State,
    let link := fun (ilc : BitVec 2) (len : Nat) =>
      (ilc ++ s.psw.cc ++ s.psw.pm ++ (s.psw.ia + BitVec.ofNat 24 len) : BitVec 32)
    let selected := fun (m : Nib) => m.toNat / 2 ^ (3 - s.psw.cc.toNat) % 2 == 1
    (∀ o : OpsRX,
      exec (.bal o) s = .next (s.branched 4 (s.eaRX o) (s.setGr o.r1 (link 2 4))) ∧
      exec (.bc o) s = .next (s.branchedIf 4 (selected o.r1) (s.eaRX o) s) ∧
      exec (.bct o) s = .next (s.branchedIf 4 (s.getGr o.r1 != 1) (s.eaRX o)
        (s.setGr o.r1 (s.getGr o.r1 - 1)))) ∧
    (∀ o : OpsRR,
      let target := (s.getGr o.r2).extractLsb' 0 24
      exec (.balr o) s = .next (s.branchedIf 2 (o.r2 != 0) target (s.setGr o.r1 (link 1 2))) ∧
      exec (.bcr o) s = .next (s.branchedIf 2 (o.r2 != 0 && selected o.r1) target s) ∧
      exec (.bctr o) s = .next (s.branchedIf 2 (s.getGr o.r1 != 1 && o.r2 != 0) target
        (s.setGr o.r1 (s.getGr o.r1 - 1)))) ∧
    ∀ o : OpsRS,
      let sum := s.getGr o.r1 + s.getGr o.r3
      let comparand := s.getGr (if o.r3.toNat % 2 = 0 then o.r3 + 1 else o.r3)
      exec (.bxh o) s = .next (s.branchedIf 4 (decide (comparand.toInt < sum.toInt))
        (s.ea o.b2 o.d2) (s.setGr o.r1 sum)) ∧
      exec (.bxle o) s = .next (s.branchedIf 4 (decide (sum.toInt ≤ comparand.toInt))
        (s.ea o.b2 o.d2) (s.setGr o.r1 sum))

/-- EX runs the rule that its modified target has when executed directly, with the address after the EX and
ILC 2: a 4-byte target exactly as in the EX's place, an AR target as R215 with the EX's length; an odd
target, a target not installed and an EX as target are exceptions of the EX itself, and an undefined
target takes the action for undefined opcodes at the EX (R620, R621). That a target not wholly installed is an
addressing exception whether or not its opcode is defined is the model's choice, log 7. -/
def Obligations.Execute : Prop :=
  (∀ (i : Instr) (s : State), (∀ o, i ≠ .ex o) →
    exec i s = .next (conclude (s.ctx i.length) s (targetRule i (s.ctx i.length) s))) ∧
  ∀ (s : State) (o : OpsRX),
    let t := s.eaRX o
    let len := instrLength (s.byteAt t)
    let low := if o.r1 = 0 then 0 else (s.getGr o.r1).extractLsb' 0 8
    let copy := s.byteAt t :: (s.byteAt (t + 1) ||| low) :: s.bytesAt (t + 2) (len - 2)
    (t.toNat % 2 = 1 → exec (.ex o) s = .next (s.trapped 4 .specification s)) ∧
    (t.toNat % 2 = 0 → s.installed t 2 = false →
      exec (.ex o) s = .next (s.trapped 4 .addressing s)) ∧
    (t.toNat % 2 = 0 → s.installed t 2 = true → s.byteAt t = 0x44 →
      exec (.ex o) s = .next (s.trapped 4 .execute s)) ∧
    (t.toNat % 2 = 0 → s.installed t 2 = true → s.byteAt t ≠ 0x44 → s.installed t len = false →
      exec (.ex o) s = .next (s.trapped 4 .addressing s)) ∧
    (t.toNat % 2 = 0 → s.installed t len = true → s.byteAt t ∉ opcodeBytes →
      exec (.ex o) s = .next (if s.cfg.undefOpcodeAction = .returnInvalid
        then { s with result := .invalidOpcode } else s.trapped 4 .operation s)) ∧
    ∀ (i : Instr) (rest : List Byte), t.toNat % 2 = 0 → s.installed t len = true →
      s.byteAt t ≠ 0x44 → decode copy = .ok (i, rest) →
      exec (.ex o) s = .next (conclude (s.ctx 4) s (targetRule i (s.ctx 4) s)) ∧
      (i.length = 4 → exec (.ex o) s = exec i s) ∧
      ∀ q : OpsRR, i = .ar q →
        exec (.ex o) s = .next (s.signedSum 4 q.r1 ((s.getGr q.r1).toInt + (s.getGr q.r2).toInt))

/-! ## Control -/

/-- The control instructions, in supervisor state where they are privileged: system mask, storage keys,
program mask, monitor call (R654 to R658, R661, R662). -/
def Obligations.ControlInstructions : Prop :=
  ∀ s : State,
    (∀ o : OpsSI, s.psw.p = false → s.installed (s.ea o.b1 o.d1) 1 = true →
      let a := s.ea o.b1 o.d1
      exec (.ssm o) s = .next (s.completed 4 (s.setSysMask (s.byteAt a))) ∧
      exec (.stnsm o) s = .next (s.completed 4
        ((s.setByte a s.psw.sysMask).setSysMask (s.psw.sysMask &&& o.i2))) ∧
      exec (.stosm o) s = .next (s.completed 4
        ((s.setByte a s.psw.sysMask).setSysMask (s.psw.sysMask ||| o.i2)))) ∧
    (∀ o : OpsRR, s.psw.p = false → (s.getGr o.r2).toNat % 16 = 0 →
      let page := (s.getGr o.r2).toNat % 2 ^ 24 / 2048
      exec (.isk o) s = .next (s.completed 2 (s.setGr o.r1
        ((s.getGr o.r1).extractLsb' 8 24 ++ s.keyOf page ++ 0#4))) ∧
      exec (.ssk o) s = .next (s.completed 2 (s.setKey page ((s.getGr o.r1).extractLsb' 4 4)))) ∧
    (∀ o : OpsRR, exec (.spm o) s = .next (s.completed 2
      ((s.setCc ((s.getGr o.r1).extractLsb' 28 2)).setPm ((s.getGr o.r1).extractLsb' 24 4)))) ∧
    ∀ o : OpsSI, o.i2.toNat < 16 → exec (.mc o) s = .next (s.completed 4 s)

/-! ## Decimal -/

/-- Packed bytes hold a number with a preferred sign, D for minus and C for plus (R700, R702). -/
def Obligations.PackedResult : Prop :=
  ∀ (n mag : Nat) (neg : Bool), mag < 10 ^ (2 * n + 1) →
    (packedBytes mag neg n).length = n + 1 ∧
    packedOfBytes (packedBytes mag neg n) = some { mag := mag, neg := neg } ∧
    ((packedBytes mag neg n).getLastD 0).toNat % 16 = if neg then 0xD else 0xC

/-- AP, SP, ZAP: the low-order digits of the exact sum, difference or source, its sign, CC and decimal
overflow; CP only the CC; a bad code is a data exception, suppressed (R703, R710 to R713, R907). -/
def Obligations.DecimalArithmetic : Prop :=
  ∀ (s : State) (o : OpsSS2), s.installed (s.ea o.b1 o.d1) (o.l1.toNat + 1) = true →
    s.installed (s.ea o.b2 o.d2) (o.l2.toNat + 1) = true →
    let first := packedOfBytes (s.bytesAt (s.ea o.b1 o.d1) (o.l1.toNat + 1))
    let second := packedOfBytes (s.bytesAt (s.ea o.b2 o.d2) (o.l2.toNat + 1))
    let result := fun (v : Int) =>
      let cap := 10 ^ (2 * o.l1.toNat + 1)
      let m := v.natAbs % cap
      let neg := decide (v < 0) && (decide (m ≠ 0) || decide (cap ≤ v.natAbs))
      let t := (s.setBytes (s.ea o.b1 o.d1) (packedBytes m neg o.l1.toNat)).setCc
        (if cap ≤ v.natAbs then 3 else if v = 0 then 0 else if v < 0 then 1 else 2)
      if cap ≤ v.natAbs ∧ s.psw.pm.getLsbD 2 = true then s.trapped 6 .decimalOverflow t
      else s.completed 6 t
    (∀ x y, first = some x → second = some y →
      exec (.ap o) s = .next (result (packedValue x + packedValue y)) ∧
      exec (.sp o) s = .next (result (packedValue x - packedValue y)) ∧
      exec (.cp o) s = .next
        (s.completed 6 (s.setCc (ccOfOrder (packedValue x) (packedValue y))))) ∧
    (∀ y, second = some y → exec (.zap o) s = .next (result (packedValue y))) ∧
    (first = none ∨ second = none → ∀ i ∈ [Instr.ap o, .sp o, .cp o],
      exec i s = .next (s.trapped 6 .data s)) ∧
    (second = none → exec (.zap o) s = .next (s.trapped 6 .data s))

/-- ZAP does not read its destination: it stores the result's bytes left to right, and the first one that is not
installed ends it with an addressing exception, the bytes before it stored and the CC as it was (R712, R702, R83).
With an invalid code in the source no byte can be stored, and the addressing exception is taken before the data
exception. Both are the model's choice of a reading where R905 and R701 differ, log 5. -/
def Obligations.ZapDestination : Prop :=
  ∀ (s : State) (o : OpsSS2) (m : Nat), s.installed (s.ea o.b2 o.d2) (o.l2.toNat + 1) = true →
    m ≤ o.l1.toNat → s.installed (s.ea o.b1 o.d1) m = true →
    s.installed (after (s.ea o.b1 o.d1) m) 1 = false →
    let second := packedOfBytes (s.bytesAt (s.ea o.b2 o.d2) (o.l2.toNat + 1))
    (∀ y, second = some y →
      let cap := 10 ^ (2 * o.l1.toNat + 1)
      let neg := y.neg && (decide (y.mag % cap ≠ 0) || decide (cap ≤ y.mag))
      exec (.zap o) s = .next (s.trapped 6 .addressing (s.setBytes (s.ea o.b1 o.d1)
        ((packedBytes (y.mag % cap) neg o.l1.toNat).take m)))) ∧
    (second = none → exec (.zap o) s = .next (s.trapped 6 .addressing s))

/-- MP and DP: product, and quotient and remainder side by side, with algebraic signs even for zero, the
CC kept; an invalid digit or sign code in either operand, too few leading zeros of a multiplicand and a bad
quotient are suppressed exceptions (R701, R714, R715, R907). -/
def Obligations.DecimalMultiplyDivide : Prop :=
  ∀ (s : State) (o : OpsSS2), o.l2.toNat ≤ 7 → o.l2.toNat < o.l1.toNat →
    s.installed (s.ea o.b1 o.d1) (o.l1.toNat + 1) = true →
    s.installed (s.ea o.b2 o.d2) (o.l2.toNat + 1) = true →
    let a := s.ea o.b1 o.d1
    let d := o.l1.toNat - o.l2.toNat
    let first := packedOfBytes (s.bytesAt a (o.l1.toNat + 1))
    let second := packedOfBytes (s.bytesAt (s.ea o.b2 o.d2) (o.l2.toNat + 1))
    (∀ x y, first = some x → second = some y →
      let neg := xor x.neg y.neg
      exec (.mp o) s = .next
        (if 10 ^ (2 * d - 1) ≤ x.mag then s.trapped 6 .data s
         else s.completed 6 (s.setBytes a (packedBytes (x.mag * y.mag) neg o.l1.toNat))) ∧
      exec (.dp o) s = .next
        (if y.mag = 0 ∨ 10 ^ (2 * d - 1) ≤ x.mag / y.mag then s.trapped 6 .decimalDivide s
         else s.completed 6 ((s.setBytes a (packedBytes (x.mag / y.mag) neg (d - 1))).setBytes
           (after a d) (packedBytes (x.mag % y.mag) x.neg o.l2.toNat)))) ∧
    (first = none ∨ second = none → ∀ i ∈ [Instr.mp o, .dp o],
      exec i s = .next (s.trapped 6 .data s))

/-- SRP: a 6-bit signed shift of the digits, left with loss of high-order digits, right with rounding; a
bad rounding digit or operand is a data exception, suppressed (R716). -/
def Obligations.DecimalShift : Prop :=
  ∀ (s : State) (o : OpsSS2), s.installed (s.ea o.b1 o.d1) (o.l1.toNat + 1) = true →
    let operand := packedOfBytes (s.bytesAt (s.ea o.b1 o.d1) (o.l1.toNat + 1))
    let n := (s.ea o.b2 o.d2).toNat % 64
    let cap := 10 ^ (2 * o.l1.toNat + 1)
    (9 < o.l2.toNat ∨ operand = none → exec (.srp o) s = .next (s.trapped 6 .data s)) ∧
    ∀ x, o.l2.toNat ≤ 9 → operand = some x →
      let exact := if n < 32 then x.mag * 10 ^ n
        else (x.mag + o.l2.toNat * 10 ^ (63 - n)) / 10 ^ (64 - n)
      let m := exact % cap
      let neg := x.neg && (decide (m ≠ 0) || decide (cap ≤ exact))
      let t := (s.setBytes (s.ea o.b1 o.d1) (packedBytes m neg o.l1.toNat)).setCc
        (if cap ≤ exact then 3 else if m = 0 then 0 else if neg then 1 else 2)
      exec (.srp o) s = .next
        (if cap ≤ exact ∧ s.psw.pm.getLsbD 2 = true then s.trapped 6 .decimalOverflow t
         else s.completed 6 t)

/-- CVD stores the register's value as 15 digits and a sign, and CVB loads one: exactly if it fits, else its
low 32 bits with a fixed-point divide exception, completed; a bad code is a data exception (R720,
R721). -/
def Obligations.DecimalConversion : Prop :=
  ∀ (s : State) (o : OpsRX), s.installed (s.eaRX o) 8 = true →
    let v := (s.getGr o.r1).toInt
    let source := packedOfBytes (s.bytesAt (s.eaRX o) 8)
    exec (.cvd o) s = .next (s.completed 4
      (s.setBytes (s.eaRX o) (packedBytes v.natAbs (decide (v < 0)) 7))) ∧
    (∀ x, source = some x →
      let t := s.setGr o.r1 (BitVec.ofInt 32 (packedValue x))
      exec (.cvb o) s = .next
        (if overflows 32 (packedValue x) then s.trapped 4 .fixedDivide t else s.completed 4 t)) ∧
    (source = none → exec (.cvb o) s = .next (s.trapped 4 .data s))

/-- Converting a register to decimal and back gives its value, whatever the registers and the addressing,
if the address is the same (R720, R721). -/
def Obligations.ConversionRoundTrip : Prop :=
  ∀ (s t : State) (o q : OpsRX), Memory.wf s.mem = true → s.installed (s.eaRX o) 8 = true →
    exec (.cvd o) s = .next t → t.eaRX q = s.eaRX o →
    ∃ u, exec (.cvb q) t = .next u ∧ u.getGr q.r1 = s.getGr o.r1 ∧ u.result = .ok ∧
      u.psw.ia = t.psw.ia + 4

/-- MVO, PACK and UNPK, right to left, byte `k` from the right end from the half-bytes of the source as they
stand by then, zeros once it is exhausted; a byte that is reached and not installed is an addressing exception,
and the bytes to its right stay stored (R717 to R719, R83, R905). -/
def Obligations.FormatMoves : Prop :=
  ∀ (s : State) (o : OpsSS2), Memory.wf s.mem = true →
    let a := after (s.ea o.b1 o.d1) o.l1.toNat
    let b := after (s.ea o.b2 o.d2) o.l2.toNat
    let moved := fun (i : Instr) (byte : State → Nat → Byte) (reads : Nat → List Nat) =>
      let ok := fun k => s.installed (before a k) 1 = true ∧
        ∀ j ∈ reads k, j ≤ o.l2.toNat → s.installed (before b j) 1 = true
      let stores := fun (m : Nat) (u : State) => u = { s with mem := u.mem } ∧
        (∀ k < m, u.byteAt (before a k) = byte u k) ∧
        ∀ x : Addr, m ≤ (a - x).toNat → u.byteAt x = s.byteAt x
      ((∀ k ≤ o.l1.toNat, ok k) →
        ∃ u, stores (o.l1.toNat + 1) u ∧ exec i s = .next (s.completed 6 u)) ∧
      ∀ m ≤ o.l1.toNat, (∀ k < m, ok k) → ¬ok m →
        ∃ u, stores m u ∧ exec i s = .next (s.trapped 6 .addressing u)
    moved (.mvo o) (fun u k => offsetByte s u a b o.l2.toNat k) (fun k => [k]) ∧
    moved (.pack o) (fun u k => packByte s u a b o.l2.toNat k) (fun k => [2 * k - 1, 2 * k]) ∧
    moved (.unpk o) (fun u k => unpackByte s u a b o.l2.toNat k)
      (fun k => if k % 2 = 1 ∨ k = 0 then [(k + 1) / 2] else [])

/-- ED and EDMK. On a pattern and a source that lie apart they store what editing the bytes gives, set the CC
of the last field, and EDMK marks the last digit that turned significance on. On any operands, overlapping or
not, they edit byte after byte; a byte that is reached and not installed, or a digit code above 9, ends them
with the bytes already stored kept, the CC as it was, and EDMK's mark kept if it was made (R722, R723, R907,
R83; the mark after an addressing exception is log 8). -/
def Obligations.Edit : Prop :=
  ∀ (s : State) (o : OpsSS), Memory.wf s.mem = true →
    let a := s.ea o.b1 o.d1
    let b := s.ea o.b2 o.d2
    let ended := fun (e : EditScan) (t : State) =>
      t.setCc (if e.nonzero then (if e.sig then 1 else 2) else 0)
    let both := [(Instr.ed o, false), (.edmk o, true)]
    (∀ (n : Nat) (out : List Byte) (e : EditScan),
      s.installed a (o.l.toNat + 1) = true → s.installed b n = true →
      o.l.toNat < (b - a).toNat → n ≤ (a - b).toNat →
      editBytes (s.byteAt a) 0 (s.bytesAt a (o.l.toNat + 1)) (s.bytesAt b n)
        { sig := false, nonzero := false, half := none, marked := none } = some (out, e) →
      ∀ p ∈ both, exec p.1 s =
        .next (s.completed 6 (State.withMark p.2 a e.marked (ended e (s.setBytes a out))))) ∧
    ∀ (m n : Nat) (u : State) (e : EditScan), m ≤ o.l.toNat + 1 → s.installed a m = true →
      s.installed b n = true → editRun s a b m = some (u, n, e) →
      let fetches := (u.byteAt (after a m) = 0x20 ∨ u.byteAt (after a m) = 0x21) ∧ e.half = none
      let ok := s.installed (after a m) 1 = true ∧ (fetches → s.installed (after b n) 1 = true)
      ∀ p ∈ both,
        let t := State.withMark p.2 a e.marked u
        (m = o.l.toNat + 1 → exec p.1 s = .next (s.completed 6 (ended e t))) ∧
        (m ≤ o.l.toNat → ¬ok → exec p.1 s = .next (s.trapped 6 .addressing t)) ∧
        (m ≤ o.l.toNat → ok → editRun s a b (m + 1) = none →
          exec p.1 s = .next (s.trapped 6 .data t))
end

