-- ==== Sys2Proof/Laws/State.lean ====
section
/-! SUPPORT. One lemma for each field under each update of `State`, and what reading a register, a PSW
field or a key gives after a write, so that no proof unfolds a record update. -/

namespace Sys2Proof.Machine

/-! ## Fields under updates -/

@[simp] theorem State.setGr_fr (s : State) (r : Nib) (v : Word) : (s.setGr r v).fr = s.fr := rfl

@[simp] theorem State.setGr_psw (s : State) (r : Nib) (v : Word) : (s.setGr r v).psw = s.psw := rfl

@[simp] theorem State.setGr_mem (s : State) (r : Nib) (v : Word) : (s.setGr r v).mem = s.mem := rfl

@[simp] theorem State.setGr_keys (s : State) (r : Nib) (v : Word) : (s.setGr r v).keys = s.keys := rfl

@[simp] theorem State.setGr_cfg (s : State) (r : Nib) (v : Word) : (s.setGr r v).cfg = s.cfg := rfl

@[simp] theorem State.setGr_result (s : State) (r : Nib) (v : Word) : (s.setGr r v).result = s.result := rfl

@[simp] theorem State.setPair_fr (s : State) (r : Nib) (v : DWord) : (s.setPair r v).fr = s.fr := rfl

@[simp] theorem State.setPair_psw (s : State) (r : Nib) (v : DWord) : (s.setPair r v).psw = s.psw := rfl

@[simp] theorem State.setPair_mem (s : State) (r : Nib) (v : DWord) : (s.setPair r v).mem = s.mem := rfl

@[simp] theorem State.setPair_keys (s : State) (r : Nib) (v : DWord) : (s.setPair r v).keys = s.keys := rfl

@[simp] theorem State.setPair_cfg (s : State) (r : Nib) (v : DWord) : (s.setPair r v).cfg = s.cfg := rfl

@[simp] theorem State.setPair_result (s : State) (r : Nib) (v : DWord) : (s.setPair r v).result = s.result := rfl

@[simp] theorem State.setFr_gr (s : State) (r : Fin 4) (v : DWord) : (s.setFr r v).gr = s.gr := rfl

@[simp] theorem State.setFr_psw (s : State) (r : Fin 4) (v : DWord) : (s.setFr r v).psw = s.psw := rfl

@[simp] theorem State.setFr_mem (s : State) (r : Fin 4) (v : DWord) : (s.setFr r v).mem = s.mem := rfl

@[simp] theorem State.setFr_keys (s : State) (r : Fin 4) (v : DWord) : (s.setFr r v).keys = s.keys := rfl

@[simp] theorem State.setFr_cfg (s : State) (r : Fin 4) (v : DWord) : (s.setFr r v).cfg = s.cfg := rfl

@[simp] theorem State.setFr_result (s : State) (r : Fin 4) (v : DWord) : (s.setFr r v).result = s.result := rfl

@[simp] theorem State.setFrh_gr (s : State) (r : Fin 4) (v : Word) : (s.setFrh r v).gr = s.gr := rfl

@[simp] theorem State.setFrh_psw (s : State) (r : Fin 4) (v : Word) : (s.setFrh r v).psw = s.psw := rfl

@[simp] theorem State.setFrh_mem (s : State) (r : Fin 4) (v : Word) : (s.setFrh r v).mem = s.mem := rfl

@[simp] theorem State.setFrh_keys (s : State) (r : Fin 4) (v : Word) : (s.setFrh r v).keys = s.keys := rfl

@[simp] theorem State.setFrh_cfg (s : State) (r : Fin 4) (v : Word) : (s.setFrh r v).cfg = s.cfg := rfl

@[simp] theorem State.setFrh_result (s : State) (r : Fin 4) (v : Word) : (s.setFrh r v).result = s.result := rfl

@[simp] theorem State.setCc_gr (s : State) (v : BitVec 2) : (s.setCc v).gr = s.gr := rfl

@[simp] theorem State.setCc_fr (s : State) (v : BitVec 2) : (s.setCc v).fr = s.fr := rfl

@[simp] theorem State.setCc_mem (s : State) (v : BitVec 2) : (s.setCc v).mem = s.mem := rfl

@[simp] theorem State.setCc_keys (s : State) (v : BitVec 2) : (s.setCc v).keys = s.keys := rfl

@[simp] theorem State.setCc_cfg (s : State) (v : BitVec 2) : (s.setCc v).cfg = s.cfg := rfl

@[simp] theorem State.setCc_result (s : State) (v : BitVec 2) : (s.setCc v).result = s.result := rfl

@[simp] theorem State.setPm_gr (s : State) (v : BitVec 4) : (s.setPm v).gr = s.gr := rfl

@[simp] theorem State.setPm_fr (s : State) (v : BitVec 4) : (s.setPm v).fr = s.fr := rfl

@[simp] theorem State.setPm_mem (s : State) (v : BitVec 4) : (s.setPm v).mem = s.mem := rfl

@[simp] theorem State.setPm_keys (s : State) (v : BitVec 4) : (s.setPm v).keys = s.keys := rfl

@[simp] theorem State.setPm_cfg (s : State) (v : BitVec 4) : (s.setPm v).cfg = s.cfg := rfl

@[simp] theorem State.setPm_result (s : State) (v : BitVec 4) : (s.setPm v).result = s.result := rfl

@[simp] theorem State.setSysMask_gr (s : State) (v : BitVec 8) : (s.setSysMask v).gr = s.gr := rfl

@[simp] theorem State.setSysMask_fr (s : State) (v : BitVec 8) : (s.setSysMask v).fr = s.fr := rfl

@[simp] theorem State.setSysMask_mem (s : State) (v : BitVec 8) : (s.setSysMask v).mem = s.mem := rfl

@[simp] theorem State.setSysMask_keys (s : State) (v : BitVec 8) : (s.setSysMask v).keys = s.keys := rfl

@[simp] theorem State.setSysMask_cfg (s : State) (v : BitVec 8) : (s.setSysMask v).cfg = s.cfg := rfl

@[simp] theorem State.setSysMask_result (s : State) (v : BitVec 8) : (s.setSysMask v).result = s.result := rfl

@[simp] theorem State.setKey_gr (s : State) (p : Nat) (v : BitVec 4) : (s.setKey p v).gr = s.gr := rfl

@[simp] theorem State.setKey_fr (s : State) (p : Nat) (v : BitVec 4) : (s.setKey p v).fr = s.fr := rfl

@[simp] theorem State.setKey_psw (s : State) (p : Nat) (v : BitVec 4) : (s.setKey p v).psw = s.psw := rfl

@[simp] theorem State.setKey_mem (s : State) (p : Nat) (v : BitVec 4) : (s.setKey p v).mem = s.mem := rfl

@[simp] theorem State.setKey_cfg (s : State) (p : Nat) (v : BitVec 4) : (s.setKey p v).cfg = s.cfg := rfl

@[simp] theorem State.setKey_result (s : State) (p : Nat) (v : BitVec 4) : (s.setKey p v).result = s.result := rfl

@[simp] theorem State.setByte_gr (s : State) (a : Addr) (v : Byte) : (s.setByte a v).gr = s.gr := rfl

@[simp] theorem State.setByte_fr (s : State) (a : Addr) (v : Byte) : (s.setByte a v).fr = s.fr := rfl

@[simp] theorem State.setByte_psw (s : State) (a : Addr) (v : Byte) : (s.setByte a v).psw = s.psw := rfl

@[simp] theorem State.setByte_keys (s : State) (a : Addr) (v : Byte) : (s.setByte a v).keys = s.keys := rfl

@[simp] theorem State.setByte_cfg (s : State) (a : Addr) (v : Byte) : (s.setByte a v).cfg = s.cfg := rfl

@[simp] theorem State.setByte_result (s : State) (a : Addr) (v : Byte) : (s.setByte a v).result = s.result := rfl

/-! ## The PSW under the updates that write a field of it -/

@[simp] theorem State.setCc_psw (s : State) (v : BitVec 2) :
    (s.setCc v).psw = { s.psw with cc := v } := rfl

@[simp] theorem State.setPm_psw (s : State) (v : BitVec 4) :
    (s.setPm v).psw = { s.psw with pm := v } := rfl

@[simp] theorem State.setSysMask_psw (s : State) (v : BitVec 8) :
    (s.setSysMask v).psw = { s.psw with sysMask := v } := rfl

/-! ## Reading after writing -/

theorem State.getGr_setGr (s : State) (r q : Nib) (v : Word) :
    (s.setGr r v).getGr q = if r = q then v else s.getGr q := by
  simp only [State.getGr, State.setGr, Vector.getElem_set]
  by_cases h : r = q
  · simp [h]
  · rw [if_neg h, if_neg (fun e => h (BitVec.eq_of_toNat_eq e))]

@[simp] theorem State.getGr_setGr_self (s : State) (r : Nib) (v : Word) :
    (s.setGr r v).getGr r = v := by simp [State.getGr_setGr]

theorem State.getGr_setGr_of_ne (s : State) {r q : Nib} (h : r ≠ q) (v : Word) :
    (s.setGr r v).getGr q = s.getGr q := by simp [State.getGr_setGr, h]

theorem State.getFr_setFr (s : State) (r q : Fin 4) (v : DWord) :
    (s.setFr r v).getFr q = if r = q then v else s.getFr q := by
  simp [State.getFr, State.setFr, Vector.getElem_set, Fin.ext_iff]

@[simp] theorem State.getFr_setFr_self (s : State) (r : Fin 4) (v : DWord) :
    (s.setFr r v).getFr r = v := by simp [State.getFr_setFr]

/-- A short result is in bits 0-31 of the register (R34, R302). -/
@[simp] theorem State.getFrh_setFrh_self (s : State) (r : Fin 4) (v : Word) :
    (s.setFrh r v).getFrh r = v := by
  simp only [State.getFrh, State.setFrh, State.getFr_setFr_self]
  exact BitVec.extractLsb'_append_eq_left

/-- A short result leaves bits 32-63 of the register (R34, R302). -/
theorem State.getFr_setFrh_low (s : State) (r : Fin 4) (v : Word) :
    ((s.setFrh r v).getFr r).extractLsb' 0 32 = (s.getFr r).extractLsb' 0 32 := by
  simp only [State.setFrh, State.getFr_setFr_self]
  exact BitVec.extractLsb'_append_eq_right

/-! ## Readings that an update does not touch -/

@[simp] theorem State.getGr_setFr (s : State) (r : Fin 4) (v : DWord) (q : Nib) :
    (s.setFr r v).getGr q = s.getGr q := rfl

@[simp] theorem State.getGr_setFrh (s : State) (r : Fin 4) (v : Word) (q : Nib) :
    (s.setFrh r v).getGr q = s.getGr q := rfl

@[simp] theorem State.getGr_setCc (s : State) (v : BitVec 2) (q : Nib) :
    (s.setCc v).getGr q = s.getGr q := rfl

@[simp] theorem State.getGr_setPm (s : State) (v : BitVec 4) (q : Nib) :
    (s.setPm v).getGr q = s.getGr q := rfl

@[simp] theorem State.getGr_setSysMask (s : State) (v : BitVec 8) (q : Nib) :
    (s.setSysMask v).getGr q = s.getGr q := rfl

@[simp] theorem State.getGr_setKey (s : State) (p : Nat) (v : BitVec 4) (q : Nib) :
    (s.setKey p v).getGr q = s.getGr q := rfl

@[simp] theorem State.getGr_setByte (s : State) (a : Addr) (v : Byte) (q : Nib) :
    (s.setByte a v).getGr q = s.getGr q := rfl

@[simp] theorem State.getFr_setGr (s : State) (r : Nib) (v : Word) (q : Fin 4) :
    (s.setGr r v).getFr q = s.getFr q := rfl

@[simp] theorem State.getFr_setPair (s : State) (r : Nib) (v : DWord) (q : Fin 4) :
    (s.setPair r v).getFr q = s.getFr q := rfl

@[simp] theorem State.getFr_setCc (s : State) (v : BitVec 2) (q : Fin 4) :
    (s.setCc v).getFr q = s.getFr q := rfl

@[simp] theorem State.getFr_setPm (s : State) (v : BitVec 4) (q : Fin 4) :
    (s.setPm v).getFr q = s.getFr q := rfl

@[simp] theorem State.getFr_setSysMask (s : State) (v : BitVec 8) (q : Fin 4) :
    (s.setSysMask v).getFr q = s.getFr q := rfl

@[simp] theorem State.getFr_setKey (s : State) (p : Nat) (v : BitVec 4) (q : Fin 4) :
    (s.setKey p v).getFr q = s.getFr q := rfl

@[simp] theorem State.getFr_setByte (s : State) (a : Addr) (v : Byte) (q : Fin 4) :
    (s.setByte a v).getFr q = s.getFr q := rfl

@[simp] theorem State.byteAt_setGr (s : State) (r : Nib) (v : Word) (x : Addr) :
    (s.setGr r v).byteAt x = s.byteAt x := rfl

@[simp] theorem State.byteAt_setPair (s : State) (r : Nib) (v : DWord) (x : Addr) :
    (s.setPair r v).byteAt x = s.byteAt x := rfl

@[simp] theorem State.byteAt_setFr (s : State) (r : Fin 4) (v : DWord) (x : Addr) :
    (s.setFr r v).byteAt x = s.byteAt x := rfl

@[simp] theorem State.byteAt_setFrh (s : State) (r : Fin 4) (v : Word) (x : Addr) :
    (s.setFrh r v).byteAt x = s.byteAt x := rfl

@[simp] theorem State.byteAt_setCc (s : State) (v : BitVec 2) (x : Addr) :
    (s.setCc v).byteAt x = s.byteAt x := rfl

@[simp] theorem State.byteAt_setPm (s : State) (v : BitVec 4) (x : Addr) :
    (s.setPm v).byteAt x = s.byteAt x := rfl

@[simp] theorem State.byteAt_setSysMask (s : State) (v : BitVec 8) (x : Addr) :
    (s.setSysMask v).byteAt x = s.byteAt x := rfl

@[simp] theorem State.byteAt_setKey (s : State) (p : Nat) (v : BitVec 4) (x : Addr) :
    (s.setKey p v).byteAt x = s.byteAt x := rfl

@[simp] theorem State.keyOf_setGr (s : State) (r : Nib) (v : Word) (q : Nat) :
    (s.setGr r v).keyOf q = s.keyOf q := rfl

@[simp] theorem State.keyOf_setPair (s : State) (r : Nib) (v : DWord) (q : Nat) :
    (s.setPair r v).keyOf q = s.keyOf q := rfl

@[simp] theorem State.keyOf_setFr (s : State) (r : Fin 4) (v : DWord) (q : Nat) :
    (s.setFr r v).keyOf q = s.keyOf q := rfl

@[simp] theorem State.keyOf_setFrh (s : State) (r : Fin 4) (v : Word) (q : Nat) :
    (s.setFrh r v).keyOf q = s.keyOf q := rfl

@[simp] theorem State.keyOf_setCc (s : State) (v : BitVec 2) (q : Nat) :
    (s.setCc v).keyOf q = s.keyOf q := rfl

@[simp] theorem State.keyOf_setPm (s : State) (v : BitVec 4) (q : Nat) :
    (s.setPm v).keyOf q = s.keyOf q := rfl

@[simp] theorem State.keyOf_setSysMask (s : State) (v : BitVec 8) (q : Nat) :
    (s.setSysMask v).keyOf q = s.keyOf q := rfl

@[simp] theorem State.keyOf_setByte (s : State) (a : Addr) (v : Byte) (q : Nat) :
    (s.setByte a v).keyOf q = s.keyOf q := rfl

end Sys2Proof.Machine
end

