-- ==== Sys2Proof/Laws/Memory.lean ====
section
/-! SUPPORT. Main storage and the storage keys: reading after writing, the canonical form that every
write keeps, runs of bytes, and the bytes of a value. -/

namespace Sys2Proof.Machine

/-! ## Sparse arrays -/

theorem Sparse.read_eq_zero_of_wfFrom {n : Nat} {bound lo a : Nat} {l : List (Nat × BitVec n)}
    (h : Sparse.wfFrom bound lo l = true) (ha : a < lo) : Sparse.read l a = 0 := by
  induction l generalizing lo with
  | nil => rfl
  | cons e rest ih =>
    obtain ⟨k, v⟩ := e
    simp only [Sparse.wfFrom, Bool.and_eq_true, decide_eq_true_eq] at h
    rw [Sparse.read, if_neg (by omega)]
    exact ih h.2 (by omega)

theorem Sparse.wfFrom_mono {n : Nat} {bound lo lo' : Nat} {l : List (Nat × BitVec n)}
    (h : Sparse.wfFrom bound lo l = true) (hl : lo' ≤ lo) : Sparse.wfFrom bound lo' l = true := by
  cases l with
  | nil => rfl
  | cons e rest =>
    obtain ⟨k, v⟩ := e
    simp only [Sparse.wfFrom, Bool.and_eq_true, decide_eq_true_eq] at h ⊢
    exact ⟨⟨⟨by omega, h.1.1.2⟩, h.1.2⟩, h.2⟩

/-- Reading after a write, in an array of canonical form. -/
theorem Sparse.read_write {n : Nat} {bound lo a b : Nat} {v : BitVec n}
    {l : List (Nat × BitVec n)} (h : Sparse.wfFrom bound lo l = true) :
    Sparse.read (Sparse.write l a v) b = if a = b then v else Sparse.read l b := by
  induction l generalizing lo with
  | nil =>
    rw [Sparse.write]
    by_cases hv : v = 0
    · simp [Sparse.read, hv]
    · rw [if_neg hv]; simp [Sparse.read]
  | cons e rest ih =>
    obtain ⟨k, w⟩ := e
    simp only [Sparse.wfFrom, Bool.and_eq_true, decide_eq_true_eq] at h
    have hz : ∀ x, x ≤ k → Sparse.read rest x = 0 := fun x hx =>
      Sparse.read_eq_zero_of_wfFrom h.2 (by omega)
    rw [Sparse.write]
    split
    · split
      · subst v
        simp only [Sparse.read]
        by_cases hab : a = b
        · subst hab; rw [if_neg (by omega), if_pos rfl]; exact hz a (by omega)
        · rw [if_neg hab]
      · simp only [Sparse.read]
    · split
      · subst a
        split
        · subst v
          simp only [Sparse.read]
          by_cases hab : k = b
          · subst hab; simp [hz]
          · simp [hab]
        · simp only [Sparse.read]
          by_cases hab : k = b <;> simp [hab]
      · simp only [Sparse.read, ih h.2]
        by_cases hab : a = b
        · subst hab; rw [if_neg (by omega), if_pos rfl, if_pos rfl]
        · simp [hab]

/-- A write keeps the canonical form. -/
theorem Sparse.wfFrom_write {n : Nat} {bound lo a : Nat} {v : BitVec n}
    {l : List (Nat × BitVec n)} (h : Sparse.wfFrom bound lo l = true) (hlo : lo ≤ a)
    (hb : a < bound) : Sparse.wfFrom bound lo (Sparse.write l a v) = true := by
  induction l generalizing lo with
  | nil =>
    rw [Sparse.write]
    split
    · rfl
    · rename_i hv
      simp only [Sparse.wfFrom, Bool.and_true, Bool.and_eq_true, decide_eq_true_eq]
      exact ⟨⟨hlo, hb⟩, hv⟩
  | cons e rest ih =>
    obtain ⟨k, w⟩ := e
    have h' := h
    simp only [Sparse.wfFrom, Bool.and_eq_true, decide_eq_true_eq] at h
    obtain ⟨⟨⟨h1, h2⟩, h3⟩, h4⟩ := h
    rw [Sparse.write]
    split
    · split
      · exact h'
      · rename_i hv
        simp only [Sparse.wfFrom, Bool.and_eq_true, decide_eq_true_eq]
        exact ⟨⟨⟨hlo, hb⟩, hv⟩, ⟨⟨by omega, h2⟩, h3⟩, h4⟩
    · split
      · subst a
        split
        · exact Sparse.wfFrom_mono h4 (by omega)
        · rename_i hv
          simp only [Sparse.wfFrom, Bool.and_eq_true, decide_eq_true_eq]
          exact ⟨⟨⟨hlo, h2⟩, hv⟩, h4⟩
      · simp only [Sparse.wfFrom, Bool.and_eq_true, decide_eq_true_eq]
        exact ⟨⟨⟨h1, h2⟩, h3⟩, ih h4 (by omega)⟩

/-- Arrays of canonical form with the same contents are the same list. -/
theorem Sparse.eq_of_read_eq {n : Nat} {bound lo : Nat} {l m : List (Nat × BitVec n)}
    (hl : Sparse.wfFrom bound lo l = true) (hm : Sparse.wfFrom bound lo m = true)
    (h : ∀ a, Sparse.read l a = Sparse.read m a) : l = m := by
  induction l generalizing lo m with
  | nil =>
    cases m with
    | nil => rfl
    | cons e rest =>
      obtain ⟨k, v⟩ := e
      simp only [Sparse.wfFrom, Bool.and_eq_true, decide_eq_true_eq] at hm
      have := h k
      simp [Sparse.read] at this
      exact absurd this.symm hm.1.2
  | cons e rest ih =>
    obtain ⟨k, v⟩ := e
    simp only [Sparse.wfFrom, Bool.and_eq_true, decide_eq_true_eq] at hl
    cases m with
    | nil =>
      have := h k
      simp [Sparse.read] at this
      exact absurd this hl.1.2
    | cons e' rest' =>
      obtain ⟨k', v'⟩ := e'
      simp only [Sparse.wfFrom, Bool.and_eq_true, decide_eq_true_eq] at hm
      have hz : ∀ x, x ≤ k → Sparse.read rest x = 0 := fun x hx =>
        Sparse.read_eq_zero_of_wfFrom hl.2 (by omega)
      have hz' : ∀ x, x ≤ k' → Sparse.read rest' x = 0 := fun x hx =>
        Sparse.read_eq_zero_of_wfFrom hm.2 (by omega)
      have hk : k = k' := by
        rcases Nat.lt_trichotomy k k' with hlt | heq | hgt
        · have := h k
          simp only [Sparse.read, if_pos] at this
          rw [if_neg (by omega), hz' k (by omega)] at this
          exact absurd this hl.1.2
        · exact heq
        · have := h k'
          simp only [Sparse.read, if_pos] at this
          rw [if_neg (by omega), hz k' (by omega)] at this
          exact absurd this.symm hm.1.2
      subst hk
      have hv : v = v' := by simpa [Sparse.read] using h k
      subst hv
      congr 1
      refine ih hl.2 hm.2 fun a => ?_
      by_cases ha : a ≤ k
      · rw [hz a ha, hz' a ha]
      · have := h a
        simpa [Sparse.read, show k ≠ a by omega] using this

/-! ## The canonical form under the operations on storage -/

theorem State.setByte_wf {s : State} (h : Memory.wf s.mem = true) (a : Addr) (v : Byte) :
    Memory.wf (s.setByte a v).mem = true :=
  Sparse.wfFrom_write h (Nat.zero_le _) a.isLt

theorem State.setBytes_wf {s : State} (h : Memory.wf s.mem = true) (a : Addr) (bs : List Byte) :
    Memory.wf (s.setBytes a bs).mem = true := by
  induction bs generalizing s a with
  | nil => exact h
  | cons b bs ih => exact ih (State.setByte_wf h a b) (a + 1)

theorem State.poke_wf {s : State} {w : Nat} (h : Memory.wf s.mem = true) (a : Addr)
    (v : BitVec w) : Memory.wf (s.poke a v).mem = true :=
  State.setBytes_wf h a _

theorem State.setKey_wf {s : State} (h : Keys.wf s.keys = true) {p : Nat} (hp : p < 8192)
    (v : BitVec 4) : Keys.wf (s.setKey p v).keys = true :=
  Sparse.wfFrom_write h (Nat.zero_le _) hp

theorem reset_mem_wf : Memory.wf State.reset.mem = true := rfl

theorem reset_keys_wf : Keys.wf State.reset.keys = true := rfl

/-- A page number is below 8192 (R55). -/
theorem pageOf_lt (a : Addr) : pageOf a < 8192 := by
  have := a.isLt
  rw [pageOf, Nat.shiftRight_eq_div_pow]
  omega

/-! ## Runs of bytes: fields they do not touch -/

@[simp] theorem State.setBytes_gr (s : State) (a : Addr) (bs : List Byte) :
    (s.setBytes a bs).gr = s.gr := by
  induction bs generalizing s a with
  | nil => rfl
  | cons b bs ih => simp [State.setBytes, ih]

@[simp] theorem State.setBytes_fr (s : State) (a : Addr) (bs : List Byte) :
    (s.setBytes a bs).fr = s.fr := by
  induction bs generalizing s a with
  | nil => rfl
  | cons b bs ih => simp [State.setBytes, ih]

@[simp] theorem State.setBytes_psw (s : State) (a : Addr) (bs : List Byte) :
    (s.setBytes a bs).psw = s.psw := by
  induction bs generalizing s a with
  | nil => rfl
  | cons b bs ih => simp [State.setBytes, ih]

@[simp] theorem State.setBytes_keys (s : State) (a : Addr) (bs : List Byte) :
    (s.setBytes a bs).keys = s.keys := by
  induction bs generalizing s a with
  | nil => rfl
  | cons b bs ih => simp [State.setBytes, ih]

@[simp] theorem State.setBytes_cfg (s : State) (a : Addr) (bs : List Byte) :
    (s.setBytes a bs).cfg = s.cfg := by
  induction bs generalizing s a with
  | nil => rfl
  | cons b bs ih => simp [State.setBytes, ih]

@[simp] theorem State.setBytes_result (s : State) (a : Addr) (bs : List Byte) :
    (s.setBytes a bs).result = s.result := by
  induction bs generalizing s a with
  | nil => rfl
  | cons b bs ih => simp [State.setBytes, ih]

@[simp] theorem State.poke_gr {w : Nat} (s : State) (a : Addr) (v : BitVec w) :
    (s.poke a v).gr = s.gr := State.setBytes_gr s a _

@[simp] theorem State.poke_fr {w : Nat} (s : State) (a : Addr) (v : BitVec w) :
    (s.poke a v).fr = s.fr := State.setBytes_fr s a _

@[simp] theorem State.poke_psw {w : Nat} (s : State) (a : Addr) (v : BitVec w) :
    (s.poke a v).psw = s.psw := State.setBytes_psw s a _

@[simp] theorem State.poke_keys {w : Nat} (s : State) (a : Addr) (v : BitVec w) :
    (s.poke a v).keys = s.keys := State.setBytes_keys s a _

@[simp] theorem State.poke_cfg {w : Nat} (s : State) (a : Addr) (v : BitVec w) :
    (s.poke a v).cfg = s.cfg := State.setBytes_cfg s a _

@[simp] theorem State.poke_result {w : Nat} (s : State) (a : Addr) (v : BitVec w) :
    (s.poke a v).result = s.result := State.setBytes_result s a _

/-! ## Reading and writing bytes -/

theorem State.byteAt_congr {s t : State} (h : t.mem = s.mem) (a : Addr) :
    t.byteAt a = s.byteAt a := by simp [State.byteAt, h]

theorem State.bytesAt_congr {s t : State} (h : t.mem = s.mem) (a : Addr) (n : Nat) :
    t.bytesAt a n = s.bytesAt a n := by
  induction n generalizing a with
  | zero => rfl
  | succ n ih => simp [State.bytesAt, ih, State.byteAt_congr h]

theorem State.peek_congr {s t : State} (h : t.mem = s.mem) (w : Nat) (a : Addr) :
    t.peek w a = s.peek w a := by simp [State.peek, State.bytesAt_congr h]

/-- Whether bytes are installed depends on `MEM_SIZE` alone. -/
theorem State.installed_congr {s t : State} (h : t.cfg = s.cfg) (a : Addr) (n : Nat) :
    t.installed a n = s.installed a n := by
  induction n generalizing a with
  | zero => rfl
  | succ n ih => simp [State.installed, ih, h]

/-- A byte after another is stored. -/
theorem State.byteAt_setByte {s : State} (h : Memory.wf s.mem = true) (a x : Addr) (v : Byte) :
    (s.setByte a v).byteAt x = if a = x then v else s.byteAt x := by
  simp only [State.byteAt, State.setByte, Sparse.read_write h]
  by_cases e : a = x
  · simp [e]
  · rw [if_neg e, if_neg (fun hx => e (BitVec.eq_of_toNat_eq hx))]

@[simp] theorem State.bytesAt_length (s : State) (a : Addr) (n : Nat) :
    (s.bytesAt a n).length = n := by
  induction n generalizing a with
  | zero => rfl
  | succ n ih => simp [State.bytesAt, ih]

theorem Addr.succ_add (a : Addr) (k : Nat) :
    a + 1 + BitVec.ofNat 24 k = a + BitVec.ofNat 24 (k + 1) := by
  rw [BitVec.add_assoc, show (1 : Addr) = BitVec.ofNat 24 1 from rfl, ← BitVec.ofNat_add,
    Nat.add_comm]

/-- The bytes at consecutive addresses, one by one. -/
theorem State.bytesAt_getElem (s : State) (a : Addr) (n k : Nat) (h : k < n) :
    (s.bytesAt a n)[k]'(by simpa using h) = s.byteAt (a + BitVec.ofNat 24 k) := by
  induction n generalizing a k with
  | zero => omega
  | succ n ih =>
    cases k with
    | zero => simp [State.bytesAt]
    | succ k =>
      simp only [State.bytesAt, List.getElem_cons_succ, ih (a + 1) k (by omega), Addr.succ_add]

/-- The address `k` bytes after `a` is `k` bytes after it: the distance of two addresses. -/
theorem Addr.add_sub_toNat (a : Addr) (k : Nat) (h : k < 2 ^ 24) :
    (a + BitVec.ofNat 24 k - a).toNat = k := by
  have := a.isLt
  simp only [BitVec.toNat_sub, BitVec.toNat_add, BitVec.toNat_ofNat]
  omega

/-- An address is the one at its distance. -/
theorem Addr.add_sub_cancel (a x : Addr) : a + BitVec.ofNat 24 (x - a).toNat = x := by
  apply BitVec.eq_of_toNat_eq
  have := a.isLt
  have := x.isLt
  simp only [BitVec.toNat_sub, BitVec.toNat_add, BitVec.toNat_ofNat]
  omega

/-- A byte after a run is stored: the run's own byte within it, what it was elsewhere. -/
theorem State.byteAt_setBytes {s : State} (h : Memory.wf s.mem = true) (a x : Addr)
    (bs : List Byte) (hl : bs.length ≤ 2 ^ 24) :
    (s.setBytes a bs).byteAt x =
      if hx : (x - a).toNat < bs.length then bs[(x - a).toNat] else s.byteAt x := by
  induction bs generalizing s a with
  | nil => simp [State.setBytes]
  | cons b bs ih =>
    simp only [List.length_cons] at hl
    rw [State.setBytes, ih (State.setByte_wf h a b) (a + 1) (by omega)]
    by_cases e : a = x
    · subst e
      have h1 : (a - (a + 1)).toNat = 2 ^ 24 - 1 := by
        have := a.isLt
        simp only [BitVec.toNat_sub, BitVec.toNat_add]
        simp
        omega
      rw [dif_neg (by omega), State.byteAt_setByte h, if_pos rfl]
      simp
    · have hd : (x - a).toNat = (x - (a + 1)).toNat + 1 := by
        have h1 := a.isLt
        have h2 := x.isLt
        have h3 : a.toNat ≠ x.toNat := fun h => e (BitVec.eq_of_toNat_eq h)
        simp only [BitVec.toNat_sub, BitVec.toNat_add]
        simp
        omega
      by_cases hx : (x - (a + 1)).toNat < bs.length
      · rw [dif_pos hx, dif_pos (by simp only [List.length_cons]; omega)]
        simp [hd]
      · rw [dif_neg hx, dif_neg (by simp only [List.length_cons]; omega), State.byteAt_setByte h,
          if_neg e]

/-- A stored run reads back. -/
theorem State.bytesAt_setBytes {s : State} (h : Memory.wf s.mem = true) (a : Addr)
    (bs : List Byte) (hl : bs.length ≤ 2 ^ 24) :
    (s.setBytes a bs).bytesAt a bs.length = bs := by
  apply List.ext_getElem
  · simp
  · intro k h1 h2
    have hk : k < 2 ^ 24 := by omega
    have e := Addr.add_sub_toNat a k hk
    rw [State.bytesAt_getElem _ _ _ _ h2, State.byteAt_setBytes h _ _ _ hl, dif_pos (by omega)]
    simp only [e]

/-! ## Bytes of a value -/

@[simp] theorem beBytes_length {w : Nat} (n : Nat) (v : BitVec w) : (beBytes n v).length = n := by
  induction n with
  | zero => rfl
  | succ n ih => simp [beBytes, ih]

theorem beValue_append (w : Nat) (bs : List Byte) (b : Byte) :
    beValue w (bs ++ [b]) = (beValue w bs <<< 8) ||| b.setWidth w := by
  simp [beValue, List.foldl_append]

/-- Byte `k` of a value in storage order. -/
theorem beBytes_getElem {w : Nat} (n k : Nat) (v : BitVec w) (h : k < n) :
    (beBytes n v)[k]'(by simpa using h) = v.extractLsb' (8 * (n - 1 - k)) 8 := by
  induction n generalizing k with
  | zero => omega
  | succ n ih =>
    cases k with
    | zero => simp [beBytes]
    | succ k =>
      simp only [beBytes, List.getElem_cons_succ, ih k (by omega)]
      congr 2
      omega

theorem beBytes_succ {w : Nat} (n : Nat) (v : BitVec w) :
    beBytes (n + 1) v = beBytes n (v >>> 8) ++ [v.extractLsb' 0 8] := by
  apply List.ext_getElem
  · simp
  · intro k h1 h2
    simp only [beBytes_length] at h1
    rw [beBytes_getElem _ _ _ h1]
    by_cases hk : k < n
    · rw [List.getElem_append_left (by simpa using hk), beBytes_getElem _ _ _ hk]
      apply BitVec.eq_of_getLsbD_eq
      intro i hi
      simp only [BitVec.getLsbD_extractLsb', BitVec.getLsbD_ushiftRight]
      congr 2
      omega
    · have : k = n := by omega
      subst this
      simp

theorem beValue_beBytes_aux {w : Nat} (n : Nat) (v : BitVec w) :
    beValue w (beBytes n v) = v &&& BitVec.ofNat w (2 ^ (8 * n) - 1) := by
  induction n generalizing v with
  | zero => simp [beBytes, beValue]
  | succ n ih =>
    rw [beBytes_succ, beValue_append, ih]
    apply BitVec.eq_of_getLsbD_eq
    intro i hi
    simp only [BitVec.getLsbD_or, BitVec.getLsbD_and, BitVec.getLsbD_shiftLeft, BitVec.getLsbD_ofNat,
      BitVec.getLsbD_ushiftRight, BitVec.getLsbD_setWidth, BitVec.getLsbD_extractLsb',
      Nat.testBit_two_pow_sub_one]
    by_cases h8 : i < 8
    · simp [h8, hi]
      omega
    · have : 8 + (i - 8) = i := by omega
      have : (i - 8 < w ∧ i - 8 < 8 * n) ↔ i < 8 * (n + 1) := by omega
      simp only [← Bool.decide_and, *]
      simp

/-- The bytes of a value make it up again (R84). -/
theorem beValue_beBytes {w : Nat} (n : Nat) (v : BitVec w) (h : w ≤ 8 * n) :
    beValue w (beBytes n v) = v := by
  rw [beValue_beBytes_aux]
  apply BitVec.eq_of_getLsbD_eq
  intro i hi
  have : i < 8 * n := by omega
  rw [BitVec.getLsbD_and, BitVec.getLsbD_ofNat, Nat.testBit_two_pow_sub_one]
  simp [hi, this]

/-- A stored value reads back (R500). -/
theorem State.peek_poke {s : State} (h : Memory.wf s.mem = true) {w : Nat} (a : Addr)
    (v : BitVec w) (h8 : w = 8 * (w / 8)) (hw : w / 8 ≤ 2 ^ 24) : (s.poke a v).peek w a = v := by
  have := State.bytesAt_setBytes h a (beBytes (w / 8) v) (by simpa using hw)
  rw [beBytes_length] at this
  rw [State.peek, State.poke, this]
  exact beValue_beBytes _ v (by omega)

/-- A store changes no byte outside the stored ones. -/
theorem State.byteAt_poke_of_outside {s : State} (h : Memory.wf s.mem = true) {w : Nat}
    (a x : Addr) (v : BitVec w) (hw : w / 8 ≤ 2 ^ 24) (hx : w / 8 ≤ (x - a).toNat) :
    (s.poke a v).byteAt x = s.byteAt x := by
  rw [State.poke, State.byteAt_setBytes h _ _ _ (by simpa using hw), dif_neg (by simpa using hx)]

/-- A read of bytes a run did not touch. -/
theorem State.bytesAt_setBytes_of_apart {s : State} (h : Memory.wf s.mem = true) (a b : Addr)
    (bs : List Byte) (n : Nat) (hl : bs.length ≤ 2 ^ 24)
    (hx : ∀ k < n, bs.length ≤ (b + BitVec.ofNat 24 k - a).toNat) :
    (s.setBytes a bs).bytesAt b n = s.bytesAt b n := by
  apply List.ext_getElem
  · simp
  · intro k h1 h2
    have hk : k < n := by simpa using h1
    rw [State.bytesAt_getElem _ _ _ _ hk, State.bytesAt_getElem _ _ _ _ hk,
      State.byteAt_setBytes h _ _ _ hl, dif_neg (by have := hx k hk; omega)]

end Sys2Proof.Machine
end

