-- ==== Sys2Proof/Laws/Ops.lean ====
section
/-! SUPPORT. What each shared operation of `Machine/Ops.lean` and `Machine/Operands.lean` can do, said
once: checked accesses, ends of a call, taking an interruption, addresses and register fields. -/

namespace Sys2Proof.Machine

/-! ## Raising and going on -/

@[simp] theorem demand_true (c : ProgramCode) (s : State) : demand true c s = .ok () := rfl

@[simp] theorem demand_false (c : ProgramCode) (s : State) :
    demand false c s = .error (.program c s) := rfl

@[simp] theorem ok_bind {α β : Type} (a : α) (f : α → Except Raise β) :
    (Except.ok a >>= f) = f a := rfl

@[simp] theorem error_bind {α β : Type} (r : Raise) (f : α → Except Raise β) :
    ((Except.error r : Except Raise α) >>= f) = .error r := rfl

@[simp] theorem pure_ok {α : Type} (a : α) : (pure a : Except Raise α) = .ok a := rfl

/-! ## Checked accesses -/

theorem State.load_installed {s : State} {w : Nat} {a : Addr} (h : s.installed a (w / 8) = true) :
    s.load w a = .ok (s.peek w a) := by simp [State.load, h]

theorem State.load_missing {s : State} {w : Nat} {a : Addr} (h : s.installed a (w / 8) = false) :
    s.load w a = .error (.program .addressing s) := by simp [State.load, h]

theorem State.store_installed {s : State} {w : Nat} {a : Addr} {v : BitVec w}
    (h : s.installed a (w / 8) = true) : s.store a v = .ok (s.poke a v) := by simp [State.store, h]

theorem State.store_missing {s : State} {w : Nat} {a : Addr} {v : BitVec w}
    (h : s.installed a (w / 8) = false) : s.store a v = .error (.program .addressing s) := by
  simp [State.store, h]

theorem State.loadBytes_installed {s : State} {a : Addr} {n : Nat} (h : s.installed a n = true) :
    s.loadBytes a n = .ok (s.bytesAt a n) := by simp [State.loadBytes, h]

theorem State.loadBytes_missing {s : State} {a : Addr} {n : Nat} (h : s.installed a n = false) :
    s.loadBytes a n = .error (.program .addressing s) := by simp [State.loadBytes, h]

theorem State.storeBytes_installed {s : State} {a : Addr} {bs : List Byte}
    (h : s.installed a bs.length = true) : s.storeBytes a bs = .ok (s.setBytes a bs) := by
  simp [State.storeBytes, h]

theorem State.storeBytes_missing {s : State} {a : Addr} {bs : List Byte}
    (h : s.installed a bs.length = false) :
    s.storeBytes a bs = .error (.program .addressing s) := by simp [State.storeBytes, h]

/-- A byte read is the byte at the address. -/
theorem State.peek_byte (s : State) (a : Addr) : s.peek 8 a = s.byteAt a := by
  simp [State.peek, State.bytesAt, beValue]

/-- A byte written is the byte at the address. -/
theorem State.poke_byte (s : State) (a : Addr) (v : Byte) : s.poke a v = s.setByte a v := by
  simp [State.poke, beBytes, State.setBytes]

theorem State.load_byte {s : State} {a : Addr} (h : s.installed a 1 = true) :
    s.load 8 a = .ok (s.byteAt a) := by rw [State.load_installed h, State.peek_byte]

theorem State.store_byte {s : State} {a : Addr} {v : Byte} (h : s.installed a 1 = true) :
    s.store a v = .ok (s.setByte a v) := by rw [State.store_installed h, State.poke_byte]

/-- Installed bytes, one by one. -/
theorem State.installed_iff (s : State) (a : Addr) (n : Nat) :
    s.installed a n = true ↔ ∀ k < n, (a + BitVec.ofNat 24 k).toNat < s.cfg.memSize := by
  induction n generalizing a with
  | zero => simp [State.installed]
  | succ n ih =>
    simp only [State.installed, Bool.and_eq_true, decide_eq_true_eq, ih]
    constructor
    · rintro ⟨h0, h⟩ k hk
      cases k with
      | zero => simpa using h0
      | succ k => rw [← Addr.succ_add]; exact h k (by omega)
    · intro h
      refine ⟨by simpa using h 0 (by omega), fun k hk => ?_⟩
      rw [Addr.succ_add]
      exact h (k + 1) (by omega)

theorem State.installed_mono {s : State} {a : Addr} {n m : Nat} (h : s.installed a n = true)
    (hm : m ≤ n) : s.installed a m = true := by
  rw [State.installed_iff] at h ⊢
  exact fun k hk => h k (by omega)

theorem State.installed_one {s : State} {a : Addr} {n : Nat} (h : s.installed a n = true) {k : Nat}
    (hk : k < n) : s.installed (a + BitVec.ofNat 24 k) 1 = true := by
  rw [State.installed_iff] at h ⊢
  intro j hj
  have : j = 0 := by omega
  subst this
  simpa using h k hk

/-! ## Register fields -/

theorem demandEven_of_even {r : Nib} {s : State} (h : r.toNat % 2 = 0) : demandEven r s = .ok () := by
  have : r.getLsbD 0 = false := by simp [BitVec.getLsbD, Nat.testBit_zero, h]
  rw [demandEven, this]; rfl

theorem demandEven_of_odd {r : Nib} {s : State} (h : r.toNat % 2 = 1) :
    demandEven r s = .error (.program .specification s) := by
  have : r.getLsbD 0 = true := by simp [BitVec.getLsbD, Nat.testBit_zero, h]
  rw [demandEven, this]; rfl

theorem floatReg_of_place {r : Nib} {k : Fin 4} {s : State} (h : frPlace r = some k) :
    floatReg r s = .ok k := by simp [floatReg, h]

theorem floatReg_of_none {r : Nib} {s : State} (h : frPlace r = none) :
    floatReg r s = .error (.program .specification s) := by simp [floatReg, h, raiseProgram]

/-- The floating-point registers are 0, 2, 4 and 6 (R34). -/
theorem frPlace_eq_none_iff (r : Nib) : frPlace r = none ↔ r ∉ [(0 : Nib), 2, 4, 6] := by
  revert r; decide

/-! ## Fields of the live PSW under an interruption's store -/

theorem State.peek_of_poke_apart {s : State} (h : Memory.wf s.mem = true) {w v : Nat} (a b : Addr)
    (x : BitVec w) (hw : w / 8 ≤ 2 ^ 24)
    (hx : ∀ k < v / 8, w / 8 ≤ (b + BitVec.ofNat 24 k - a).toNat) :
    (s.poke a x).peek v b = s.peek v b := by
  rw [State.peek, State.peek, State.poke,
    State.bytesAt_setBytes_of_apart h a b _ _ (by simpa using hw) (by simpa using hx)]

end Sys2Proof.Machine
end

