-- ==== Sys2Proof/Laws/Frame.lean ====
section
/-! SUPPORT. What a rule may write, said once: a scope, the states that differ from another only inside a
scope, and for each shared operation and each loop over storage that it stays inside. -/

namespace Sys2Proof.Machine

/-! ## Scopes -/

/-- What may be written: registers, `len` bytes of storage from `start`, the keys, three PSW fields. -/
structure Scope where
  gr : Nib → Bool := fun _ => false
  fr : Fin 4 → Bool := fun _ => false
  start : Addr := 0
  len : Nat := 0
  keys : Bool := false
  cc : Bool := false
  pm : Bool := false
  sysMask : Bool := false

/-- An address inside the scope's storage. -/
def Scope.has (w : Scope) (a : Addr) : Prop := (a - w.start).toNat < w.len

/-- `t` differs from `s` only inside the scope, and keeps the canonical form of storage. -/
structure Kept (w : Scope) (s t : State) : Prop where
  gr : ∀ q, w.gr q = false → t.getGr q = s.getGr q
  fr : ∀ k, w.fr k = false → t.getFr k = s.getFr k
  wf : Memory.wf s.mem = true → Memory.wf t.mem = true
  mem : Memory.wf s.mem = true → ∀ x, ¬w.has x → t.byteAt x = s.byteAt x
  keysWf : Keys.wf s.keys = true → Keys.wf t.keys = true
  keys : w.keys = false → t.keys = s.keys
  cfg : t.cfg = s.cfg
  cc : w.cc = false → t.psw.cc = s.psw.cc
  pm : w.pm = false → t.psw.pm = s.psw.pm
  sysMask : w.sysMask = false → t.psw.sysMask = s.psw.sysMask
  psw : t.psw = { s.psw with cc := t.psw.cc, pm := t.psw.pm, sysMask := t.psw.sysMask }

variable {w : Scope} {s t : State}

theorem Kept.refl (w : Scope) (s : State) : Kept w s s :=
  ⟨fun _ _ => rfl, fun _ _ => rfl, id, fun _ _ _ => rfl, id, fun _ => rfl, rfl, fun _ => rfl,
    fun _ => rfl, fun _ => rfl, rfl⟩

theorem Kept.setGr (h : Kept w s t) (r : Nib) (v : Word) (hr : w.gr r = true) :
    Kept w s (t.setGr r v) :=
  { h with
    gr := fun q hq => by
      rw [State.getGr_setGr_of_ne]
      · exact h.gr q hq
      · rintro rfl; rw [hr] at hq; cases hq }

theorem Kept.setPair (h : Kept w s t) (r : Nib) (v : DWord) (hr : w.gr r = true)
    (hr' : w.gr (r + 1) = true) : Kept w s (t.setPair r v) :=
  (h.setGr r _ hr).setGr (r + 1) _ hr'

theorem Kept.setFr (h : Kept w s t) (r : Fin 4) (v : DWord) (hr : w.fr r = true) :
    Kept w s (t.setFr r v) :=
  { h with
    fr := fun q hq => by
      rw [State.getFr_setFr, if_neg]
      · exact h.fr q hq
      · rintro rfl; rw [hr] at hq; cases hq }

theorem Kept.setFrh (h : Kept w s t) (r : Fin 4) (v : Word) (hr : w.fr r = true) :
    Kept w s (t.setFrh r v) := h.setFr r _ hr

theorem Kept.setHfp (h : Kept w s t) (f : HfpFormat) (r : Fin 4) (x : Hfp) (hr : w.fr r = true) :
    Kept w s (t.setHfp f r x) := by
  cases f
  · exact h.setFrh r _ hr
  · exact h.setFr r _ hr

theorem Kept.setCc (h : Kept w s t) (v : BitVec 2) (hc : w.cc = true) : Kept w s (t.setCc v) :=
  { h with
    cc := fun hf => by rw [hc] at hf; cases hf
    psw := by have := h.psw; simp only [State.setCc_psw]; rw [this] }

theorem Kept.setPm (h : Kept w s t) (v : BitVec 4) (hc : w.pm = true) : Kept w s (t.setPm v) :=
  { h with
    pm := fun hf => by rw [hc] at hf; cases hf
    psw := by have := h.psw; simp only [State.setPm_psw]; rw [this] }

theorem Kept.setSysMask (h : Kept w s t) (v : BitVec 8) (hc : w.sysMask = true) :
    Kept w s (t.setSysMask v) :=
  { h with
    sysMask := fun hf => by rw [hc] at hf; cases hf
    psw := by have := h.psw; simp only [State.setSysMask_psw]; rw [this] }

theorem Kept.setKey (h : Kept w s t) {p : Nat} (v : BitVec 4) (hk : w.keys = true) (hp : p < 8192) :
    Kept w s (t.setKey p v) :=
  { h with
    keysWf := fun hw => State.setKey_wf (h.keysWf hw) hp v
    keys := fun hf => by rw [hk] at hf; cases hf }

theorem Kept.setByte (h : Kept w s t) {a : Addr} (v : Byte) (ha : w.has a) : Kept w s (t.setByte a v) :=
  { h with
    wf := fun hw => State.setByte_wf (h.wf hw) a v
    mem := fun hw x hx => by
      rw [State.byteAt_setByte (h.wf hw), if_neg]
      · exact h.mem hw x hx
      · rintro rfl; exact hx ha }

theorem Kept.setBytes (h : Kept w s t) {a : Addr} (bs : List Byte)
    (ha : ∀ k < bs.length, w.has (a + BitVec.ofNat 24 k)) : Kept w s (t.setBytes a bs) := by
  induction bs generalizing t a with
  | nil => exact h
  | cons b bs ih =>
    refine ih (h.setByte b (by simpa using ha 0 (by simp))) fun k hk => ?_
    rw [Addr.succ_add]
    exact ha (k + 1) (by simpa using hk)

theorem Kept.poke (h : Kept w s t) {n : Nat} {a : Addr} (v : BitVec n)
    (ha : ∀ k < n / 8, w.has (a + BitVec.ofNat 24 k)) : Kept w s (t.poke a v) :=
  h.setBytes _ (by simpa using ha)

/-- An address at a distance below the scope's length lies inside, if the scope starts at `a`. -/
theorem Scope.has_offset {w : Scope} {a : Addr} {k : Nat} (ha : w.start = a) (hk : k < w.len)
    (h24 : k < 2 ^ 24) : w.has (a + BitVec.ofNat 24 k) := by
  rw [Scope.has, ha, Addr.add_sub_toNat _ _ h24]
  exact hk

/-! ## Outcomes -/

/-- A raise whose state, if it carries one, satisfies `P`: a program interruption, a hand-over to the host,
an opcode without a row. -/
def RaiseBound (P : State → Prop) : Raise → Prop
  | .program _ t => P t
  | .intercepted _ => True
  | .undefinedOpcode => True
  | .supervisorCall _ _ => False
  | .pswInvalid _ _ => False

/-- An outcome whose answer satisfies `Q` and whose raise is bound by `P`. -/
def Bound {α : Type} (P : State → Prop) (Q : α → Prop) : Except Raise α → Prop
  | .ok a => Q a
  | .error r => RaiseBound P r

/-- A completion, with or without a branch, whose state satisfies `P`. -/
def Done (P : State → Prop) : Completion → Prop
  | .advance t => P t
  | .branch _ t => P t
  | .pswLoaded _ => False

section
variable {α β : Type} {P : State → Prop} {Q : α → Prop} {R : β → Prop}

theorem Bound.bind {m : Except Raise α} {k : α → Except Raise β} (hm : Bound P Q m)
    (hk : ∀ a, Q a → Bound P R (k a)) : Bound P R (m >>= k) := by
  cases m with
  | ok a => exact hk a hm
  | error r => exact hm

theorem Bound.mono {Q' : α → Prop} {m : Except Raise α} (h : Bound P Q m) (hq : ∀ a, Q a → Q' a) :
    Bound P Q' m := by
  cases m with
  | ok a => exact hq a h
  | error r => exact h

theorem Bound.ok {a : α} (h : Q a) : Bound P Q (.ok a) := h

theorem Bound.pure {a : α} (h : Q a) : Bound P Q (Pure.pure a) := h

theorem Bound.raise (code : ProgramCode) (h : P s) : Bound P Q (raiseProgram code s) := h

theorem Bound.intercept (i : Instr) : Bound P Q (Machine.intercept i) := trivial

theorem Bound.demand (ok : Bool) (code : ProgramCode) (h : P s) :
    Bound P (fun _ => ok = true) (demand ok code s) := by
  cases ok
  · exact h
  · exact rfl

theorem Bound.supervisorOnly (i : Instr) (s : State) :
    Bound P (fun _ => s.psw.p = false) (supervisorOnly i s) := by
  unfold Machine.supervisorOnly
  split
  · exact trivial
  · rename_i h; exact (show s.psw.p = false by simpa using h)

theorem Bound.load (n : Nat) (a : Addr) (h : P s) :
    Bound P (fun v => s.installed a (n / 8) = true ∧ v = s.peek n a) (s.load n a) :=
  Bound.bind (Bound.demand _ _ h) fun _ hi => ⟨hi, rfl⟩

theorem Bound.store {n : Nat} (a : Addr) (v : BitVec n) (h : P s) :
    Bound P (fun t => t = s.poke a v) (s.store a v) :=
  Bound.bind (Bound.demand _ _ h) fun _ _ => rfl

theorem Bound.loadBytes (a : Addr) (n : Nat) (h : P s) :
    Bound P (fun bs => bs = s.bytesAt a n) (s.loadBytes a n) :=
  Bound.bind (Bound.demand _ _ h) fun _ _ => rfl

theorem Bound.storeBytes (a : Addr) (bs : List Byte) (h : P s) :
    Bound P (fun t => t = s.setBytes a bs) (s.storeBytes a bs) :=
  Bound.bind (Bound.demand _ _ h) fun _ _ => rfl

theorem Bound.storeEach (bs : List Byte) (h : Kept w s t) {a : Addr}
    (ha : ∀ k < bs.length, w.has (a + BitVec.ofNat 24 k)) :
    Bound (Kept w s) (fun u => u = t.setBytes a bs) (t.storeEach a bs) := by
  induction bs generalizing t a with
  | nil => exact rfl
  | cons b bs ih =>
    refine Bound.bind (Bound.store a b h) ?_
    rintro _ rfl
    rw [State.poke_byte]
    exact ih (h.setByte b (by simpa using ha 0 (by simp))) fun k hk => by
      rw [Addr.succ_add]; exact ha (k + 1) (by simpa using hk)

theorem Bound.floatReg (r : Nib) (h : P s) :
    Bound P (fun k => frPlace r = some k) (floatReg r s) := by
  unfold Machine.floatReg
  split
  · rename_i k hk; exact hk
  · exact h

theorem Bound.demandEven (r : Nib) (h : P s) : Bound P (fun _ => True) (demandEven r s) :=
  Bound.mono (Bound.demand _ _ h) fun _ _ => trivial

theorem Bound.demandPacked (bs : List Byte) (h : P s) :
    Bound P (fun x => packedOfBytes bs = some x) (demandPacked bs s) := by
  unfold Machine.demandPacked
  split
  · rename_i x hx; exact hx
  · exact h

end

/-! ## Loops over storage stay inside what they store to -/

theorem Kept.loadRegisters (h : Kept w s t) (n : Nat) (r : Nib) (a : Addr)
    (hr : ∀ k < n, w.gr (r + BitVec.ofNat 4 k) = true) : Kept w s (t.loadRegisters n r a) := by
  induction n generalizing t r a with
  | zero => exact h
  | succ n ih =>
    refine ih (h.setGr r _ (by simpa using hr 0 (by omega))) _ _ fun k hk => ?_
    rw [BitVec.add_assoc, show (1 : Nib) = BitVec.ofNat 4 1 from rfl, ← BitVec.ofNat_add, Nat.add_comm]
    exact hr (k + 1) (by omega)

theorem Kept.storeRegisters (h : Kept w s t) (n : Nat) (r : Nib) (a : Addr)
    (ha : ∀ k < 4 * n, w.has (a + BitVec.ofNat 24 k)) : Kept w s (t.storeRegisters n r a) := by
  induction n generalizing t r a with
  | zero => exact h
  | succ n ih =>
    refine ih (h.poke _ fun k hk => ha k (by omega)) _ _ fun k hk => ?_
    rw [BitVec.add_assoc, show (4 : Addr) = BitVec.ofNat 24 4 from rfl, ← BitVec.ofNat_add]
    exact ha (4 + k) (by omega)

theorem Kept.setLongOperand (h : Kept w s t) (r : Nib) (x : LongOperand) (hr : w.gr r = true)
    (hr' : w.gr (r + 1) = true) : Kept w s (t.setLongOperand r x) :=
  (h.setGr r _ hr).setGr (r + 1) _ hr'

theorem Bound.combineChars (f : Byte → Byte → Byte) (n : Nat) (a b : Addr) (nz : Byte)
    (h : Kept w s t) (ha : ∀ k < n, w.has (a + BitVec.ofNat 24 k)) :
    Bound (Kept w s) (fun p => Kept w s p.2) (combineChars f n a b nz t) := by
  induction n generalizing t a b nz with
  | zero => exact h
  | succ n ih =>
    refine Bound.bind (Bound.load 8 a h) fun x _ => Bound.bind (Bound.load 8 b h) fun y _ =>
      Bound.bind (Bound.store a _ h) ?_
    rintro _ rfl
    refine ih _ _ _ (h.poke _ fun k hk => ?_) fun k hk => ?_
    · have : k = 0 := by omega
      subst this; exact ha 0 (by omega)
    · rw [Addr.succ_add]; exact ha (k + 1) (by omega)

theorem Bound.moveChars (n : Nat) (a b : Addr) (h : Kept w s t)
    (ha : ∀ k < n, w.has (a + BitVec.ofNat 24 k)) :
    Bound (Kept w s) (Kept w s) (moveChars n a b t) := by
  induction n generalizing t a b with
  | zero => exact h
  | succ n ih =>
    refine Bound.bind (Bound.load 8 b h) fun x _ => Bound.bind (Bound.store a _ h) ?_
    rintro _ rfl
    refine ih _ _ (h.poke _ fun k hk => ?_) fun k hk => ?_
    · have : k = 0 := by omega
      subst this; exact ha 0 (by omega)
    · rw [Addr.succ_add]; exact ha (k + 1) (by omega)

theorem Bound.longByte (x : LongOperand) (pad : Byte) {P : State → Prop} (h : P t) :
    Bound P (fun _ => True) (x.byte pad t) := by
  unfold LongOperand.byte
  split
  · exact trivial
  · exact (Bound.load 8 _ h).mono fun _ _ => trivial

theorem Bound.moveLong (pad : Byte) (n : Nat) (a : Addr) (y : LongOperand) (h : Kept w s t)
    (ha : ∀ k < n, w.has (a + BitVec.ofNat 24 k)) :
    Bound (Kept w s) (Kept w s) (moveLong pad n a y t) := by
  induction n generalizing t a y with
  | zero => exact h
  | succ n ih =>
    refine Bound.bind (Bound.longByte y pad h) fun x _ => Bound.bind (Bound.store a _ h) ?_
    rintro _ rfl
    refine ih _ _ (h.poke _ fun k hk => ?_) fun k hk => ?_
    · have : k = 0 := by omega
      subst this; exact ha 0 (by omega)
    · rw [Addr.succ_add]; exact ha (k + 1) (by omega)

theorem Bound.translateChars (table : Addr) (n : Nat) (a : Addr) (h : Kept w s t)
    (ha : ∀ k < n, w.has (a + BitVec.ofNat 24 k)) :
    Bound (Kept w s) (Kept w s) (translateChars table n a t) := by
  induction n generalizing t a with
  | zero => exact h
  | succ n ih =>
    refine Bound.bind (Bound.load 8 a h) fun x _ => Bound.bind (Bound.load 8 _ h) fun y _ =>
      Bound.bind (Bound.store a _ h) ?_
    rintro _ rfl
    refine ih _ (h.poke _ fun k hk => ?_) fun k hk => ?_
    · have : k = 0 := by omega
      subst this; exact ha 0 (by omega)
    · rw [Addr.succ_add]; exact ha (k + 1) (by omega)

theorem Bound.compareChars (n : Nat) (a b : Addr) {P : State → Prop} (h : P t) :
    Bound P (fun _ => True) (compareChars t n a b) := by
  induction n generalizing a b with
  | zero => exact trivial
  | succ n ih =>
    refine Bound.bind (Bound.load 8 a h) fun x _ => Bound.bind (Bound.load 8 b h) fun y _ => ?_
    split
    · exact ih _ _
    · exact trivial

theorem Bound.compareMasked (v : Word) (js : List Nat) (a : Addr) {P : State → Prop} (h : P t) :
    Bound P (fun _ => True) (compareMasked t v js a) := by
  induction js generalizing a with
  | nil => exact trivial
  | cons j js ih =>
    refine Bound.bind (Bound.load 8 a h) fun x _ => ?_
    split
    · exact ih _
    · exact trivial

theorem Bound.compareLong (pad : Byte) (n : Nat) (x y : LongOperand) {P : State → Prop} (h : P t) :
    Bound P (fun _ => True) (compareLong t pad n x y) := by
  induction n generalizing x y with
  | zero => exact trivial
  | succ n ih =>
    refine Bound.bind (Bound.longByte x pad h) fun _ _ => Bound.bind (Bound.longByte y pad h) fun _ _ => ?_
    split
    · exact ih _ _
    · exact trivial

theorem Bound.scanChars (table : Addr) (n : Nat) (a : Addr) {P : State → Prop} (h : P t) :
    Bound P (fun _ => True) (scanChars t table n a) := by
  induction n generalizing a with
  | zero => exact trivial
  | succ n ih =>
    refine Bound.bind (Bound.load 8 a h) fun x _ => Bound.bind (Bound.load 8 _ h) fun y _ => ?_
    split
    · exact ih _
    · exact trivial

theorem Bound.moveOffset (a b : Addr) (i j : Nat) (hi : Nib) (h : Kept w s t)
    (ha : ∀ k < i, w.has (a + BitVec.ofNat 24 k)) :
    Bound (Kept w s) (Kept w s) (moveOffset a b i j hi t) := by
  have one : ∀ i : Nat, w.has (a + BitVec.ofNat 24 i) →
      ∀ k < 8 / 8, w.has (a + BitVec.ofNat 24 i + BitVec.ofNat 24 k) := by
    intro i hi k hk
    have : k = 0 := by omega
    subst this; simpa using hi
  induction i generalizing t j hi with
  | zero => cases j <;> exact h
  | succ i ih =>
    cases j with
    | zero =>
      refine Bound.bind (Bound.store _ _ h) ?_
      rintro _ rfl
      exact ih _ _ (h.poke _ (one i (ha i (by omega)))) fun k hk => ha k (by omega)
    | succ j =>
      refine Bound.bind (Bound.load 8 _ h) fun x _ => Bound.bind (Bound.store _ _ h) ?_
      rintro _ rfl
      exact ih _ _ (h.poke _ (one i (ha i (by omega)))) fun k hk => ha k (by omega)

theorem Bound.packDigit (a : Addr) (j : Nat) {P : State → Prop} (h : P t) :
    Bound P (fun _ => True) (packDigit a j t) := by
  cases j with
  | zero => exact trivial
  | succ j => exact Bound.bind (Bound.load 8 _ h) fun _ _ => trivial

theorem Bound.packLoop (a b : Addr) (i j : Nat) (h : Kept w s t)
    (ha : ∀ k < i, w.has (a + BitVec.ofNat 24 k)) :
    Bound (Kept w s) (Kept w s) (packLoop a b i j t) := by
  induction i generalizing t j with
  | zero => exact h
  | succ i ih =>
    refine Bound.bind (Bound.packDigit b j h) fun x _ => Bound.bind (Bound.packDigit b _ h) fun y _ =>
      Bound.bind (Bound.store _ _ h) ?_
    rintro _ rfl
    refine ih _ (h.poke _ fun k hk => ?_) fun k hk => ha k (by omega)
    have : k = 0 := by omega
    subst this; simpa using ha i (by omega)

theorem Bound.unpackLoop (a b : Addr) (i j : Nat) (pend : Option Nib) (h : Kept w s t)
    (ha : ∀ k < i, w.has (a + BitVec.ofNat 24 k)) :
    Bound (Kept w s) (Kept w s) (unpackLoop a b i j pend t) := by
  have one : ∀ i : Nat, w.has (a + BitVec.ofNat 24 i) →
      ∀ k < 8 / 8, w.has (a + BitVec.ofNat 24 i + BitVec.ofNat 24 k) := by
    intro i hi k hk
    have : k = 0 := by omega
    subst this; simpa using hi
  induction i generalizing t j pend with
  | zero => cases j <;> exact h
  | succ i ih =>
    cases pend with
    | some d =>
      refine Bound.bind (Bound.store _ _ h) ?_
      rintro _ rfl
      exact ih _ _ (h.poke _ (one i (ha i (by omega)))) fun k hk => ha k (by omega)
    | none =>
      cases j with
      | zero =>
        refine Bound.bind (Bound.store _ _ h) ?_
        rintro _ rfl
        exact ih _ _ (h.poke _ (one i (ha i (by omega)))) fun k hk => ha k (by omega)
      | succ j =>
        refine Bound.bind (Bound.load 8 _ h) fun x _ => Bound.bind (Bound.store _ _ h) ?_
        rintro _ rfl
        exact ih _ _ (h.poke _ (one i (ha i (by omega)))) fun k hk => ha k (by omega)

theorem Kept.markEdit (h : Kept w s t) (mark : Bool) (a : Addr) (hm : mark = true → w.gr 1 = true) :
    Kept w s (t.markEdit mark a) := by
  unfold State.markEdit
  split
  · rename_i hh; exact h.setGr 1 _ (hm hh)
  · exact h

theorem Bound.editSelector (mark : Bool) (fill p : Byte) (a : Addr) (e : EditState) (h : Kept w s t)
    (hm : mark = true → w.gr 1 = true) :
    Bound (Kept w s) (fun x => Kept w s x.2.2) (editSelector mark fill p a e t) := by
  have hd : Bound (Kept w s) (fun _ => True) (editDigit e t) := by
    unfold editDigit
    split
    · exact trivial
    · exact Bound.bind (Bound.load 8 _ h) fun _ _ => trivial
  refine Bound.bind hd fun x _ => Bound.bind (Bound.demand _ _ h) fun _ _ => ?_
  refine h.markEdit _ _ fun hx => hm ?_
  simp only [Bool.and_eq_true] at hx
  exact hx.1

theorem Bound.editLoop (mark : Bool) (fill : Byte) (n : Nat) (a : Addr) (e : EditState)
    (h : Kept w s t) (hm : mark = true → w.gr 1 = true)
    (ha : ∀ k < n, w.has (a + BitVec.ofNat 24 k)) :
    Bound (Kept w s) (fun x => Kept w s x.2) (editLoop mark fill n a e t) := by
  induction n generalizing t a e with
  | zero => exact h
  | succ n ih =>
    refine Bound.bind (Bound.load 8 a h) fun p _ => ?_
    have go : ∀ (r : Byte) (e : EditState) (u : State), Kept w s u →
        Bound (Kept w s) (fun x => Kept w s x.2)
          (u.store a r >>= fun v => Machine.editLoop mark fill n (a + 1) e v) := by
      intro r e u hu
      refine Bound.bind (Bound.store _ _ hu) ?_
      rintro _ rfl
      refine ih _ _ (hu.poke _ fun k hk => ?_) fun k hk => ?_
      · have : k = 0 := by omega
        subst this; simpa using ha 0 (by omega)
      · rw [Addr.succ_add]; exact ha (k + 1) (by omega)
    dsimp only
    split
    · exact Bound.bind (Bound.editSelector mark fill p a e h hm) fun x hx => go _ _ _ hx
    · split <;> exact go _ _ _ h

/-! ## Shared ends of rules -/

theorem Bound.fixedOverflowExit (ovf : Bool) (h : Kept w s t) :
    Bound (Kept w s) (Done (Kept w s)) (fixedOverflowExit ovf t) := by
  unfold Machine.fixedOverflowExit
  split <;> exact h

theorem Bound.hfpAddFinish (f : HfpFormat) (r : Fin 4) (x : Hfp) (norm : Bool) (h : Kept w s t)
    (hr : w.fr r = true) (hc : w.cc = true) :
    Bound (Kept w s) (Done (Kept w s)) (hfpAddFinish f r x norm t) := by
  unfold Machine.hfpAddFinish
  dsimp only
  split
  · split <;> exact (h.setHfp f r _ hr).setCc _ hc
  · split
    · split
      · exact (h.setHfp f r _ hr).setCc _ hc
      · split
        · split <;> exact (h.setHfp f r _ hr).setCc _ hc
        · exact (h.setHfp f r _ hr).setCc _ hc
    · split
      · exact (h.setHfp f r _ hr).setCc _ hc
      · split
        · split <;> exact (h.setHfp f r _ hr).setCc _ hc
        · exact (h.setHfp f r _ hr).setCc _ hc

theorem Bound.hfpExpFinish (f : HfpFormat) (r : Fin 4) (x : Hfp) (h : Kept w s t) (hr : w.fr r = true) :
    Bound (Kept w s) (Done (Kept w s)) (hfpExpFinish f r x t) := by
  unfold Machine.hfpExpFinish
  split
  · exact h.setHfp f r _ hr
  · split
    · split <;> exact h.setHfp f r _ hr
    · exact h.setHfp f r _ hr

theorem Bound.hfpMul (fin fout : HfpFormat) (r : Fin 4) (x y : Hfp) (h : Kept w s t)
    (hr : w.fr r = true) : Bound (Kept w s) (Done (Kept w s)) (hfpMul fin fout r x y t) := by
  unfold Machine.hfpMul
  split
  · exact h.setHfp _ r _ hr
  · exact Bound.hfpExpFinish _ r _ h hr

theorem Bound.hfpDiv (f : HfpFormat) (r : Fin 4) (x y : Hfp) (h : Kept w s t)
    (hr : w.fr r = true) : Bound (Kept w s) (Done (Kept w s)) (hfpDiv f r x y t) := by
  unfold Machine.hfpDiv
  split
  · exact h
  · split
    · exact h.setHfp _ r _ hr
    · dsimp only
      split <;> exact Bound.hfpExpFinish _ r _ h hr

theorem Bound.hfpHalve (f : HfpFormat) (r : Fin 4) (x : Hfp) (h : Kept w s t)
    (hr : w.fr r = true) : Bound (Kept w s) (Done (Kept w s)) (hfpHalve f r x t) := by
  unfold Machine.hfpHalve
  split
  · exact h.setHfp _ r _ hr
  · exact Bound.hfpExpFinish _ r _ h hr

theorem Bound.floatRR (o : OpsRR) (k : Fin 4 → Fin 4 → Effect) {P : State → Prop}
    {Q : Completion → Prop} (h : P s)
    (hk : ∀ a b, frPlace o.r1 = some a → frPlace o.r2 = some b → Bound P Q (k a b)) :
    Bound P Q (floatRR o k s) :=
  Bound.bind (Bound.floatReg o.r1 h) fun a ha => Bound.bind (Bound.floatReg o.r2 h) fun b hb =>
    hk a b ha hb

theorem Bound.arithRR (f : HfpFormat) (o : OpsRR) (k : Fin 4 → Hfp → Hfp → State → Effect)
    {P : State → Prop} {Q : Completion → Prop} (h : P s)
    (hk : ∀ a x y, frPlace o.r1 = some a → Bound P Q (k a x y s)) : Bound P Q (arithRR f o k s) :=
  Bound.floatRR o _ h fun a _ ha _ => hk a _ _ ha

theorem Bound.loadHfp (f : HfpFormat) (a : Addr) {P : State → Prop} (h : P s) :
    Bound P (fun _ => True) (s.loadHfp f a) := by
  cases f <;> exact Bound.bind (Bound.load _ a h) fun _ _ => trivial

theorem Bound.arithRX (f : HfpFormat) (o : OpsRX) (k : Fin 4 → Hfp → Hfp → State → Effect)
    {P : State → Prop} {Q : Completion → Prop} (h : P s)
    (hk : ∀ a x y, frPlace o.r1 = some a → Bound P Q (k a x y s)) : Bound P Q (arithRX f o k s) :=
  Bound.bind (Bound.floatReg o.r1 h) fun a ha => Bound.bind (Bound.loadHfp f _ h) fun _ _ =>
    hk a _ _ ha

theorem Bound.packedPair (o : OpsSS2) {P : State → Prop} (h : P s) :
    Bound P (fun _ => True) (s.packedPair o) :=
  Bound.bind (Bound.loadBytes _ _ h) fun _ _ => Bound.bind (Bound.loadBytes _ _ h) fun _ _ =>
    Bound.bind (Bound.demandPacked _ h) fun _ _ => Bound.bind (Bound.demandPacked _ h) fun _ _ => trivial

/-- A packed field's bytes, counted. -/
@[simp] theorem packedBytes_length (mag : Nat) (neg : Bool) (n : Nat) :
    (packedBytes mag neg n).length = n + 1 := by
  induction n with
  | zero => rfl
  | succ n ih => simp [packedBytes, ih]

theorem maskBytes_length_le (m : Nib) : (maskBytes m).length ≤ 4 := by revert m; decide

theorem Bound.decWrite (a : Addr) (l mag : Nat) (neg : Bool) (h : Kept w s t)
    (ha : ∀ k < l + 1, w.has (a + BitVec.ofNat 24 k)) :
    Bound (Kept w s) (Kept w s) (decWrite a l mag neg t) := by
  have ha : ∀ k < (packedBytes mag neg l).length, w.has (a + BitVec.ofNat 24 k) := by simpa using ha
  exact Bound.mono (Bound.storeEach _ h ha) (by rintro _ rfl; exact h.setBytes _ ha)

theorem Bound.decimalResult (a : Addr) (l mag : Nat) (neg ovf : Bool) (h : Kept w s t)
    (ha : ∀ k < l + 1, w.has (a + BitVec.ofNat 24 k)) (hc : w.cc = true) :
    Bound (Kept w s) (Done (Kept w s)) (decimalResult a l mag neg ovf t) := by
  refine Bound.bind (Bound.decWrite _ _ _ _ h ha) fun u hu => ?_
  dsimp only
  split <;> exact hu.setCc _ hc

end Sys2Proof.Machine
end

