-- ==== Sys2Proof/Laws/Bounds.lean ====
section
/-! SUPPORT. What each instruction can change, said once: its meaning stays within the scope that
`Sys2Proof.Safety` gives the instruction (`writesGr`, `writesFr`, `storedBytes`, `setsCc`), and so every call of
`exec` ends as `Ended` says. The frames and the invariant follow from `ended_exec`. -/

set_option linter.unusedSimpArgs false
set_option linter.unnecessarySeqFocus false

namespace Sys2Proof.Machine

/-- What an instruction may change without loading a PSW. -/
def scopeOf (s : State) (i : Instr) : Scope :=
  { gr := writesGr i, fr := writesFr i, start := (storedBytes s i).1, len := (storedBytes s i).2,
    keys := match i with | .ssk _ => true | _ => false
    cc := setsCc i
    pm := match i with | .spm _ => true | _ => false
    sysMask := match i with | .ssm _ | .stnsm _ | .stosm _ => true | _ => false }

/-- Every way a meaning can end, but for a supervisor call and a loaded PSW, leaves a state that differs from
`s` within `w`. -/
def Within (w : Scope) (s : State) (e : Effect) : Prop := Bound (Kept w s) (Done (Kept w s)) e

theorem frPlace_writes {w : Scope} {r : Nib} {a : Fin 4} (hw : w.fr = fun k => frPlace r == some k)
    (h : frPlace r = some a) : w.fr a = true := by
  rw [hw]; simp [h]

theorem Scope.has_one {w : Scope} {a b : Addr} {n : Nat} (h : b = a + BitVec.ofNat 24 n) (hs : w.start = a)
    (hn : n < w.len) (h24 : n < 2^24) :
    ∀ k < 8 / 8, w.has (b + BitVec.ofNat 24 k) := by
  intro k hk
  have : k = 0 := by omega
  subst this h
  simpa using Scope.has_offset hs hn h24

theorem loaded_registers (a : Nib) (c : Nib) : ∀ k < (c - a).toNat + 1, decide
    (((a + BitVec.ofNat 4 k) - a).toNat ≤ (c - a).toNat) = true := by
  intro k hk
  have := (c-a).isLt
  have : (a + BitVec.ofNat 4 k - a).toNat = k := by
    have := a.isLt
    simp only [BitVec.toNat_sub, BitVec.toNat_add, BitVec.toNat_ofNat]
    omega
  exact decide_eq_true (by omega)

theorem Bound.swapRightmost (o : OpsSS2) (s : State) {P : State → Prop} (h : P s) :
    Bound P (fun t => ∃ v : Byte, t = s.poke (s.addr1 o + o.l1.setWidth 24) v) (swapRightmost o s) :=
  Bound.bind (Bound.load 8 _ h) fun _ _ => (Bound.store _ _ h).mono fun _ h => ⟨_, h⟩

theorem setWidth_eq_ofNat (l : Nib) : l.setWidth 24 = BitVec.ofNat 24 l.toNat := by
  apply BitVec.eq_of_toNat_eq; simp

theorem within_spm (o : OpsRR) (c : Ctx) (s : State) :
    Within { cc := true, pm := true } s (opSpm o c s) := by
  unfold Within
  simp only [bind_assoc, pure_bind, opSpm]
  exact Bound.ok (show Kept _ _ _ from Kept.setPm (Kept.setCc (Kept.refl _ _) _ rfl) _ rfl)

theorem within_balr (o : OpsRR) (c : Ctx) (s : State) :
    Within { gr := fun q => q == o.r1 } s (opBalr o c s) := by
  unfold Within
  simp only [bind_assoc, pure_bind, opBalr, branchIf]
  split
  · exact Bound.ok (show Kept _ _ _ from Kept.setGr (Kept.refl _ _) _ _ (beq_self_eq_true _))
  · exact Bound.ok (show Kept _ _ _ from Kept.setGr (Kept.refl _ _) _ _ (beq_self_eq_true _))

theorem within_bctr (o : OpsRR) (c : Ctx) (s : State) :
    Within { gr := fun q => q == o.r1 } s (opBctr o c s) := by
  unfold Within
  simp only [bind_assoc, pure_bind, opBctr, branchIf]
  split
  · exact Bound.ok (show Kept _ _ _ from Kept.setGr (Kept.refl _ _) _ _ (beq_self_eq_true _))
  · exact Bound.ok (show Kept _ _ _ from Kept.setGr (Kept.refl _ _) _ _ (beq_self_eq_true _))

theorem within_bcr (o : OpsRR) (c : Ctx) (s : State) : Within {} s (opBcr o c s) := by
  unfold Within
  simp only [bind_assoc, pure_bind, opBcr, branchIf]
  split
  · exact Bound.ok (show Kept _ _ _ from Kept.refl _ _)
  · exact Bound.ok (show Kept _ _ _ from Kept.refl _ _)

theorem within_ssk (o : OpsRR) (c : Ctx) (s : State) : Within { keys := true } s (opSsk o c s) := by
  unfold Within
  simp only [bind_assoc, pure_bind, opSsk, keyPage]
  refine Bound.bind (Bound.supervisorOnly _ _) ?_
  intro _ _
  refine Bound.bind (Bound.demand _ _ (Kept.refl _ _)) ?_
  intro _ _
  exact Bound.ok (show Kept _ _ _ from Kept.setKey (Kept.refl _ _) _ rfl (pageOf_lt _))

theorem within_isk (o : OpsRR) (c : Ctx) (s : State) :
    Within { gr := fun q => q == o.r1 } s (opIsk o c s) := by
  unfold Within
  simp only [bind_assoc, pure_bind, opIsk, keyPage]
  refine Bound.bind (Bound.supervisorOnly _ _) ?_
  intro _ _
  refine Bound.bind (Bound.demand _ _ (Kept.refl _ _)) ?_
  intro _ _
  exact Bound.ok (show Kept _ _ _ from Kept.setGr (Kept.refl _ _) _ _ (beq_self_eq_true _))

theorem within_mvcl (o : OpsRR) (c : Ctx) (s : State) :
    Within
      { gr := fun q => q == o.r1 || q == o.r1 + 1 || q == o.r2 || q == o.r2 + 1,
        start := s.regTarget o.r1,
        len := ((s.getGr (o.r1 + 1)).extractLsb' 0 24).toNat,
        cc := true }
      s (opMvcl o c s) := by
  unfold Within
  simp only [bind_assoc, pure_bind, opMvcl]
  refine Bound.bind (Bound.demand _ _ (Kept.refl _ _)) ?_
  intro _ _
  refine Bound.bind (Bound.demand _ _ (Kept.refl _ _)) ?_
  intro _ _
  split
  · exact Bound.ok (show Kept _ _ _ from Kept.setCc (Kept.refl _ _) _ rfl)
  · refine Bound.bind (Bound.moveLong _ _ _ _ (Kept.refl _ _) (by
          intro k hk
          apply Scope.has_offset (by rfl) <;>
            try simp [packedBytes_length, List.length_map, registerCount, State.addr1,
              State.longOperand] at hk ⊢ <;>
            omega)) ?_
    intro _ _
    exact Bound.ok (show Kept _ _ _ from Kept.setCc (Kept.setGr (Kept.setGr
        (Kept.setGr (Kept.setGr (by assumption) _ _ (by simp)) _ _ (by simp)) _ _ (by simp)) _ _ (by simp)) _
        rfl)

theorem within_clcl (o : OpsRR) (c : Ctx) (s : State) :
    Within
      { gr := fun q => q == o.r1 || q == o.r1 + 1 || q == o.r2 || q == o.r2 + 1,
        cc := true }
      s (opClcl o c s) := by
  unfold Within
  simp only [bind_assoc, pure_bind, opClcl]
  refine Bound.bind (Bound.demand _ _ (Kept.refl _ _)) ?_
  intro _ _
  refine Bound.bind (Bound.demand _ _ (Kept.refl _ _)) ?_
  intro _ _
  refine Bound.bind (Bound.compareLong _ _ _ _ (Kept.refl _ _)) ?_
  rintro ⟨_, _, _⟩ _
  exact Bound.ok (show Kept _ _ _ from Kept.setCc (Kept.setGr (Kept.setGr
      (Kept.setGr (Kept.setGr (Kept.refl _ _) _ _ (by simp)) _ _ (by simp)) _ _ (by simp)) _ _ (by simp)) _ rfl)

theorem within_lpr (o : OpsRR) (c : Ctx) (s : State) :
    Within { gr := fun q => q == o.r1, cc := true } s (opLpr o c s) := by
  unfold Within
  simp only [bind_assoc, pure_bind, opLpr, signedResult]
  exact Bound.fixedOverflowExit _ (Kept.setCc (Kept.setGr (Kept.refl _ _) _ _ (beq_self_eq_true _)) _ rfl)

theorem within_lnr (o : OpsRR) (c : Ctx) (s : State) :
    Within { gr := fun q => q == o.r1, cc := true } s (opLnr o c s) := by
  unfold Within
  simp only [bind_assoc, pure_bind, opLnr]
  exact Bound.ok (show Kept _ _ _ from Kept.setCc (Kept.setGr (Kept.refl _ _) _ _ (beq_self_eq_true _)) _ rfl)

theorem within_ltr (o : OpsRR) (c : Ctx) (s : State) :
    Within { gr := fun q => q == o.r1, cc := true } s (opLtr o c s) := by
  unfold Within
  simp only [bind_assoc, pure_bind, opLtr]
  exact Bound.ok (show Kept _ _ _ from Kept.setCc (Kept.setGr (Kept.refl _ _) _ _ (beq_self_eq_true _)) _ rfl)

theorem within_lcr (o : OpsRR) (c : Ctx) (s : State) :
    Within { gr := fun q => q == o.r1, cc := true } s (opLcr o c s) := by
  unfold Within
  simp only [bind_assoc, pure_bind, opLcr, signedResult]
  exact Bound.fixedOverflowExit _ (Kept.setCc (Kept.setGr (Kept.refl _ _) _ _ (beq_self_eq_true _)) _ rfl)

theorem within_nr (o : OpsRR) (c : Ctx) (s : State) :
    Within { gr := fun q => q == o.r1, cc := true } s (opNr o c s) := by
  unfold Within
  simp only [bind_assoc, pure_bind, opNr, logicalReg]
  exact Bound.ok (show Kept _ _ _ from Kept.setCc (Kept.setGr (Kept.refl _ _) _ _ (beq_self_eq_true _)) _ rfl)

theorem within_clr (o : OpsRR) (c : Ctx) (s : State) : Within { cc := true } s (opClr o c s) := by
  unfold Within
  simp only [bind_assoc, pure_bind, opClr]
  exact Bound.ok (show Kept _ _ _ from Kept.setCc (Kept.refl _ _) _ rfl)

theorem within_or (o : OpsRR) (c : Ctx) (s : State) :
    Within { gr := fun q => q == o.r1, cc := true } s (opOr o c s) := by
  unfold Within
  simp only [bind_assoc, pure_bind, opOr, logicalReg]
  exact Bound.ok (show Kept _ _ _ from Kept.setCc (Kept.setGr (Kept.refl _ _) _ _ (beq_self_eq_true _)) _ rfl)

theorem within_xr (o : OpsRR) (c : Ctx) (s : State) :
    Within { gr := fun q => q == o.r1, cc := true } s (opXr o c s) := by
  unfold Within
  simp only [bind_assoc, pure_bind, opXr, logicalReg]
  exact Bound.ok (show Kept _ _ _ from Kept.setCc (Kept.setGr (Kept.refl _ _) _ _ (beq_self_eq_true _)) _ rfl)

theorem within_lr (o : OpsRR) (c : Ctx) (s : State) :
    Within { gr := fun q => q == o.r1 } s (opLr o c s) := by
  unfold Within
  simp only [bind_assoc, pure_bind, opLr]
  exact Bound.ok (show Kept _ _ _ from Kept.setGr (Kept.refl _ _) _ _ (beq_self_eq_true _))

theorem within_cr (o : OpsRR) (c : Ctx) (s : State) : Within { cc := true } s (opCr o c s) := by
  unfold Within
  simp only [bind_assoc, pure_bind, opCr]
  exact Bound.ok (show Kept _ _ _ from Kept.setCc (Kept.refl _ _) _ rfl)

theorem within_ar (o : OpsRR) (c : Ctx) (s : State) :
    Within { gr := fun q => q == o.r1, cc := true } s (opAr o c s) := by
  unfold Within
  simp only [bind_assoc, pure_bind, opAr, signedResult]
  exact Bound.fixedOverflowExit _ (Kept.setCc (Kept.setGr (Kept.refl _ _) _ _ (beq_self_eq_true _)) _ rfl)

theorem within_sr (o : OpsRR) (c : Ctx) (s : State) :
    Within { gr := fun q => q == o.r1, cc := true } s (opSr o c s) := by
  unfold Within
  simp only [bind_assoc, pure_bind, opSr, signedResult]
  exact Bound.fixedOverflowExit _ (Kept.setCc (Kept.setGr (Kept.refl _ _) _ _ (beq_self_eq_true _)) _ rfl)

theorem within_mr (o : OpsRR) (c : Ctx) (s : State) :
    Within { gr := fun q => q == o.r1 || q == o.r1 + 1 } s (opMr o c s) := by
  unfold Within
  simp only [bind_assoc, pure_bind, opMr, multiplyPair]
  refine Bound.bind (Bound.demand _ _ (Kept.refl _ _)) ?_
  intro _ _
  exact Bound.ok (show Kept _ _ _ from Kept.setGr (Kept.setGr (Kept.refl _ _) _ _ (by simp)) _ _ (by simp))

theorem within_dr (o : OpsRR) (c : Ctx) (s : State) :
    Within { gr := fun q => q == o.r1 || q == o.r1 + 1 } s (opDr o c s) := by
  unfold Within
  simp only [bind_assoc, pure_bind, opDr, dividePair]
  refine Bound.bind (Bound.demand _ _ (Kept.refl _ _)) ?_
  intro _ _
  refine Bound.bind (Bound.demand _ _ (Kept.refl _ _)) ?_
  intro _ _
  exact Bound.ok (show Kept _ _ _ from Kept.setGr (Kept.setGr (Kept.refl _ _) _ _ (by simp)) _ _ (by simp))

theorem within_alr (o : OpsRR) (c : Ctx) (s : State) :
    Within { gr := fun q => q == o.r1, cc := true } s (opAlr o c s) := by
  unfold Within
  simp only [bind_assoc, pure_bind, opAlr, logicalSum]
  exact Bound.ok (show Kept _ _ _ from Kept.setCc (Kept.setGr (Kept.refl _ _) _ _ (beq_self_eq_true _)) _ rfl)

theorem within_slr (o : OpsRR) (c : Ctx) (s : State) :
    Within { gr := fun q => q == o.r1, cc := true } s (opSlr o c s) := by
  unfold Within
  simp only [bind_assoc, pure_bind, opSlr, logicalSum]
  exact Bound.ok (show Kept _ _ _ from Kept.setCc (Kept.setGr (Kept.refl _ _) _ _ (beq_self_eq_true _)) _ rfl)

theorem within_lpdr (o : OpsRR) (c : Ctx) (s : State) :
    Within { fr := fun k => frPlace o.r1 == some k, cc := true } s (opLpdr o c s) := by
  exact Bound.floatRR o _ (Kept.refl _ _) fun a b h _ => ((Kept.refl _ _).setFr _ _
      (frPlace_writes rfl h)).setCc _ rfl

theorem within_lndr (o : OpsRR) (c : Ctx) (s : State) :
    Within { fr := fun k => frPlace o.r1 == some k, cc := true } s (opLndr o c s) := by
  exact Bound.floatRR o _ (Kept.refl _ _) fun a b h _ => ((Kept.refl _ _).setFr _ _
      (frPlace_writes rfl h)).setCc _ rfl

theorem within_ltdr (o : OpsRR) (c : Ctx) (s : State) :
    Within { fr := fun k => frPlace o.r1 == some k, cc := true } s (opLtdr o c s) := by
  exact Bound.floatRR o _ (Kept.refl _ _) fun a b h _ => ((Kept.refl _ _).setFr _ _
      (frPlace_writes rfl h)).setCc _ rfl

theorem within_lcdr (o : OpsRR) (c : Ctx) (s : State) :
    Within { fr := fun k => frPlace o.r1 == some k, cc := true } s (opLcdr o c s) := by
  exact Bound.floatRR o _ (Kept.refl _ _) fun a b h _ => ((Kept.refl _ _).setFr _ _
      (frPlace_writes rfl h)).setCc _ rfl

theorem within_hdr (o : OpsRR) (c : Ctx) (s : State) :
    Within { fr := fun k => frPlace o.r1 == some k } s (opHdr o c s) := by
  exact Bound.arithRR _ o _ (Kept.refl _ _) fun a x y h => Bound.hfpHalve _ _ _ (Kept.refl _ _)
      (frPlace_writes rfl h)

theorem within_ldr (o : OpsRR) (c : Ctx) (s : State) :
    Within { fr := fun k => frPlace o.r1 == some k } s (opLdr o c s) := by
  exact Bound.floatRR o _ (Kept.refl _ _) fun a b h _ => (Kept.refl _ _).setFr _ _ (frPlace_writes rfl h)

theorem within_cdr (o : OpsRR) (c : Ctx) (s : State) : Within { cc := true } s (opCdr o c s) := by
  exact Bound.arithRR _ o _ (Kept.refl _ _) fun a x y h => (Kept.refl _ _).setCc _ rfl

theorem within_adr (o : OpsRR) (c : Ctx) (s : State) :
    Within { fr := fun k => frPlace o.r1 == some k, cc := true } s (opAdr o c s) := by
  exact Bound.arithRR _ o _ (Kept.refl _ _) fun a x y h => Bound.hfpAddFinish _ _ _ _ (Kept.refl _ _)
      (frPlace_writes rfl h) rfl

theorem within_sdr (o : OpsRR) (c : Ctx) (s : State) :
    Within { fr := fun k => frPlace o.r1 == some k, cc := true } s (opSdr o c s) := by
  exact Bound.arithRR _ o _ (Kept.refl _ _) fun a x y h => Bound.hfpAddFinish _ _ _ _ (Kept.refl _ _)
      (frPlace_writes rfl h) rfl

theorem within_mdr (o : OpsRR) (c : Ctx) (s : State) :
    Within { fr := fun k => frPlace o.r1 == some k } s (opMdr o c s) := by
  exact Bound.arithRR _ o _ (Kept.refl _ _) fun a x y h => Bound.hfpMul _ _ _ _ _ (Kept.refl _ _)
      (frPlace_writes rfl h)

theorem within_ddr (o : OpsRR) (c : Ctx) (s : State) :
    Within { fr := fun k => frPlace o.r1 == some k } s (opDdr o c s) := by
  exact Bound.arithRR _ o _ (Kept.refl _ _) fun a x y h => Bound.hfpDiv _ _ _ _ (Kept.refl _ _)
      (frPlace_writes rfl h)

theorem within_awr (o : OpsRR) (c : Ctx) (s : State) :
    Within { fr := fun k => frPlace o.r1 == some k, cc := true } s (opAwr o c s) := by
  exact Bound.arithRR _ o _ (Kept.refl _ _) fun a x y h => Bound.hfpAddFinish _ _ _ _ (Kept.refl _ _)
      (frPlace_writes rfl h) rfl

theorem within_swr (o : OpsRR) (c : Ctx) (s : State) :
    Within { fr := fun k => frPlace o.r1 == some k, cc := true } s (opSwr o c s) := by
  exact Bound.arithRR _ o _ (Kept.refl _ _) fun a x y h => Bound.hfpAddFinish _ _ _ _ (Kept.refl _ _)
      (frPlace_writes rfl h) rfl

theorem within_lper (o : OpsRR) (c : Ctx) (s : State) :
    Within { fr := fun k => frPlace o.r1 == some k, cc := true } s (opLper o c s) := by
  exact Bound.floatRR o _ (Kept.refl _ _) fun a b h _ => ((Kept.refl _ _).setFrh _ _
      (frPlace_writes rfl h)).setCc _ rfl

theorem within_lner (o : OpsRR) (c : Ctx) (s : State) :
    Within { fr := fun k => frPlace o.r1 == some k, cc := true } s (opLner o c s) := by
  exact Bound.floatRR o _ (Kept.refl _ _) fun a b h _ => ((Kept.refl _ _).setFrh _ _
      (frPlace_writes rfl h)).setCc _ rfl

theorem within_lter (o : OpsRR) (c : Ctx) (s : State) :
    Within { fr := fun k => frPlace o.r1 == some k, cc := true } s (opLter o c s) := by
  exact Bound.floatRR o _ (Kept.refl _ _) fun a b h _ => ((Kept.refl _ _).setFrh _ _
      (frPlace_writes rfl h)).setCc _ rfl

theorem within_lcer (o : OpsRR) (c : Ctx) (s : State) :
    Within { fr := fun k => frPlace o.r1 == some k, cc := true } s (opLcer o c s) := by
  exact Bound.floatRR o _ (Kept.refl _ _) fun a b h _ => ((Kept.refl _ _).setFrh _ _
      (frPlace_writes rfl h)).setCc _ rfl

theorem within_her (o : OpsRR) (c : Ctx) (s : State) :
    Within { fr := fun k => frPlace o.r1 == some k } s (opHer o c s) := by
  exact Bound.arithRR _ o _ (Kept.refl _ _) fun a x y h => Bound.hfpHalve _ _ _ (Kept.refl _ _)
      (frPlace_writes rfl h)

theorem within_ler (o : OpsRR) (c : Ctx) (s : State) :
    Within { fr := fun k => frPlace o.r1 == some k } s (opLer o c s) := by
  exact Bound.floatRR o _ (Kept.refl _ _) fun a b h _ => (Kept.refl _ _).setFrh _ _ (frPlace_writes rfl h)

theorem within_cer (o : OpsRR) (c : Ctx) (s : State) : Within { cc := true } s (opCer o c s) := by
  exact Bound.arithRR _ o _ (Kept.refl _ _) fun a x y h => (Kept.refl _ _).setCc _ rfl

theorem within_aer (o : OpsRR) (c : Ctx) (s : State) :
    Within { fr := fun k => frPlace o.r1 == some k, cc := true } s (opAer o c s) := by
  exact Bound.arithRR _ o _ (Kept.refl _ _) fun a x y h => Bound.hfpAddFinish _ _ _ _ (Kept.refl _ _)
      (frPlace_writes rfl h) rfl

theorem within_ser (o : OpsRR) (c : Ctx) (s : State) :
    Within { fr := fun k => frPlace o.r1 == some k, cc := true } s (opSer o c s) := by
  exact Bound.arithRR _ o _ (Kept.refl _ _) fun a x y h => Bound.hfpAddFinish _ _ _ _ (Kept.refl _ _)
      (frPlace_writes rfl h) rfl

theorem within_mer (o : OpsRR) (c : Ctx) (s : State) :
    Within { fr := fun k => frPlace o.r1 == some k } s (opMer o c s) := by
  exact Bound.arithRR _ o _ (Kept.refl _ _) fun a x y h => Bound.hfpMul _ _ _ _ _ (Kept.refl _ _)
      (frPlace_writes rfl h)

theorem within_der (o : OpsRR) (c : Ctx) (s : State) :
    Within { fr := fun k => frPlace o.r1 == some k } s (opDer o c s) := by
  exact Bound.arithRR _ o _ (Kept.refl _ _) fun a x y h => Bound.hfpDiv _ _ _ _ (Kept.refl _ _)
      (frPlace_writes rfl h)

theorem within_aur (o : OpsRR) (c : Ctx) (s : State) :
    Within { fr := fun k => frPlace o.r1 == some k, cc := true } s (opAur o c s) := by
  exact Bound.arithRR _ o _ (Kept.refl _ _) fun a x y h => Bound.hfpAddFinish _ _ _ _ (Kept.refl _ _)
      (frPlace_writes rfl h) rfl

theorem within_sur (o : OpsRR) (c : Ctx) (s : State) :
    Within { fr := fun k => frPlace o.r1 == some k, cc := true } s (opSur o c s) := by
  exact Bound.arithRR _ o _ (Kept.refl _ _) fun a x y h => Bound.hfpAddFinish _ _ _ _ (Kept.refl _ _)
      (frPlace_writes rfl h) rfl

theorem within_sth (o : OpsRX) (c : Ctx) (s : State) :
    Within { start := s.eaRX o, len := 2 } s (opSth o c s) := by
  unfold Within
  simp only [bind_assoc, pure_bind, opSth]
  refine Bound.bind (Bound.store _ _ (Kept.refl _ _)) ?_
  rintro _ rfl
  exact Bound.ok (show Kept _ _ _ from Kept.poke (Kept.refl _ _) _ (by
          intro k hk
          apply Scope.has_offset (by rfl) <;>
            try simp [packedBytes_length, List.length_map, registerCount, State.addr1,
              State.longOperand] at hk ⊢ <;>
            omega))

theorem within_la (o : OpsRX) (c : Ctx) (s : State) :
    Within { gr := fun q => q == o.r1 } s (opLa o c s) := by
  unfold Within
  simp only [bind_assoc, pure_bind, opLa]
  exact Bound.ok (show Kept _ _ _ from Kept.setGr (Kept.refl _ _) _ _ (beq_self_eq_true _))

theorem within_stc (o : OpsRX) (c : Ctx) (s : State) :
    Within { start := s.eaRX o, len := 1 } s (opStc o c s) := by
  unfold Within
  simp only [bind_assoc, pure_bind, opStc]
  refine Bound.bind (Bound.store _ _ (Kept.refl _ _)) ?_
  rintro _ rfl
  exact Bound.ok (show Kept _ _ _ from Kept.poke (Kept.refl _ _) _ (by
          intro k hk
          apply Scope.has_offset (by rfl) <;>
            try simp [packedBytes_length, List.length_map, registerCount, State.addr1,
              State.longOperand] at hk ⊢ <;>
            omega))

theorem within_ic (o : OpsRX) (c : Ctx) (s : State) :
    Within { gr := fun q => q == o.r1 } s (opIc o c s) := by
  unfold Within
  simp only [bind_assoc, pure_bind, opIc]
  refine Bound.bind (Bound.load _ _ (Kept.refl _ _)) ?_
  rintro _ ⟨-, rfl⟩
  exact Bound.ok (show Kept _ _ _ from Kept.setGr (Kept.refl _ _) _ _ (beq_self_eq_true _))

theorem within_bal (o : OpsRX) (c : Ctx) (s : State) :
    Within { gr := fun q => q == o.r1 } s (opBal o c s) := by
  unfold Within
  simp only [bind_assoc, pure_bind, opBal]
  exact Bound.ok (show Kept _ _ _ from Kept.setGr (Kept.refl _ _) _ _ (beq_self_eq_true _))

theorem within_bct (o : OpsRX) (c : Ctx) (s : State) :
    Within { gr := fun q => q == o.r1 } s (opBct o c s) := by
  unfold Within
  simp only [bind_assoc, pure_bind, opBct, branchIf]
  split
  · exact Bound.ok (show Kept _ _ _ from Kept.setGr (Kept.refl _ _) _ _ (beq_self_eq_true _))
  · exact Bound.ok (show Kept _ _ _ from Kept.setGr (Kept.refl _ _) _ _ (beq_self_eq_true _))

theorem within_bc (o : OpsRX) (c : Ctx) (s : State) : Within {} s (opBc o c s) := by
  unfold Within
  simp only [bind_assoc, pure_bind, opBc, branchIf]
  split
  · exact Bound.ok (show Kept _ _ _ from Kept.refl _ _)
  · exact Bound.ok (show Kept _ _ _ from Kept.refl _ _)

theorem within_lh (o : OpsRX) (c : Ctx) (s : State) :
    Within { gr := fun q => q == o.r1 } s (opLh o c s) := by
  unfold Within
  simp only [bind_assoc, pure_bind, opLh, State.halfRX]
  refine Bound.bind (Bound.load _ _ (Kept.refl _ _)) ?_
  rintro _ ⟨-, rfl⟩
  exact Bound.ok (show Kept _ _ _ from Kept.setGr (Kept.refl _ _) _ _ (beq_self_eq_true _))

theorem within_ch (o : OpsRX) (c : Ctx) (s : State) : Within { cc := true } s (opCh o c s) := by
  unfold Within
  simp only [bind_assoc, pure_bind, opCh, State.halfRX]
  refine Bound.bind (Bound.load _ _ (Kept.refl _ _)) ?_
  rintro _ ⟨-, rfl⟩
  exact Bound.ok (show Kept _ _ _ from Kept.setCc (Kept.refl _ _) _ rfl)

theorem within_ah (o : OpsRX) (c : Ctx) (s : State) :
    Within { gr := fun q => q == o.r1, cc := true } s (opAh o c s) := by
  unfold Within
  simp only [bind_assoc, pure_bind, opAh, signedResult, State.halfRX]
  refine Bound.bind (Bound.load _ _ (Kept.refl _ _)) ?_
  rintro _ ⟨-, rfl⟩
  exact Bound.fixedOverflowExit _ (Kept.setCc (Kept.setGr (Kept.refl _ _) _ _ (beq_self_eq_true _)) _ rfl)

theorem within_sh (o : OpsRX) (c : Ctx) (s : State) :
    Within { gr := fun q => q == o.r1, cc := true } s (opSh o c s) := by
  unfold Within
  simp only [bind_assoc, pure_bind, opSh, signedResult, State.halfRX]
  refine Bound.bind (Bound.load _ _ (Kept.refl _ _)) ?_
  rintro _ ⟨-, rfl⟩
  exact Bound.fixedOverflowExit _ (Kept.setCc (Kept.setGr (Kept.refl _ _) _ _ (beq_self_eq_true _)) _ rfl)

theorem within_mh (o : OpsRX) (c : Ctx) (s : State) :
    Within { gr := fun q => q == o.r1 } s (opMh o c s) := by
  unfold Within
  simp only [bind_assoc, pure_bind, opMh, State.halfRX]
  refine Bound.bind (Bound.load _ _ (Kept.refl _ _)) ?_
  rintro _ ⟨-, rfl⟩
  exact Bound.ok (show Kept _ _ _ from Kept.setGr (Kept.refl _ _) _ _ (beq_self_eq_true _))

theorem within_cvd (o : OpsRX) (c : Ctx) (s : State) :
    Within { start := s.eaRX o, len := 8 } s (opCvd o c s) := by
  unfold Within
  simp only [bind_assoc, pure_bind, opCvd]
  refine Bound.bind (Bound.storeBytes _ _ (Kept.refl _ _)) ?_
  rintro _ rfl
  exact Bound.ok (show Kept _ _ _ from Kept.setBytes (Kept.refl _ _) _ (by
          intro k hk
          apply Scope.has_offset (by rfl) <;>
            try simp [packedBytes_length, List.length_map, registerCount, State.addr1,
              State.longOperand] at hk ⊢ <;>
            omega))

theorem within_cvb (o : OpsRX) (c : Ctx) (s : State) :
    Within { gr := fun q => q == o.r1 } s (opCvb o c s) := by
  unfold Within
  simp only [bind_assoc, pure_bind, opCvb]
  refine Bound.bind (Bound.loadBytes _ _ (Kept.refl _ _)) ?_
  rintro _ rfl
  refine Bound.bind (Bound.demandPacked _ (Kept.refl _ _)) ?_
  intro _ _
  refine Bound.bind (Bound.demand _ _ (Kept.setGr (Kept.refl _ _) _ _ (beq_self_eq_true _))) ?_
  intro _ _
  exact Bound.ok (show Kept _ _ _ from Kept.setGr (Kept.refl _ _) _ _ (beq_self_eq_true _))

theorem within_st (o : OpsRX) (c : Ctx) (s : State) :
    Within { start := s.eaRX o, len := 4 } s (opSt o c s) := by
  unfold Within
  simp only [bind_assoc, pure_bind, opSt]
  refine Bound.bind (Bound.store _ _ (Kept.refl _ _)) ?_
  rintro _ rfl
  exact Bound.ok (show Kept _ _ _ from Kept.poke (Kept.refl _ _) _ (by
          intro k hk
          apply Scope.has_offset (by rfl) <;>
            try simp [packedBytes_length, List.length_map, registerCount, State.addr1,
              State.longOperand] at hk ⊢ <;>
            omega))

theorem within_n (o : OpsRX) (c : Ctx) (s : State) :
    Within { gr := fun q => q == o.r1, cc := true } s (opN o c s) := by
  unfold Within
  simp only [bind_assoc, pure_bind, opN, logicalReg, State.wordRX]
  refine Bound.bind (Bound.load _ _ (Kept.refl _ _)) ?_
  rintro _ ⟨-, rfl⟩
  exact Bound.ok (show Kept _ _ _ from Kept.setCc (Kept.setGr (Kept.refl _ _) _ _ (beq_self_eq_true _)) _ rfl)

theorem within_cl (o : OpsRX) (c : Ctx) (s : State) : Within { cc := true } s (opCl o c s) := by
  unfold Within
  simp only [bind_assoc, pure_bind, opCl, State.wordRX]
  refine Bound.bind (Bound.load _ _ (Kept.refl _ _)) ?_
  rintro _ ⟨-, rfl⟩
  exact Bound.ok (show Kept _ _ _ from Kept.setCc (Kept.refl _ _) _ rfl)

theorem within_o (o : OpsRX) (c : Ctx) (s : State) :
    Within { gr := fun q => q == o.r1, cc := true } s (opO o c s) := by
  unfold Within
  simp only [bind_assoc, pure_bind, opO, logicalReg, State.wordRX]
  refine Bound.bind (Bound.load _ _ (Kept.refl _ _)) ?_
  rintro _ ⟨-, rfl⟩
  exact Bound.ok (show Kept _ _ _ from Kept.setCc (Kept.setGr (Kept.refl _ _) _ _ (beq_self_eq_true _)) _ rfl)

theorem within_x (o : OpsRX) (c : Ctx) (s : State) :
    Within { gr := fun q => q == o.r1, cc := true } s (opX o c s) := by
  unfold Within
  simp only [bind_assoc, pure_bind, opX, logicalReg, State.wordRX]
  refine Bound.bind (Bound.load _ _ (Kept.refl _ _)) ?_
  rintro _ ⟨-, rfl⟩
  exact Bound.ok (show Kept _ _ _ from Kept.setCc (Kept.setGr (Kept.refl _ _) _ _ (beq_self_eq_true _)) _ rfl)

theorem within_l (o : OpsRX) (c : Ctx) (s : State) : Within { gr := fun q => q == o.r1 } s (opL o c s) := by
  unfold Within
  simp only [bind_assoc, pure_bind, opL, State.wordRX]
  refine Bound.bind (Bound.load _ _ (Kept.refl _ _)) ?_
  rintro _ ⟨-, rfl⟩
  exact Bound.ok (show Kept _ _ _ from Kept.setGr (Kept.refl _ _) _ _ (beq_self_eq_true _))

theorem within_c (o : OpsRX) (c : Ctx) (s : State) : Within { cc := true } s (opC o c s) := by
  unfold Within
  simp only [bind_assoc, pure_bind, opC, State.wordRX]
  refine Bound.bind (Bound.load _ _ (Kept.refl _ _)) ?_
  rintro _ ⟨-, rfl⟩
  exact Bound.ok (show Kept _ _ _ from Kept.setCc (Kept.refl _ _) _ rfl)

theorem within_a (o : OpsRX) (c : Ctx) (s : State) :
    Within { gr := fun q => q == o.r1, cc := true } s (opA o c s) := by
  unfold Within
  simp only [bind_assoc, pure_bind, opA, signedResult, State.wordRX]
  refine Bound.bind (Bound.load _ _ (Kept.refl _ _)) ?_
  rintro _ ⟨-, rfl⟩
  exact Bound.fixedOverflowExit _ (Kept.setCc (Kept.setGr (Kept.refl _ _) _ _ (beq_self_eq_true _)) _ rfl)

theorem within_s (o : OpsRX) (c : Ctx) (s : State) :
    Within { gr := fun q => q == o.r1, cc := true } s (opS o c s) := by
  unfold Within
  simp only [bind_assoc, pure_bind, opS, signedResult, State.wordRX]
  refine Bound.bind (Bound.load _ _ (Kept.refl _ _)) ?_
  rintro _ ⟨-, rfl⟩
  exact Bound.fixedOverflowExit _ (Kept.setCc (Kept.setGr (Kept.refl _ _) _ _ (beq_self_eq_true _)) _ rfl)

theorem within_m (o : OpsRX) (c : Ctx) (s : State) :
    Within { gr := fun q => q == o.r1 || q == o.r1 + 1 } s (opM o c s) := by
  unfold Within
  simp only [bind_assoc, pure_bind, opM, multiplyPair, State.wordRX]
  refine Bound.bind (Bound.demand _ _ (Kept.refl _ _)) ?_
  intro _ _
  refine Bound.bind (Bound.load _ _ (Kept.refl _ _)) ?_
  rintro _ ⟨-, rfl⟩
  exact Bound.ok (show Kept _ _ _ from Kept.setGr (Kept.setGr (Kept.refl _ _) _ _ (by simp)) _ _ (by simp))

theorem within_d (o : OpsRX) (c : Ctx) (s : State) :
    Within { gr := fun q => q == o.r1 || q == o.r1 + 1 } s (opD o c s) := by
  unfold Within
  simp only [bind_assoc, pure_bind, opD, dividePair, State.wordRX]
  refine Bound.bind (Bound.demand _ _ (Kept.refl _ _)) ?_
  intro _ _
  refine Bound.bind (Bound.load _ _ (Kept.refl _ _)) ?_
  rintro _ ⟨-, rfl⟩
  refine Bound.bind (Bound.demand _ _ (Kept.refl _ _)) ?_
  intro _ _
  exact Bound.ok (show Kept _ _ _ from Kept.setGr (Kept.setGr (Kept.refl _ _) _ _ (by simp)) _ _ (by simp))

theorem within_al (o : OpsRX) (c : Ctx) (s : State) :
    Within { gr := fun q => q == o.r1, cc := true } s (opAl o c s) := by
  unfold Within
  simp only [bind_assoc, pure_bind, opAl, logicalSum, State.wordRX]
  refine Bound.bind (Bound.load _ _ (Kept.refl _ _)) ?_
  rintro _ ⟨-, rfl⟩
  exact Bound.ok (show Kept _ _ _ from Kept.setCc (Kept.setGr (Kept.refl _ _) _ _ (beq_self_eq_true _)) _ rfl)

theorem within_sl (o : OpsRX) (c : Ctx) (s : State) :
    Within { gr := fun q => q == o.r1, cc := true } s (opSl o c s) := by
  unfold Within
  simp only [bind_assoc, pure_bind, opSl, logicalSum, State.wordRX]
  refine Bound.bind (Bound.load _ _ (Kept.refl _ _)) ?_
  rintro _ ⟨-, rfl⟩
  exact Bound.ok (show Kept _ _ _ from Kept.setCc (Kept.setGr (Kept.refl _ _) _ _ (beq_self_eq_true _)) _ rfl)

theorem within_std (o : OpsRX) (c : Ctx) (s : State) :
    Within { start := s.eaRX o, len := 8 } s (opStd o c s) := by
  unfold Within
  simp only [bind_assoc, pure_bind, opStd]
  refine Bound.bind (Bound.floatReg _ (Kept.refl _ _)) ?_
  intro k hfr
  refine Bound.bind (Bound.store _ _ (Kept.refl _ _)) ?_
  rintro _ rfl
  exact Bound.ok (show Kept _ _ _ from Kept.poke (Kept.refl _ _) _ (by
          intro k hk
          apply Scope.has_offset (by rfl) <;>
            try simp [packedBytes_length, List.length_map, registerCount, State.addr1,
              State.longOperand] at hk ⊢ <;>
            omega))

theorem within_ld (o : OpsRX) (c : Ctx) (s : State) :
    Within { fr := fun k => frPlace o.r1 == some k } s (opLd o c s) := by
  unfold Within
  simp only [bind_assoc, pure_bind, opLd, State.dwordRX]
  refine Bound.bind (Bound.floatReg _ (Kept.refl _ _)) ?_
  intro k hfr
  refine Bound.bind (Bound.load _ _ (Kept.refl _ _)) ?_
  rintro _ ⟨-, rfl⟩
  exact Bound.ok (show Kept _ _ _ from Kept.setFr (Kept.refl _ _) _ _ (by simp [hfr]))

theorem within_cd (o : OpsRX) (c : Ctx) (s : State) : Within { cc := true } s (opCd o c s) := by
  exact Bound.arithRX _ o _ (Kept.refl _ _) fun a x y h => (Kept.refl _ _).setCc _ rfl

theorem within_ad (o : OpsRX) (c : Ctx) (s : State) :
    Within { fr := fun k => frPlace o.r1 == some k, cc := true } s (opAd o c s) := by
  exact Bound.arithRX _ o _ (Kept.refl _ _) fun a x y h => Bound.hfpAddFinish _ _ _ _ (Kept.refl _ _)
      (frPlace_writes rfl h) rfl

theorem within_sd (o : OpsRX) (c : Ctx) (s : State) :
    Within { fr := fun k => frPlace o.r1 == some k, cc := true } s (opSd o c s) := by
  exact Bound.arithRX _ o _ (Kept.refl _ _) fun a x y h => Bound.hfpAddFinish _ _ _ _ (Kept.refl _ _)
      (frPlace_writes rfl h) rfl

theorem within_md (o : OpsRX) (c : Ctx) (s : State) :
    Within { fr := fun k => frPlace o.r1 == some k } s (opMd o c s) := by
  exact Bound.arithRX _ o _ (Kept.refl _ _) fun a x y h => Bound.hfpMul _ _ _ _ _ (Kept.refl _ _)
      (frPlace_writes rfl h)

theorem within_dd (o : OpsRX) (c : Ctx) (s : State) :
    Within { fr := fun k => frPlace o.r1 == some k } s (opDd o c s) := by
  exact Bound.arithRX _ o _ (Kept.refl _ _) fun a x y h => Bound.hfpDiv _ _ _ _ (Kept.refl _ _)
      (frPlace_writes rfl h)

theorem within_aw (o : OpsRX) (c : Ctx) (s : State) :
    Within { fr := fun k => frPlace o.r1 == some k, cc := true } s (opAw o c s) := by
  exact Bound.arithRX _ o _ (Kept.refl _ _) fun a x y h => Bound.hfpAddFinish _ _ _ _ (Kept.refl _ _)
      (frPlace_writes rfl h) rfl

theorem within_sw (o : OpsRX) (c : Ctx) (s : State) :
    Within { fr := fun k => frPlace o.r1 == some k, cc := true } s (opSw o c s) := by
  exact Bound.arithRX _ o _ (Kept.refl _ _) fun a x y h => Bound.hfpAddFinish _ _ _ _ (Kept.refl _ _)
      (frPlace_writes rfl h) rfl

theorem within_ste (o : OpsRX) (c : Ctx) (s : State) :
    Within { start := s.eaRX o, len := 4 } s (opSte o c s) := by
  unfold Within
  simp only [bind_assoc, pure_bind, opSte]
  refine Bound.bind (Bound.floatReg _ (Kept.refl _ _)) ?_
  intro k hfr
  refine Bound.bind (Bound.store _ _ (Kept.refl _ _)) ?_
  rintro _ rfl
  exact Bound.ok (show Kept _ _ _ from Kept.poke (Kept.refl _ _) _ (by
          intro k hk
          apply Scope.has_offset (by rfl) <;>
            try simp [packedBytes_length, List.length_map, registerCount, State.addr1,
              State.longOperand] at hk ⊢ <;>
            omega))

theorem within_le (o : OpsRX) (c : Ctx) (s : State) :
    Within { fr := fun k => frPlace o.r1 == some k } s (opLe o c s) := by
  unfold Within
  simp only [bind_assoc, pure_bind, opLe, State.wordRX]
  refine Bound.bind (Bound.floatReg _ (Kept.refl _ _)) ?_
  intro k hfr
  refine Bound.bind (Bound.load _ _ (Kept.refl _ _)) ?_
  rintro _ ⟨-, rfl⟩
  exact Bound.ok (show Kept _ _ _ from Kept.setFr (Kept.refl _ _) _ _ (by simp [hfr]))

theorem within_ce (o : OpsRX) (c : Ctx) (s : State) : Within { cc := true } s (opCe o c s) := by
  exact Bound.arithRX _ o _ (Kept.refl _ _) fun a x y h => (Kept.refl _ _).setCc _ rfl

theorem within_ae (o : OpsRX) (c : Ctx) (s : State) :
    Within { fr := fun k => frPlace o.r1 == some k, cc := true } s (opAe o c s) := by
  exact Bound.arithRX _ o _ (Kept.refl _ _) fun a x y h => Bound.hfpAddFinish _ _ _ _ (Kept.refl _ _)
      (frPlace_writes rfl h) rfl

theorem within_se (o : OpsRX) (c : Ctx) (s : State) :
    Within { fr := fun k => frPlace o.r1 == some k, cc := true } s (opSe o c s) := by
  exact Bound.arithRX _ o _ (Kept.refl _ _) fun a x y h => Bound.hfpAddFinish _ _ _ _ (Kept.refl _ _)
      (frPlace_writes rfl h) rfl

theorem within_me (o : OpsRX) (c : Ctx) (s : State) :
    Within { fr := fun k => frPlace o.r1 == some k } s (opMe o c s) := by
  exact Bound.arithRX _ o _ (Kept.refl _ _) fun a x y h => Bound.hfpMul _ _ _ _ _ (Kept.refl _ _)
      (frPlace_writes rfl h)

theorem within_de (o : OpsRX) (c : Ctx) (s : State) :
    Within { fr := fun k => frPlace o.r1 == some k } s (opDe o c s) := by
  exact Bound.arithRX _ o _ (Kept.refl _ _) fun a x y h => Bound.hfpDiv _ _ _ _ (Kept.refl _ _)
      (frPlace_writes rfl h)

theorem within_au (o : OpsRX) (c : Ctx) (s : State) :
    Within { fr := fun k => frPlace o.r1 == some k, cc := true } s (opAu o c s) := by
  exact Bound.arithRX _ o _ (Kept.refl _ _) fun a x y h => Bound.hfpAddFinish _ _ _ _ (Kept.refl _ _)
      (frPlace_writes rfl h) rfl

theorem within_su (o : OpsRX) (c : Ctx) (s : State) :
    Within { fr := fun k => frPlace o.r1 == some k, cc := true } s (opSu o c s) := by
  exact Bound.arithRX _ o _ (Kept.refl _ _) fun a x y h => Bound.hfpAddFinish _ _ _ _ (Kept.refl _ _)
      (frPlace_writes rfl h) rfl

theorem within_ssm (o : OpsSI) (c : Ctx) (s : State) : Within { sysMask := true } s (opSsm o c s) := by
  unfold Within
  simp only [bind_assoc, pure_bind, opSsm]
  refine Bound.bind (Bound.supervisorOnly _ _) ?_
  intro _ _
  refine Bound.bind (Bound.load _ _ (Kept.refl _ _)) ?_
  rintro _ ⟨-, rfl⟩
  exact Bound.ok (show Kept _ _ _ from Kept.setSysMask (Kept.refl _ _) _ rfl)

theorem within_diag (o : OpsRS) (c : Ctx) (s : State) : Within {} s (opDiag o c s) := by
  unfold Within
  simp only [bind_assoc, pure_bind, opDiag]
  exact Bound.intercept _

theorem within_wrd (o : OpsSI) (c : Ctx) (s : State) : Within {} s (opWrd o c s) := by
  unfold Within
  simp only [bind_assoc, pure_bind, opWrd]
  exact Bound.intercept _

theorem within_rdd (o : OpsSI) (c : Ctx) (s : State) : Within {} s (opRdd o c s) := by
  unfold Within
  simp only [bind_assoc, pure_bind, opRdd]
  exact Bound.intercept _

theorem within_bxh (o : OpsRS) (c : Ctx) (s : State) :
    Within { gr := fun q => q == o.r1 } s (opBxh o c s) := by
  unfold Within
  simp only [bind_assoc, pure_bind, opBxh, branchIf]
  split
  · exact Bound.ok (show Kept _ _ _ from Kept.setGr (Kept.refl _ _) _ _ (beq_self_eq_true _))
  · exact Bound.ok (show Kept _ _ _ from Kept.setGr (Kept.refl _ _) _ _ (beq_self_eq_true _))

theorem within_bxle (o : OpsRS) (c : Ctx) (s : State) :
    Within { gr := fun q => q == o.r1 } s (opBxle o c s) := by
  unfold Within
  simp only [bind_assoc, pure_bind, opBxle, branchIf]
  split
  · exact Bound.ok (show Kept _ _ _ from Kept.setGr (Kept.refl _ _) _ _ (beq_self_eq_true _))
  · exact Bound.ok (show Kept _ _ _ from Kept.setGr (Kept.refl _ _) _ _ (beq_self_eq_true _))

theorem within_srl (o : OpsRS) (c : Ctx) (s : State) :
    Within { gr := fun q => q == o.r1 } s (opSrl o c s) := by
  unfold Within
  simp only [bind_assoc, pure_bind, opSrl]
  exact Bound.ok (show Kept _ _ _ from Kept.setGr (Kept.refl _ _) _ _ (beq_self_eq_true _))

theorem within_sll (o : OpsRS) (c : Ctx) (s : State) :
    Within { gr := fun q => q == o.r1 } s (opSll o c s) := by
  unfold Within
  simp only [bind_assoc, pure_bind, opSll]
  exact Bound.ok (show Kept _ _ _ from Kept.setGr (Kept.refl _ _) _ _ (beq_self_eq_true _))

theorem within_sra (o : OpsRS) (c : Ctx) (s : State) :
    Within { gr := fun q => q == o.r1, cc := true } s (opSra o c s) := by
  unfold Within
  simp only [bind_assoc, pure_bind, opSra]
  exact Bound.ok (show Kept _ _ _ from Kept.setCc (Kept.setGr (Kept.refl _ _) _ _ (beq_self_eq_true _)) _ rfl)

theorem within_sla (o : OpsRS) (c : Ctx) (s : State) :
    Within { gr := fun q => q == o.r1, cc := true } s (opSla o c s) := by
  unfold Within
  simp only [bind_assoc, pure_bind, opSla]
  exact Bound.fixedOverflowExit _ (Kept.setCc (Kept.setGr (Kept.refl _ _) _ _ (beq_self_eq_true _)) _ rfl)

theorem within_srdl (o : OpsRS) (c : Ctx) (s : State) :
    Within { gr := fun q => q == o.r1 || q == o.r1 + 1 } s (opSrdl o c s) := by
  unfold Within
  simp only [bind_assoc, pure_bind, opSrdl]
  refine Bound.bind (Bound.demand _ _ (Kept.refl _ _)) ?_
  intro _ _
  exact Bound.ok (show Kept _ _ _ from Kept.setGr (Kept.setGr (Kept.refl _ _) _ _ (by simp)) _ _ (by simp))

theorem within_sldl (o : OpsRS) (c : Ctx) (s : State) :
    Within { gr := fun q => q == o.r1 || q == o.r1 + 1 } s (opSldl o c s) := by
  unfold Within
  simp only [bind_assoc, pure_bind, opSldl]
  refine Bound.bind (Bound.demand _ _ (Kept.refl _ _)) ?_
  intro _ _
  exact Bound.ok (show Kept _ _ _ from Kept.setGr (Kept.setGr (Kept.refl _ _) _ _ (by simp)) _ _ (by simp))

theorem within_srda (o : OpsRS) (c : Ctx) (s : State) :
    Within { gr := fun q => q == o.r1 || q == o.r1 + 1, cc := true } s (opSrda o c s) := by
  unfold Within
  simp only [bind_assoc, pure_bind, opSrda]
  refine Bound.bind (Bound.demand _ _ (Kept.refl _ _)) ?_
  intro _ _
  exact Bound.ok (show Kept _ _ _ from Kept.setCc (Kept.setGr (Kept.setGr (Kept.refl _ _) _ _ (by simp)) _ _
      (by simp)) _ rfl)

theorem within_slda (o : OpsRS) (c : Ctx) (s : State) :
    Within { gr := fun q => q == o.r1 || q == o.r1 + 1, cc := true } s (opSlda o c s) := by
  unfold Within
  simp only [bind_assoc, pure_bind, opSlda]
  refine Bound.bind (Bound.demand _ _ (Kept.refl _ _)) ?_
  intro _ _
  exact Bound.fixedOverflowExit _ (Kept.setCc (Kept.setGr (Kept.setGr (Kept.refl _ _) _ _ (by simp)) _ _
      (by simp)) _ rfl)

theorem within_stm (o : OpsRS) (c : Ctx) (s : State) :
    Within { start := s.ea o.b2 o.d2, len := 4 * registerCount o } s (opStm o c s) := by
  unfold Within
  simp only [bind_assoc, pure_bind, opStm]
  refine Bound.bind (Bound.demand _ _ (Kept.refl _ _)) ?_
  intro _ _
  exact Bound.ok (show Kept _ _ _ from Kept.storeRegisters (Kept.refl _ _) _ _ _ (by
          intro k hk
          apply Scope.has_offset (by rfl) <;>
            try simp [packedBytes_length, List.length_map, registerCount, State.addr1,
              State.longOperand] at hk ⊢ <;>
            omega))

theorem within_tm (o : OpsSI) (c : Ctx) (s : State) : Within { cc := true } s (opTm o c s) := by
  unfold Within
  simp only [bind_assoc, pure_bind, opTm]
  refine Bound.bind (Bound.load _ _ (Kept.refl _ _)) ?_
  rintro _ ⟨-, rfl⟩
  exact Bound.ok (show Kept _ _ _ from Kept.setCc (Kept.refl _ _) _ rfl)

theorem within_mvi (o : OpsSI) (c : Ctx) (s : State) :
    Within { start := s.ea o.b1 o.d1, len := 1 } s (opMvi o c s) := by
  unfold Within
  simp only [bind_assoc, pure_bind, opMvi]
  refine Bound.bind (Bound.store _ _ (Kept.refl _ _)) ?_
  rintro _ rfl
  exact Bound.ok (show Kept _ _ _ from Kept.poke (Kept.refl _ _) _ (by
          intro k hk
          apply Scope.has_offset (by rfl) <;>
            try simp [packedBytes_length, List.length_map, registerCount, State.addr1,
              State.longOperand] at hk ⊢ <;>
            omega))

theorem within_ts (o : OpsSI) (c : Ctx) (s : State) :
    Within { start := s.ea o.b1 o.d1, len := 1, cc := true } s (opTs o c s) := by
  unfold Within
  simp only [bind_assoc, pure_bind, opTs]
  refine Bound.bind (Bound.load _ _ (Kept.refl _ _)) ?_
  rintro _ ⟨-, rfl⟩
  refine Bound.bind (Bound.store _ _ (Kept.refl _ _)) ?_
  rintro _ rfl
  exact Bound.ok (show Kept _ _ _ from Kept.setCc (Kept.poke (Kept.refl _ _) _ (by
          intro k hk
          apply Scope.has_offset (by rfl) <;>
            try simp [packedBytes_length, List.length_map, registerCount, State.addr1,
              State.longOperand] at hk ⊢ <;>
            omega)) _ rfl)

theorem within_ni (o : OpsSI) (c : Ctx) (s : State) :
    Within { start := s.ea o.b1 o.d1, len := 1, cc := true } s (opNi o c s) := by
  unfold Within
  simp only [bind_assoc, pure_bind, opNi, logicalImm]
  refine Bound.bind (Bound.load _ _ (Kept.refl _ _)) ?_
  rintro _ ⟨-, rfl⟩
  refine Bound.bind (Bound.store _ _ (Kept.refl _ _)) ?_
  rintro _ rfl
  exact Bound.ok (show Kept _ _ _ from Kept.setCc (Kept.poke (Kept.refl _ _) _ (by
          intro k hk
          apply Scope.has_offset (by rfl) <;>
            try simp [packedBytes_length, List.length_map, registerCount, State.addr1,
              State.longOperand] at hk ⊢ <;>
            omega)) _ rfl)

theorem within_cli (o : OpsSI) (c : Ctx) (s : State) : Within { cc := true } s (opCli o c s) := by
  unfold Within
  simp only [bind_assoc, pure_bind, opCli]
  refine Bound.bind (Bound.load _ _ (Kept.refl _ _)) ?_
  rintro _ ⟨-, rfl⟩
  exact Bound.ok (show Kept _ _ _ from Kept.setCc (Kept.refl _ _) _ rfl)

theorem within_oi (o : OpsSI) (c : Ctx) (s : State) :
    Within { start := s.ea o.b1 o.d1, len := 1, cc := true } s (opOi o c s) := by
  unfold Within
  simp only [bind_assoc, pure_bind, opOi, logicalImm]
  refine Bound.bind (Bound.load _ _ (Kept.refl _ _)) ?_
  rintro _ ⟨-, rfl⟩
  refine Bound.bind (Bound.store _ _ (Kept.refl _ _)) ?_
  rintro _ rfl
  exact Bound.ok (show Kept _ _ _ from Kept.setCc (Kept.poke (Kept.refl _ _) _ (by
          intro k hk
          apply Scope.has_offset (by rfl) <;>
            try simp [packedBytes_length, List.length_map, registerCount, State.addr1,
              State.longOperand] at hk ⊢ <;>
            omega)) _ rfl)

theorem within_xi (o : OpsSI) (c : Ctx) (s : State) :
    Within { start := s.ea o.b1 o.d1, len := 1, cc := true } s (opXi o c s) := by
  unfold Within
  simp only [bind_assoc, pure_bind, opXi, logicalImm]
  refine Bound.bind (Bound.load _ _ (Kept.refl _ _)) ?_
  rintro _ ⟨-, rfl⟩
  refine Bound.bind (Bound.store _ _ (Kept.refl _ _)) ?_
  rintro _ rfl
  exact Bound.ok (show Kept _ _ _ from Kept.setCc (Kept.poke (Kept.refl _ _) _ (by
          intro k hk
          apply Scope.has_offset (by rfl) <;>
            try simp [packedBytes_length, List.length_map, registerCount, State.addr1,
              State.longOperand] at hk ⊢ <;>
            omega)) _ rfl)

theorem within_lm (o : OpsRS) (c : Ctx) (s : State) :
    Within { gr := fun q => decide ((q - o.r1).toNat ≤ (o.r3 - o.r1).toNat) } s (opLm o c s) := by
  refine Bound.bind (Bound.demand _ _ (Kept.refl _ _)) fun _ hl => ?_
  exact (Kept.refl _ _).loadRegisters _ _ _ (loaded_registers _ _)

theorem within_sio (fn : BitVec 7) (o : OpsS) (c : Ctx) (s : State) : Within {} s (opSio fn o c s) := by
  unfold Within
  simp only [bind_assoc, pure_bind, opSio]
  exact Bound.intercept _

theorem within_siof (fn : BitVec 7) (o : OpsS) (c : Ctx) (s : State) : Within {} s (opSiof fn o c s) := by
  unfold Within
  simp only [bind_assoc, pure_bind, opSiof]
  exact Bound.intercept _

theorem within_tio (fn : BitVec 7) (o : OpsS) (c : Ctx) (s : State) : Within {} s (opTio fn o c s) := by
  unfold Within
  simp only [bind_assoc, pure_bind, opTio]
  exact Bound.intercept _

theorem within_clrio (fn : BitVec 7) (o : OpsS) (c : Ctx) (s : State) : Within {} s (opClrio fn o c s) := by
  unfold Within
  simp only [bind_assoc, pure_bind, opClrio]
  exact Bound.intercept _

theorem within_hio (fn : BitVec 7) (o : OpsS) (c : Ctx) (s : State) : Within {} s (opHio fn o c s) := by
  unfold Within
  simp only [bind_assoc, pure_bind, opHio]
  exact Bound.intercept _

theorem within_hdv (fn : BitVec 7) (o : OpsS) (c : Ctx) (s : State) : Within {} s (opHdv fn o c s) := by
  unfold Within
  simp only [bind_assoc, pure_bind, opHdv]
  exact Bound.intercept _

theorem within_tch (fn : Byte) (o : OpsS) (c : Ctx) (s : State) : Within {} s (opTch fn o c s) := by
  unfold Within
  simp only [bind_assoc, pure_bind, opTch]
  exact Bound.intercept _

theorem within_stnsm (o : OpsSI) (c : Ctx) (s : State) :
    Within { start := s.ea o.b1 o.d1, len := 1, sysMask := true } s (opStnsm o c s) := by
  unfold Within
  simp only [bind_assoc, pure_bind, opStnsm]
  refine Bound.bind (Bound.supervisorOnly _ _) ?_
  intro _ _
  refine Bound.bind (Bound.store _ _ (Kept.refl _ _)) ?_
  rintro _ rfl
  exact Bound.ok (show Kept _ _ _ from Kept.setSysMask (Kept.poke (Kept.refl _ _) _ (by
          intro k hk
          apply Scope.has_offset (by rfl) <;>
            try simp [packedBytes_length, List.length_map, registerCount, State.addr1,
              State.longOperand] at hk ⊢ <;>
            omega)) _ rfl)

theorem within_stosm (o : OpsSI) (c : Ctx) (s : State) :
    Within { start := s.ea o.b1 o.d1, len := 1, sysMask := true } s (opStosm o c s) := by
  unfold Within
  simp only [bind_assoc, pure_bind, opStosm]
  refine Bound.bind (Bound.supervisorOnly _ _) ?_
  intro _ _
  refine Bound.bind (Bound.store _ _ (Kept.refl _ _)) ?_
  rintro _ rfl
  exact Bound.ok (show Kept _ _ _ from Kept.setSysMask (Kept.poke (Kept.refl _ _) _ (by
          intro k hk
          apply Scope.has_offset (by rfl) <;>
            try simp [packedBytes_length, List.length_map, registerCount, State.addr1,
              State.longOperand] at hk ⊢ <;>
            omega)) _ rfl)

theorem within_sigp (o : OpsRS) (c : Ctx) (s : State) : Within {} s (opSigp o c s) := by
  unfold Within
  simp only [bind_assoc, pure_bind, opSigp]
  exact Bound.intercept _

theorem within_mc (o : OpsSI) (c : Ctx) (s : State) : Within {} s (opMc o c s) := by
  unfold Within
  simp only [bind_assoc, pure_bind, opMc]
  refine Bound.bind (Bound.demand _ _ (Kept.refl _ _)) ?_
  intro _ _
  exact Bound.ok (show Kept _ _ _ from Kept.refl _ _)

theorem within_lra (o : OpsRX) (c : Ctx) (s : State) : Within {} s (opLra o c s) := by
  unfold Within
  simp only [bind_assoc, pure_bind, opLra]
  exact Bound.intercept _

theorem within_stidp (o : OpsS) (c : Ctx) (s : State) : Within {} s (opStidp o c s) := by
  unfold Within
  simp only [bind_assoc, pure_bind, opStidp]
  exact Bound.intercept _

theorem within_stidc (o : OpsS) (c : Ctx) (s : State) : Within {} s (opStidc o c s) := by
  unfold Within
  simp only [bind_assoc, pure_bind, opStidc]
  exact Bound.intercept _

theorem within_sck (o : OpsS) (c : Ctx) (s : State) : Within {} s (opSck o c s) := by
  unfold Within
  simp only [bind_assoc, pure_bind, opSck]
  exact Bound.intercept _

theorem within_stck (o : OpsS) (c : Ctx) (s : State) : Within {} s (opStck o c s) := by
  unfold Within
  simp only [bind_assoc, pure_bind, opStck]
  exact Bound.intercept _

theorem within_sckc (o : OpsS) (c : Ctx) (s : State) : Within {} s (opSckc o c s) := by
  unfold Within
  simp only [bind_assoc, pure_bind, opSckc]
  exact Bound.intercept _

theorem within_stckc (o : OpsS) (c : Ctx) (s : State) : Within {} s (opStckc o c s) := by
  unfold Within
  simp only [bind_assoc, pure_bind, opStckc]
  exact Bound.intercept _

theorem within_spt (o : OpsS) (c : Ctx) (s : State) : Within {} s (opSpt o c s) := by
  unfold Within
  simp only [bind_assoc, pure_bind, opSpt]
  exact Bound.intercept _

theorem within_stpt (o : OpsS) (c : Ctx) (s : State) : Within {} s (opStpt o c s) := by
  unfold Within
  simp only [bind_assoc, pure_bind, opStpt]
  exact Bound.intercept _

theorem within_spka (o : OpsS) (c : Ctx) (s : State) : Within {} s (opSpka o c s) := by
  unfold Within
  simp only [bind_assoc, pure_bind, opSpka]
  exact Bound.intercept _

theorem within_ipk (o : OpsS) (c : Ctx) (s : State) : Within {} s (opIpk o c s) := by
  unfold Within
  simp only [bind_assoc, pure_bind, opIpk]
  exact Bound.intercept _

theorem within_ptlb (o : OpsS) (c : Ctx) (s : State) : Within {} s (opPtlb o c s) := by
  unfold Within
  simp only [bind_assoc, pure_bind, opPtlb]
  exact Bound.intercept _

theorem within_spx (o : OpsS) (c : Ctx) (s : State) : Within {} s (opSpx o c s) := by
  unfold Within
  simp only [bind_assoc, pure_bind, opSpx]
  exact Bound.intercept _

theorem within_stpx (o : OpsS) (c : Ctx) (s : State) : Within {} s (opStpx o c s) := by
  unfold Within
  simp only [bind_assoc, pure_bind, opStpx]
  exact Bound.intercept _

theorem within_stap (o : OpsS) (c : Ctx) (s : State) : Within {} s (opStap o c s) := by
  unfold Within
  simp only [bind_assoc, pure_bind, opStap]
  exact Bound.intercept _

theorem within_rrb (o : OpsS) (c : Ctx) (s : State) : Within {} s (opRrb o c s) := by
  unfold Within
  simp only [bind_assoc, pure_bind, opRrb]
  exact Bound.intercept _

theorem within_b2xx (fn : Byte) (o : OpsS) (c : Ctx) (s : State) : Within {} s (opB2xx fn o c s) := by
  unfold Within
  simp only [bind_assoc, pure_bind, opB2xx]
  exact Bound.intercept _

theorem within_stctl (o : OpsRS) (c : Ctx) (s : State) : Within {} s (opStctl o c s) := by
  unfold Within
  simp only [bind_assoc, pure_bind, opStctl]
  exact Bound.intercept _

theorem within_lctl (o : OpsRS) (c : Ctx) (s : State) : Within {} s (opLctl o c s) := by
  unfold Within
  simp only [bind_assoc, pure_bind, opLctl]
  exact Bound.intercept _

theorem within_cs (o : OpsRS) (c : Ctx) (s : State) :
    Within { gr := fun q => q == o.r1, start := s.ea o.b2 o.d2, len := 4, cc := true } s (opCs o c s) := by
  unfold Within
  simp only [bind_assoc, pure_bind, opCs]
  refine Bound.bind (Bound.demand _ _ (Kept.refl _ _)) ?_
  intro _ _
  refine Bound.bind (Bound.load _ _ (Kept.refl _ _)) ?_
  rintro _ ⟨-, rfl⟩
  split
  · refine Bound.bind (Bound.store _ _ (Kept.refl _ _)) ?_
    rintro _ rfl
    exact Bound.ok (show Kept _ _ _ from Kept.setCc (Kept.poke (Kept.refl _ _) _ (by
          intro k hk
          apply Scope.has_offset (by rfl) <;>
            try simp [packedBytes_length, List.length_map, registerCount, State.addr1,
              State.longOperand] at hk ⊢ <;>
            omega)) _ rfl)
  · exact Bound.ok (show Kept _ _ _ from Kept.setCc (Kept.setGr (Kept.refl _ _) _ _ (beq_self_eq_true _)) _ rfl)

theorem within_cds (o : OpsRS) (c : Ctx) (s : State) :
    Within
      { gr := fun q => q == o.r1 || q == o.r1 + 1,
        start := s.ea o.b2 o.d2,
        len := 8,
        cc := true }
      s (opCds o c s) := by
  refine Bound.bind (Bound.demandEven _ (Kept.refl _ _)) fun _ _ => Bound.bind
      (Bound.demandEven _ (Kept.refl _ _)) fun _ _ => Bound.bind (Bound.demand _ _ (Kept.refl _ _)) fun _ _
      => Bound.bind (Bound.load 64 _ (Kept.refl _ _)) fun _ _ => ?_
  split
  · refine Bound.bind (Bound.store _ _ (Kept.refl _ _)) ?_
    rintro _ rfl
    exact ((Kept.refl _ _).poke _ fun k hk => Scope.has_offset rfl (show k < 8 by omega) (by omega)).setCc _ rfl
  · exact ((Kept.refl _ _).setPair _ _ (by simp) (by simp)).setCc _ rfl

theorem within_clm (o : OpsRS) (c : Ctx) (s : State) : Within { cc := true } s (opClm o c s) := by
  unfold Within
  simp only [bind_assoc, pure_bind, opClm]
  refine Bound.bind (Bound.compareMasked _ _ _ (Kept.refl _ _)) ?_
  intro _ _
  exact Bound.ok (show Kept _ _ _ from Kept.setCc (Kept.refl _ _) _ rfl)

theorem within_stcm (o : OpsRS) (c : Ctx) (s : State) :
    Within { start := s.ea o.b2 o.d2, len := (maskBytes o.r3).length } s (opStcm o c s) := by
  refine Bound.bind (Bound.storeBytes _ _ (Kept.refl _ _)) ?_
  rintro _ rfl
  refine (Kept.refl _ _).setBytes _ fun k hk => ?_
  have := maskBytes_length_le o.r3
  rw [List.length_map] at hk
  exact Scope.has_offset rfl hk (by omega)

theorem within_icm (o : OpsRS) (c : Ctx) (s : State) :
    Within { gr := fun q => q == o.r1, cc := true } s (opIcm o c s) := by
  unfold Within
  simp only [bind_assoc, pure_bind, opIcm]
  refine Bound.bind (Bound.loadBytes _ _ (Kept.refl _ _)) ?_
  rintro _ rfl
  exact Bound.ok (show Kept _ _ _ from Kept.setCc (Kept.setGr (Kept.refl _ _) _ _ (beq_self_eq_true _)) _ rfl)

theorem within_mvn (o : OpsSS) (c : Ctx) (s : State) :
    Within { start := s.ea o.b1 o.d1, len := o.l.toNat + 1 } s (opMvn o c s) := by
  unfold Within
  simp only [bind_assoc, pure_bind, opMvn]
  refine Bound.bind (Bound.combineChars _ _ _ _ _ (Kept.refl _ _) (by
          intro k hk
          apply Scope.has_offset (by rfl) <;>
            try simp [packedBytes_length, List.length_map, registerCount, State.addr1,
              State.longOperand] at hk ⊢ <;>
            omega)) ?_
  rintro ⟨_, _⟩ _
  exact Bound.ok (show Kept _ _ _ from by assumption)

theorem within_mvc (o : OpsSS) (c : Ctx) (s : State) :
    Within { start := s.ea o.b1 o.d1, len := o.l.toNat + 1 } s (opMvc o c s) := by
  unfold Within
  simp only [bind_assoc, pure_bind, opMvc]
  refine Bound.bind (Bound.moveChars _ _ _ (Kept.refl _ _) (by
          intro k hk
          apply Scope.has_offset (by rfl) <;>
            try simp [packedBytes_length, List.length_map, registerCount, State.addr1,
              State.longOperand] at hk ⊢ <;>
            omega)) ?_
  intro _ _
  exact Bound.ok (show Kept _ _ _ from by assumption)

theorem within_mvz (o : OpsSS) (c : Ctx) (s : State) :
    Within { start := s.ea o.b1 o.d1, len := o.l.toNat + 1 } s (opMvz o c s) := by
  unfold Within
  simp only [bind_assoc, pure_bind, opMvz]
  refine Bound.bind (Bound.combineChars _ _ _ _ _ (Kept.refl _ _) (by
          intro k hk
          apply Scope.has_offset (by rfl) <;>
            try simp [packedBytes_length, List.length_map, registerCount, State.addr1,
              State.longOperand] at hk ⊢ <;>
            omega)) ?_
  rintro ⟨_, _⟩ _
  exact Bound.ok (show Kept _ _ _ from by assumption)

theorem within_nc (o : OpsSS) (c : Ctx) (s : State) :
    Within { start := s.ea o.b1 o.d1, len := o.l.toNat + 1, cc := true } s (opNc o c s) := by
  unfold Within
  simp only [bind_assoc, pure_bind, opNc, logicalChars]
  refine Bound.bind (Bound.combineChars _ _ _ _ _ (Kept.refl _ _) (by
          intro k hk
          apply Scope.has_offset (by rfl) <;>
            try simp [packedBytes_length, List.length_map, registerCount, State.addr1,
              State.longOperand] at hk ⊢ <;>
            omega)) ?_
  rintro ⟨_, _⟩ _
  exact Bound.ok (show Kept _ _ _ from Kept.setCc (by assumption) _ rfl)

theorem within_clc (o : OpsSS) (c : Ctx) (s : State) : Within { cc := true } s (opClc o c s) := by
  unfold Within
  simp only [bind_assoc, pure_bind, opClc]
  refine Bound.bind (Bound.compareChars _ _ _ (Kept.refl _ _)) ?_
  intro _ _
  exact Bound.ok (show Kept _ _ _ from Kept.setCc (Kept.refl _ _) _ rfl)

theorem within_oc (o : OpsSS) (c : Ctx) (s : State) :
    Within { start := s.ea o.b1 o.d1, len := o.l.toNat + 1, cc := true } s (opOc o c s) := by
  unfold Within
  simp only [bind_assoc, pure_bind, opOc, logicalChars]
  refine Bound.bind (Bound.combineChars _ _ _ _ _ (Kept.refl _ _) (by
          intro k hk
          apply Scope.has_offset (by rfl) <;>
            try simp [packedBytes_length, List.length_map, registerCount, State.addr1,
              State.longOperand] at hk ⊢ <;>
            omega)) ?_
  rintro ⟨_, _⟩ _
  exact Bound.ok (show Kept _ _ _ from Kept.setCc (by assumption) _ rfl)

theorem within_xc (o : OpsSS) (c : Ctx) (s : State) :
    Within { start := s.ea o.b1 o.d1, len := o.l.toNat + 1, cc := true } s (opXc o c s) := by
  unfold Within
  simp only [bind_assoc, pure_bind, opXc, logicalChars]
  refine Bound.bind (Bound.combineChars _ _ _ _ _ (Kept.refl _ _) (by
          intro k hk
          apply Scope.has_offset (by rfl) <;>
            try simp [packedBytes_length, List.length_map, registerCount, State.addr1,
              State.longOperand] at hk ⊢ <;>
            omega)) ?_
  rintro ⟨_, _⟩ _
  exact Bound.ok (show Kept _ _ _ from Kept.setCc (by assumption) _ rfl)

theorem within_tr (o : OpsSS) (c : Ctx) (s : State) :
    Within { start := s.ea o.b1 o.d1, len := o.l.toNat + 1 } s (opTr o c s) := by
  unfold Within
  simp only [bind_assoc, pure_bind, opTr]
  refine Bound.bind (Bound.translateChars _ _ _ (Kept.refl _ _) (by
          intro k hk
          apply Scope.has_offset (by rfl) <;>
            try simp [packedBytes_length, List.length_map, registerCount, State.addr1,
              State.longOperand] at hk ⊢ <;>
            omega)) ?_
  intro _ _
  exact Bound.ok (show Kept _ _ _ from by assumption)

theorem within_trt (o : OpsSS) (c : Ctx) (s : State) :
    Within { gr := fun q => q == 1 || q == 2, cc := true } s (opTrt o c s) := by
  unfold Within
  simp only [bind_assoc, pure_bind, opTrt]
  refine Bound.bind (Bound.scanChars _ _ _ (Kept.refl _ _)) ?_
  intro _ _
  split
  · exact Bound.ok (show Kept _ _ _ from Kept.setCc (Kept.refl _ _) _ rfl)
  · exact Bound.ok (show Kept _ _ _ from Kept.setCc (Kept.setGr (Kept.setGr (Kept.refl _ _) _ _ rfl) _ _ rfl)
        _ rfl)

theorem within_ed (o : OpsSS) (c : Ctx) (s : State) :
    Within { start := s.ea o.b1 o.d1, len := o.l.toNat + 1, cc := true } s (opEd o c s) := by
  unfold Within
  simp only [bind_assoc, pure_bind, opEd, edit]
  refine Bound.bind (Bound.load _ _ (Kept.refl _ _)) ?_
  rintro _ ⟨-, rfl⟩
  refine Bound.bind (Bound.editLoop _ _ _ _ _ (Kept.refl _ _) (fun h => nomatch h) (by
          intro k hk
          apply Scope.has_offset (by rfl) <;>
            try simp [packedBytes_length, List.length_map, registerCount, State.addr1,
              State.longOperand] at hk ⊢ <;>
            omega)) ?_
  intro _ _
  exact Bound.ok (show Kept _ _ _ from Kept.setCc (by assumption) _ rfl)

theorem within_edmk (o : OpsSS) (c : Ctx) (s : State) :
    Within
      { gr := fun q => q == 1,
        start := s.ea o.b1 o.d1,
        len := o.l.toNat + 1,
        cc := true }
      s (opEdmk o c s) := by
  unfold Within
  simp only [bind_assoc, pure_bind, opEdmk, edit]
  refine Bound.bind (Bound.load _ _ (Kept.refl _ _)) ?_
  rintro _ ⟨-, rfl⟩
  refine Bound.bind (Bound.editLoop _ _ _ _ _ (Kept.refl _ _) (fun _ => rfl) (by
          intro k hk
          apply Scope.has_offset (by rfl) <;>
            try simp [packedBytes_length, List.length_map, registerCount, State.addr1,
              State.longOperand] at hk ⊢ <;>
            omega)) ?_
  intro _ _
  exact Bound.ok (show Kept _ _ _ from Kept.setCc (by assumption) _ rfl)

theorem within_srp (o : OpsSS2) (c : Ctx) (s : State) :
    Within { start := s.ea o.b1 o.d1, len := o.l1.toNat + 1, cc := true } s (opSrp o c s) := by
  refine Bound.bind (Bound.loadBytes _ _ (Kept.refl _ _)) fun _ _ => Bound.bind
      (Bound.demand _ _ (Kept.refl _ _)) fun _ _ => Bound.bind (Bound.demandPacked _ (Kept.refl _ _)) fun _ _
      => ?_
  dsimp only
  split <;> exact Bound.decimalResult _ _ _ _ _ (Kept.refl _ _) (fun k hk => Scope.has_offset rfl
      hk (by have := o.l1.isLt; omega)) rfl

theorem within_mvo (o : OpsSS2) (c : Ctx) (s : State) :
    Within { start := s.ea o.b1 o.d1, len := o.l1.toNat + 1 } s (opMvo o c s) := by
  refine Bound.bind (Bound.load 8 _ (Kept.refl _ _)) fun _ _ => Bound.bind (Bound.load 8 _ (Kept.refl _ _))
      fun _ _ => Bound.bind (Bound.store _ _ (Kept.refl _ _)) ?_
  rintro _ rfl
  exact Bound.bind (Bound.moveOffset _ _ _ _ _ ((Kept.refl _ _).poke _ (Scope.has_one (a := s.ea o.b1 o.d1)
      (n := o.l1.toNat) (by rw [State.addr1, setWidth_eq_ofNat]) rfl (show o.l1.toNat < o.l1.toNat + 1 by
      omega) (by have := o.l1.isLt; omega))) (fun k hk => Scope.has_offset rfl
      (show k < o.l1.toNat + 1 by omega) (by have := o.l1.isLt; omega))) fun _ h => h

theorem within_pack (o : OpsSS2) (c : Ctx) (s : State) :
    Within { start := s.ea o.b1 o.d1, len := o.l1.toNat + 1 } s (opPack o c s) := by
  refine Bound.bind (Bound.swapRightmost o s (Kept.refl _ _)) ?_
  rintro _ ⟨v, rfl⟩
  exact Bound.bind (Bound.packLoop _ _ _ _ ((Kept.refl _ _).poke _ (Scope.has_one (a := s.ea o.b1 o.d1)
      (n := o.l1.toNat) (by rw [State.addr1, setWidth_eq_ofNat]) rfl (show o.l1.toNat < o.l1.toNat + 1 by
      omega) (by have := o.l1.isLt; omega))) (fun k hk => Scope.has_offset rfl
      (show k < o.l1.toNat + 1 by omega) (by have := o.l1.isLt; omega))) fun _ h => h

theorem within_unpk (o : OpsSS2) (c : Ctx) (s : State) :
    Within { start := s.ea o.b1 o.d1, len := o.l1.toNat + 1 } s (opUnpk o c s) := by
  refine Bound.bind (Bound.swapRightmost o s (Kept.refl _ _)) ?_
  rintro _ ⟨v, rfl⟩
  exact Bound.bind (Bound.unpackLoop _ _ _ _ _ ((Kept.refl _ _).poke _ (Scope.has_one (a := s.ea o.b1 o.d1)
      (n := o.l1.toNat) (by rw [State.addr1, setWidth_eq_ofNat]) rfl (show o.l1.toNat < o.l1.toNat + 1 by
      omega) (by have := o.l1.isLt; omega))) (fun k hk => Scope.has_offset rfl
      (show k < o.l1.toNat + 1 by omega) (by have := o.l1.isLt; omega))) fun _ h => h

theorem within_zap (o : OpsSS2) (c : Ctx) (s : State) :
    Within { start := s.ea o.b1 o.d1, len := o.l1.toNat + 1, cc := true } s (opZap o c s) := by
  exact Bound.bind (Bound.loadBytes _ _ (Kept.refl _ _)) fun _ _ => Bound.bind
      (Bound.demand _ _ (Kept.refl _ _)) fun _ _ => Bound.bind (Bound.demandPacked _ (Kept.refl _ _)) fun _ _
      => Bound.decimalResult _ _ _ _ _ (Kept.refl _ _) (fun k hk => Scope.has_offset rfl hk
      (by have := o.l1.isLt; omega)) rfl

theorem within_cp (o : OpsSS2) (c : Ctx) (s : State) : Within { cc := true } s (opCp o c s) := by
  exact Bound.bind (Bound.packedPair o (Kept.refl _ _)) fun _ _ => (Kept.refl _ _).setCc _ rfl

theorem within_ap (o : OpsSS2) (c : Ctx) (s : State) :
    Within { start := s.ea o.b1 o.d1, len := o.l1.toNat + 1, cc := true } s (opAp o c s) := by
  exact Bound.bind (Bound.packedPair o (Kept.refl _ _)) fun _ _ => Bound.decimalResult _ _ _ _ _
      (Kept.refl _ _) (fun k hk => Scope.has_offset rfl hk
      (by have := o.l1.isLt; omega)) rfl

theorem within_sp (o : OpsSS2) (c : Ctx) (s : State) :
    Within { start := s.ea o.b1 o.d1, len := o.l1.toNat + 1, cc := true } s (opSp o c s) := by
  exact Bound.bind (Bound.packedPair o (Kept.refl _ _)) fun _ _ => Bound.decimalResult _ _ _ _ _
      (Kept.refl _ _) (fun k hk => Scope.has_offset rfl hk
      (by have := o.l1.isLt; omega)) rfl

theorem within_mp (o : OpsSS2) (c : Ctx) (s : State) :
    Within { start := s.ea o.b1 o.d1, len := o.l1.toNat + 1 } s (opMp o c s) :=
  Bound.bind (Bound.demand _ _ (Kept.refl _ _)) fun _ _ => Bound.bind
      (Bound.packedPair o (Kept.refl _ _)) fun _ _ => Bound.bind (Bound.demand _ _ (Kept.refl _ _)) fun _ _
      => Bound.bind (Bound.decWrite _ _ _ _ (Kept.refl _ _) fun k hk => Scope.has_offset rfl hk
      (by have := o.l1.isLt; omega)) fun _ h => h

theorem within_dp (o : OpsSS2) (c : Ctx) (s : State) :
    Within { start := s.ea o.b1 o.d1, len := o.l1.toNat + 1 } s (opDp o c s) := by
  refine Bound.bind (Bound.demand _ _ (Kept.refl _ _)) fun _ hl => ?_
  have hlt : o.l2.toNat < o.l1.toNat := by simp [lengthsOk] at hl; exact hl.2
  have has : ∀ k < o.l1.toNat + 1,
      ({ start := s.ea o.b1 o.d1, len := o.l1.toNat + 1 } : Scope).has (s.addr1 o + BitVec.ofNat 24 k) :=
    fun k hk => Scope.has_offset rfl hk (by have := o.l1.isLt; omega)
  -- the quotient, then the remainder
  exact Bound.bind (Bound.packedPair o (Kept.refl _ _)) fun _ _ => Bound.bind
      (Bound.demand _ _ (Kept.refl _ _)) fun _ _ => Bound.bind
      (Bound.decWrite _ _ _ _ (Kept.refl _ _) fun k hk => has k (by omega)) fun _ h => Bound.bind
      (Bound.decWrite _ _ _ _ h fun k hk => by
        rw [BitVec.add_assoc, ← BitVec.ofNat_add]; exact has _ (by omega)) fun _ h => h

theorem targetRule_within (i : Instr) (c : Ctx) (s : State) (h1 : ∀ n, i ≠ .svc n) (h2 : ∀ o, i ≠ .lpsw o)
    (h3 : ∀ o, i ≠ .ex o) :
    Within (scopeOf s i) s (targetRule i c s) := by
  cases i
  case spm => exact within_spm _ c s
  case balr => exact within_balr _ c s
  case bctr => exact within_bctr _ c s
  case bcr => exact within_bcr _ c s
  case ssk => exact within_ssk _ c s
  case isk => exact within_isk _ c s
  case svc x => exact absurd rfl (h1 x)
  case mvcl => exact within_mvcl _ c s
  case clcl => exact within_clcl _ c s
  case lpr => exact within_lpr _ c s
  case lnr => exact within_lnr _ c s
  case ltr => exact within_ltr _ c s
  case lcr => exact within_lcr _ c s
  case nr => exact within_nr _ c s
  case clr => exact within_clr _ c s
  case or => exact within_or _ c s
  case xr => exact within_xr _ c s
  case lr => exact within_lr _ c s
  case cr => exact within_cr _ c s
  case ar => exact within_ar _ c s
  case sr => exact within_sr _ c s
  case mr => exact within_mr _ c s
  case dr => exact within_dr _ c s
  case alr => exact within_alr _ c s
  case slr => exact within_slr _ c s
  case lpdr => exact within_lpdr _ c s
  case lndr => exact within_lndr _ c s
  case ltdr => exact within_ltdr _ c s
  case lcdr => exact within_lcdr _ c s
  case hdr => exact within_hdr _ c s
  case ldr => exact within_ldr _ c s
  case cdr => exact within_cdr _ c s
  case adr => exact within_adr _ c s
  case sdr => exact within_sdr _ c s
  case mdr => exact within_mdr _ c s
  case ddr => exact within_ddr _ c s
  case awr => exact within_awr _ c s
  case swr => exact within_swr _ c s
  case lper => exact within_lper _ c s
  case lner => exact within_lner _ c s
  case lter => exact within_lter _ c s
  case lcer => exact within_lcer _ c s
  case her => exact within_her _ c s
  case ler => exact within_ler _ c s
  case cer => exact within_cer _ c s
  case aer => exact within_aer _ c s
  case ser => exact within_ser _ c s
  case mer => exact within_mer _ c s
  case der => exact within_der _ c s
  case aur => exact within_aur _ c s
  case sur => exact within_sur _ c s
  case sth => exact within_sth _ c s
  case la => exact within_la _ c s
  case stc => exact within_stc _ c s
  case ic => exact within_ic _ c s
  case ex x => exact absurd rfl (h3 x)
  case bal => exact within_bal _ c s
  case bct => exact within_bct _ c s
  case bc => exact within_bc _ c s
  case lh => exact within_lh _ c s
  case ch => exact within_ch _ c s
  case ah => exact within_ah _ c s
  case sh => exact within_sh _ c s
  case mh => exact within_mh _ c s
  case cvd => exact within_cvd _ c s
  case cvb => exact within_cvb _ c s
  case st => exact within_st _ c s
  case n => exact within_n _ c s
  case cl => exact within_cl _ c s
  case o => exact within_o _ c s
  case x => exact within_x _ c s
  case l => exact within_l _ c s
  case c => exact within_c _ c s
  case a => exact within_a _ c s
  case s => exact within_s _ c s
  case m => exact within_m _ c s
  case d => exact within_d _ c s
  case al => exact within_al _ c s
  case sl => exact within_sl _ c s
  case std => exact within_std _ c s
  case ld => exact within_ld _ c s
  case cd => exact within_cd _ c s
  case ad => exact within_ad _ c s
  case sd => exact within_sd _ c s
  case md => exact within_md _ c s
  case dd => exact within_dd _ c s
  case aw => exact within_aw _ c s
  case sw => exact within_sw _ c s
  case ste => exact within_ste _ c s
  case le => exact within_le _ c s
  case ce => exact within_ce _ c s
  case ae => exact within_ae _ c s
  case se => exact within_se _ c s
  case me => exact within_me _ c s
  case de => exact within_de _ c s
  case au => exact within_au _ c s
  case su => exact within_su _ c s
  case ssm => exact within_ssm _ c s
  case lpsw x => exact absurd rfl (h2 x)
  case diag => exact within_diag _ c s
  case wrd => exact within_wrd _ c s
  case rdd => exact within_rdd _ c s
  case bxh => exact within_bxh _ c s
  case bxle => exact within_bxle _ c s
  case srl => exact within_srl _ c s
  case sll => exact within_sll _ c s
  case sra => exact within_sra _ c s
  case sla => exact within_sla _ c s
  case srdl => exact within_srdl _ c s
  case sldl => exact within_sldl _ c s
  case srda => exact within_srda _ c s
  case slda => exact within_slda _ c s
  case stm => exact within_stm _ c s
  case tm => exact within_tm _ c s
  case mvi => exact within_mvi _ c s
  case ts => exact within_ts _ c s
  case ni => exact within_ni _ c s
  case cli => exact within_cli _ c s
  case oi => exact within_oi _ c s
  case xi => exact within_xi _ c s
  case lm => exact within_lm _ c s
  case sio => exact within_sio _ _ c s
  case siof => exact within_siof _ _ c s
  case tio => exact within_tio _ _ c s
  case clrio => exact within_clrio _ _ c s
  case hio => exact within_hio _ _ c s
  case hdv => exact within_hdv _ _ c s
  case tch => exact within_tch _ _ c s
  case stnsm => exact within_stnsm _ c s
  case stosm => exact within_stosm _ c s
  case sigp => exact within_sigp _ c s
  case mc => exact within_mc _ c s
  case lra => exact within_lra _ c s
  case stidp => exact within_stidp _ c s
  case stidc => exact within_stidc _ c s
  case sck => exact within_sck _ c s
  case stck => exact within_stck _ c s
  case sckc => exact within_sckc _ c s
  case stckc => exact within_stckc _ c s
  case spt => exact within_spt _ c s
  case stpt => exact within_stpt _ c s
  case spka => exact within_spka _ c s
  case ipk => exact within_ipk _ c s
  case ptlb => exact within_ptlb _ c s
  case spx => exact within_spx _ c s
  case stpx => exact within_stpx _ c s
  case stap => exact within_stap _ c s
  case rrb => exact within_rrb _ c s
  case b2xx => exact within_b2xx _ _ c s
  case stctl => exact within_stctl _ c s
  case lctl => exact within_lctl _ c s
  case cs => exact within_cs _ c s
  case cds => exact within_cds _ c s
  case clm => exact within_clm _ c s
  case stcm => exact within_stcm _ c s
  case icm => exact within_icm _ c s
  case mvn => exact within_mvn _ c s
  case mvc => exact within_mvc _ c s
  case mvz => exact within_mvz _ c s
  case nc => exact within_nc _ c s
  case clc => exact within_clc _ c s
  case oc => exact within_oc _ c s
  case xc => exact within_xc _ c s
  case tr => exact within_tr _ c s
  case trt => exact within_trt _ c s
  case ed => exact within_ed _ c s
  case edmk => exact within_edmk _ c s
  case srp => exact within_srp _ c s
  case mvo => exact within_mvo _ c s
  case pack => exact within_pack _ c s
  case unpk => exact within_unpk _ c s
  case zap => exact within_zap _ c s
  case cp => exact within_cp _ c s
  case ap => exact within_ap _ c s
  case sp => exact within_sp _ c s
  case mp => exact within_mp _ c s
  case dp => exact within_dp _ c s

/-- How a call can end, seen from the state before it: within the scope, in a program interruption taken from a
state within the scope, in a supervisor-call interruption, or with a PSW that LPSW loaded. -/
inductive Ended (s : State) (j : Instr) (t : State) : Prop where
  | done (u : State) (ia : Addr) (ilc : BitVec 2) (r : CallResult) (h : Kept (scopeOf s j) s u)
      (e : t = { u with psw := { u.psw with ia := ia, ilc := ilc }, result := r }) : Ended s j t
  | trap (u : State) (code : ProgramCode) (ilc : BitVec 2) (ia : Addr) (h : Kept (scopeOf s j) s u)
      (e : t = u.programInterrupt code ilc ia) : Ended s j t
  | svc (n : Byte) (ilc : BitVec 2) (ia : Addr) (hj : j = .svc n) (e : t = s.svcInterrupt n ilc ia) : Ended s
      j t
  | lpsw (o : OpsSI) (r : CallResult) (hj : j = .lpsw o) (hp : s.psw.p = false)
      (e : t = { s with psw := Psw.unpack (s.peek 64 (s.ea o.b1 o.d1)), result := r }) : Ended s j t

/-- A meaning that stays within the scope ends so. -/
theorem Ended.of_within {s : State} {j : Instr} {c : Ctx} {e : Effect}
    (h : Within (scopeOf s j) s e) : Ended s j (conclude c s e) := by
  cases e with
  | ok x =>
    cases x with
    | advance t => exact .done t _ _ _ h rfl
    | branch a t => exact .done t _ _ _ h rfl
    | pswLoaded t => exact h.elim
  | error r =>
    cases r with
    | program code t => exact .trap t _ _ _ h rfl
    | supervisorCall => exact h.elim
    | pswInvalid => exact h.elim
    | intercepted v => exact .done s s.psw.ia s.psw.ilc (.privileged v) (Kept.refl _ _) rfl
    | undefinedOpcode =>
      simp only [conclude, State.undefinedOpcode]
      split
      · exact .done s s.psw.ia s.psw.ilc .invalidOpcode (Kept.refl _ _) rfl
      · exact .trap s _ _ _ (Kept.refl _ _) rfl

/-- The rule of any instruction ends so. -/
theorem ended_targetRule (s : State) (j : Instr) (c : Ctx) : Ended s j (conclude c s (targetRule j c s)) := by
  by_cases h1 : ∃ n, j = .svc n
  · obtain ⟨n, rfl⟩ := h1
    exact .svc n _ _ rfl rfl
  by_cases h2 : ∃ o, j = .lpsw o
  · obtain ⟨o, rfl⟩ := h2
    change Ended s _ (conclude c s (opLpsw o c s))
    unfold opLpsw supervisorOnly
    cases hp : s.psw.p
    · simp only [Bool.false_eq_true, if_false, ok_bind]
      cases hd : (s.ea o.b1 o.d1).toNat % 8 == 0
      · exact .trap s _ _ _ (Kept.refl _ _) rfl
      · cases hi : s.installed (s.ea o.b1 o.d1) (64/8)
        · simp only [demand_true, ok_bind, State.load_missing hi, error_bind]
          exact .trap s _ _ _ (Kept.refl _ _) rfl
        · simp only [demand_true, ok_bind, State.load_installed hi, State.loadPsw]
          split
          · exact .lpsw o _ rfl hp rfl
          · exact .lpsw o _ rfl hp rfl
    · exact .done s s.psw.ia s.psw.ilc _ (Kept.refl _ _) rfl
  by_cases h3 : ∃ o, j = .ex o
  · obtain ⟨o, rfl⟩ := h3
    exact .trap s _ _ _ (Kept.refl _ _) rfl
  · exact Ended.of_within (targetRule_within j c s (fun n h => h1 ⟨n, h⟩) (fun n h => h2 ⟨n, h⟩)
        (fun n h => h3 ⟨n, h⟩))

/-- Any call of `exec` ends so; for EX the scope is its target's. -/
theorem ended_exec {i : Instr} {s t : State} (h : exec i s = .next t) : Ended s (s.executed i) t := by
  by_cases h3 : ∃ o, i = .ex o
  · obtain ⟨o, rfl⟩ := h3
    have h : conclude (s.ctx 4) s (opEx o (s.ctx 4) s) = t := by
      change Host.Outcome.next _ = _ at h; exact Host.Outcome.next.inj h
    subst h
    have early : ∀ code, Ended s (s.executed (.ex o)) (conclude (s.ctx 4) s (.error (.program code s))) :=
      fun code => .trap s _ _ _ (Kept.refl _ _) rfl
    unfold opEx
    dsimp only
    cases (!BitVec.getLsbD (s.eaRX o) 0)
    · exact early _
    cases s.installed (s.eaRX o) 2
    · exact early _
    cases (s.byteAt (s.eaRX o) != 0x44)
    · exact early _
    cases s.installed (s.eaRX o) (instrLength (s.byteAt (s.eaRX o)))
    · exact early _
    simp only [demand_true, ok_bind]
    have he : s.executed (.ex o) = match decode (modifiedCopy o.r1 s (s.bytesAt (s.eaRX o)
        (instrLength (s.byteAt (s.eaRX o))))) with
      | .ok (j, _) => j
      | .error _ => .ex o := rfl
    rw [he]
    generalize decode (modifiedCopy o.r1 s (s.bytesAt (s.eaRX o) (instrLength (s.byteAt (s.eaRX o))))) = d
    match d with
    | .ok (j, _) => exact ended_targetRule _ _ _
    | .error _ => exact Ended.of_within (e := .error .undefinedOpcode) trivial
  · have hi : ∀ o, i ≠ .ex o := fun o hh => h3 ⟨o, hh⟩
    have : s.executed i = i := by
      cases i
      case ex o => exact absurd rfl (hi o)
      all_goals rfl
    have he : exec i s = .next (conclude (s.ctx i.length) s (targetRule i (s.ctx i.length) s)) := by
      cases i
      case ex o => exact absurd rfl (hi o)
      all_goals rfl
    rw [he] at h
    rw [this, ← Host.Outcome.next.inj h]
    exact ended_targetRule _ _ _

end Sys2Proof.Machine
end

