-- ==== Sys2Proof/Laws/Calls.lean ====
section
/-! SUPPORT. How a call ends, by how its rule ended (R150); signed results; comparisons. -/

namespace Sys2Proof.Machine

/-! ## From a rule's outcome to the state the call leaves -/

@[simp] theorem conclude_advance (s t : State) (len : Nat) :
    conclude (s.ctx len) s (.ok (.advance t)) = s.completed len t := rfl

@[simp] theorem conclude_branch (s t : State) (len : Nat) (a : Addr) :
    conclude (s.ctx len) s (.ok (.branch a t)) = s.branched len a t := rfl

@[simp] theorem conclude_pswLoaded (c : Ctx) (s t : State) :
    conclude c s (.ok (.pswLoaded t)) = { t with result := .ok } := rfl

@[simp] theorem conclude_program (s t : State) (len : Nat) (code : ProgramCode) :
    conclude (s.ctx len) s (.error (.program code t)) = s.trapped len code t := rfl

@[simp] theorem conclude_intercepted (c : Ctx) (s : State) (v : Word) :
    conclude c s (.error (.intercepted v)) = s.handedOver v := rfl

/-- A call ends as its rule does. -/
theorem call_eq (len : Nat) (sem : Ctx → State → Effect) (s : State) :
    call len sem s = .next (conclude (s.ctx len) s (sem (s.ctx len) s)) := rfl

/-- A conditional branch (R600). -/
theorem conclude_branchIf (s t : State) (len : Nat) (c : Bool) (a : Addr) :
    conclude (s.ctx len) s (branchIf c a t) = s.branchedIf len c a t := by
  cases c <;> rfl

/-! ## Signed results -/

theorem not_fitsSigned (w : Nat) (v : Int) : (!fitsSigned w v) = overflows w v := by
  simp only [fitsSigned, overflows]
  by_cases h1 : v < -(2 ^ (w - 1)) <;> by_cases h2 : (2 : Int) ^ (w - 1) ≤ v <;>
    (simp [h1, h2]; try omega)

theorem fitsSigned_eq (w : Nat) (v : Int) : fitsSigned w v = !overflows w v := by
  rw [← not_fitsSigned, Bool.not_not]

/-- An exact value that fits is the value of its truncation. -/
theorem toInt_ofInt_of_fits {w : Nat} (hw : 0 < w) {v : Int} (h : overflows w v = false) :
    (BitVec.ofInt w v).toInt = v := by
  obtain ⟨k, rfl⟩ : ∃ k, w = k + 1 := ⟨w - 1, by omega⟩
  simp only [overflows, Nat.add_sub_cancel, decide_eq_false_iff_not, not_or, not_lt, not_le] at h
  have e : ((2 ^ (k + 1) : Nat) : Int) = 2 * 2 ^ k := by push_cast; ring
  rw [BitVec.toInt_ofInt, Int.bmod_eq_of_le] <;> omega

/-- The CC of a truncated result is the CC of the exact one. -/
theorem ccSigned_ofInt {w : Nat} (hw : 0 < w) (v : Int) :
    ccSigned (overflows w v) (BitVec.ofInt w v) = ccOfExact w v := by
  unfold ccSigned ccOfExact
  cases h : overflows w v
  · simp [toInt_ofInt_of_fits hw h, ccArith]
  · simp

/-- The end of an instruction that may overflow (R201). -/
theorem conclude_fixedOverflowExit (s t : State) (len w : Nat) (v : Int) (h : t.psw.pm = s.psw.pm) :
    conclude (s.ctx len) s (fixedOverflowExit (overflows w v) t) = s.signedEnd len w v t := by
  unfold fixedOverflowExit State.signedEnd Psw.pmFo
  rw [h]
  split <;> rfl

/-- A signed result written to a register (R200, R201). -/
theorem conclude_signedResult (s : State) (len : Nat) (r : Nib) (v : Int) :
    conclude (s.ctx len) s (signedResult r v s) = s.signedSum len r v := by
  simp only [signedResult, not_fitsSigned, ccSigned_ofInt (show 0 < 32 by omega)]
  exact conclude_fixedOverflowExit s _ len 32 v rfl

/-- A comparison of exact values (R15). -/
theorem ccCmp_eq (a b : Int) : ccCmp a b = ccOfOrder a b := by
  unfold ccCmp ccOfOrder
  split <;> split <;> first | rfl | omega | (split <;> first | rfl | omega)

end Sys2Proof.Machine
end

