-- ==== Sys2Proof/Laws/Sweep.lean ====
section
/-! SUPPORT. Runs of single-byte stores, each byte computed from the storage as it stands by then: the shape of
every byte loop of `spec/42_logical.md`, `spec/43_load_store.md` and `spec/46_decimal.md` (R400, R500, R705).
What such a run leaves at each address is said once here. -/

namespace Sys2Proof.Machine

/-- Store at `addr 0`, `addr 1`, ..., `addr (n-1)`, in this order, the bytes that `g` computes from the state
each store finds. -/
def sweep (addr : Nat → Addr) (g : Nat → State → Byte) : Nat → State → State
  | 0, s => s
  | n + 1, s => (sweep addr g n s).setByte (addr n) (g n (sweep addr g n s))

variable {addr : Nat → Addr} {g : Nat → State → Byte} {n : Nat} {s : State}

theorem sweep_wf (h : Memory.wf s.mem = true) (addr : Nat → Addr) (g : Nat → State → Byte) (n : Nat) :
    Memory.wf (sweep addr g n s).mem = true := by
  induction n with
  | zero => exact h
  | succ n ih => exact State.setByte_wf ih _ _

/-- Nothing but storage changes. -/
theorem sweep_eq (addr : Nat → Addr) (g : Nat → State → Byte) (n : Nat) (s : State) :
    sweep addr g n s = { s with mem := (sweep addr g n s).mem } := by
  induction n with
  | zero => rfl
  | succ n ih =>
    have : ∀ (t : State) (a : Addr) (v : Byte), t = { s with mem := t.mem } →
        t.setByte a v = { s with mem := (t.setByte a v).mem } := by
      intro t a v h; rw [h]; rfl
    exact this _ _ _ ih

@[simp] theorem sweep_cfg (addr : Nat → Addr) (g : Nat → State → Byte) (n : Nat) (s : State) :
    (sweep addr g n s).cfg = s.cfg := by rw [sweep_eq]

/-- A byte at none of the addresses stays. -/
theorem sweep_outside (h : Memory.wf s.mem = true) {x : Addr} (hx : ∀ k < n, addr k ≠ x) :
    (sweep addr g n s).byteAt x = s.byteAt x := by
  induction n with
  | zero => rfl
  | succ n ih =>
    rw [sweep, State.byteAt_setByte (sweep_wf h _ _ _), if_neg (hx n (by omega))]
    exact ih fun k hk => hx k (by omega)

/-- The byte at the address of step `k` is the one stored there by that step. -/
theorem sweep_at (h : Memory.wf s.mem = true) (inj : ∀ i < n, ∀ j < n, addr i = addr j → i = j) {k : Nat}
    (hk : k < n) : (sweep addr g n s).byteAt (addr k) = g k (sweep addr g k s) := by
  induction n with
  | zero => omega
  | succ n ih =>
    rw [sweep, State.byteAt_setByte (sweep_wf h _ _ _)]
    by_cases e : k = n
    · subst e; rw [if_pos rfl]
    · rw [if_neg fun he => e (inj n (by omega) k hk he).symm]
      exact ih (fun i hi j hj => inj i (by omega) j (by omega)) (by omega)

/-- What a run of `n` steps, after `k` of them, shows at an address: the final byte, if one of the `k` steps
stored there, else the byte from before. -/
theorem sweep_seen (h : Memory.wf s.mem = true) (inj : ∀ i < n, ∀ j < n, addr i = addr j → i = j) {k : Nat}
    (hk : k ≤ n) (x : Addr) :
    (sweep addr g k s).byteAt x =
      if ∃ j < k, addr j = x then (sweep addr g n s).byteAt x else s.byteAt x := by
  split
  · rename_i hx
    obtain ⟨j, hj, rfl⟩ := hx
    rw [sweep_at h (fun i hi j hj => inj i (by omega) j (by omega)) hj, sweep_at h inj (by omega)]
  · rename_i hx
    exact sweep_outside h fun j hj e => hx ⟨j, hj, e⟩

/-! ## Left to right, and right to left -/

theorem after_injective {a : Addr} {i j : Nat} (hi : i < 2 ^ 24) (hj : j < 2 ^ 24)
    (h : after a i = after a j) : i = j := by
  have h1 := Addr.add_sub_toNat a i hi
  have h2 := Addr.add_sub_toNat a j hj
  unfold after at h
  rw [h] at h1
  omega

theorem sub_before {a : Addr} {i : Nat} (hi : i < 2 ^ 24) : (a - before a i).toNat = i := by
  have := a.isLt
  unfold before
  simp only [BitVec.toNat_sub, BitVec.toNat_ofNat]
  omega

theorem before_injective {a : Addr} {i j : Nat} (hi : i < 2 ^ 24) (hj : j < 2 ^ 24)
    (h : before a i = before a j) : i = j := by
  have h1 := sub_before (a := a) hi
  have h2 := sub_before (a := a) hj
  rw [h] at h1
  omega

theorem after_toNat_sub (a x : Addr) : after a (x - a).toNat = x := Addr.add_sub_cancel a x

theorem before_toNat_sub (a x : Addr) : before a (a - x).toNat = x := by
  apply BitVec.eq_of_toNat_eq
  have := a.isLt
  have := x.isLt
  unfold before
  simp only [BitVec.toNat_sub, BitVec.toNat_ofNat]
  omega

theorem after_sub {a : Addr} {k : Nat} (hk : k < 2 ^ 24) : (after a k - a).toNat = k :=
  Addr.add_sub_toNat a k hk

theorem exists_after {a x : Addr} {k : Nat} (hk : k ≤ 2 ^ 24) :
    (∃ j < k, after a j = x) ↔ (x - a).toNat < k := by
  constructor
  · rintro ⟨j, hj, rfl⟩; rw [after_sub (by omega)]; exact hj
  · intro h; exact ⟨_, h, after_toNat_sub a x⟩

theorem exists_before {a x : Addr} {k : Nat} (hk : k ≤ 2 ^ 24) :
    (∃ j < k, before a j = x) ↔ (a - x).toNat < k := by
  constructor
  · rintro ⟨j, hj, rfl⟩; rw [sub_before (by omega)]; exact hj
  · intro h; exact ⟨_, h, before_toNat_sub a x⟩

/-- A left-to-right run sees, at its step `k`, what `seenAfter` says. -/
theorem sweep_seenAfter (h : Memory.wf s.mem = true) {a : Addr} (hn : n ≤ 2 ^ 24) {k : Nat} (hk : k ≤ n)
    (x : Addr) :
    (sweep (after a) g k s).byteAt x = seenAfter s (sweep (after a) g n s) a k x := by
  rw [sweep_seen h (fun i hi j hj => after_injective (by omega) (by omega)) hk]
  unfold seenAfter
  simp only [exists_after (a := a) (x := x) (k := k) (by omega)]

/-- A right-to-left run sees, at its step `k`, what `seenBefore` says. -/
theorem sweep_seenBefore (h : Memory.wf s.mem = true) {a : Addr} (hn : n ≤ 2 ^ 24) {k : Nat} (hk : k ≤ n)
    (x : Addr) :
    (sweep (before a) g k s).byteAt x = seenBefore s (sweep (before a) g n s) a k x := by
  rw [sweep_seen h (fun i hi j hj => before_injective (by omega) (by omega)) hk]
  unfold seenBefore
  simp only [exists_before (a := a) (x := x) (k := k) (by omega)]

theorem sweep_after_at (h : Memory.wf s.mem = true) {a : Addr} (hn : n ≤ 2 ^ 24) {k : Nat} (hk : k < n) :
    (sweep (after a) g n s).byteAt (after a k) = g k (sweep (after a) g k s) :=
  sweep_at h (fun _ hi _ hj => after_injective (by omega) (by omega)) hk

theorem sweep_before_at (h : Memory.wf s.mem = true) {a : Addr} (hn : n ≤ 2 ^ 24) {k : Nat} (hk : k < n) :
    (sweep (before a) g n s).byteAt (before a k) = g k (sweep (before a) g k s) :=
  sweep_at h (fun _ hi _ hj => before_injective (by omega) (by omega)) hk

theorem sweep_after_outside (h : Memory.wf s.mem = true) {a x : Addr}
    (hx : n ≤ (x - a).toNat) : (sweep (after a) g n s).byteAt x = s.byteAt x :=
  sweep_outside h fun k hk e => by
    have := (x - a).isLt
    rw [← e, after_sub (by omega)] at hx; omega

theorem sweep_before_outside (h : Memory.wf s.mem = true) {a x : Addr}
    (hx : n ≤ (a - x).toNat) : (sweep (before a) g n s).byteAt x = s.byteAt x :=
  sweep_outside h fun k hk e => by
    have := (a - x).isLt
    rw [← e, sub_before (by omega)] at hx; omega

@[simp] theorem after_zero (a : Addr) : after a 0 = a := by simp [after]

@[simp] theorem before_zero (a : Addr) : before a 0 = a := by simp [before]

theorem after_succ (a : Addr) (k : Nat) : after (a + 1) k = after a (k + 1) := Addr.succ_add a k

theorem State.setByte_installed (s : State) (a b : Addr) (v : Byte) (n : Nat) :
    (s.setByte a v).installed b n = s.installed b n :=
  State.installed_congr (s := s) (t := s.setByte a v) rfl b n

theorem byte_or_eq_zero (x y : Byte) : x ||| y = 0 ↔ x = 0 ∧ y = 0 := by
  constructor
  · intro h
    constructor
    · apply BitVec.eq_of_getLsbD_eq; intro i _
      have := congrArg (BitVec.getLsbD · i) h
      simp only [BitVec.getLsbD_or] at this
      simp_all
    · apply BitVec.eq_of_getLsbD_eq; intro i _
      have := congrArg (BitVec.getLsbD · i) h
      simp only [BitVec.getLsbD_or] at this
      simp_all
  · rintro ⟨rfl, rfl⟩; rfl

theorem State.installed_after {s : State} {a : Addr} {n k : Nat} (h : s.installed a n = true) (hk : k < n) :
    s.installed (after a k) 1 = true := State.installed_one h hk

/-- The bytes after the first are installed too. -/
theorem State.installed_tail {s : State} {a : Addr} {n : Nat} (h : s.installed a (n + 1) = true) :
    s.installed (a + 1) n = true := by
  simp only [State.installed, Bool.and_eq_true] at h
  exact h.2

theorem State.installed_head {s : State} {a : Addr} {n : Nat} (h : s.installed a (n + 1) = true) :
    s.installed a 1 = true := State.installed_mono h (by omega)

/-! ## The loops of the storage-to-storage instructions -/

/-- A run of stores installs nothing. -/
@[simp] theorem sweep_installed (addr : Nat → Addr) (g : Nat → State → Byte) (n : Nat) (s : State) (a : Addr)
    (m : Nat) : (sweep addr g n s).installed a m = s.installed a m :=
  State.installed_congr (s := s) (t := sweep addr g n s) (by simp) a m

theorem after_add_one (a : Addr) (k : Nat) : after a k + 1 = after a (k + 1) := by
  unfold after
  apply BitVec.eq_of_toNat_eq
  simp only [BitVec.toNat_add, BitVec.toNat_ofNat, show (1 : Addr).toNat = 1 from rfl]
  omega

/-- R513's loop after `m` steps. -/
theorem moveChars_steps (n : Nat) {m : Nat} {a b : Addr} {s : State}
    (h : ∀ k < m, s.installed (after a k) 1 = true ∧ s.installed (after b k) 1 = true) :
    moveChars (m + n) a b s = moveChars n (after a m) (after b m)
      (sweep (after a) (fun k u => u.byteAt (after b k)) m s) := by
  induction m generalizing n with
  | zero => simp [sweep]
  | succ m ih =>
    obtain ⟨ha, hb⟩ := h m (by omega)
    rw [show m + 1 + n = m + (n + 1) by omega, ih _ fun k hk => h k (by omega), moveChars,
      State.load_byte (by simpa using hb), ok_bind, State.store_byte (by simpa using ha), ok_bind,
      after_add_one, after_add_one]
    rfl

/-- R404's and R514's loop after `m` steps: what it has stored, and when what it gathers is still zero. -/
theorem combineChars_steps (f : Byte → Byte → Byte) (n : Nat) {m : Nat} {a b : Addr} {nz : Byte} {s : State}
    (h : ∀ k < m, s.installed (after a k) 1 = true ∧ s.installed (after b k) 1 = true) :
    let g := fun k (u : State) => f (u.byteAt (after a k)) (u.byteAt (after b k))
    ∃ nz', combineChars f (m + n) a b nz s =
        combineChars f n (after a m) (after b m) nz' (sweep (after a) g m s) ∧
      (nz' = 0 ↔ nz = 0 ∧ ∀ k < m, g k (sweep (after a) g k s) = 0) := by
  intro g
  induction m generalizing n with
  | zero => exact ⟨nz, by simp [sweep], by simp⟩
  | succ m ih =>
    obtain ⟨ha, hb⟩ := h m (by omega)
    obtain ⟨nz', e, hz⟩ := ih (n + 1) fun k hk => h k (by omega)
    refine ⟨nz' ||| g m (sweep (after a) g m s), ?_, ?_⟩
    · rw [show m + 1 + n = m + (n + 1) by omega, e, combineChars, State.load_byte (by simpa using ha), ok_bind,
        State.load_byte (by simpa using hb), ok_bind, State.store_byte (by simpa using ha), ok_bind,
        after_add_one, after_add_one]
      rfl
    · rw [byte_or_eq_zero, hz]
      constructor
      · rintro ⟨⟨h0, h⟩, hm⟩
        refine ⟨h0, fun k hk => ?_⟩
        by_cases hkm : k = m
        · rw [hkm]; exact hm
        · exact h k (by omega)
      · rintro ⟨h0, h⟩
        exact ⟨⟨h0, fun k hk => h k (by omega)⟩, h m (by omega)⟩

theorem table_entry (table : Addr) (v : Byte) : table + v.setWidth 24 = after table v.toNat := by
  unfold after; congr 1; apply BitVec.eq_of_toNat_eq; simp

/-- R425's loop after `m` steps, in a state whose bytes at the operand are still the argument bytes. -/
theorem translateChars_steps (table : Addr) (n : Nat) {m : Nat} {a : Addr} {s : State}
    (hw : Memory.wf s.mem = true) (hm : m ≤ 2 ^ 24)
    (h : ∀ k < m, s.installed (after a k) 1 = true ∧
      s.installed (after table (s.byteAt (after a k)).toNat) 1 = true) :
    translateChars table (m + n) a s = translateChars table n (after a m)
      (sweep (after a) (fun k u => u.byteAt (after table (s.byteAt (after a k)).toNat)) m s) := by
  induction m generalizing n with
  | zero => simp [sweep]
  | succ m ih =>
    obtain ⟨ha, ht⟩ := h m (by omega)
    rw [show m + 1 + n = m + (n + 1) by omega, ih _ (by omega) fun k hk => h k (by omega), translateChars,
      State.load_byte (by simpa using ha), ok_bind,
      sweep_after_outside hw (by rw [after_sub (by omega)]), table_entry,
      State.load_byte (by simpa using ht), ok_bind, State.store_byte (by simpa using ha), ok_bind,
      after_add_one]
    rfl

/-- The byte that a long operand gives at its step `k`, from a state. -/
def LongOperand.nth (y : LongOperand) (pad : Byte) (k : Nat) (u : State) : Byte :=
  if k < y.left then u.byteAt (after y.addr k) else pad

/-- A long operand after `k` bytes. -/
def LongOperand.advance (y : LongOperand) (k : Nat) : LongOperand :=
  { addr := after y.addr (min k y.left), left := y.left - min k y.left }

@[simp] theorem LongOperand.advance_zero (y : LongOperand) : y.advance 0 = y := by
  simp [LongOperand.advance]

theorem LongOperand.next_advance (y : LongOperand) (k : Nat) : (y.advance k).next = y.advance (k + 1) := by
  unfold LongOperand.next LongOperand.advance
  dsimp only
  split
  · rename_i h
    rw [show min k y.left = min (k + 1) y.left by omega]
  · rename_i h
    rw [show min k y.left = k by omega, show min (k + 1) y.left = k + 1 by omega, after_add_one,
      Nat.sub_sub]

theorem LongOperand.byte_advance {y : LongOperand} {pad : Byte} {k : Nat} {u : State}
    (h : k < y.left → u.installed (after y.addr k) 1 = true) :
    (y.advance k).byte pad u = .ok (y.nth pad k u) := by
  unfold LongOperand.byte LongOperand.nth LongOperand.advance
  dsimp only
  by_cases hk : k < y.left
  · rw [if_neg (by omega), if_pos hk, show min k y.left = k by omega, State.load_byte (h hk)]
  · rw [if_pos (by omega), if_neg hk]

theorem LongOperand.byte_missing {y : LongOperand} {pad : Byte} {k : Nat} {u : State} (hk : k < y.left)
    (h : u.installed (after y.addr k) 1 = false) :
    (y.advance k).byte pad u = .error (.program .addressing u) := by
  unfold LongOperand.byte LongOperand.advance
  dsimp only
  rw [if_neg (by omega), show min k y.left = k by omega, State.load_missing (w := 8) h]

/-- R516's loop after `m` steps. -/
theorem moveLong_steps (pad : Byte) (n : Nat) {m : Nat} {a : Addr} {y : LongOperand} {s : State}
    (h : ∀ k < m, s.installed (after a k) 1 = true ∧
      (k < y.left → s.installed (after y.addr k) 1 = true)) :
    moveLong pad (m + n) a y s =
      moveLong pad n (after a m) (y.advance m) (sweep (after a) (y.nth pad) m s) := by
  induction m generalizing n with
  | zero => simp [sweep]
  | succ m ih =>
    obtain ⟨ha, hy⟩ := h m (by omega)
    rw [show m + 1 + n = m + (n + 1) by omega, ih _ fun k hk => h k (by omega), moveLong,
      LongOperand.byte_advance (by simpa using hy), ok_bind, State.store_byte (by simpa using ha), ok_bind,
      after_add_one, LongOperand.next_advance]
    rfl

/-! ## The loops that only compare -/

/-- R416's loop after `m` equal pairs. -/
theorem compareChars_steps (s : State) (n : Nat) {m : Nat} {a b : Addr}
    (h : ∀ k < m, (s.installed (after a k) 1 = true ∧ s.installed (after b k) 1 = true) ∧
      s.byteAt (after a k) = s.byteAt (after b k)) :
    compareChars s (m + n) a b = compareChars s n (after a m) (after b m) := by
  induction m generalizing n with
  | zero => simp
  | succ m ih =>
    obtain ⟨⟨ha, hb⟩, he⟩ := h m (by omega)
    rw [show m + 1 + n = m + (n + 1) by omega, ih _ fun k hk => h k (by omega), compareChars,
      State.load_byte ha, ok_bind, State.load_byte hb, ok_bind, if_pos he, after_add_one, after_add_one]

/-- R417's loop after `m` equal pairs. -/
theorem compareMasked_steps (s : State) (v : Word) (js : List Nat) {m : Nat} {a : Addr} (hm : m ≤ js.length)
    (h : ∀ k < m, s.installed (after a k) 1 = true ∧ byteOfWord v (js.getD k 0) = s.byteAt (after a k)) :
    compareMasked s v js a = compareMasked s v (js.drop m) (after a m) := by
  induction m with
  | zero => simp
  | succ m ih =>
    obtain ⟨ha, he⟩ := h m (by omega)
    have hm' : m < js.length := by omega
    rw [ih (by omega) fun k hk => h k (by omega), List.drop_eq_getElem_cons hm', compareMasked,
      State.load_byte ha, ok_bind, if_pos (by rw [← he, List.getD_eq_getElem _ _ hm']), after_add_one]

/-- R418's loop after `m` equal pairs, an exhausted operand giving the pad. -/
theorem compareLong_steps (s : State) (pad : Byte) (n : Nat) {m : Nat} {x y : LongOperand}
    (h : ∀ k < m, ((k < x.left → s.installed (after x.addr k) 1 = true) ∧
      (k < y.left → s.installed (after y.addr k) 1 = true)) ∧ x.nth pad k s = y.nth pad k s) :
    compareLong s pad (m + n) x y = compareLong s pad n (x.advance m) (y.advance m) := by
  induction m generalizing n with
  | zero => simp
  | succ m ih =>
    obtain ⟨⟨hx, hy⟩, he⟩ := h m (by omega)
    rw [show m + 1 + n = m + (n + 1) by omega, ih _ fun k hk => h k (by omega), compareLong,
      LongOperand.byte_advance hx, ok_bind, LongOperand.byte_advance hy, ok_bind, if_pos he,
      LongOperand.next_advance, LongOperand.next_advance]

/-- R426's loop after `m` zero function bytes. -/
theorem scanChars_steps (s : State) (table : Addr) (n : Nat) {m : Nat} {a : Addr}
    (h : ∀ k < m, (s.installed (after a k) 1 = true ∧
      s.installed (after table (s.byteAt (after a k)).toNat) 1 = true) ∧
      s.byteAt (after table (s.byteAt (after a k)).toNat) = 0) :
    scanChars s table (m + n) a = scanChars s table n (after a m) := by
  induction m generalizing n with
  | zero => simp
  | succ m ih =>
    obtain ⟨⟨ha, ht⟩, he⟩ := h m (by omega)
    rw [show m + 1 + n = m + (n + 1) by omega, ih _ fun k hk => h k (by omega), scanChars,
      State.load_byte ha, ok_bind, table_entry, State.load_byte ht, ok_bind, if_pos he, after_add_one]

end Sys2Proof.Machine
end

