-- ==== Sys2Proof/Laws/Decimal.lean ====
section
/-! SUPPORT. The decimal digits of packed fields, and the right-to-left loops of MVO, PACK and UNPK as runs of
single-byte stores (`spec/46_decimal.md` R700 to R705, R717 to R719); storing a packed field byte after byte (R702). -/

namespace Sys2Proof.Machine

/-! ## Digits -/

@[simp] theorem digitAt_toNat (m k : Nat) : (digitAt m k).toNat = m / 10 ^ k % 10 := by
  simp only [digitAt, BitVec.toNat_ofNat]
  omega

theorem hiNib_append (a b : Nib) : (hiNib (a ++ b : Byte)).toNat = a.toNat := by
  revert a b; decide

theorem loNib_append (a b : Nib) : (loNib (a ++ b : Byte)).toNat = b.toNat := by
  revert a b; decide

theorem nibblesOf_length (bs : List Byte) : (nibblesOf bs).length = 2 * bs.length := by
  induction bs with
  | nil => rfl
  | cons b bs ih => simp only [nibblesOf, List.length_cons, ih]; ring

/-- The half-bytes of a packed result, left to right: the digits, then the sign code. -/
theorem nibblesOf_packedBytes (mag : Nat) (neg : Bool) (n : Nat) :
    nibblesOf (packedBytes mag neg n) =
      (List.range (2 * n + 1)).map (fun i => mag / 10 ^ (2 * n - i) % 10) ++
        [if neg then 0xD else 0xC] := by
  induction n with
  | zero =>
    simp only [packedBytes, nibblesOf, hiNib_append, loNib_append, digitAt_toNat]
    cases neg <;> simp [List.range_succ]
  | succ n ih =>
    simp only [packedBytes, nibblesOf, hiNib_append, loNib_append, digitAt_toNat, ih]
    have e : List.range (2 * (n + 1) + 1) = 0 :: 1 :: (List.range (2 * n + 1)).map (· + 2) := by
      rw [show 2 * (n + 1) + 1 = (2 * n + 1) + 1 + 1 by ring,
        List.range_succ_eq_map (n := 2 * n + 1 + 1), List.range_succ_eq_map (n := 2 * n + 1)]
      simp only [List.map_cons, List.map_map]
      rfl
    rw [e]
    simp only [List.map_cons, List.map_map, List.cons_append]
    congr 3
    apply List.map_congr_left
    intro i _
    simp only [Function.comp]
    congr 3
    omega

theorem digitsValue_append (ds : List Nat) (d : Nat) :
    digitsValue (ds ++ [d]) = digitsValue ds * 10 + d := by simp [digitsValue]

/-- The low-order digits of a number make the number's remainder. -/
theorem digitsValue_range (mag n : Nat) :
    digitsValue ((List.range n).map (fun i => mag / 10 ^ (n - 1 - i) % 10)) = mag % 10 ^ n := by
  induction n generalizing mag with
  | zero => simp [digitsValue, Nat.mod_one]
  | succ n ih =>
    rw [List.range_succ, List.map_append, List.map_singleton, digitsValue_append]
    have : (List.range n).map (fun i => mag / 10 ^ (n + 1 - 1 - i) % 10) =
        (List.range n).map (fun i => (mag / 10) / 10 ^ (n - 1 - i) % 10) := by
      apply List.map_congr_left
      intro i hi
      rw [List.mem_range] at hi
      rw [Nat.div_div_eq_div_mul, ← pow_succ', show n - 1 - i + 1 = n + 1 - 1 - i by omega]
    rw [this, ih]
    simp only [Nat.add_sub_cancel, Nat.sub_self, pow_zero, Nat.div_one]
    rw [pow_succ', Nat.mod_mul]
    ring

theorem digitsValue_lt (ds : List Nat) (h : ds.all (· ≤ 9) = true) : digitsValue ds < 10 ^ ds.length := by
  induction ds using List.reverseRecOn with
  | nil => simp [digitsValue]
  | append_singleton ds d ih =>
    rw [List.all_append, Bool.and_eq_true] at h
    have := ih h.1
    have hd : d ≤ 9 := by simpa using h.2
    rw [digitsValue_append, List.length_append, List.length_singleton, pow_succ]
    omega

/-- A packed field of `n + 1` bytes holds `2n + 1` digits. -/
theorem mag_lt_of_packedOfBytes {bs : List Byte} {x : Packed} (h : packedOfBytes bs = some x) {n : Nat}
    (hl : bs.length = n + 1) : x.mag < 10 ^ (2 * n + 1) := by
  unfold packedOfBytes at h
  dsimp only at h
  split at h
  · rename_i hc
    cases h
    simp only [Bool.and_eq_true, decide_eq_true_eq] at hc
    have hlen : (nibblesOf bs).dropLast.length = 2 * n + 1 := by
      rw [List.length_dropLast, nibblesOf_length, hl]; omega
    have := digitsValue_lt _ hc.1
    rw [hlen] at this
    exact this
  · cases h

theorem demandPacked_some {bs : List Byte} {x : Packed} (h : packedOfBytes bs = some x) (s : State) :
    demandPacked bs s = .ok x := by unfold demandPacked; rw [h]

theorem demandPacked_none {bs : List Byte} (h : packedOfBytes bs = none) (s : State) :
    demandPacked bs s = .error (.program .data s) := by unfold demandPacked; rw [h]; rfl

/-- Storing one list after the other. -/
theorem State.setBytes_append (s : State) (a : Addr) (xs ys : List Byte) :
    s.setBytes a (xs ++ ys) = (s.setBytes a xs).setBytes (after a xs.length) ys := by
  induction xs generalizing s a with
  | nil => simp [State.setBytes]
  | cons x xs ih => simp only [List.cons_append, State.setBytes, List.length_cons, ih, after_succ]

/-! ## Storing byte after byte (R83, R702) -/

/-- The stores go through as far as the bytes are installed. -/
theorem State.storeEach_append {s : State} {a : Addr} {xs : List Byte} (ys : List Byte)
    (h : s.installed a xs.length = true) :
    s.storeEach a (xs ++ ys) = (s.setBytes a xs).storeEach (after a xs.length) ys := by
  induction xs generalizing s a with
  | nil => simp [State.setBytes]
  | cons x xs ih =>
    rw [List.cons_append, State.storeEach, State.store_byte (State.installed_head h), ok_bind,
      ih (by rw [State.setByte_installed]; exact State.installed_tail h), State.setBytes, List.length_cons,
      after_succ]

/-- All of the bytes are installed. -/
theorem State.storeEach_installed {s : State} {a : Addr} {bs : List Byte}
    (h : s.installed a bs.length = true) : s.storeEach a bs = .ok (s.setBytes a bs) := by
  have := State.storeEach_append [] h
  rwa [List.append_nil] at this

/-- The first byte that is not installed ends them, with the earlier ones stored. -/
theorem State.storeEach_missing {s : State} {a : Addr} {bs : List Byte} {m : Nat} (hm : m < bs.length)
    (h : s.installed a m = true) (hn : s.installed (after a m) 1 = false) :
    s.storeEach a bs = .error (.program .addressing (s.setBytes a (bs.take m))) := by
  have hl : (bs.take m).length = m := by rw [List.length_take]; omega
  have := State.storeEach_append (s := s) (a := a) (xs := bs.take m) (bs.drop m) (by rwa [hl])
  rw [List.take_append_drop, hl, List.drop_eq_getElem_cons hm, State.storeEach] at this
  rw [this, State.store_missing (w := 8)]
  · rfl
  · exact (State.installed_congr (s := s) (by simp) _ _).trans hn

theorem decWrite_installed {s : State} {a : Addr} {l : Nat} (h : s.installed a (l + 1) = true) (mag : Nat)
    (neg : Bool) : decWrite a l mag neg s = .ok (s.setBytes a (packedBytes mag neg l)) :=
  State.storeEach_installed (by simpa using h)

theorem decWrite_missing {s : State} {a : Addr} {l m : Nat} (hm : m ≤ l) (h : s.installed a m = true)
    (hn : s.installed (after a m) 1 = false) (mag : Nat) (neg : Bool) :
    decWrite a l mag neg s = .error (.program .addressing (s.setBytes a ((packedBytes mag neg l).take m))) :=
  State.storeEach_missing (by simpa using (by omega : m < l + 1)) h hn

/-! ## The right-to-left loops -/

/-- The byte `k` from the right end of an operand of `i + k + 1` bytes is its byte `i`. -/
theorem before_after (a : Addr) (i k : Nat) : before (after a (k + i)) k = after a i := by
  apply BitVec.eq_of_toNat_eq
  unfold before after
  simp only [BitVec.toNat_sub, BitVec.toNat_add, BitVec.toNat_ofNat]
  omega

/-- What an earlier state of a right-to-left run shows is seen in every later one (`seenBefore`). -/
theorem sweep_seenBefore_earlier {g : Nat → State → Byte} {s : State} (h : Memory.wf s.mem = true) {e : Addr}
    {j k n : Nat} (hj : j ≤ k) (hk : k ≤ n) (hn : n ≤ 2 ^ 24) (x : Addr) :
    seenBefore s (sweep (before e) g k s) e j x = seenBefore s (sweep (before e) g n s) e j x := by
  rw [← sweep_seenBefore h (by omega) hj, ← sweep_seenBefore h hn (by omega)]

theorem rightHalf_sweep {g : Nat → State → Byte} {s : State} (h : Memory.wf s.mem = true) {e b : Addr} {n k m : Nat}
    (hk : k ≤ m) (hm : m ≤ 2 ^ 24) (j : Nat) : rightHalf s (sweep (before e) g m s) e b n k j =
      if j ≤ n then loNib ((sweep (before e) g k s).byteAt (before b j)) else 0 := by
  unfold rightHalf; rw [sweep_seenBefore h hm hk]

theorem leftHalf_sweep {g : Nat → State → Byte} {s : State} (h : Memory.wf s.mem = true) {e b : Addr} {n k m : Nat}
    (hk : k ≤ m) (hm : m ≤ 2 ^ 24) (j : Nat) : leftHalf s (sweep (before e) g m s) e b n k j =
      if j ≤ n then hiNib ((sweep (before e) g k s).byteAt (before b j)) else 0 := by
  unfold leftHalf; rw [sweep_seenBefore h hm hk]

/-- One store of a right-to-left run. -/
theorem sweep_store {addr : Nat → Addr} {g : Nat → State → Byte} {k : Nat} {s : State} {x : Addr} {v : Byte}
    (hx : x = addr k) (hv : v = g k (sweep addr g k s)) (hi : s.installed x 1 = true) :
    (sweep addr g k s).store x v = .ok (sweep addr g (k + 1) s) := by
  rw [State.store_byte (by simpa using hi), hx, hv]
  rfl

/-- R717's loop after the rightmost byte and `m` others: what it has stored, and the half-byte carried over. -/
theorem moveOffset_steps {a1 a2 : Addr} {n : Nat} (i : Nat) {m : Nat} {s : State} (hw : Memory.wf s.mem = true)
    (hm : m + i + 1 ≤ 2 ^ 24) :
    let e := after a1 (m + i)
    let b := after a2 n
    let run := sweep (before e) (fun k u => offsetByte s u e b n k)
    let carry := fun k => if k ≤ n then hiNib ((run k s).byteAt (before b k)) else 0
    (∀ k ≤ m, s.installed (before e k) 1 = true ∧ (k ≤ n → s.installed (before b k) 1 = true)) →
    moveOffset a1 a2 (m + i) n (hiNib (s.byteAt b)) (run 1 s) =
      moveOffset a1 a2 i (n - m) (carry m) (run (m + 1) s) := by
  intro e b run carry h
  suffices ∀ k ≤ m, moveOffset a1 a2 (m + i) n (hiNib (s.byteAt b)) (run 1 s) =
      moveOffset a1 a2 (m - k + i) (n - k) (carry k) (run (k + 1) s) by
    have := this m le_rfl
    simpa using this
  intro k
  induction k with
  | zero =>
    intro _
    simp [carry, run, sweep]
  | succ k ih =>
    intro hk
    rw [ih (by omega)]
    obtain ⟨he, hb⟩ := h (k + 1) hk
    have ea : a1 + BitVec.ofNat 24 (m - (k + 1) + i) = before e (k + 1) := by
      rw [show e = after a1 (k + 1 + (m - (k + 1) + i)) by simp only [e]; congr 1; omega, before_after]; rfl
    have gv : ∀ lo hi : Nib, lo = (if k + 1 ≤ n then loNib ((run (k + 1) s).byteAt (before b (k + 1))) else 0) →
        hi = carry k → lo ++ hi = offsetByte s (run (k + 1) s) e b n (k + 1) := by
      rintro lo hi rfl rfl
      rw [offsetByte, if_neg (show ¬k + 1 = 0 by omega), rightHalf_sweep hw le_rfl (by omega),
        leftHalf_sweep hw (by omega) (by omega)]
      rfl
    rw [show m - k + i = m - (k + 1) + i + 1 by omega]
    by_cases hkn : k + 1 ≤ n
    · rw [show n - k = n - (k + 1) + 1 by omega, moveOffset, ea,
        show a2 + BitVec.ofNat 24 (n - (k + 1)) = before b (k + 1) by
          rw [show b = after a2 (k + 1 + (n - (k + 1))) by simp only [b]; congr 1; omega, before_after]; rfl,
        State.load_byte (by simpa [run] using hb hkn), ok_bind,
        sweep_store rfl (gv _ _ (by rw [if_pos hkn]) rfl) he, ok_bind]
      simp only [carry, if_pos hkn]
      rfl
    · rw [show n - k = 0 by omega, show n - (k + 1) = 0 by omega, moveOffset, ea,
        sweep_store rfl (gv _ _ (by rw [if_neg hkn]) rfl) he, ok_bind]
      simp only [carry, if_neg hkn]
      rfl

/-- A numeric that PACK reads, by its distance from the right end. -/
theorem packDigit_eq {a2 : Addr} {n j : Nat} {u : State}
    (h : j + 1 ≤ n → u.installed (before (after a2 n) (j + 1)) 1 = true) :
    packDigit a2 (n - j) u =
      .ok (if j + 1 ≤ n then loNib (u.byteAt (before (after a2 n) (j + 1))) else 0) := by
  by_cases hj : j + 1 ≤ n
  · have e : after a2 (n - (j + 1)) = before (after a2 n) (j + 1) := by
      rw [show n = (j + 1) + (n - (j + 1)) by omega, before_after]; congr 1; omega
    rw [show n - j = n - (j + 1) + 1 by omega, packDigit, if_pos hj,
      show a2 + BitVec.ofNat 24 (n - (j + 1)) = after a2 (n - (j + 1)) from rfl, e, State.load_byte (h hj)]
    rfl
  · rw [show n - j = 0 by omega, if_neg hj]
    rfl

/-- R718's loop after the rightmost byte and `m` others. -/
theorem packLoop_steps {a1 a2 : Addr} {n : Nat} (i : Nat) {m : Nat} {s : State} (hw : Memory.wf s.mem = true)
    (hm : m + i + 1 ≤ 2 ^ 24) :
    let e := after a1 (m + i)
    let b := after a2 n
    let run := sweep (before e) (fun k u => packByte s u e b n k)
    (∀ k ≤ m, s.installed (before e k) 1 = true ∧
      ∀ j ∈ [2 * k - 1, 2 * k], j ≤ n → s.installed (before b j) 1 = true) →
    packLoop a1 a2 (m + i) n (run 1 s) = packLoop a1 a2 i (n - 2 * m) (run (m + 1) s) := by
  intro e b run h
  suffices ∀ k ≤ m, packLoop a1 a2 (m + i) n (run 1 s) =
      packLoop a1 a2 (m - k + i) (n - 2 * k) (run (k + 1) s) by
    have := this m le_rfl
    simpa using this
  intro k
  induction k with
  | zero => intro _; simp
  | succ k ih =>
    intro hk
    rw [ih (by omega)]
    obtain ⟨he, hb⟩ := h (k + 1) hk
    have ea : a1 + BitVec.ofNat 24 (m - (k + 1) + i) = before e (k + 1) := by
      rw [show e = after a1 (k + 1 + (m - (k + 1) + i)) by simp only [e]; congr 1; omega, before_after]; rfl
    have gv : ∀ lo hi : Nib,
        lo = (if 2 * k + 1 ≤ n then loNib ((run (k + 1) s).byteAt (before b (2 * k + 1))) else 0) →
        hi = (if 2 * k + 1 + 1 ≤ n then loNib ((run (k + 1) s).byteAt (before b (2 * k + 1 + 1))) else 0) →
        hi ++ lo = packByte s (run (k + 1) s) e b n (k + 1) := by
      rintro lo hi rfl rfl
      rw [packByte, if_neg (show ¬k + 1 = 0 by omega), rightHalf_sweep hw le_rfl (by omega), rightHalf_sweep hw le_rfl (by omega)]
      rfl
    rw [show m - k + i = m - (k + 1) + i + 1 by omega, packLoop, ea,
      packDigit_eq (j := 2 * k) (by simpa [run] using hb (2 * k + 1) (by simp; omega)), ok_bind,
      show n - 2 * k - 1 = n - (2 * k + 1) by omega,
      packDigit_eq (j := 2 * k + 1) (by simpa [run] using hb (2 * k + 1 + 1) (by simp; omega)), ok_bind,
      sweep_store rfl (gv _ _ rfl rfl) he, ok_bind, show n - 2 * k - 2 = n - 2 * (k + 1) by omega]

/-- R719's loop after the rightmost byte and `m` others: a left half is pending after an odd number of bytes,
unless the source is exhausted. -/
theorem unpackLoop_steps {a1 a2 : Addr} {n : Nat} (i : Nat) {m : Nat} {s : State} (hw : Memory.wf s.mem = true)
    (hm : m + i + 1 ≤ 2 ^ 24) :
    let e := after a1 (m + i)
    let b := after a2 n
    let run := sweep (before e) (fun k u => unpackByte s u e b n k)
    let pend := fun k => if k % 2 = 1 ∧ (k + 1) / 2 ≤ n then
      some (hiNib ((run k s).byteAt (before b ((k + 1) / 2)))) else none
    (∀ k ≤ m, s.installed (before e k) 1 = true ∧
      ∀ j ∈ (if k % 2 = 1 ∨ k = 0 then [(k + 1) / 2] else []), j ≤ n →
        s.installed (before b j) 1 = true) →
    unpackLoop a1 a2 (m + i) n none (run 1 s) =
      unpackLoop a1 a2 i (n - (m + 1) / 2) (pend m) (run (m + 1) s) := by
  intro e b run pend h
  suffices ∀ k ≤ m, unpackLoop a1 a2 (m + i) n none (run 1 s) =
      unpackLoop a1 a2 (m - k + i) (n - (k + 1) / 2) (pend k) (run (k + 1) s) by
    have := this m le_rfl
    simpa using this
  intro k
  induction k with
  | zero => intro _; simp [pend]
  | succ k ih =>
    intro hk
    rw [ih (by omega)]
    obtain ⟨he, hb⟩ := h (k + 1) hk
    have ea : a1 + BitVec.ofNat 24 (m - (k + 1) + i) = before e (k + 1) := by
      rw [show e = after a1 (k + 1 + (m - (k + 1) + i)) by simp only [e]; congr 1; omega, before_after]; rfl
    rw [show m - k + i = m - (k + 1) + i + 1 by omega]
    by_cases hodd : (k + 1) % 2 = 1
    · -- a right half, or zeros once the source is exhausted
      have gv : ∀ lo : Nib, lo = (if (k + 1 + 1) / 2 ≤ n
          then loNib ((run (k + 1) s).byteAt (before b ((k + 1 + 1) / 2))) else 0) →
          0xF#4 ++ lo = unpackByte s (run (k + 1) s) e b n (k + 1) := by
        rintro lo rfl
        rw [unpackByte, if_neg (show ¬k + 1 = 0 by omega), if_pos hodd, rightHalf_sweep hw le_rfl (by omega)]
      have hp : pend k = none := by simp only [pend]; rw [if_neg (by omega)]
      rw [hp]
      by_cases hn : (k + 1 + 1) / 2 ≤ n
      · have e2 : a2 + BitVec.ofNat 24 (n - (k + 1 + 1) / 2) = before b ((k + 1 + 1) / 2) := by
          rw [show b = after a2 ((k + 1 + 1) / 2 + (n - (k + 1 + 1) / 2)) by simp only [b]; congr 1; omega,
            before_after]; rfl
        rw [show n - (k + 1) / 2 = n - (k + 1 + 1) / 2 + 1 by omega, unpackLoop, ea, e2,
          State.load_byte (by simpa [run] using hb _ (by rw [if_pos (.inl hodd)]; exact List.mem_singleton.2 rfl) hn),
          ok_bind, sweep_store rfl (gv _ (by rw [if_pos hn])) he, ok_bind]
        simp only [pend]
        rw [if_pos ⟨hodd, hn⟩]
      · rw [show n - (k + 1) / 2 = 0 by omega, show n - (k + 1 + 1) / 2 = 0 by omega, unpackLoop, ea,
          sweep_store rfl ((show (0xF0 : Byte) = 0xF#4 ++ (0 : Nib) from rfl).trans (gv _ (by rw [if_neg hn]))) he,
          ok_bind]
        simp only [pend]
        rw [if_neg (by omega)]
    · -- the left half of the byte before
      have gv : ∀ d : Nib, d = (if (k + 1) / 2 ≤ n
          then hiNib ((run k s).byteAt (before b ((k + 1) / 2))) else 0) →
          0xF#4 ++ d = unpackByte s (run (k + 1) s) e b n (k + 1) := by
        rintro d rfl
        rw [unpackByte, if_neg (show ¬k + 1 = 0 by omega), if_neg hodd, leftHalf_sweep hw (by omega) (by omega)]
        rfl
      have hp' : pend (k + 1) = none := by simp only [pend]; rw [if_neg (by omega)]
      rw [hp', show (k + 1 + 1) / 2 = (k + 1) / 2 by omega]
      by_cases hn : (k + 1) / 2 ≤ n
      · have hp : pend k = some (hiNib ((run k s).byteAt (before b ((k + 1) / 2)))) := by
          simp only [pend]; rw [if_pos ⟨by omega, hn⟩]
        rw [hp, unpackLoop, ea, sweep_store rfl (gv _ (by rw [if_pos hn])) he, ok_bind]
      · have hp : pend k = none := by simp only [pend]; rw [if_neg (by omega)]
        rw [hp, show n - (k + 1) / 2 = 0 by omega, unpackLoop, ea,
          sweep_store rfl ((show (0xF0 : Byte) = 0xF#4 ++ (0 : Nib) from rfl).trans (gv _ (by rw [if_neg hn]))) he,
          ok_bind]

end Sys2Proof.Machine
end

