-- ==== Sys2Proof/Laws/Decode.lean ====
section
/-! SUPPORT. Fields cut out of bytes and put together again, and what a row of the opcode table needs to be
read back (`spec/30_encoding.md` R121 to R126, R140). -/

namespace Sys2Proof

/-! ## Halves of bytes -/

@[simp] theorem hiNib_append (a b : Nib) : hiNib (a ++ b : Byte) = a := by
  revert a b; decide

@[simp] theorem loNib_append (a b : Nib) : loNib (a ++ b : Byte) = b := by
  revert a b; decide

@[simp] theorem append_hiNib_loNib (b : Byte) : (hiNib b ++ loNib b : Byte) = b := by
  revert b; decide

/-! ## Base and displacement -/

@[simp] theorem hiNib_baseByte (b : Nib) (d : Disp) : hiNib (baseByte b d) = b :=
  hiNib_append b _

@[simp] theorem loNib_baseByte (b : Nib) (d : Disp) : loNib (baseByte b d) = d.extractLsb' 8 4 :=
  loNib_append b _

@[simp] theorem dispOf_baseByte (b : Nib) (d : Disp) : dispOf (baseByte b d) (dispByte d) = d := by
  rw [dispOf, loNib_baseByte, dispByte]
  apply BitVec.eq_of_getLsbD_eq
  intro i hi
  simp only [BitVec.getLsbD_append, BitVec.getLsbD_extractLsb']
  by_cases h : i < 8
  · simp [h]
  · have : i - 8 < 4 := by omega
    have : 8 + (i - 8) = i := by omega
    simp [*]

@[simp] theorem baseByte_dispOf (x y : Byte) : baseByte (hiNib x) (dispOf x y) = x := by
  have : (dispOf x y).extractLsb' 8 4 = loNib x := by
    apply BitVec.eq_of_getLsbD_eq
    intro i hi
    simp only [dispOf, BitVec.getLsbD_append, BitVec.getLsbD_extractLsb']
    simp [hi]
  rw [baseByte, this, append_hiNib_loNib]

@[simp] theorem dispByte_dispOf (x y : Byte) : dispByte (dispOf x y) = y := by
  apply BitVec.eq_of_getLsbD_eq
  intro i hi
  simp only [dispByte, dispOf, BitVec.getLsbD_append, BitVec.getLsbD_extractLsb']
  simp [hi]

/-! ## The function bits of the channel instructions -/

@[simp] theorem fn_append (fn : BitVec 7) (b : BitVec 1) : (fn ++ b).extractLsb' 1 7 = fn := by
  revert fn b; decide

@[simp] theorem fn_low_zero (fn : BitVec 7) : (fn ++ 0#1 : Byte).getLsbD 0 = false := by
  revert fn; decide

@[simp] theorem fn_low_one (fn : BitVec 7) : (fn ++ 1#1 : Byte).getLsbD 0 = true := by
  revert fn; decide

theorem append_fn (b : Byte) :
    (b.extractLsb' 1 7 ++ (if b.getLsbD 0 then 1#1 else 0#1) : Byte) = b := by
  revert b; decide

/-! ## Decoding -/

/-- Decoding bytes that are long enough is assembling the first six, zeros standing for those that are
missing. -/
theorem decode_eq_ok_iff (b0 : Byte) (bs rest : List Byte) (i : Instr) :
    decode (b0 :: bs) = .ok (i, rest) ↔
      assemble b0 (bs.getD 0 0) (bs.getD 1 0) (bs.getD 2 0) (bs.getD 3 0) (bs.getD 4 0) = some i ∧
        instrLength b0 ≤ (b0 :: bs).length ∧ rest = (b0 :: bs).drop (instrLength b0) := by
  unfold decode
  dsimp only
  split
  · rename_i h
    rw [h]
    constructor
    · intro hh; cases hh
    · rintro ⟨hh, -⟩; cases hh
  · rename_i j h
    rw [h]
    split
    · rename_i hl
      constructor
      · intro hh; cases hh
      · rintro ⟨-, hl', -⟩; omega
    · rename_i hl
      constructor
      · intro hh; cases hh; exact ⟨rfl, by omega, rfl⟩
      · rintro ⟨hj, -, hr⟩; cases hj; rw [hr]

/-! ## Rows of the opcode table, read and written -/

theorem b2_toNat_ne : ∀ fn : Byte, namedB2.contains fn = false →
    fn.toNat ≠ 2 ∧ fn.toNat ≠ 3 ∧ fn.toNat ≠ 4 ∧ fn.toNat ≠ 5 ∧ fn.toNat ≠ 6 ∧ fn.toNat ≠ 7 ∧
    fn.toNat ≠ 8 ∧ fn.toNat ≠ 9 ∧ fn.toNat ≠ 10 ∧ fn.toNat ≠ 11 ∧ fn.toNat ≠ 13 ∧ fn.toNat ≠ 16 ∧
    fn.toNat ≠ 17 ∧ fn.toNat ≠ 18 ∧ fn.toNat ≠ 19 := by decide

theorem b2_toNat_eq : ∀ fn : Byte, namedB2.contains fn = true →
    fn.toNat = 2 ∨ fn.toNat = 3 ∨ fn.toNat = 4 ∨ fn.toNat = 5 ∨ fn.toNat = 6 ∨ fn.toNat = 7 ∨
    fn.toNat = 8 ∨ fn.toNat = 9 ∨ fn.toNat = 10 ∨ fn.toNat = 11 ∨ fn.toNat = 13 ∨ fn.toNat = 16 ∨
    fn.toNat = 17 ∨ fn.toNat = 18 ∨ fn.toNat = 19 := by decide

/-- A second byte that no named row has takes the catch-all row. -/
theorem rowS_b2xx (fn b2 b3 : Byte) (hn : namedB2.contains fn = false) :
    rowS 0xB2 fn b2 b3 = some (.b2xx fn { b2 := hiNib b2, d2 := dispOf b2 b3 }) := by
  have := b2_toNat_ne fn hn
  unfold rowS
  dsimp only
  split <;> first | (rename_i h; exact absurd h (by decide)) | skip
  split <;> first | rfl | (exfalso; omega)

/-- Bit 15 chooses the channel instruction. -/
theorem rowS_channel (fn : BitVec 7) (b2 b3 : Byte) :
    let o : OpsS := { b2 := hiNib b2, d2 := dispOf b2 b3 }
    rowS 0x9C (fn ++ 0#1) b2 b3 = some (.sio fn o) ∧ rowS 0x9C (fn ++ 1#1) b2 b3 = some (.siof fn o) ∧
    rowS 0x9D (fn ++ 0#1) b2 b3 = some (.tio fn o) ∧ rowS 0x9D (fn ++ 1#1) b2 b3 = some (.clrio fn o) ∧
    rowS 0x9E (fn ++ 0#1) b2 b3 = some (.hio fn o) ∧ rowS 0x9E (fn ++ 1#1) b2 b3 = some (.hdv fn o) := by
  simp only [rowS, fn_low_zero, fn_low_one, fn_append, Bool.false_eq_true, if_false, if_true, and_self]

/-! What a row reads, its encoding is: no bit of the bytes is dropped. -/

theorem rowRR_encode {op : Nat} {b1 : Byte} {i : Instr} (h : rowRR op b1 = some i) :
    encode i = [BitVec.ofNat 8 op, b1] ∧ i.wellFormed = true := by
  unfold rowRR at h
  dsimp only at h
  split at h <;> cases h <;> simp [encode, encRR, Instr.wellFormed]

theorem rowRX_encode {op : Nat} {b1 b2 b3 : Byte} {i : Instr} (h : rowRX op b1 b2 b3 = some i) :
    encode i = [BitVec.ofNat 8 op, b1, b2, b3] ∧ i.wellFormed = true := by
  unfold rowRX at h
  dsimp only at h
  split at h <;> cases h <;> simp [encode, encRX, Instr.wellFormed]

theorem rowRS_encode {op : Nat} {b1 b2 b3 : Byte} {i : Instr} (h : rowRS op b1 b2 b3 = some i) :
    encode i = [BitVec.ofNat 8 op, b1, b2, b3] ∧ i.wellFormed = true := by
  unfold rowRS at h
  dsimp only at h
  split at h <;> cases h <;> simp [encode, encRS, Instr.wellFormed]

theorem rowSI_encode {op : Nat} {b1 b2 b3 : Byte} {i : Instr} (h : rowSI op b1 b2 b3 = some i) :
    encode i = [BitVec.ofNat 8 op, b1, b2, b3] ∧ i.wellFormed = true := by
  unfold rowSI at h
  dsimp only at h
  split at h <;> cases h <;> simp [encode, encSI, Instr.wellFormed]

theorem rowSS_encode {op : Nat} {b1 b2 b3 b4 b5 : Byte} {i : Instr}
    (h : rowSS op b1 b2 b3 b4 b5 = some i) :
    encode i = [BitVec.ofNat 8 op, b1, b2, b3, b4, b5] ∧ i.wellFormed = true := by
  unfold rowSS at h
  dsimp only at h
  split at h <;> first | (cases h; simp [encode, encSS, Instr.wellFormed]) | skip
  split at h <;> cases h <;> simp [encode, encSS2, Instr.wellFormed]

theorem append_fn_zero : ∀ b : Byte, b.getLsbD 0 = false → b.extractLsb' 1 7 ++ 0#1 = b := by decide
theorem append_fn_one : ∀ b : Byte, b.getLsbD 0 = true → b.extractLsb' 1 7 ++ 1#1 = b := by decide

theorem byte_eq_ofNat {b : Byte} {n : Nat} (h : b.toNat = n) : b = BitVec.ofNat 8 n := by
  rw [← h]; simp

theorem rowS_encode {op : Nat} {b1 b2 b3 : Byte} {i : Instr} (h : rowS op b1 b2 b3 = some i) :
    encode i = [BitVec.ofNat 8 op, b1, b2, b3] ∧ i.wellFormed = true := by
  unfold rowS at h
  dsimp only at h
  split at h
  iterate 3
    · split at h <;> rename_i hb <;> cases h <;>
       first
        | (simp only [Bool.not_eq_true] at hb; simp [encode, encS, append_fn_zero _ hb, Instr.wellFormed])
        | simp [encode, encS, append_fn_one _ hb, Instr.wellFormed]
  · cases h; simp [encode, encS, Instr.wellFormed]
  · split at h
    iterate 15
      · rename_i hb; cases h; simp [encode, encS, Instr.wellFormed, byte_eq_ofNat hb]
    · cases h
      simp only [Instr.wellFormed, encode, encS]
      have hn : namedB2.contains b1 = false := by
        by_contra hh
        have := b2_toNat_eq b1 (by simpa using hh)
        simp_all
      rw [hn]
      simp
  · cases h

/-- What is assembled is well-formed, and its encoding is the bytes it was assembled from. -/
theorem assemble_encode {b0 b1 b2 b3 b4 b5 : Byte} {i : Instr} (h : assemble b0 b1 b2 b3 b4 b5 = some i) :
    encode i = [b0, b1, b2, b3, b4, b5].take (instrLength b0) ∧ i.wellFormed = true := by
  have hb : BitVec.ofNat 8 b0.toNat = b0 := by simp
  have orElse : ∀ {a b : Option Instr}, (a <|> b) = some i → a = some i ∨ b = some i := by
    intro a b; cases a <;> simp +contextual
  unfold assemble at h
  split at h
  · rename_i h2; rw [h2, (rowRR_encode h).1, hb]; exact ⟨rfl, (rowRR_encode h).2⟩
  · split at h
    · rename_i h6; rw [h6, (rowSS_encode h).1, hb]; exact ⟨rfl, (rowSS_encode h).2⟩
    · have h4 : instrLength b0 = 4 := by
        rename_i h2 h6
        revert h2 h6; unfold instrLength; split <;> [simp; (split <;> simp)]
      have : encode i = [BitVec.ofNat 8 b0.toNat, b1, b2, b3] ∧ i.wellFormed = true := by
        rcases orElse h with h | h
        · exact rowRX_encode h
        rcases orElse h with h | h
        · exact rowRS_encode h
        rcases orElse h with h | h
        · exact rowSI_encode h
        · exact rowS_encode h
      rw [h4, this.1, hb]
      exact ⟨rfl, this.2⟩

/-- An instruction that was decoded is as long as its opcode byte says (R120). -/
theorem length_of_decode {b0 : Byte} {bs rest : List Byte} {i : Instr}
    (h : decode (b0 :: bs) = .ok (i, rest)) : i.length = instrLength b0 := by
  obtain ⟨ha, -, -⟩ := (decode_eq_ok_iff _ _ _ _).1 h
  rw [Instr.length, (assemble_encode ha).1]
  unfold instrLength
  split <;> [rfl; (split <;> rfl)]

/-! ## Which opcode bytes have a row -/

/-- The opcode byte alone decides whether a row matches (R140, R146). -/
theorem assemble_isSome (op b1 b2 b3 b4 b5 : Byte) :
    (assemble op b1 b2 b3 b4 b5).isSome = opcodeDefined op := by
  have rr : ∀ n x y, (rowRR n x).isSome = (rowRR n y).isSome := by
    intro n x y; unfold rowRR; dsimp only; split <;> rfl
  have rx : ∀ n x y z x' y' z', (rowRX n x y z).isSome = (rowRX n x' y' z').isSome := by
    intro n x y z x' y' z'; unfold rowRX; dsimp only; split <;> rfl
  have rs : ∀ n x y z x' y' z', (rowRS n x y z).isSome = (rowRS n x' y' z').isSome := by
    intro n x y z x' y' z'; unfold rowRS; dsimp only; split <;> rfl
  have si : ∀ n x y z x' y' z', (rowSI n x y z).isSome = (rowSI n x' y' z').isSome := by
    intro n x y z x' y' z'; unfold rowSI; dsimp only; split <;> rfl
  have ss : ∀ n x y z v w x' y' z' v' w',
      (rowSS n x y z v w).isSome = (rowSS n x' y' z' v' w').isSome := by
    intro n x y z v w x' y' z' v' w'
    unfold rowSS; dsimp only; split <;> first | rfl | (split <;> rfl)
  have s : ∀ n x y z, (rowS n x y z).isSome = (rowS n 0 0 0).isSome := by
    intro n x y z
    unfold rowS; dsimp only
    split <;> first | rfl | (split <;> rfl)
  unfold opcodeDefined assemble
  split
  · exact rr _ _ _
  · split
    · exact ss _ _ _ _ _ _ _ _ _ _ _
    · have oe : ∀ a b : Option Instr, (a <|> b).isSome = (a.isSome || b.isSome) := by
        intro a b; cases a <;> rfl
      simp only [oe]
      rw [rx _ b1 b2 b3 0 0 0, rs _ b1 b2 b3 0 0 0, si _ b1 b2 b3 0 0 0, s _ b1 b2 b3]

end Sys2Proof
end

