-- ==== Sys2Proof/Laws/Edit.lean ====
section
/-! SUPPORT. The loop of ED and EDMK: on a pattern and a source that lie apart it does what `editBytes` says, on any
operands what `editRun` says, as far as it gets (`spec/46_decimal.md` R722, R723). -/

namespace Sys2Proof.Machine

theorem withMark_setByte (mark : Bool) (a0 : Addr) (m : Option Nat) (s : State) (a : Addr) (v : Byte) :
    (State.withMark mark a0 m s).setByte a v = State.withMark mark a0 m (s.setByte a v) := by
  cases m <;> cases mark <;> rfl

theorem withMark_byteAt (mark : Bool) (a0 : Addr) (m : Option Nat) (s : State) (a : Addr) :
    (State.withMark mark a0 m s).byteAt a = s.byteAt a := by
  cases m <;> cases mark <;> rfl

theorem withMark_installed (mark : Bool) (a0 : Addr) (m : Option Nat) (s : State) (a : Addr) (n : Nat) :
    (State.withMark mark a0 m s).installed a n = s.installed a n := by
  cases m <;> cases mark
  · rfl
  · rfl
  · rfl
  · exact State.installed_congr (s := s) (t := State.withMark true a0 (some _) s) rfl a n

/-- Putting an address into bits 8-31 of a word. -/
theorem or_setWidth_eq_append (x : Word) (a : Addr) : (x &&& 0xFF000000) ||| a.setWidth 32 = x.extractLsb' 24
    8 ++ a := by
  apply BitVec.eq_of_getLsbD_eq
  intro i hi
  have hi : i < 32 := hi
  have hm : (0xFF000000 : Word).getLsbD i = decide (24 ≤ i) := by interval_cases i <;> rfl
  simp only [BitVec.getLsbD_or, BitVec.getLsbD_and, BitVec.getLsbD_append, BitVec.getLsbD_setWidth,
    BitVec.getLsbD_extractLsb', hm]
  by_cases h : i < 24
  · have h1 : ¬24 ≤ i := by omega
    simp [h, h1, hi]
  · have h1 : 24 ≤ i := by omega
    have h2 : i - 24 < 8 := by omega
    have h3 : 24 + (i - 24) = i := by omega
    simp [h, h1, h2, h3]

/-- A later mark replaces an earlier one. -/
theorem withMark_markEdit (mark : Bool) (a0 : Addr) (m : Option Nat) (k : Nat) (c : Bool) (s : State) :
    (State.withMark mark a0 m s).markEdit (mark && c) (after a0 k) = State.withMark mark a0
        (if c then some k else m) s := by
  unfold State.markEdit
  cases mark <;> cases c <;> cases m <;> simp only [State.withMark, Bool.and_true, Bool.and_false, if_true,
      if_false, Bool.false_eq_true, or_setWidth_eq_append]
  · rename_i j
    rw [State.getGr_setGr_self]
    have : ∀ (x : BitVec 8) (y : Addr), (x ++ y : Word).extractLsb' 24 8 = x := by
      intro x y
      apply BitVec.eq_of_getLsbD_eq
      intro i hi
      have h1 : ¬24 + i < 24 := by omega
      simp only [BitVec.getLsbD_extractLsb', BitVec.getLsbD_append, hi, h1, decide_true, Bool.true_and,
          if_false]
      congr 1
      omega
    rw [this]
    simp [State.setGr]

/-- Bytes that do not hold the stored address stay. -/
theorem State.bytesAt_setByte_of_outside {s : State} (hw : Memory.wf s.mem = true) (a b : Addr) (v : Byte)
    (n : Nat)
    (h : ∀ k < n, after b k ≠ a) : (s.setByte a v).bytesAt b n = s.bytesAt b n := by
  induction n generalizing b with
  | zero => rfl
  | succ n ih =>
    have h0 := h 0 (by omega)
    rw [after_zero] at h0
    simp only [State.bytesAt]
    rw [State.byteAt_setByte hw, if_neg (Ne.symm h0), ih]
    intro k hk
    rw [after_succ]; exact h (k+1) (by omega)

theorem nibbles_toNat (b : Byte) : (hiNib b).toNat = b.toNat / 16 ∧ (loNib b).toNat = b.toNat % 16 := by
  revert b; decide

/-- What the loop carries, and what the scan over lists carries. -/
def EditState.Matches (e : EditState) (es : EditScan) : Prop :=
  e.sig = es.sig ∧ e.nz = es.nonzero ∧ e.pend.map (fun b => (loNib b).toNat) = es.half

/-- A digit in zoned form (R702). -/
theorem zoned_digit (d : Nat) (h : d ≤ 9) :
    ((0xF : Nib) ++ BitVec.ofNat 4 d : Byte) = 0xF0 + BitVec.ofNat 8 d := by
  interval_cases d <;> rfl

/-- What a digit selector or significance starter leaves (R722), as `editBytes` has it. -/
def nextScan (es : EditScan) (p : Byte) (d : Nat) (right : Option Nat) (marked : Option Nat) : EditScan :=
  let on := es.sig || decide (d ≠ 0) || decide (p = 0x21)
  let nonzero := es.nonzero || decide (d ≠ 0)
  match right with
  | none => { sig := on, nonzero := nonzero, half := none, marked := marked }
  | some h =>
    if h ≤ 9 then { sig := on, nonzero := nonzero, half := some h, marked := marked }
    else if h = 0xB ∨ h = 0xD then { sig := on, nonzero := nonzero, half := none, marked := marked }
    else { sig := false, nonzero := nonzero, half := none, marked := marked }

/-- A selector takes the digit that `nextDigit` gives. -/
theorem editSelector_eq (mark : Bool) (fill p : Byte) (a0 : Addr) (k : Nat)
    (e : EditState) (es : EditScan)
    (m : Nat) (u : State) (hr : EditState.Matches e es) (hs : u.installed e.src m = true)
    (d : Nat) (right : Option Nat) (src' : List Byte) (hd : nextDigit es (u.bytesAt e.src m) = some
        (d, right, src')) (h9 : d ≤ 9) :
    ∃ e', ∃ m', editSelector mark fill p (after a0 k) e (State.withMark mark a0 es.marked u) =
      .ok (if es.sig ∨ d ≠ 0 then 0xF0 + BitVec.ofNat 8 d else fill, e', State.withMark mark a0
          (if ¬es.sig ∧ d ≠ 0 then some k else es.marked) u) ∧
      (∃ j, m = j + m' ∧ e'.src = after e.src j) ∧ src' = u.bytesAt e'.src m' ∧
      EditState.Matches e' (nextScan es p d right es.marked) := by
  obtain ⟨r1, r2, r3⟩ := hr
  have core : ∀ (b : Byte) (src : Addr) (fromPend : Bool), editDigit e (State.withMark mark a0 es.marked u) =
      .ok (b, d, src) →
      editSelector mark fill p (after a0 k) e (State.withMark mark a0 es.marked u) =
      .ok (if es.sig ∨ d ≠ 0 then 0xF0 + BitVec.ofNat 8 d else fill,
        (let isSign := e.pend.isNone && decide (0xA ≤ (loNib b).toNat)
         { sig := (es.sig || decide (d ≠ 0) || p == 0x21) && !(isSign && plusSign (loNib b).toNat), nz :=
             es.nonzero || decide (d ≠ 0), src := src,
           pend := if e.pend.isNone && !isSign then some b else none }), State.withMark mark a0
               (if ¬es.sig ∧ d ≠ 0 then some k else es.marked) u) := by
    intro b src _ h
    unfold editSelector
    rw [h, ok_bind]
    dsimp only
    have : decide (d ≤ 9) = true := by simpa using h9
    rw [this, demand_true, ok_bind, withMark_markEdit, zoned_digit d h9, r1, r2]
    have c1 : (es.sig || !es.sig && decide (d ≠ 0)) = (es.sig || decide (d ≠ 0)) := by cases es.sig <;> rfl
    simp only [c1, Bool.or_eq_true, decide_eq_true_eq, Bool.and_eq_true, Bool.not_eq_true', Bool.not_eq_true]
    rfl
  unfold nextDigit at hd
  cases hp : e.pend with
  | some b =>
    rw [hp] at r3
    rw [← r3] at hd
    simp only [Option.map_some, Option.some.injEq, Prod.mk.injEq] at hd
    obtain ⟨hd1, hd2, hd3⟩ := hd
    refine ⟨_, m, core b e.src true (by unfold editDigit; rw [hp]; dsimp only; rw [hd1]),
        ⟨0, by omega, by simp⟩, hd3.symm, ?_⟩
    rw [← hd2]
    simp only [hp, nextScan]
    refine ⟨?_, rfl, rfl⟩
    simp only [Option.isNone_some, Bool.false_and, Bool.not_false, Bool.and_true]
    congr 1
  | none =>
    rw [hp] at r3
    rw [← r3] at hd
    cases m with
    | zero => simp [State.bytesAt] at hd
    | succ m =>
      simp only [State.bytesAt, Option.map_none, Option.some.injEq, Prod.mk.injEq] at hd
      obtain ⟨hd1, hd2, hd3⟩ := hd
      have h1 : (State.withMark mark a0 es.marked u).load 8 e.src = .ok (u.byteAt e.src) := by
        rw [State.load_byte (by rw [withMark_installed]; exact State.installed_head hs), withMark_byteAt]
      have hdig : editDigit e (State.withMark mark a0 es.marked u) = .ok (u.byteAt e.src, d, e.src + 1) := by
        unfold editDigit
        rw [hp]
        dsimp only
        rw [h1, ok_bind, (nibbles_toNat _).1, hd1]
        rfl
      refine ⟨_, m, core (u.byteAt e.src) (e.src + 1) false hdig, ⟨1, by omega, rfl⟩, hd3.symm, ?_⟩
      rw [← hd2]
      simp only [hp, (nibbles_toNat _).2, nextScan]
      have hlt : (u.byteAt e.src).toNat % 16 < 16 := Nat.mod_lt _ (by norm_num)
      set h := (u.byteAt e.src).toNat % 16 with hh
      have hl : (loNib (u.byteAt e.src)).toNat = h := (nibbles_toNat _).2
      by_cases hle : h ≤ 9
      · have : decide (0xA ≤ h) = false := by rw [decide_eq_false_iff_not]; omega
        rw [if_pos hle]
        simp only [this]
        refine ⟨?_, rfl, ?_⟩
        · simp; rfl
        · simp [hl]
      · have : decide (0xA ≤ h) = true := by rw [decide_eq_true_eq]; omega
        rw [if_neg hle]
        simp only [this, Option.isNone_none, Bool.true_and]
        by_cases hm : h = 0xB ∨ h = 0xD
        · rw [if_pos hm]
          refine ⟨?_, rfl, rfl⟩
          rcases hm with hm | hm <;> rw [hm] <;> simp [plusSign] <;> rfl
        · rw [if_neg hm]
          refine ⟨?_, rfl, rfl⟩
          have : plusSign h = true := by
            unfold plusSign
            have : h = 10 ∨ h = 12 ∨ h = 14 ∨ h = 15 := by omega
            rcases this with h | h | h | h <;> rw [h] <;> rfl
          simp [this]

/-- The loop stores what `editBytes` gives, and marks what it marks. -/
theorem editLoop_eq (mark : Bool) (fill : Byte) (a0 : Addr) (n k : Nat) (e : EditState) (es : EditScan)
    (m : Nat) (u : State)
    (out : List Byte) (ef : EditScan) (hw : Memory.wf u.mem = true) (hn : n ≤ 2 ^ 24)
        (hr : EditState.Matches e es)
    (hi : u.installed (after a0 k) n = true) (hs : u.installed e.src m = true)
    (apart : ∀ i < m, ∀ j < n, after e.src i ≠ after a0 (k + j))
    (h : editBytes fill k (u.bytesAt (after a0 k) n) (u.bytesAt e.src m) es = some (out, ef)) :
    ∃ e', editLoop mark fill n (after a0 k) e (State.withMark mark a0 es.marked u) =
      .ok (e', State.withMark mark a0 ef.marked (u.setBytes (after a0 k) out)) ∧ e'.sig = ef.sig ∧ e'.nz =
          ef.nonzero := by
  induction n generalizing k e es m u out with
  | zero =>
    simp only [State.bytesAt, editBytes, Option.some.injEq, Prod.mk.injEq] at h
    obtain ⟨rfl, rfl⟩ := h
    exact ⟨e, rfl, hr.1, hr.2.1⟩
  | succ n ih =>
    have i1 : u.installed (after a0 k) 1 = true := State.installed_head hi
    have s1 : after a0 k + 1 = after a0 (k + 1) := by
      unfold after; apply BitVec.eq_of_toNat_eq; simp only [BitVec.toNat_add, BitVec.toNat_ofNat, show
          (1 : BitVec 24).toNat = 1 from rfl]; omega
    have sa : ∀ j, after (after a0 k) j = after a0 (k + j) := by
      intro j
      unfold after; apply BitVec.eq_of_toNat_eq; simp only [BitVec.toNat_add, BitVec.toNat_ofNat]; omega
    have sa1 : ∀ j, after (after a0 (k+1)) j = after a0 (k + 1 + j) := by
      intro j
      unfold after; apply BitVec.eq_of_toNat_eq; simp only [BitVec.toNat_add, BitVec.toNat_ofNat]; omega
    have ne : ∀ j < n, after a0 (k + 1 + j) ≠ after a0 k := by
      intro j hj he
      have h1 := after_sub (a := after a0 k) (k := j + 1) (by omega)
      rw [sa, show k + (j + 1) = k + 1 + j by omega, he] at h1
      simp at h1
    -- what remains after the first byte
    have rest : ∀ (r : Byte) (e1 : EditState) (es1 : EditScan) (j m' : Nat) (out' : List Byte), m = j + m' →
        e1.src = after e.src j → EditState.Matches e1 es1 →
        editBytes fill (k + 1) (u.bytesAt (after a0 (k + 1)) n) (u.bytesAt e1.src m') es1 = some (out', ef) →
        ∃ e', editLoop mark fill n (after a0 (k + 1)) e1 (State.withMark mark a0 es1.marked
            (u.setByte (after a0 k) r)) =
          .ok (e', State.withMark mark a0 ef.marked (u.setBytes (after a0 k) (r :: out'))) ∧ e'.sig = ef.sig
              ∧ e'.nz = ef.nonzero := by
      intro r e1 es1 j m' out' hm hsrc hr1 h1
      have srcs : ∀ i, after e1.src i = after e.src (j + i) := by
        intro i; rw [hsrc]
        unfold after; apply BitVec.eq_of_toNat_eq; simp only [BitVec.toNat_add, BitVec.toNat_ofNat]; omega
      have := ih (k + 1) e1 es1 m' (u.setByte (after a0 k) r) out' (State.setByte_wf hw _ _) (by omega) hr1
        (by rw [State.setByte_installed, ← s1]; exact State.installed_tail hi)
        (by
          rw [State.setByte_installed, State.installed_iff]
          rw [State.installed_iff] at hs
          intro i hi'
          have := hs (j + i) (by omega)
          have e2 : e1.src + BitVec.ofNat 24 i = e.src + BitVec.ofNat 24 (j + i) := srcs i
          rw [e2]; exact this)
        (by
          intro i hi' jj hj
          rw [srcs, show k + 1 + jj = k + (jj + 1) by omega]
          exact apart _ (by omega) _ (by omega))
        (by
          rw [State.bytesAt_setByte_of_outside hw _ _ _ _ (by intro j hj; rw [sa1]; exact ne j hj)]
          rw [State.bytesAt_setByte_of_outside hw _ _ _ _ (by
            intro i hi'
            rw [srcs]
            have := apart (j + i) (by omega) 0 (by omega)
            exact this)]
          exact h1)
      obtain ⟨e', he, h2, h3⟩ := this
      refine ⟨e', ?_, h2, h3⟩
      rw [he]; simp only [State.setBytes, s1]
    have ld : (State.withMark mark a0 es.marked u).load 8 (after a0 k) = .ok (u.byteAt (after a0 k)) := by
      rw [State.load_byte (by rw [withMark_installed]; exact i1), withMark_byteAt]
    have stb : ∀ mm v, (State.withMark mark a0 mm u).store (after a0 k) (v : Byte) = .ok
        (State.withMark mark a0 mm (u.setByte (after a0 k) v)) := by
      intro mm v
      rw [State.store_byte (by rw [withMark_installed]; exact i1), withMark_setByte]
    simp only [State.bytesAt] at h
    rw [s1] at h
    unfold editBytes at h
    rw [editLoop, ld, ok_bind, s1]
    dsimp only
    generalize hp : u.byteAt (after a0 k) = p at h ⊢
    by_cases hp20 : p = 0x20 ∨ p = 0x21
    · rw [if_pos hp20] at h ⊢
      cases hd : nextDigit es (u.bytesAt e.src m) with
      | none => rw [hd] at h; cases h
      | some t =>
        obtain ⟨d, right, src'⟩ := t
        rw [hd] at h
        dsimp only at h
        by_cases h9 : 9 < d
        · rw [if_pos h9] at h; cases h
        · rw [if_neg h9] at h
          obtain ⟨e1, m', sel, ⟨j, hj, hsrc⟩, hsrc', hrel⟩ := editSelector_eq mark fill p a0 k e es m u
              hr hs d right src' hd (by omega)
          rw [sel, ok_bind]
          dsimp only
          rw [stb, ok_bind]
          rw [Option.map_eq_some_iff] at h
          obtain ⟨⟨rs, ef'⟩, hb, heq⟩ := h
          simp only [Prod.mk.injEq] at heq
          obtain ⟨rfl, rfl⟩ := heq
          rw [hsrc'] at hb
          have := rest (if es.sig = true ∨ d ≠ 0 then 0xF0 + BitVec.ofNat 8 d else fill) e1
              (nextScan es p d right (if ¬es.sig = true ∧ d ≠ 0 then some k else es.marked)) j m' rs hj hsrc
              ?_ hb
          · have em : (nextScan es p d right (if ¬es.sig = true ∧ d ≠ 0 then some k else es.marked)).marked =
                if ¬es.sig = true ∧ d ≠ 0 then some k else es.marked := by
              unfold nextScan
              cases right with
              | none => rfl
              | some h => dsimp only; by_cases c1 : h ≤ 9; rw [if_pos c1]; rw [if_neg c1]; by_cases c2 : h =
                  0xB ∨ h = 0xD; rw [if_pos c2]; rw [if_neg c2]
            rw [em] at this
            exact this
          · obtain ⟨q1, q2, q3⟩ := hrel
            unfold nextScan at q1 q2 q3 ⊢
            cases right with
            | none => exact ⟨q1, q2, q3⟩
            | some h =>
              dsimp only at q1 q2 q3 ⊢
              by_cases c1 : h ≤ 9
              · rw [if_pos c1] at q1 q2 q3 ⊢; exact ⟨q1, q2, q3⟩
              · rw [if_neg c1] at q1 q2 q3 ⊢
                by_cases c2 : h = 0xB ∨ h = 0xD
                · rw [if_pos c2] at q1 q2 q3 ⊢; exact ⟨q1, q2, q3⟩
                · rw [if_neg c2] at q1 q2 q3 ⊢; exact ⟨q1, q2, q3⟩
    · rw [if_neg hp20] at h ⊢
      by_cases hp22 : p = 0x22
      · rw [if_pos hp22] at h ⊢
        rw [ok_bind]
        dsimp only
        rw [stb, ok_bind]
        rw [Option.map_eq_some_iff] at h
        obtain ⟨⟨rs, ef'⟩, hb, heq⟩ := h
        simp only [Prod.mk.injEq] at heq
        obtain ⟨rfl, rfl⟩ := heq
        exact rest fill { e with sig := false, nz := false } { es with sig := false, nonzero := false } 0 m
            rs (by omega) (by simp) ⟨rfl, rfl, hr.2.2⟩ hb
      · rw [if_neg hp22] at h ⊢
        rw [ok_bind]
        dsimp only
        rw [stb, ok_bind]
        rw [Option.map_eq_some_iff] at h
        obtain ⟨⟨rs, ef'⟩, hb, heq⟩ := h
        simp only [Prod.mk.injEq] at heq
        obtain ⟨rfl, rfl⟩ := heq
        rw [hr.1]
        exact rest _ e es 0 m rs (by omega) (by simp) hr hb

/-! ## Byte after byte, on any operands -/

theorem nextScan_marked (es : EditScan) (p : Byte) (d : Nat) (right m : Option Nat) :
    (nextScan es p d right m).marked = m := by
  unfold nextScan
  cases right with
  | none => rfl
  | some h => dsimp only; split <;> [rfl; split <;> rfl]

/-- Whether editing the pattern byte `p` fetches a source byte (R722). -/
def EditScan.Fetches (es : EditScan) (p : Byte) : Prop := (p = 0x20 ∨ p = 0x21) ∧ es.half = none

/-- A digit selector or significance starter edited alone. -/
theorem editBytes_selector {fill p x : Byte} {k : Nat} {es : EditScan} (hp : p = 0x20 ∨ p = 0x21) {d : Nat}
    {right : Option Nat} {src : List Byte} (hd : nextDigit es [x] = some (d, right, src)) :
    editBytes fill k [p] [x] es =
      if 9 < d then none
      else some ([if es.sig ∨ d ≠ 0 then 0xF0 + BitVec.ofNat 8 d else fill],
        nextScan es p d right (if ¬es.sig ∧ d ≠ 0 then some k else es.marked)) := by
  unfold editBytes
  rw [if_pos hp, hd]
  dsimp only
  split
  · rfl
  · rfl

/-- The digit that comes next, when the source byte it may need is given. -/
theorem nextDigit_of_half {es : EditScan} {d : Nat} (h : es.half = some d) (src : List Byte) :
    nextDigit es src = some (d, none, src) := by unfold nextDigit; rw [h]

theorem nextDigit_of_fetch {es : EditScan} (h : es.half = none) (x : Byte) (src : List Byte) :
    nextDigit es (x :: src) = some (x.toNat / 16, some (x.toNat % 16), src) := by
  unfold nextDigit; rw [h]

/-- A digit code above 9 ends a selector with a data exception, before any mark (R722). -/
theorem editSelector_data {mark : Bool} {fill p : Byte} {a : Addr} {e : EditState} {es : EditScan} {u t : State}
    (hr : EditState.Matches e es) (hb : t.byteAt e.src = u.byteAt e.src)
    (hi : es.half = none → t.installed e.src 1 = true) {d : Nat} {right : Option Nat} {src : List Byte}
    (hd : nextDigit es [u.byteAt e.src] = some (d, right, src)) (h9 : 9 < d) :
    editSelector mark fill p a e t = .error (.program .data t) := by
  have fin : ∀ (b : Byte) (q : Addr), editDigit e t = .ok (b, d, q) →
      editSelector mark fill p a e t = .error (.program .data t) := by
    intro b q h
    rw [editSelector, h, ok_bind]
    dsimp only
    rw [decide_eq_false (by omega), demand_false, error_bind]
  obtain ⟨-, -, r3⟩ := hr
  cases hp : e.pend with
  | some b =>
    rw [hp] at r3
    rw [nextDigit_of_half r3.symm, Option.some.injEq, Prod.mk.injEq] at hd
    exact fin b e.src (by unfold editDigit; rw [hp]; dsimp only; rw [show (loNib b).toNat = d from hd.1])
  | none =>
    rw [hp] at r3
    rw [nextDigit_of_fetch r3.symm, Option.some.injEq, Prod.mk.injEq] at hd
    refine fin (t.byteAt e.src) (e.src + 1) ?_
    unfold editDigit
    rw [hp]
    dsimp only
    rw [State.load_byte (hi r3.symm), ok_bind, (nibbles_toNat _).1, hb, hd.1]
    rfl

/-- One step of the loop, when `editBytes` goes through. -/
theorem editLoop_step (mark : Bool) (fill : Byte) (a0 : Addr) (k r : Nat) {e : EditState} {es es' : EditScan}
    {u : State} {rs : List Byte} (hr : EditState.Matches e es) (hi : u.installed (after a0 k) 1 = true)
    (hs : es.Fetches (u.byteAt (after a0 k)) → u.installed e.src 1 = true)
    (h : editBytes fill k [u.byteAt (after a0 k)] [u.byteAt e.src] es = some (rs, es')) :
    ∃ e', editLoop mark fill (r + 1) (after a0 k) e (State.withMark mark a0 es.marked u) =
        editLoop mark fill r (after a0 (k + 1)) e'
          (State.withMark mark a0 es'.marked (u.setBytes (after a0 k) rs)) ∧
      EditState.Matches e' es' ∧
      (es.Fetches (u.byteAt (after a0 k)) → e'.src = e.src + 1) ∧
      (¬es.Fetches (u.byteAt (after a0 k)) → e'.src = e.src) := by
  have ld : (State.withMark mark a0 es.marked u).load 8 (after a0 k) = .ok (u.byteAt (after a0 k)) := by
    rw [State.load_byte (by rw [withMark_installed]; exact hi), withMark_byteAt]
  have stb : ∀ mm v, (State.withMark mark a0 mm u).store (after a0 k) (v : Byte) =
      .ok (State.withMark mark a0 mm (u.setByte (after a0 k) v)) := by
    intro mm v
    rw [State.store_byte (by rw [withMark_installed]; exact hi), withMark_setByte]
  rw [editLoop, ld, ok_bind, after_add_one]
  generalize u.byteAt (after a0 k) = p at h hs ⊢
  by_cases hp : p = 0x20 ∨ p = 0x21
  · rw [if_pos hp]
    -- the digit, and as much of the source as it needs
    obtain ⟨m, d, right, src, hd, hd', hm⟩ : ∃ m d right src,
        nextDigit es [u.byteAt e.src] = some (d, right, src) ∧
        (∃ src', nextDigit es (u.bytesAt e.src m) = some (d, right, src') ∧ src'.length = 0) ∧
        m = if es.half = none then 1 else 0 := by
      cases hh : es.half with
      | none =>
        exact ⟨1, _, _, _, nextDigit_of_fetch hh _ _, ⟨_, nextDigit_of_fetch hh _ _, rfl⟩, rfl⟩
      | some d =>
        exact ⟨0, d, none, _, nextDigit_of_half hh _, ⟨_, nextDigit_of_half hh _, rfl⟩, rfl⟩
    obtain ⟨src', hd', hl⟩ := hd'
    rw [editBytes_selector hp hd] at h
    split at h
    · cases h
    · rename_i h9
      simp only [Option.some.injEq, Prod.mk.injEq] at h
      obtain ⟨rfl, rfl⟩ := h
      obtain ⟨e1, m', sel, ⟨j, hj, hsrc⟩, hsrc', hrel⟩ := editSelector_eq mark fill p a0 k e es m u hr
        (by
          rw [hm]; split
          · rename_i hh; exact hs ⟨hp, hh⟩
          · rfl) d right src' hd' (by omega)
      have hm' : m' = 0 := by rw [hsrc', State.bytesAt_length] at hl; exact hl
      refine ⟨e1, ?_, ?_, fun hf => ?_, fun hf => ?_⟩
      · rw [sel, ok_bind]
        dsimp only
        rw [stb, ok_bind, nextScan_marked]
        rfl
      · obtain ⟨q1, q2, q3⟩ := hrel
        unfold nextScan at q1 q2 q3 ⊢
        cases right with
        | none => exact ⟨q1, q2, q3⟩
        | some h =>
          dsimp only at q1 q2 q3 ⊢
          by_cases c1 : h ≤ 9
          · rw [if_pos c1] at q1 q2 q3 ⊢; exact ⟨q1, q2, q3⟩
          · rw [if_neg c1] at q1 q2 q3 ⊢
            by_cases c2 : h = 0xB ∨ h = 0xD
            · rw [if_pos c2] at q1 q2 q3 ⊢; exact ⟨q1, q2, q3⟩
            · rw [if_neg c2] at q1 q2 q3 ⊢; exact ⟨q1, q2, q3⟩
      · rw [if_pos hf.2] at hm
        rw [hsrc, show j = 1 by omega]; rfl
      · rw [if_neg fun hh => hf ⟨hp, hh⟩] at hm
        rw [hsrc, show j = 0 by omega, after_zero]
  · have nf : ¬es.Fetches p := fun hf => hp hf.1
    unfold editBytes at h
    rw [if_neg hp] at h ⊢
    by_cases hp22 : p = 0x22
    · rw [if_pos hp22] at h ⊢
      simp only [editBytes, Option.map_some, Option.some.injEq, Prod.mk.injEq] at h
      obtain ⟨rfl, rfl⟩ := h
      refine ⟨{ e with sig := false, nz := false }, ?_, ⟨rfl, rfl, hr.2.2⟩, fun hf => absurd hf nf, fun _ => rfl⟩
      rw [ok_bind]
      dsimp only
      rw [stb, ok_bind]
      rfl
    · rw [if_neg hp22] at h ⊢
      simp only [editBytes, Option.map_some, Option.some.injEq, Prod.mk.injEq] at h
      obtain ⟨rfl, rfl⟩ := h
      refine ⟨e, ?_, hr, fun hf => absurd hf nf, fun _ => rfl⟩
      rw [ok_bind, hr.1]
      dsimp only
      rw [stb, ok_bind]
      rfl

/-- A run of `editRun` only stores. -/
theorem editRun_installed {s u : State} {a b : Addr} {m n : Nat} {es : EditScan}
    (h : editRun s a b m = some (u, n, es)) (x : Addr) (j : Nat) : u.installed x j = s.installed x j := by
  have setBytes_installed : ∀ (bs : List Byte) (v : State) (y : Addr),
      (v.setBytes y bs).installed x j = v.installed x j := by
    intro bs v y
    exact State.installed_congr (s := v) (t := v.setBytes y bs) (by simp) x j
  induction m generalizing u n es with
  | zero => simp only [editRun, Option.some.injEq, Prod.mk.injEq] at h; rw [h.1]
  | succ m ih =>
    rw [editRun] at h
    split at h
    · cases h
    · rename_i v i e hv
      dsimp only at h
      split at h
      · cases h
      · simp only [Option.some.injEq, Prod.mk.injEq] at h
        rw [← h.1, setBytes_installed, ih hv]

/-- The loop does what `editRun` says, as far as that goes and storage is installed. -/
theorem editLoop_steps (mark : Bool) (r : Nat) {a b : Addr} {s u : State} {m n : Nat} {es : EditScan}
    (h : editRun s a b m = some (u, n, es)) (ha : s.installed a m = true) (hb : s.installed b n = true) :
    ∃ e, editLoop mark (s.byteAt a) (m + r) a { sig := false, nz := false, src := b, pend := none } s =
        editLoop mark (s.byteAt a) r (after a m) e (State.withMark mark a es.marked u) ∧
      EditState.Matches e es ∧ e.src = after b n := by
  induction m generalizing u n es r with
  | zero =>
    simp only [editRun, Option.some.injEq, Prod.mk.injEq] at h
    obtain ⟨rfl, rfl, rfl⟩ := h
    exact ⟨{ sig := false, nz := false, src := b, pend := none }, by simp [State.withMark], ⟨rfl, rfl, rfl⟩,
      by simp⟩
  | succ m ih =>
    rw [editRun] at h
    split at h
    · cases h
    · rename_i v i e0 hv
      dsimp only at h
      split at h
      · cases h
      · rename_i rs e1 he
        simp only [Option.some.injEq, Prod.mk.injEq] at h
        obtain ⟨rfl, rfl, rfl⟩ := h
        have hi : i ≤ if (v.byteAt (after a m) = 0x20 ∨ v.byteAt (after a m) = 0x21) ∧ e0.half = none then i + 1
            else i := by split <;> omega
        obtain ⟨e, hl, hr, hsrc⟩ := ih (r + 1) hv (State.installed_mono ha (by omega)) (State.installed_mono hb hi)
        have inst := editRun_installed hv
        obtain ⟨e', hl', hr', f1, f2⟩ := editLoop_step mark (s.byteAt a) a m r hr
          (by rw [inst]; exact State.installed_after ha (by omega))
          (fun hf => by
            have hf' : (v.byteAt (after a m) = 0x20 ∨ v.byteAt (after a m) = 0x21) ∧ e0.half = none := hf
            rw [inst, hsrc]
            rw [if_pos hf'] at hb
            exact State.installed_after hb (by omega))
          (by rw [hsrc]; exact he)
        refine ⟨e', by rw [show m + 1 + r = m + (r + 1) by omega, hl, hl'], hr', ?_⟩
        split
        · rename_i hf; rw [f1 hf, hsrc, after_add_one]
        · rename_i hf; rw [f2 hf, hsrc]

/-- The loop at a byte that is not installed, or at a digit code above 9: nothing more is stored or marked. -/
theorem editLoop_stop (mark : Bool) (fill : Byte) (a0 : Addr) (k r : Nat) {e : EditState} {es : EditScan}
    {u : State} (hr : EditState.Matches e es) :
    let p := u.byteAt (after a0 k)
    let ok := u.installed (after a0 k) 1 = true ∧ (es.Fetches p → u.installed e.src 1 = true)
    let t := State.withMark mark a0 es.marked u
    (¬ok → editLoop mark fill (r + 1) (after a0 k) e t = .error (.program .addressing t)) ∧
    (ok → editBytes fill k [p] [u.byteAt e.src] es = none →
      editLoop mark fill (r + 1) (after a0 k) e t = .error (.program .data t)) := by
  intro p ok t
  have ld : u.installed (after a0 k) 1 = true → t.load 8 (after a0 k) = .ok p := by
    intro hi
    rw [State.load_byte (by rw [withMark_installed]; exact hi), withMark_byteAt]
  constructor
  · intro hok
    by_cases hi : u.installed (after a0 k) 1 = true
    · have hf : es.Fetches p ∧ u.installed e.src 1 = false := by
        simp only [ok, not_and, Classical.not_imp, Bool.not_eq_true] at hok
        exact hok hi
      have hpend : e.pend = none := by
        have := hr.2.2
        rw [hf.1.2] at this
        exact Option.map_eq_none_iff.1 this
      rw [editLoop, ld hi, ok_bind, if_pos hf.1.1, editSelector, editDigit, hpend]
      dsimp only
      rw [State.load_missing (w := 8) (by rw [withMark_installed]; exact hf.2)]
      rfl
    · rw [editLoop, State.load_missing (w := 8) (by rw [withMark_installed]; simpa using hi)]
      rfl
  · intro hok he
    rw [editLoop, ld hok.1, ok_bind]
    have hp : p = 0x20 ∨ p = 0x21 := by
      by_contra hp
      unfold editBytes at he
      rw [if_neg hp] at he
      split at he <;> simp [editBytes] at he
    obtain ⟨d, right, src, hd⟩ : ∃ d right src, nextDigit es [u.byteAt e.src] = some (d, right, src) := by
      cases hh : es.half with
      | none => exact ⟨_, _, _, nextDigit_of_fetch hh _ _⟩
      | some d => exact ⟨_, _, _, nextDigit_of_half hh _⟩
    rw [editBytes_selector hp hd] at he
    have h9 : 9 < d := by
      by_contra h9
      rw [if_neg h9] at he
      cases he
    rw [if_pos hp, editSelector_data hr (by rw [withMark_byteAt])
      (fun hh => by rw [withMark_installed]; exact hok.2 ⟨hp, hh⟩) hd h9]
    rfl

end Sys2Proof.Machine
end

