-- ==== Sys2Proof/Laws/Fetch.lean ====
section
/-! SUPPORT. What a fetch finds (`spec/30_encoding.md` R140 to R142, R146), said once, and what a call does
with it (R150). -/

namespace Sys2Proof.Machine

/-! ## The opcode map -/

theorem opcodeDefined_low : ∀ h : BitVec 3, ∀ n : Nib,
    opcodeDefined ((0#1 ++ h ++ n : BitVec 8)) = decide ((0#1 ++ h ++ n : BitVec 8) ∈ opcodeBytes) := by
  decide

theorem opcodeDefined_high : ∀ h : BitVec 3, ∀ n : Nib,
    opcodeDefined ((1#1 ++ h ++ n : BitVec 8)) = decide ((1#1 ++ h ++ n : BitVec 8) ∈ opcodeBytes) := by
  decide

/-- The first bytes with a row are those of R145's map. -/
theorem opcodeDefined_eq (op : Byte) : opcodeDefined op = decide (op ∈ opcodeBytes) := by
  have h0 : (0#1 ++ op.extractLsb' 4 3 ++ loNib op : BitVec 8) = op ∨
      (1#1 ++ op.extractLsb' 4 3 ++ loNib op : BitVec 8) = op := by revert op; decide
  rcases h0 with h | h
  · rw [← h]; exact opcodeDefined_low _ _
  · rw [← h]; exact opcodeDefined_high _ _

/-! ## Bytes in storage order -/

theorem State.bytesAt_pos (s : State) (a : Addr) {n : Nat} (h : 0 < n) :
    s.bytesAt a n = s.byteAt a :: s.bytesAt (a + 1) (n - 1) := by
  cases n with
  | zero => omega
  | succ n => rfl

theorem instrLength_cases (op : Byte) : instrLength op = 2 ∨ instrLength op = 4 ∨ instrLength op = 6 := by
  unfold instrLength; split
  · simp
  · split <;> simp

/-- Enough bytes with an opcode that has a row decode. -/
theorem decode_of_defined {b0 : Byte} {bs : List Byte} (h : opcodeDefined b0 = true)
    (hl : instrLength b0 ≤ (b0 :: bs).length) :
    ∃ i, decode (b0 :: bs) = .ok (i, (b0 :: bs).drop (instrLength b0)) := by
  rw [← assemble_isSome b0 (bs.getD 0 0) (bs.getD 1 0) (bs.getD 2 0) (bs.getD 3 0) (bs.getD 4 0)] at h
  obtain ⟨i, hi⟩ := Option.isSome_iff_exists.1 h
  exact ⟨i, (decode_eq_ok_iff _ _ _ _).2 ⟨hi, hl, rfl⟩⟩

/-- What decodes has an opcode with a row, and is as long as that row. -/
theorem defined_of_decode {b0 : Byte} {bs rest : List Byte} {i : Instr}
    (h : decode (b0 :: bs) = .ok (i, rest)) : opcodeDefined b0 = true := by
  obtain ⟨ha, -, -⟩ := (decode_eq_ok_iff _ _ _ _).1 h
  rw [← assemble_isSome b0 (bs.getD 0 0) (bs.getD 1 0) (bs.getD 2 0) (bs.getD 3 0) (bs.getD 4 0), ha]
  rfl

/-! ## The fetch -/

theorem getLsbD_zero_of_even {a : Addr} (h : a.toNat % 2 = 0) : a.getLsbD 0 = false := by
  simp [BitVec.getLsbD, Nat.testBit_zero, h]

theorem getLsbD_zero_of_odd {a : Addr} (h : a.toNat % 2 = 1) : a.getLsbD 0 = true := by
  simp [BitVec.getLsbD, Nat.testBit_zero, h]

theorem State.fetch_odd {s : State} {a : Addr} (h : a.toNat % 2 = 1) : s.fetch a = .odd := by
  simp only [State.fetch, getLsbD_zero_of_odd h, if_true]

theorem State.fetch_missing {s : State} {a : Addr} (h : a.toNat % 2 = 0) (hi : s.installed a 2 = false) :
    s.fetch a = .notInstalled := by
  simp only [State.fetch, getLsbD_zero_of_even h, hi, Bool.not_false, if_true, Bool.false_eq_true,
    if_false]

theorem State.fetch_undefined {s : State} {a : Addr} (h : a.toNat % 2 = 0) (hi : s.installed a 2 = true)
    (hd : opcodeDefined (s.byteAt a) = false) : s.fetch a = .undefined (s.byteAt a) := by
  simp only [State.fetch, getLsbD_zero_of_even h, hi, hd, Bool.not_false, Bool.not_true, if_true,
    Bool.false_eq_true, if_false]

theorem State.fetch_short {s : State} {a : Addr} (h : a.toNat % 2 = 0) (hi : s.installed a 2 = true)
    (hd : opcodeDefined (s.byteAt a) = true)
    (hl : s.installed a (instrLength (s.byteAt a)) = false) : s.fetch a = .notInstalled := by
  simp only [State.fetch, getLsbD_zero_of_even h, hi, hd, hl, Bool.not_false, Bool.not_true, if_true,
    Bool.false_eq_true, if_false]

theorem State.fetch_instr {s : State} {a : Addr} {i : Instr} {rest : List Byte} (h : a.toNat % 2 = 0)
    (hi : s.installed a 2 = true) (hl : s.installed a (instrLength (s.byteAt a)) = true)
    (hd : decode (s.bytesAt a (instrLength (s.byteAt a))) = .ok (i, rest)) : s.fetch a = .instr i := by
  have hp : 0 < instrLength (s.byteAt a) := by rcases instrLength_cases (s.byteAt a) with h | h | h <;> omega
  have hdef : opcodeDefined (s.byteAt a) = true := by
    rw [s.bytesAt_pos a hp] at hd
    exact defined_of_decode hd
  simp only [State.fetch, getLsbD_zero_of_even h, hi, hl, hd, hdef, Bool.not_true, Bool.false_eq_true,
    if_false]

/-! ## One call, by what the fetch found -/

theorem step_wait {s : State} (h : s.psw.w = true) : step s = .next { s with result := .ok } := by
  simp only [step, h, if_true]

theorem step_odd {s : State} (h : s.psw.w = false) (hf : s.fetch s.psw.ia = .odd) :
    step s = .next (s.programInterrupt .specification 0 s.psw.ia) := by
  simp only [step, h, hf, Bool.false_eq_true, if_false]

theorem step_notInstalled {s : State} (h : s.psw.w = false) (hf : s.fetch s.psw.ia = .notInstalled) :
    step s = .next (s.programInterrupt .addressing 0 s.psw.ia) := by
  simp only [step, h, hf, Bool.false_eq_true, if_false]

theorem step_undefined {s : State} {op : Byte} (h : s.psw.w = false)
    (hf : s.fetch s.psw.ia = .undefined op) :
    step s = .next (s.undefinedOpcode (s.ctx (instrLength op))) := by
  simp only [step, h, hf, Bool.false_eq_true, if_false]

theorem step_instr {s : State} {i : Instr} (h : s.psw.w = false) (hf : s.fetch s.psw.ia = .instr i) :
    step s = exec i s := by
  simp only [step, h, hf, Bool.false_eq_true, if_false]

end Sys2Proof.Machine
end

