-- ==== Sys2Proof/Laws/Float.lean ====
section
/-! SUPPORT. Hexadecimal floating point: the number of hex digits, normalization in closed form, the aligned
sum (`spec/41_floating_point.md` R304, R305, R307). -/

namespace Sys2Proof.Machine

/-! ## Hex digits -/

/-- A number has at most `k` hex digits exactly if it is below 16^k. -/
theorem hexLength_le_iff (m k : Nat) : hexLength m ≤ k ↔ m < 16 ^ k := by
  unfold hexLength
  split
  · rename_i h; subst h; simp
  · rename_i h
    rw [show (16 : Nat) ^ k = 2 ^ (4 * k) by rw [pow_mul]; norm_num, ← Nat.log2_lt h]
    omega

theorem hexLength_pos {m : Nat} (h : 0 < m) : 0 < hexLength m := by
  unfold hexLength
  split <;> omega

theorem lt_hexLength (m : Nat) : m < 16 ^ hexLength m := (hexLength_le_iff m _).1 le_rfl

theorem hexLength_eq {m k : Nat} (h1 : 16 ^ k ≤ m) (h2 : m < 16 ^ (k + 1)) : hexLength m = k + 1 := by
  have a : hexLength m ≤ k + 1 := (hexLength_le_iff m _).2 h2
  have b : ¬hexLength m ≤ k := fun h => by have := (hexLength_le_iff m k).1 h; omega
  omega

theorem pow_hexLength_le {m : Nat} (h : 0 < m) : 16 ^ (hexLength m - 1) ≤ m := by
  by_contra hh
  have := (hexLength_le_iff m (hexLength m - 1)).2 (by omega)
  have := hexLength_pos h
  omega

/-- A hex digit appended. -/
theorem hexLength_mul {m : Nat} (h : 0 < m) : hexLength (m * 16) = hexLength m + 1 := by
  have h1 := pow_hexLength_le h
  have h2 := lt_hexLength m
  have h3 := hexLength_pos h
  apply hexLength_eq
  · calc 16 ^ hexLength m = 16 ^ (hexLength m - 1) * 16 := by
          rw [← pow_succ]; congr 1; omega
      _ ≤ m * 16 := Nat.mul_le_mul_right _ h1
  · rw [pow_succ]; omega

/-! ## Normalization -/

/-- Normalizing to `k+1` digits shifts left as many digits as are missing. -/
theorem normalizeHfp_eq {k fuel : Nat} {x : Hfp} (h0 : 0 < x.frac) (hk : hexLength x.frac ≤ k + 1)
    (hf : k + 1 - hexLength x.frac ≤ fuel) :
    normalizeHfp (16 ^ k) fuel x =
      { x with char := x.char - (k + 1 - hexLength x.frac : Nat),
               frac := x.frac * 16 ^ (k + 1 - hexLength x.frac) } := by
  induction fuel generalizing x with
  | zero =>
    have : k + 1 - hexLength x.frac = 0 := by omega
    simp [normalizeHfp, this]
  | succ fuel ih =>
    rw [normalizeHfp]
    split
    · rename_i hlt
      have hle := (hexLength_le_iff x.frac k).2 hlt
      have hm := hexLength_mul h0
      rw [ih (x := { x with char := x.char - 1, frac := x.frac * 16 }) (by simp; omega)
        (by simp only [hm]; omega) (by simp only [hm]; omega)]
      simp only [hm]
      have e : k + 1 - hexLength x.frac = k + 1 - (hexLength x.frac + 1) + 1 := by omega
      rw [e, pow_succ]
      simp only [Hfp.mk.injEq, true_and]
      constructor
      · push_cast; ring
      · ring
    · rename_i hge
      have : ¬hexLength x.frac ≤ k := fun h => hge ((hexLength_le_iff x.frac k).1 h)
      have e : k + 1 - hexLength x.frac = 0 := by omega
      simp [e]

/-- The leading digits of a number that is not longer than them, or is. -/
theorem leadingDigits_of_le {n m : Nat} (h : hexLength m ≤ n) :
    leadingDigits n m = m * 16 ^ (n - hexLength m) := by simp [leadingDigits, h]

theorem leadingDigits_of_ge {n m : Nat} (h : n ≤ hexLength m) :
    leadingDigits n m = m / 16 ^ (hexLength m - n) := by
  unfold leadingDigits
  split
  · have : hexLength m = n := by omega
    simp [this]
  · rfl

/-- Scaled up by one digit too many and truncated, the leading digits are the same. -/
theorem scaled_div {n m : Nat} (h : hexLength m ≤ n + 1) :
    m * 16 ^ (n + 1 - hexLength m) / 16 = leadingDigits n m := by
  by_cases hn : hexLength m ≤ n
  · rw [leadingDigits_of_le hn, show n + 1 - hexLength m = n - hexLength m + 1 by omega, pow_succ,
      ← Nat.mul_assoc, Nat.mul_div_cancel _ (by norm_num)]
  · have e : hexLength m = n + 1 := by omega
    rw [leadingDigits_of_ge (by omega), e]
    simp

theorem leadingDigits_pos {n m : Nat} (hn : 0 < n) (h0 : 0 < m) : 0 < leadingDigits n m := by
  unfold leadingDigits
  split
  · positivity
  · rename_i h
    have := pow_hexLength_le h0
    apply Nat.div_pos _ (by positivity)
    refine le_trans (Nat.pow_le_pow_right (by norm_num) ?_) this
    omega

theorem hexLength_mul_pow {m : Nat} (h : 0 < m) (k : Nat) : hexLength (m * 16 ^ k) = hexLength m + k := by
  induction k with
  | zero => simp
  | succ k ih =>
    rw [pow_succ, ← Nat.mul_assoc, hexLength_mul (by positivity), ih]
    rfl

/-- Zeros appended change no leading digit. -/
theorem leadingDigits_mul_pow {n m : Nat} (h : 0 < m) (k : Nat) :
    leadingDigits n (m * 16 ^ k) = leadingDigits n m := by
  induction k with
  | zero => simp
  | succ k ih =>
    rw [← ih, pow_succ, ← Nat.mul_assoc]
    generalize hm : m * 16 ^ k = a
    have ha : 0 < a := by rw [← hm]; positivity
    unfold leadingDigits
    rw [hexLength_mul ha]
    by_cases h1 : hexLength a + 1 ≤ n
    · rw [if_pos h1, if_pos (by omega), show n - hexLength a = n - (hexLength a + 1) + 1 by omega, pow_succ]
      ring
    · by_cases h2 : hexLength a ≤ n
      · rw [if_neg h1, if_pos h2, show hexLength a + 1 - n = 1 by omega, show n - hexLength a = 0 by omega]
        simp
      · rw [if_neg h1, if_neg h2, show hexLength a + 1 - n = hexLength a - n + 1 by omega, pow_succ,
          Nat.mul_div_mul_right _ _ (by norm_num)]

/-- Prenormalization (R307), in closed form. -/
theorem prenormalize_eq {n : Nat} {x : Hfp} (hn : 0 < n) (hn' : n ≤ 16) (h0 : 0 < x.frac)
    (hx : x.frac < 16 ^ n) :
    prenormalize n x =
      { x with char := x.char - (n - hexLength x.frac : Nat),
               frac := x.frac * 16 ^ (n - hexLength x.frac) } := by
  have hl := (hexLength_le_iff x.frac n).2 hx
  have e : n - 1 + 1 = n := by omega
  rw [prenormalize, normalizeHfp_eq h0 (by omega) (by unfold normalizeFuel; omega), e]

/-! ## Operands in range -/

theorem hfpOfWord_char (v : Word) : 0 ≤ (hfpOfWord v).char ∧ (hfpOfWord v).char ≤ 127 := by
  have := (v.extractLsb' 24 7).isLt
  simp only [hfpOfWord]; omega

theorem hfpOfDWord_char (v : DWord) : 0 ≤ (hfpOfDWord v).char ∧ (hfpOfDWord v).char ≤ 127 := by
  have := (v.extractLsb' 56 7).isLt
  simp only [hfpOfDWord]; omega

theorem hfpOfWord_frac (v : Word) : (hfpOfWord v).frac < 16 ^ 6 := (v.extractLsb' 0 24).isLt

theorem hfpOfDWord_frac (v : DWord) : (hfpOfDWord v).frac < 16 ^ 14 := (v.extractLsb' 0 56).isLt

/-- A register operand has as many digits as its format, and a characteristic of seven bits. -/
theorem State.getHfp_range (s : State) (f : HfpFormat) (r : Fin 4) :
    (s.getHfp f r).frac < 16 ^ hfpDigits f ∧ 0 ≤ (s.getHfp f r).char ∧ (s.getHfp f r).char ≤ 127 := by
  cases f
  · exact ⟨hfpOfWord_frac _, hfpOfWord_char _⟩
  · exact ⟨hfpOfDWord_frac _, hfpOfDWord_char _⟩

/-! ## The aligned sum -/

theorem alignedFrac_natAbs_lt {c : Int} {x : Hfp} {n : Nat} (h : x.frac < 16 ^ n) :
    (alignedFrac c x).natAbs < 16 ^ (n + 1) := by
  have : x.frac * 16 / 16 ^ (c - x.char).toNat ≤ x.frac * 16 := Nat.div_le_self _ _
  unfold alignedFrac
  rw [pow_succ]
  dsimp only
  split <;> simp only [Int.natAbs_neg, Int.natAbs_natCast] <;> omega

theorem alignedSum_natAbs_lt {x y : Hfp} {n : Nat} (hx : x.frac < 16 ^ n) (hy : y.frac < 16 ^ n)
    (negate : Bool) : (alignedSum x y negate).natAbs < 2 * 16 ^ (n + 1) := by
  have h1 := alignedFrac_natAbs_lt (c := commonChar x y) hx
  have h2 := alignedFrac_natAbs_lt (c := commonChar x y) (x := { y with sign := xor negate y.sign }) hy
  have := Int.natAbs_add_le (alignedFrac (commonChar x y) x)
    (alignedFrac (commonChar x y) { y with sign := xor negate y.sign })
  unfold alignedSum
  omega

/-- R304's addition is the aligned sum, one digit shorter if it has grown by one. -/
theorem hfpAddCore_eq (x y : Hfp) (n : Nat) (negate : Bool) :
    hfpAddCore x y n negate =
      let v := alignedSum x y negate
      if 16 ^ (n + 1) ≤ v.natAbs then
        { sign := decide (v < 0), char := commonChar x y + 1, frac := v.natAbs / 16 }
      else { sign := decide (v < 0), char := commonChar x y, frac := v.natAbs } := by
  have key : ∀ d : Int, x.char - y.char = d →
      (if d < 0 then y.char else x.char) = commonChar x y ∧
      signedFrac x.sign (if d < 0 then x.frac * 16 / 16 ^ (-d).toNat else x.frac * 16) +
        signedFrac (xor negate y.sign) (if d < 0 then y.frac * 16 else y.frac * 16 / 16 ^ d.toNat) =
      alignedSum x y negate := by
    rintro d rfl
    unfold alignedSum alignedFrac commonChar signedFrac
    by_cases h : x.char - y.char < 0
    · have e : max x.char y.char = y.char := by omega
      simp only [h, if_true, e, true_and, sub_self, Int.toNat_zero, pow_zero, Nat.div_one]
      rw [show -(x.char - y.char) = y.char - x.char by ring]
    · have e : max x.char y.char = x.char := by omega
      simp only [h, if_false, e, true_and, sub_self, Int.toNat_zero, pow_zero, Nat.div_one]
  obtain ⟨h1, h2⟩ := key _ rfl
  unfold hfpAddCore
  dsimp only
  rw [h1, h2]

end Sys2Proof.Machine
end

