-- ==== Sys2Proof/Laws/FloatEnds.lean ====
section
/-! SUPPORT. What the shared floating-point operations can do, said once in the closed forms of
`Sys2Proof.Safety` (`spec/41_floating_point.md` R303 to R308, R350, R362). -/

namespace Sys2Proof.Machine

/-- The end of an addition whose result is not zero (R303, R305, R306). -/
theorem conclude_addResult (s : State) (len : Nat) (f : HfpFormat) (r : Fin 4) (z : Hfp) :
    conclude (s.ctx len) s (
    if 127 < z.char then
      raiseProgram .exponentOverflow ((s.setHfp f r { z with char := z.char - 128 }).setCc
          (ccHfp { z with char := z.char - 128 }))
    else if z.char < 0 then
      if s.psw.pmEu then
        raiseProgram .exponentUnderflow ((s.setHfp f r { z with char := z.char + 128 }).setCc
            (ccHfp { z with char := z.char + 128 }))
      else .ok (.advance ((s.setHfp f r trueZero).setCc 0))
    else .ok (.advance ((s.setHfp f r z).setCc (ccHfp z)))) = s.exponentEnd len f r z fun z t => t.setCc
        (ccOfHfp z) := by
  unfold State.exponentEnd Psw.pmEu
  dsimp only
  by_cases h1 : 127 < z.char
  · simp only [h1, if_true]; rfl
  · by_cases h2 : z.char < 0
    · have : ¬ 0 ≤ z.char := by omega
      simp only [h1, h2, this, if_true, if_false]
      split <;> rfl
    · have : 0 ≤ z.char := by omega
      simp only [h1, h2, this, if_true, if_false]; rfl

/-- Add and subtract, in closed form (R304, R305). -/
theorem conclude_addSub (s : State) (len : Nat) (f : HfpFormat) (r : Fin 4) (norm negate : Bool) (x y : Hfp)
    (hx : x.frac < 16 ^ hfpDigits f) (hy : y.frac < 16 ^ hfpDigits f) (cx : 0 ≤ x.char ∧ x.char ≤ 127)
        (cy : 0 ≤ y.char ∧ y.char ≤ 127) :
    conclude (s.ctx len) s (addSub f negate norm r x y s) = s.sumEnd len f r norm negate x y := by
  have hb := alignedSum_natAbs_lt hx hy negate
  unfold addSub
  have hcore := hfpAddCore_eq x y (hfpDigits f) negate
  generalize hfpAddCore x y (hfpDigits f) negate = core at *
  unfold hfpAddFinish State.sumEnd sumResult
  dsimp only at hcore ⊢
  have hc : (commonChar x y) % 128 = commonChar x y := by unfold commonChar; omega
  have hn : 6 ≤ hfpDigits f ∧ hfpDigits f ≤ 14 := by cases f <;> simp [hfpDigits]
  generalize hv : alignedSum x y negate = v at *
  generalize commonChar x y = c at *
  generalize hfpDigits f = n at *
  have p1 : 0 < 16 ^ n := by positivity
  by_cases hz : v = 0
  · subst hz
    have h1 : ¬ 16 ^ (n + 1) ≤ Int.natAbs 0 := by simp
    rw [if_neg h1] at hcore
    subst hcore
    simp only [Int.natAbs_zero, if_true, hc, Psw.pmSg]
    split <;> rfl
  · simp only [hz, if_false]
    have hm : 0 < v.natAbs := by omega
    by_cases hov : 16 ^ (n + 1) ≤ v.natAbs
    · have hl : hexLength v.natAbs = n + 2 := hexLength_eq hov (by rw [pow_succ]; omega)
      have hq : v.natAbs / 16 ≠ 0 := by
        have : 16 ≤ v.natAbs := le_trans (by rw [pow_succ]; omega) hov
        omega
      rw [if_pos hov] at hcore
      subst hcore
      simp only [hov, if_true, hq, if_false]
      have hge : 16 ^ n ≤ v.natAbs / 16 := by
        rw [pow_succ] at hov; omega
      have hq2 : v.natAbs / 16 / 16 ≠ 0 := by
        have : 16 ^ (n - 1) * 16 = 16 ^ n := by rw [← pow_succ]; congr 1; omega
        have : 0 < 16 ^ (n - 1) := by positivity
        omega
      have hl2 : hexLength (v.natAbs / 16) = n + 1 := hexLength_eq hge (by
        rw [pow_succ] at hb
        rw [pow_succ]
        omega)
      rw [← conclude_addResult]
      cases norm
      · simp only [Bool.false_eq_true, if_false, hq2, ne_eq, not_false_eq_true, decide_true, Bool.and_true]
        rw [show v.natAbs / 16 / 16 = v.natAbs / 256 by rw [Nat.div_div_eq_div_mul]]
      · simp only [if_true]
        rw [normalizeHfp_eq (x := { sign := decide (v < 0), char := c + 1, frac := v.natAbs / 16 })
            (by simpa using Nat.pos_of_ne_zero hq) (by simp [hl2]) (by simp [hl2])]
        simp only [hl2, Nat.sub_self, pow_zero, Nat.mul_one, hl, hq2, ne_eq, not_false_eq_true, decide_true,
            Bool.and_true]
        have e1 : leadingDigits n v.natAbs = v.natAbs / 16 / 16 := by
          rw [leadingDigits_of_ge (by omega), hl, show n + 2 - n = 2 by omega, Nat.div_div_eq_div_mul]; norm_num
        have e2 : c + ((n + 2 : Nat) : Int) - (n + 1) = c + 1 - ((0:Nat) : Int) := by push_cast; ring
        rw [e1, e2]
    · have hl : hexLength v.natAbs ≤ n + 1 := (hexLength_le_iff _ _).2 (by omega)
      have hp := hexLength_pos hm
      rw [if_neg hov] at hcore
      subst hcore
      simp only [hov, if_false, show v.natAbs ≠ 0 by omega]
      rw [← conclude_addResult]
      cases norm
      · simp only [Bool.false_eq_true, if_false]
        have : decide (v.natAbs / 16 ≠ 0) = decide (16 ≤ v.natAbs) := by
          apply decide_eq_decide.2; omega
        rw [this]
      · simp only [if_true]
        rw [normalizeHfp_eq (x := { sign := decide (v < 0), char := c, frac := v.natAbs }) hm hl
            (by simp [normalizeFuel]; omega)]
        have e := scaled_div hl
        have hpos := leadingDigits_pos (n := n) (by omega) hm
        simp only [e, show leadingDigits n v.natAbs ≠ 0 by omega, ne_eq, not_false_eq_true, decide_true,
            Bool.and_true]
        have e2 : c + (hexLength v.natAbs : Int) - (n + 1) = c - ((n + 1 - hexLength v.natAbs : Nat) : Int)
            := by push_cast [Nat.cast_sub hl]; ring
        rw [e2]

/-- Compare, in closed form (R350). -/
theorem compareHfp_eq (s : State) (f : HfpFormat) (r : Fin 4) (x y : Hfp) :
    compareHfp f r x y s = .ok (.advance (s.setCc (ccOfOrder (alignedFrac (commonChar x y) x)
        (alignedFrac (commonChar x y) y)))) := by
  unfold compareHfp
  rw [hfpAddCore_eq]
  have hv : alignedSum x y true = alignedFrac (commonChar x y) x - alignedFrac (commonChar x y) y := by
    unfold alignedSum
    have : alignedFrac (commonChar x y) { y with sign := xor true y.sign } = - alignedFrac (commonChar x y) y
        := by
      unfold alignedFrac
      cases y.sign <;> simp
    rw [this]; ring
  rw [hv]
  generalize alignedFrac (commonChar x y) x = p
  generalize alignedFrac (commonChar x y) y = q
  have : ccHfp (if 16 ^ (hfpDigits f + 1) ≤ (p - q).natAbs then
        { sign := decide (p - q < 0), char := commonChar x y + 1, frac := (p - q).natAbs / 16 }
      else { sign := decide (p - q < 0), char := commonChar x y, frac := (p - q).natAbs }) = ccOfOrder p q := by
    unfold ccHfp ccOfOrder
    have hp0 : 0 < 16 ^ hfpDigits f := by positivity
    have hp : 16 ≤ 16 ^ (hfpDigits f + 1) := by rw [pow_succ]; omega
    split
    · have : (p - q).natAbs / 16 ≠ 0 := by omega
      simp only [this, if_false, decide_eq_true_eq]
      split <;> split <;> first | rfl | omega | (split <;> first | rfl | omega)
    · dsimp only
      by_cases h1 : p = q
      · subst h1; simp
      · have h0 : (p - q).natAbs ≠ 0 := by omega
        simp only [h0, if_false, decide_eq_true_eq]
        split <;> split <;> first | rfl | omega | (split <;> first | rfl | omega)
  exact congrArg (fun c => Except.ok (Completion.advance (s.setCc c))) this

/-- The exponent exceptions of a result (R306). -/
theorem conclude_hfpExpFinish (s : State) (len : Nat) (f : HfpFormat) (r : Fin 4) (z : Hfp) :
    conclude (s.ctx len) s (hfpExpFinish f r z s) = s.exponentEnd len f r z fun _ t => t := by
  unfold State.exponentEnd hfpExpFinish Psw.pmEu
  dsimp only
  by_cases h1 : 127 < z.char
  · simp only [h1, if_true]; rfl
  · by_cases h2 : z.char < 0
    · have : ¬ 0 ≤ z.char := by omega
      simp only [h1, h2, this, if_true, if_false]
      split <;> rfl
    · have : 0 ≤ z.char := by omega
      simp only [h1, h2, this, if_true, if_false]; rfl

/-- The two formats have 6 and 14 digits (R300). -/
theorem hfpDigits_range (f : HfpFormat) : 6 ≤ hfpDigits f ∧ hfpDigits f ≤ 14 := by cases f <;> simp [hfpDigits]

/-- Multiply, in closed form (R307). -/
theorem conclude_hfpMul (s : State) (len : Nat) (f g : HfpFormat) (r : Fin 4) (x y : Hfp)
    (hx : x.frac < 16 ^ hfpDigits f) (hy : y.frac < 16 ^ hfpDigits f) :
    conclude (s.ctx len) s (hfpMul f g r x y s) = s.resultEnd len g r (decide (x.frac = 0 ∨ y.frac = 0))
        (productResult (hfpDigits f) (hfpDigits g) x y) := by
  unfold hfpMul State.resultEnd
  by_cases h : x.frac = 0 ∨ y.frac = 0
  · simp only [h, if_true, decide_true]; rfl
  · simp only [h, if_false, decide_false, Bool.false_eq_true]
    have hx0 : 0 < x.frac := by omega
    have hy0 : 0 < y.frac := by omega
    rw [← conclude_hfpExpFinish]
    have hn := hfpDigits_range f
    congr 2
    rw [prenormalize_eq (by omega) (by omega) hx0 hx, prenormalize_eq (by omega) (by omega) hy0 hy]
    generalize hfpDigits f = n at *
    generalize hfpDigits g = m at *
    have lx := (hexLength_le_iff x.frac n).2 hx
    have ly := (hexLength_le_iff y.frac n).2 hy
    unfold productResult
    dsimp only
    have hp : x.frac * 16 ^ (n - hexLength x.frac) * (y.frac * 16 ^ (n - hexLength y.frac)) = x.frac * y.frac
        * 16 ^ (2 * n - hexLength x.frac - hexLength y.frac) := by
      rw [show 2 * n - hexLength x.frac - hexLength y.frac = (n - hexLength x.frac) + (n - hexLength y.frac)
          by omega, pow_add]; ring
    rw [hp]
    have ha : 0 < x.frac * y.frac := by positivity
    -- bounds of the product's length
    have h1 := pow_hexLength_le hx0
    have h2 := pow_hexLength_le hy0
    have u1 := lt_hexLength x.frac
    have u2 := lt_hexLength y.frac
    have px := hexLength_pos hx0
    have py := hexLength_pos hy0
    have hup : hexLength (x.frac * y.frac) ≤ hexLength x.frac + hexLength y.frac :=
      (hexLength_le_iff _ _).2 (by rw [pow_add]; exact Nat.mul_lt_mul'' u1 u2)
    have hlo : hexLength x.frac + hexLength y.frac ≤ hexLength (x.frac * y.frac) + 1 := by
      by_contra hh
      have := (hexLength_le_iff (x.frac * y.frac) (hexLength x.frac - 1 + (hexLength y.frac - 1))).1 (by omega)
      rw [pow_add] at this
      have := Nat.mul_le_mul h1 h2
      omega
    have hlp := hexLength_mul_pow ha (2 * n - hexLength x.frac - hexLength y.frac)
    have hlead : ∀ k, leadingDigits m (x.frac * y.frac * 16 ^ k) = leadingDigits m (x.frac * y.frac) := fun k
        => leadingDigits_mul_pow ha k
    generalize hk : 2 * n - hexLength x.frac - hexLength y.frac = k at *
    by_cases low : x.frac * y.frac * 16 ^ k < 16 ^ (2 * n - 1)
    · have hle := (hexLength_le_iff _ _).2 low
      have e : hexLength (x.frac * y.frac * 16 ^ k) = 2 * n - 1 := by omega
      simp only [low, decide_true, if_true]
      have e2 : hexLength (x.frac * y.frac * 16 ^ k * 16) = 2 * n := by
        rw [hexLength_mul (by positivity), e]
        omega
      have : leadingDigits m (x.frac * y.frac * 16 ^ k * 16) = leadingDigits m (x.frac * y.frac) := by
        rw [Nat.mul_assoc, ← pow_succ]; exact hlead _
      rw [← this]
      simp only [Hfp.mk.injEq, true_and]
      constructor
      · omega
      · split
        · rw [leadingDigits_of_le (by omega), e2]
        · rw [leadingDigits_of_ge (by omega), e2]
    · have hge : ¬ hexLength (x.frac * y.frac * 16 ^ k) ≤ 2 * n - 1 := fun h => low ((hexLength_le_iff _ _).1 h)
      have e2 : hexLength (x.frac * y.frac * 16 ^ k) = 2 * n := by omega
      simp only [low, decide_false, Bool.false_eq_true, if_false]
      rw [← hlead k]
      simp only [Hfp.mk.injEq, true_and]
      constructor
      · omega
      · split
        · rw [leadingDigits_of_le (by omega), e2]
        · rw [leadingDigits_of_ge (by omega), e2]

/-- Divide, in closed form (R308). -/
theorem conclude_hfpDiv (s : State) (len : Nat) (f : HfpFormat) (r : Fin 4) (x y : Hfp)
    (hx : x.frac < 16 ^ hfpDigits f) (hy : y.frac < 16 ^ hfpDigits f) :
    conclude (s.ctx len) s (hfpDiv f r x y s) = if y.frac = 0 then s.trapped len .floatDivide s
      else s.resultEnd len f r (decide (x.frac = 0)) (quotientResult (hfpDigits f) x y) := by
  unfold hfpDiv State.resultEnd
  by_cases h : y.frac = 0
  · simp only [h, if_true]; rfl
  simp only [h, if_false]
  by_cases h' : x.frac = 0
  · simp only [h', if_true, decide_true]; rfl
  simp only [h', if_false, decide_false, Bool.false_eq_true]
  have hx0 : 0 < x.frac := by omega
  have hy0 : 0 < y.frac := by omega
  have hn := hfpDigits_range f
  rw [← conclude_hfpExpFinish]
  have lx := (hexLength_le_iff x.frac _).2 hx
  have ly := (hexLength_le_iff y.frac _).2 hy
  rw [prenormalize_eq (by omega) (by omega) hx0 hx, prenormalize_eq (by omega) (by omega) hy0 hy]
  unfold quotientResult
  dsimp only
  have e : x.char - ((hfpDigits f - hexLength x.frac : Nat) : Int) - (y.char -
      ((hfpDigits f - hexLength y.frac : Nat) : Int)) + 64 = x.char - y.char + 64 + hexLength x.frac -
      hexLength y.frac := by omega
  rw [e]
  split <;> rfl

/-- Halve, in closed form (R362). -/
theorem conclude_hfpHalve (s : State) (len : Nat) (f : HfpFormat) (r : Fin 4) (x : Hfp)
    (hx : x.frac < 16 ^ hfpDigits f) :
    conclude (s.ctx len) s (hfpHalve f r x s) = s.resultEnd len f r (decide (x.frac = 0))
        (halfResult (hfpDigits f) x) := by
  unfold hfpHalve State.resultEnd
  by_cases h : x.frac = 0
  · simp only [h, if_true, decide_true]; rfl
  simp only [h, if_false, decide_false, Bool.false_eq_true]
  have hn := hfpDigits_range f
  rw [← conclude_hfpExpFinish]
  have e8 : x.frac * 16 / 2 = x.frac * 8 := by omega
  have hl : hexLength (x.frac * 8) ≤ hfpDigits f + 1 := (hexLength_le_iff _ _).2 (by rw [pow_succ]; omega)
  have hp := hexLength_pos (m := x.frac * 8) (by omega)
  rw [e8, normalizeHfp_eq (by simp; omega) hl (by simp only [normalizeFuel]; omega)]
  dsimp only
  rw [scaled_div hl]
  unfold halfResult
  have e2 : x.char + (hexLength (x.frac * 8) : Int) - (hfpDigits f + 1) = x.char -
      ((hfpDigits f + 1 - hexLength (x.frac * 8) : Nat) : Int) := by omega
  rw [e2]

end Sys2Proof.Machine
end

