-- ==== Sys2Proof/Laws/PerInstr.lean ====
section
/-! SUPPORT. Statements about every instruction as syntax, one lemma for each. -/

/-- An instruction's encoding is as long as its first byte says (`spec/30_encoding.md` R120). -/
def Sys2Proof.Laws.EncodeLength.Statement (i : Sys2Proof.Instr) : Prop :=
  i.length = Sys2Proof.instrLength ((Sys2Proof.encode i).headD 0)

namespace Sys2Proof.Laws.EncodeLength

theorem spm (o : OpsRR) : Statement (.spm o) := rfl
theorem balr (o : OpsRR) : Statement (.balr o) := rfl
theorem bctr (o : OpsRR) : Statement (.bctr o) := rfl
theorem bcr (o : OpsRR) : Statement (.bcr o) := rfl
theorem ssk (o : OpsRR) : Statement (.ssk o) := rfl
theorem isk (o : OpsRR) : Statement (.isk o) := rfl
theorem svc (i : Byte) : Statement (.svc i) := rfl
theorem mvcl (o : OpsRR) : Statement (.mvcl o) := rfl
theorem clcl (o : OpsRR) : Statement (.clcl o) := rfl
theorem lpr (o : OpsRR) : Statement (.lpr o) := rfl
theorem lnr (o : OpsRR) : Statement (.lnr o) := rfl
theorem ltr (o : OpsRR) : Statement (.ltr o) := rfl
theorem lcr (o : OpsRR) : Statement (.lcr o) := rfl
theorem nr (o : OpsRR) : Statement (.nr o) := rfl
theorem clr (o : OpsRR) : Statement (.clr o) := rfl
theorem or (o : OpsRR) : Statement (.or o) := rfl
theorem xr (o : OpsRR) : Statement (.xr o) := rfl
theorem lr (o : OpsRR) : Statement (.lr o) := rfl
theorem cr (o : OpsRR) : Statement (.cr o) := rfl
theorem ar (o : OpsRR) : Statement (.ar o) := rfl
theorem sr (o : OpsRR) : Statement (.sr o) := rfl
theorem mr (o : OpsRR) : Statement (.mr o) := rfl
theorem dr (o : OpsRR) : Statement (.dr o) := rfl
theorem alr (o : OpsRR) : Statement (.alr o) := rfl
theorem slr (o : OpsRR) : Statement (.slr o) := rfl
theorem lpdr (o : OpsRR) : Statement (.lpdr o) := rfl
theorem lndr (o : OpsRR) : Statement (.lndr o) := rfl
theorem ltdr (o : OpsRR) : Statement (.ltdr o) := rfl
theorem lcdr (o : OpsRR) : Statement (.lcdr o) := rfl
theorem hdr (o : OpsRR) : Statement (.hdr o) := rfl
theorem ldr (o : OpsRR) : Statement (.ldr o) := rfl
theorem cdr (o : OpsRR) : Statement (.cdr o) := rfl
theorem adr (o : OpsRR) : Statement (.adr o) := rfl
theorem sdr (o : OpsRR) : Statement (.sdr o) := rfl
theorem mdr (o : OpsRR) : Statement (.mdr o) := rfl
theorem ddr (o : OpsRR) : Statement (.ddr o) := rfl
theorem awr (o : OpsRR) : Statement (.awr o) := rfl
theorem swr (o : OpsRR) : Statement (.swr o) := rfl
theorem lper (o : OpsRR) : Statement (.lper o) := rfl
theorem lner (o : OpsRR) : Statement (.lner o) := rfl
theorem lter (o : OpsRR) : Statement (.lter o) := rfl
theorem lcer (o : OpsRR) : Statement (.lcer o) := rfl
theorem her (o : OpsRR) : Statement (.her o) := rfl
theorem ler (o : OpsRR) : Statement (.ler o) := rfl
theorem cer (o : OpsRR) : Statement (.cer o) := rfl
theorem aer (o : OpsRR) : Statement (.aer o) := rfl
theorem ser (o : OpsRR) : Statement (.ser o) := rfl
theorem mer (o : OpsRR) : Statement (.mer o) := rfl
theorem der (o : OpsRR) : Statement (.der o) := rfl
theorem aur (o : OpsRR) : Statement (.aur o) := rfl
theorem sur (o : OpsRR) : Statement (.sur o) := rfl
theorem sth (o : OpsRX) : Statement (.sth o) := rfl
theorem la (o : OpsRX) : Statement (.la o) := rfl
theorem stc (o : OpsRX) : Statement (.stc o) := rfl
theorem ic (o : OpsRX) : Statement (.ic o) := rfl
theorem ex (o : OpsRX) : Statement (.ex o) := rfl
theorem bal (o : OpsRX) : Statement (.bal o) := rfl
theorem bct (o : OpsRX) : Statement (.bct o) := rfl
theorem bc (o : OpsRX) : Statement (.bc o) := rfl
theorem lh (o : OpsRX) : Statement (.lh o) := rfl
theorem ch (o : OpsRX) : Statement (.ch o) := rfl
theorem ah (o : OpsRX) : Statement (.ah o) := rfl
theorem sh (o : OpsRX) : Statement (.sh o) := rfl
theorem mh (o : OpsRX) : Statement (.mh o) := rfl
theorem cvd (o : OpsRX) : Statement (.cvd o) := rfl
theorem cvb (o : OpsRX) : Statement (.cvb o) := rfl
theorem st (o : OpsRX) : Statement (.st o) := rfl
theorem n (o : OpsRX) : Statement (.n o) := rfl
theorem cl (o : OpsRX) : Statement (.cl o) := rfl
theorem o (o : OpsRX) : Statement (.o o) := rfl
theorem x (o : OpsRX) : Statement (.x o) := rfl
theorem l (o : OpsRX) : Statement (.l o) := rfl
theorem c (o : OpsRX) : Statement (.c o) := rfl
theorem a (o : OpsRX) : Statement (.a o) := rfl
theorem s (o : OpsRX) : Statement (.s o) := rfl
theorem m (o : OpsRX) : Statement (.m o) := rfl
theorem d (o : OpsRX) : Statement (.d o) := rfl
theorem al (o : OpsRX) : Statement (.al o) := rfl
theorem sl (o : OpsRX) : Statement (.sl o) := rfl
theorem std (o : OpsRX) : Statement (.std o) := rfl
theorem ld (o : OpsRX) : Statement (.ld o) := rfl
theorem cd (o : OpsRX) : Statement (.cd o) := rfl
theorem ad (o : OpsRX) : Statement (.ad o) := rfl
theorem sd (o : OpsRX) : Statement (.sd o) := rfl
theorem md (o : OpsRX) : Statement (.md o) := rfl
theorem dd (o : OpsRX) : Statement (.dd o) := rfl
theorem aw (o : OpsRX) : Statement (.aw o) := rfl
theorem sw (o : OpsRX) : Statement (.sw o) := rfl
theorem ste (o : OpsRX) : Statement (.ste o) := rfl
theorem le (o : OpsRX) : Statement (.le o) := rfl
theorem ce (o : OpsRX) : Statement (.ce o) := rfl
theorem ae (o : OpsRX) : Statement (.ae o) := rfl
theorem se (o : OpsRX) : Statement (.se o) := rfl
theorem me (o : OpsRX) : Statement (.me o) := rfl
theorem de (o : OpsRX) : Statement (.de o) := rfl
theorem au (o : OpsRX) : Statement (.au o) := rfl
theorem su (o : OpsRX) : Statement (.su o) := rfl
theorem ssm (o : OpsSI) : Statement (.ssm o) := rfl
theorem lpsw (o : OpsSI) : Statement (.lpsw o) := rfl
theorem diag (o : OpsRS) : Statement (.diag o) := rfl
theorem wrd (o : OpsSI) : Statement (.wrd o) := rfl
theorem rdd (o : OpsSI) : Statement (.rdd o) := rfl
theorem bxh (o : OpsRS) : Statement (.bxh o) := rfl
theorem bxle (o : OpsRS) : Statement (.bxle o) := rfl
theorem srl (o : OpsRS) : Statement (.srl o) := rfl
theorem sll (o : OpsRS) : Statement (.sll o) := rfl
theorem sra (o : OpsRS) : Statement (.sra o) := rfl
theorem sla (o : OpsRS) : Statement (.sla o) := rfl
theorem srdl (o : OpsRS) : Statement (.srdl o) := rfl
theorem sldl (o : OpsRS) : Statement (.sldl o) := rfl
theorem srda (o : OpsRS) : Statement (.srda o) := rfl
theorem slda (o : OpsRS) : Statement (.slda o) := rfl
theorem stm (o : OpsRS) : Statement (.stm o) := rfl
theorem tm (o : OpsSI) : Statement (.tm o) := rfl
theorem mvi (o : OpsSI) : Statement (.mvi o) := rfl
theorem ts (o : OpsSI) : Statement (.ts o) := rfl
theorem ni (o : OpsSI) : Statement (.ni o) := rfl
theorem cli (o : OpsSI) : Statement (.cli o) := rfl
theorem oi (o : OpsSI) : Statement (.oi o) := rfl
theorem xi (o : OpsSI) : Statement (.xi o) := rfl
theorem lm (o : OpsRS) : Statement (.lm o) := rfl
theorem sio (fn : BitVec 7) (o : OpsS) : Statement (.sio fn o) := rfl
theorem siof (fn : BitVec 7) (o : OpsS) : Statement (.siof fn o) := rfl
theorem tio (fn : BitVec 7) (o : OpsS) : Statement (.tio fn o) := rfl
theorem clrio (fn : BitVec 7) (o : OpsS) : Statement (.clrio fn o) := rfl
theorem hio (fn : BitVec 7) (o : OpsS) : Statement (.hio fn o) := rfl
theorem hdv (fn : BitVec 7) (o : OpsS) : Statement (.hdv fn o) := rfl
theorem tch (fn : Byte) (o : OpsS) : Statement (.tch fn o) := rfl
theorem stnsm (o : OpsSI) : Statement (.stnsm o) := rfl
theorem stosm (o : OpsSI) : Statement (.stosm o) := rfl
theorem sigp (o : OpsRS) : Statement (.sigp o) := rfl
theorem mc (o : OpsSI) : Statement (.mc o) := rfl
theorem lra (o : OpsRX) : Statement (.lra o) := rfl
theorem stidp (o : OpsS) : Statement (.stidp o) := rfl
theorem stidc (o : OpsS) : Statement (.stidc o) := rfl
theorem sck (o : OpsS) : Statement (.sck o) := rfl
theorem stck (o : OpsS) : Statement (.stck o) := rfl
theorem sckc (o : OpsS) : Statement (.sckc o) := rfl
theorem stckc (o : OpsS) : Statement (.stckc o) := rfl
theorem spt (o : OpsS) : Statement (.spt o) := rfl
theorem stpt (o : OpsS) : Statement (.stpt o) := rfl
theorem spka (o : OpsS) : Statement (.spka o) := rfl
theorem ipk (o : OpsS) : Statement (.ipk o) := rfl
theorem ptlb (o : OpsS) : Statement (.ptlb o) := rfl
theorem spx (o : OpsS) : Statement (.spx o) := rfl
theorem stpx (o : OpsS) : Statement (.stpx o) := rfl
theorem stap (o : OpsS) : Statement (.stap o) := rfl
theorem rrb (o : OpsS) : Statement (.rrb o) := rfl
theorem b2xx (fn : Byte) (o : OpsS) : Statement (.b2xx fn o) := rfl
theorem stctl (o : OpsRS) : Statement (.stctl o) := rfl
theorem lctl (o : OpsRS) : Statement (.lctl o) := rfl
theorem cs (o : OpsRS) : Statement (.cs o) := rfl
theorem cds (o : OpsRS) : Statement (.cds o) := rfl
theorem clm (o : OpsRS) : Statement (.clm o) := rfl
theorem stcm (o : OpsRS) : Statement (.stcm o) := rfl
theorem icm (o : OpsRS) : Statement (.icm o) := rfl
theorem mvn (o : OpsSS) : Statement (.mvn o) := rfl
theorem mvc (o : OpsSS) : Statement (.mvc o) := rfl
theorem mvz (o : OpsSS) : Statement (.mvz o) := rfl
theorem nc (o : OpsSS) : Statement (.nc o) := rfl
theorem clc (o : OpsSS) : Statement (.clc o) := rfl
theorem oc (o : OpsSS) : Statement (.oc o) := rfl
theorem xc (o : OpsSS) : Statement (.xc o) := rfl
theorem tr (o : OpsSS) : Statement (.tr o) := rfl
theorem trt (o : OpsSS) : Statement (.trt o) := rfl
theorem ed (o : OpsSS) : Statement (.ed o) := rfl
theorem edmk (o : OpsSS) : Statement (.edmk o) := rfl
theorem srp (o : OpsSS2) : Statement (.srp o) := rfl
theorem mvo (o : OpsSS2) : Statement (.mvo o) := rfl
theorem pack (o : OpsSS2) : Statement (.pack o) := rfl
theorem unpk (o : OpsSS2) : Statement (.unpk o) := rfl
theorem zap (o : OpsSS2) : Statement (.zap o) := rfl
theorem cp (o : OpsSS2) : Statement (.cp o) := rfl
theorem ap (o : OpsSS2) : Statement (.ap o) := rfl
theorem sp (o : OpsSS2) : Statement (.sp o) := rfl
theorem mp (o : OpsSS2) : Statement (.mp o) := rfl
theorem dp (o : OpsSS2) : Statement (.dp o) := rfl

end Sys2Proof.Laws.EncodeLength
end

