-- ==== Sys2Proof/Laws/Storage.lean ====
section
/-! SUPPORT. What the shared operations over several words of storage can do: LM and STM, byte stores, and
taking an interruption (`spec/43_load_store.md`, `spec/60_exceptions.md` R930). -/

namespace Sys2Proof.Machine

/-- An instruction that only stores bytes leaves them there, and every other byte as it was. -/
theorem completed_setBytes (s : State) (hw : Memory.wf s.mem = true) (a : Addr) (bs : List Byte)
    (hl : bs.length ≤ 2^24) :
    let t := s.completed 4 (s.setBytes a bs)
    t = s.completed 4 { s with mem := t.mem } ∧ t.bytesAt a bs.length = bs ∧
      ∀ x : Addr, bs.length ≤ (x - a).toNat → t.byteAt x = s.byteAt x := by
  refine ⟨?_, ?_, ?_⟩
  · have : s.setBytes a bs = { s with mem := (s.setBytes a bs).mem } := by
      have h1 := s.setBytes_gr a bs
      have h2 := s.setBytes_fr a bs
      have h3 := s.setBytes_psw a bs
      have h4 := s.setBytes_keys a bs
      have h5 := s.setBytes_cfg a bs
      have h6 := s.setBytes_result a bs
      generalize s.setBytes a bs = u at *
      obtain ⟨a,b,c,d,e,f,g⟩ := u
      simp_all
    exact congrArg (s.completed 4) this
  · exact (State.bytesAt_congr (s := s.setBytes a bs) (t := s.completed 4 (s.setBytes a bs)) rfl a _).trans
        (State.bytesAt_setBytes hw a bs hl)
  · intro x hx
    have : (s.completed 4 (s.setBytes a bs)).byteAt x = (s.setBytes a bs).byteAt x := rfl
    rw [this, State.byteAt_setBytes hw a x bs hl, dif_neg (by omega)]

/-- LM: the registers from `r` on hold the words, the others stay (R510). -/
theorem State.loadRegisters_spec (s : State) (r : Nib) (n : Nat) (a : Addr) (hn : n ≤ 16) :
    (∀ k < n, (s.loadRegisters n r a).getGr (r + BitVec.ofNat 4 k) = s.peek 32 (after a (4 * k))) ∧
    (∀ q : Nib, n ≤ (q - r).toNat → (s.loadRegisters n r a).getGr q = s.getGr q) ∧
    s.loadRegisters n r a = { s with gr := (s.loadRegisters n r a).gr } := by
  induction n generalizing s r a with
  | zero => exact ⟨by simp, fun _ _ => rfl, rfl⟩
  | succ n ih =>
    obtain ⟨i1, i2, i3⟩ := ih (s.setGr r (s.peek 32 a)) (r + 1) (a + 4) (by omega)
    have add1 : ∀ k, r + 1 + BitVec.ofNat 4 k = r + BitVec.ofNat 4 (k + 1) := by
      intro k
      rw [BitVec.add_assoc, show (1 : Nib) = BitVec.ofNat 4 1 from rfl, ← BitVec.ofNat_add, Nat.add_comm]
    have add4 : ∀ k, after (a + 4) (4 * k) = after a (4 * (k + 1)) := by
      intro k
      unfold after
      rw [BitVec.add_assoc, show (4 : Addr) = BitVec.ofNat 24 4 from rfl, ← BitVec.ofNat_add]
      congr 2; ring
    refine ⟨fun k hk => ?_, fun q hq => ?_, ?_⟩
    · cases k with
      | zero =>
        have : n ≤ (r - (r + 1)).toNat := by
          have h1n : BitVec.toNat (1 : Nib) = 1 := rfl
          have := r.isLt
          simp only [BitVec.toNat_sub, BitVec.toNat_add]
          omega
        have z : r + BitVec.ofNat 4 0 = r := by simp
        simp only [State.loadRegisters, Nat.mul_zero, after_zero]
        rw [z, i2 r this, State.getGr_setGr_self]
      | succ k =>
        simp only [State.loadRegisters]
        rw [← add1, i1 k (by omega), ← add4]
        exact State.peek_congr rfl _ _
    · have hne : r ≠ q := by rintro rfl; simp at hq
      have : n ≤ (q - (r + 1)).toNat := by
        have h1 := r.isLt
        have h2 := q.isLt
        have e : q - r ≠ 0 := by
          intro e; rw [e] at hq; simp at hq
        have h1n : BitVec.toNat (1 : Nib) = 1 := rfl
        simp only [BitVec.toNat_sub, BitVec.toNat_add] at hq ⊢
        omega
      simp only [State.loadRegisters]
      rw [i2 q this, State.getGr_setGr_of_ne _ hne]
    · simp only [State.loadRegisters]
      conv_lhs => rw [i3]
      rfl

/-- STM: the words hold the registers from `r` on, the other bytes stay (R511). -/
theorem State.storeRegisters_spec (s : State) (hw : Memory.wf s.mem = true) (r : Nib) (n : Nat) (a : Addr)
    (hn : n ≤ 16) :
    let t := s.storeRegisters n r a
    (∀ k < n, t.peek 32 (after a (4 * k)) = s.getGr (r + BitVec.ofNat 4 k)) ∧
    (∀ x : Addr, 4 * n ≤ (x - a).toNat → t.byteAt x = s.byteAt x) ∧
    t = { s with mem := t.mem } := by
  dsimp only
  induction n generalizing s r a with
  | zero => exact ⟨by simp, fun _ _ => rfl, rfl⟩
  | succ n ih =>
    obtain ⟨i1, i2, i3⟩ := ih (s.poke a (s.getGr r)) (State.poke_wf hw _ _) (r + 1) (a + 4) (by omega)
    have add1 : ∀ k, r + 1 + BitVec.ofNat 4 k = r + BitVec.ofNat 4 (k + 1) := by
      intro k
      rw [BitVec.add_assoc, show (1 : Nib) = BitVec.ofNat 4 1 from rfl, ← BitVec.ofNat_add, Nat.add_comm]
    have add4 : ∀ k, after (a + 4) (4 * k) = after a (4 * (k + 1)) := by
      intro k
      unfold after
      rw [BitVec.add_assoc, show (4 : Addr) = BitVec.ofNat 24 4 from rfl, ← BitVec.ofNat_add]
      congr 2; ring
    have gp : ∀ q, (s.poke a (s.getGr r)).getGr q = s.getGr q := by intro q; simp [State.getGr]
    refine ⟨fun k hk => ?_, fun x hx => ?_, ?_⟩
    · cases k with
      | zero =>
        have z : r + BitVec.ofNat 4 0 = r := by simp
        simp only [State.storeRegisters, Nat.mul_zero, after_zero]
        rw [z]
        have : ((s.poke a (s.getGr r)).storeRegisters n (r + 1) (a + 4)).bytesAt a (32/8) =
            (s.poke a (s.getGr r)).bytesAt a (32/8) := by
          apply List.ext_getElem
          · simp
          · intro k h1 h2
            have hk : k < 4 := by simpa using h1
            rw [State.bytesAt_getElem _ _ _ _ hk, State.bytesAt_getElem _ _ _ _ hk]
            apply i2
            have := a.isLt
            have h4n : BitVec.toNat (4 : Addr) = 4 := rfl
            simp only [BitVec.toNat_sub, BitVec.toNat_add, BitVec.toNat_ofNat, h4n]
            omega
        rw [State.peek, this]
        exact State.peek_poke hw a (s.getGr r) (by norm_num) (by norm_num)
      | succ k =>
        simp only [State.storeRegisters]
        rw [← add1, ← add4, i1 k (by omega), gp]
    · simp only [State.storeRegisters]
      rw [i2 x, State.byteAt_poke_of_outside hw a x _ (by norm_num) (by omega)]
      have h1 := a.isLt
      have h2 := x.isLt
      have h4n : BitVec.toNat (4 : Addr) = 4 := rfl
      simp only [BitVec.toNat_sub, BitVec.toNat_add, h4n] at hx ⊢
      omega
    · simp only [State.storeRegisters]
      conv_lhs => rw [i3]
      simp

/-- An interruption stores only at its old slot (R930). -/
theorem State.interrupt_byteAt (u : State) (hw : Memory.wf u.mem = true) (old new : Addr) (code ilc ia)
    (x : Addr) (hx : 8 ≤ (x - old).toNat) :
    (u.interrupt old new code ilc ia).byteAt x = u.byteAt x := by
  have : (u.interrupt old new code ilc ia).byteAt x = (u.poke old { u.psw with intCode := code, ilc := ilc, ia := ia }.pack).byteAt x := rfl
  rw [this, State.byteAt_poke_of_outside hw _ _ _ (by norm_num) (by simpa using hx)]

/-- A new slot that lies apart from the old one is read as before. -/
theorem State.peek_poke_apart (s : State) (hw : Memory.wf s.mem = true) (old new : Addr) (x : DWord)
    (h : ∀ k < 8, 8 ≤ (new + BitVec.ofNat 24 k - old).toNat) :
    (s.poke old x).peek 64 new = s.peek 64 new :=
  State.peek_of_poke_apart hw old new x (by norm_num) (by simpa using h)

/-- Taking an interruption (R930): the old slot holds the live PSW with code, ILC and IA, the new slot is live. -/
theorem State.interrupt_spec (s : State) (hw : Memory.wf s.mem = true) (old new : Addr) (code ilc ia)
    (h : ∀ k < 8, 8 ≤ (new + BitVec.ofNat 24 k - old).toNat) :
    let t := s.interrupt old new code ilc ia
    t.peek 64 old = { s.psw with intCode := code, ilc := ilc, ia := ia }.pack ∧
    t = { s with mem := t.mem, psw := Psw.unpack (s.peek 64 new), result := .ok } := by
  dsimp only
  constructor
  · have : (s.interrupt old new code ilc ia).peek 64 old = (s.poke old { s.psw with intCode := code, ilc := ilc, ia := ia }.pack).peek 64 old :=
      State.peek_congr rfl _ _
    rw [this, State.peek_poke hw _ _ (by norm_num) (by norm_num)]
  · simp only [State.interrupt, State.peek_poke_apart s hw old new _ h]
    simp

/-- The addresses below 128 are installed whatever the parameters (R9). -/
theorem State.installed_low (t : State) (h : t.cfg.wf = true) (a : Addr) (n : Nat)
    (ha : ∀ k < n, (a + BitVec.ofNat 24 k).toNat < 128) : t.installed a n = true := by
  rw [State.installed_iff]
  intro k hk
  have := ha k hk
  simp [Config.wf] at h
  omega

end Sys2Proof.Machine
end

