-- ==== Sys2Proof/Tests/Slice0.lean ====
section
/-! SUPPORT. Small tests: the refusals of the decoder, every row's decoding from a word written out from R121 to
R126, one step each on vectors of `spec/95_test_vectors.md`, and for each statement of the certificates a
state and operands that meet its hypotheses. -/

namespace Sys2Proof.Tests

open Sys2Proof Sys2Proof.Machine

/-! ## Helpers -/

/-- The decoder reads exactly this instruction and leaves the byte after it. -/
def reads (bs : List Byte) (i : Instr) : Bool := decide (decode (bs ++ [0x5A]) = .ok (i, [0x5A]))

/-- The state after reset with IA set and bytes stored there: the vectors' start (`spec/95`, Conventions). -/
def placed (a : Addr) (bs : List Byte) : State :=
  ({ State.reset with psw := { Psw.reset with ia := a } } : State).setBytes a bs

/-- The next call ends in a state with this property. -/
def stepsTo (s : State) (p : State → Bool) : Bool :=
  match step s with
  | .next t => p t
  | _ => false

/-- IA and ILC after a completed call. -/
def ended (t : State) (ia : Addr) (ilc : BitVec 2) : Bool :=
  t.psw.ia == ia && t.psw.ilc == ilc && t.result == .ok

/-- The call hands the instruction to the host and changes nothing else (R650). -/
def handsOver (bs : List Byte) (v : Word) : Bool :=
  stepsTo (placed 0x1000 bs) fun t => t == (placed 0x1000 bs).handedOver v

/-- A machine with 4096 bytes of storage. -/
def small : State := { State.reset with cfg := { Config.default with memSize := 0x1000 } }

/-- The machine after reset in problem state. -/
def problem : State := { State.reset with psw := { Psw.reset with p := true } }

/-! ## Well-formedness and refusals -/

/-- R680: the catch-all B2 row does not hold a named row's second byte. -/
theorem test_wf_named_b2_refused :
    (namedB2.all fun b => !(Instr.b2xx b { b2 := 1, d2 := 2 }).wellFormed) = true := by decide

theorem test_wf_other_b2_accepted : (Instr.b2xx 0x0C { b2 := 1, d2 := 2 }).wellFormed = true := by decide

/-- R146: an opcode byte without a row is refused by name; so are a cut-off instruction and no bytes. -/
theorem test_decode_refuses :
    decode [0x00, 0x00] = .error (.undefinedOpcode 0x00) ∧
    decode [0x25, 0x24] = .error (.undefinedOpcode 0x25) ∧
    decode [0xB3, 0x00, 0x00, 0x00] = .error (.undefinedOpcode 0xB3) ∧
    decode [0xD2, 0x02, 0x50, 0x01, 0x50] = .error (.truncated 0xD2) ∧
    decode [] = .error .noBytes := by decide

/-- The opcode table numbers bits from the last bit of the first halfword. -/
theorem test_decodeTableWord :
    decodeTableWord 16 0x1835 = some (.lr { r1 := 3, r2 := 5 }) ∧
    decodeTableWord 32 0x2F804530 = some (.bal { r1 := 3, x2 := 0, b2 := 2, d2 := 0xF80 }) ∧
    decodeTableWord 16 0xD200 = some (.mvc { l := 0, b1 := 0, d1 := 0, b2 := 0, d2 := 0 }) ∧
    decodeTableWord 16 0x9C01 = some (.siof 0 { b2 := 0, d2 := 0 }) ∧
    decodeTableWord 16 0x0000 = none := by decide

/-- The step after `withFetchWord` runs that instruction. -/
theorem test_withFetchWord : stepsTo (State.reset.withFetchWord 32 0x01234110) (fun t =>
    t.getGr 1 == 0x123 && ended t 4 2) = true := by decide

/-! ## One word of each row, from its format's fields (R121 to R126) and its opcode -/

theorem test_decode_control_rr : (
  reads [0x04, 0x12] (.spm { r1 := 1, r2 := 2 }) &&
  reads [0x05, 0x87] (.balr { r1 := 8, r2 := 7 }) &&
  reads [0x06, 0xFC] (.bctr { r1 := 15, r2 := 12 }) &&
  reads [0x07, 0x61] (.bcr { r1 := 6, r2 := 1 }) &&
  reads [0x08, 0xD6] (.ssk { r1 := 13, r2 := 6 }) &&
  reads [0x09, 0x4B] (.isk { r1 := 4, r2 := 11 }) &&
  reads [0x0A, 0xB0] (.svc 0xB0) &&
  reads [0x0E, 0x25] (.mvcl { r1 := 2, r2 := 5 }) &&
  reads [0x0F, 0x9A] (.clcl { r1 := 9, r2 := 10 })) = true := by decide

theorem test_decode_fixed_rr : (
  reads [0x10, 0x0F] (.lpr { r1 := 0, r2 := 15 }) &&
  reads [0x11, 0x74] (.lnr { r1 := 7, r2 := 4 }) &&
  reads [0x12, 0xE9] (.ltr { r1 := 14, r2 := 9 }) &&
  reads [0x13, 0x5E] (.lcr { r1 := 5, r2 := 14 }) &&
  reads [0x14, 0xC3] (.nr { r1 := 12, r2 := 3 }) &&
  reads [0x15, 0x38] (.clr { r1 := 3, r2 := 8 }) &&
  reads [0x16, 0xAD] (.or { r1 := 10, r2 := 13 }) &&
  reads [0x17, 0x12] (.xr { r1 := 1, r2 := 2 }) &&
  reads [0x18, 0x87] (.lr { r1 := 8, r2 := 7 }) &&
  reads [0x19, 0xFC] (.cr { r1 := 15, r2 := 12 }) &&
  reads [0x1A, 0x61] (.ar { r1 := 6, r2 := 1 }) &&
  reads [0x1B, 0xD6] (.sr { r1 := 13, r2 := 6 }) &&
  reads [0x1C, 0x4B] (.mr { r1 := 4, r2 := 11 }) &&
  reads [0x1D, 0xB0] (.dr { r1 := 11, r2 := 0 }) &&
  reads [0x1E, 0x25] (.alr { r1 := 2, r2 := 5 }) &&
  reads [0x1F, 0x9A] (.slr { r1 := 9, r2 := 10 })) = true := by decide

theorem test_decode_float_long_rr : (
  reads [0x20, 0x0F] (.lpdr { r1 := 0, r2 := 15 }) &&
  reads [0x21, 0x74] (.lndr { r1 := 7, r2 := 4 }) &&
  reads [0x22, 0xE9] (.ltdr { r1 := 14, r2 := 9 }) &&
  reads [0x23, 0x5E] (.lcdr { r1 := 5, r2 := 14 }) &&
  reads [0x24, 0xC3] (.hdr { r1 := 12, r2 := 3 }) &&
  reads [0x28, 0x38] (.ldr { r1 := 3, r2 := 8 }) &&
  reads [0x29, 0xAD] (.cdr { r1 := 10, r2 := 13 }) &&
  reads [0x2A, 0x12] (.adr { r1 := 1, r2 := 2 }) &&
  reads [0x2B, 0x87] (.sdr { r1 := 8, r2 := 7 }) &&
  reads [0x2C, 0xFC] (.mdr { r1 := 15, r2 := 12 }) &&
  reads [0x2D, 0x61] (.ddr { r1 := 6, r2 := 1 }) &&
  reads [0x2E, 0xD6] (.awr { r1 := 13, r2 := 6 }) &&
  reads [0x2F, 0x4B] (.swr { r1 := 4, r2 := 11 })) = true := by decide

theorem test_decode_float_short_rr : (
  reads [0x30, 0xB0] (.lper { r1 := 11, r2 := 0 }) &&
  reads [0x31, 0x25] (.lner { r1 := 2, r2 := 5 }) &&
  reads [0x32, 0x9A] (.lter { r1 := 9, r2 := 10 }) &&
  reads [0x33, 0x0F] (.lcer { r1 := 0, r2 := 15 }) &&
  reads [0x34, 0x74] (.her { r1 := 7, r2 := 4 }) &&
  reads [0x38, 0xE9] (.ler { r1 := 14, r2 := 9 }) &&
  reads [0x39, 0x5E] (.cer { r1 := 5, r2 := 14 }) &&
  reads [0x3A, 0xC3] (.aer { r1 := 12, r2 := 3 }) &&
  reads [0x3B, 0x38] (.ser { r1 := 3, r2 := 8 }) &&
  reads [0x3C, 0xAD] (.mer { r1 := 10, r2 := 13 }) &&
  reads [0x3D, 0x12] (.der { r1 := 1, r2 := 2 }) &&
  reads [0x3E, 0x87] (.aur { r1 := 8, r2 := 7 }) &&
  reads [0x3F, 0xFC] (.sur { r1 := 15, r2 := 12 })) = true := by decide

theorem test_decode_fixed_rx : (
  reads [0x40, 0x61, 0xDF, 0x36] (.sth { r1 := 6, x2 := 1, b2 := 13, d2 := 0xF36 }) &&
  reads [0x41, 0xD6, 0x00, 0x6B] (.la { r1 := 13, x2 := 6, b2 := 0, d2 := 0x06B }) &&
  reads [0x42, 0x4B, 0x31, 0xA0] (.stc { r1 := 4, x2 := 11, b2 := 3, d2 := 0x1A0 }) &&
  reads [0x43, 0xB0, 0x62, 0xD5] (.ic { r1 := 11, x2 := 0, b2 := 6, d2 := 0x2D5 }) &&
  reads [0x44, 0x25, 0x94, 0x0A] (.ex { r1 := 2, x2 := 5, b2 := 9, d2 := 0x40A }) &&
  reads [0x45, 0x9A, 0xC5, 0x3F] (.bal { r1 := 9, x2 := 10, b2 := 12, d2 := 0x53F }) &&
  reads [0x46, 0x0F, 0xF6, 0x74] (.bct { r1 := 0, x2 := 15, b2 := 15, d2 := 0x674 }) &&
  reads [0x47, 0x74, 0x27, 0xA9] (.bc { r1 := 7, x2 := 4, b2 := 2, d2 := 0x7A9 }) &&
  reads [0x48, 0xE9, 0x58, 0xDE] (.lh { r1 := 14, x2 := 9, b2 := 5, d2 := 0x8DE }) &&
  reads [0x49, 0x5E, 0x8A, 0x13] (.ch { r1 := 5, x2 := 14, b2 := 8, d2 := 0xA13 }) &&
  reads [0x4A, 0xC3, 0xBB, 0x48] (.ah { r1 := 12, x2 := 3, b2 := 11, d2 := 0xB48 }) &&
  reads [0x4B, 0x38, 0xEC, 0x7D] (.sh { r1 := 3, x2 := 8, b2 := 14, d2 := 0xC7D }) &&
  reads [0x4C, 0xAD, 0x1D, 0xB2] (.mh { r1 := 10, x2 := 13, b2 := 1, d2 := 0xDB2 }) &&
  reads [0x4E, 0x12, 0x4E, 0xE7] (.cvd { r1 := 1, x2 := 2, b2 := 4, d2 := 0xEE7 }) &&
  reads [0x4F, 0x87, 0x70, 0x1C] (.cvb { r1 := 8, x2 := 7, b2 := 7, d2 := 0x01C })) = true := by decide

theorem test_decode_fixed_rx_word : (
  reads [0x50, 0xFC, 0xA1, 0x51] (.st { r1 := 15, x2 := 12, b2 := 10, d2 := 0x151 }) &&
  reads [0x54, 0x61, 0xD2, 0x86] (.n { r1 := 6, x2 := 1, b2 := 13, d2 := 0x286 }) &&
  reads [0x55, 0xD6, 0x03, 0xBB] (.cl { r1 := 13, x2 := 6, b2 := 0, d2 := 0x3BB }) &&
  reads [0x56, 0x4B, 0x34, 0xF0] (.o { r1 := 4, x2 := 11, b2 := 3, d2 := 0x4F0 }) &&
  reads [0x57, 0xB0, 0x66, 0x25] (.x { r1 := 11, x2 := 0, b2 := 6, d2 := 0x625 }) &&
  reads [0x58, 0x25, 0x97, 0x5A] (.l { r1 := 2, x2 := 5, b2 := 9, d2 := 0x75A }) &&
  reads [0x59, 0x9A, 0xC8, 0x8F] (.c { r1 := 9, x2 := 10, b2 := 12, d2 := 0x88F }) &&
  reads [0x5A, 0x0F, 0xF9, 0xC4] (.a { r1 := 0, x2 := 15, b2 := 15, d2 := 0x9C4 }) &&
  reads [0x5B, 0x74, 0x2A, 0xF9] (.s { r1 := 7, x2 := 4, b2 := 2, d2 := 0xAF9 }) &&
  reads [0x5C, 0xE9, 0x5C, 0x2E] (.m { r1 := 14, x2 := 9, b2 := 5, d2 := 0xC2E }) &&
  reads [0x5D, 0x5E, 0x8D, 0x63] (.d { r1 := 5, x2 := 14, b2 := 8, d2 := 0xD63 }) &&
  reads [0x5E, 0xC3, 0xBE, 0x98] (.al { r1 := 12, x2 := 3, b2 := 11, d2 := 0xE98 }) &&
  reads [0x5F, 0x38, 0xEF, 0xCD] (.sl { r1 := 3, x2 := 8, b2 := 14, d2 := 0xFCD })) = true := by decide

theorem test_decode_float_long_rx : (
  reads [0x60, 0xAD, 0x11, 0x02] (.std { r1 := 10, x2 := 13, b2 := 1, d2 := 0x102 }) &&
  reads [0x68, 0x12, 0x42, 0x37] (.ld { r1 := 1, x2 := 2, b2 := 4, d2 := 0x237 }) &&
  reads [0x69, 0x87, 0x73, 0x6C] (.cd { r1 := 8, x2 := 7, b2 := 7, d2 := 0x36C }) &&
  reads [0x6A, 0xFC, 0xA4, 0xA1] (.ad { r1 := 15, x2 := 12, b2 := 10, d2 := 0x4A1 }) &&
  reads [0x6B, 0x61, 0xD5, 0xD6] (.sd { r1 := 6, x2 := 1, b2 := 13, d2 := 0x5D6 }) &&
  reads [0x6C, 0xD6, 0x07, 0x0B] (.md { r1 := 13, x2 := 6, b2 := 0, d2 := 0x70B }) &&
  reads [0x6D, 0x4B, 0x38, 0x40] (.dd { r1 := 4, x2 := 11, b2 := 3, d2 := 0x840 }) &&
  reads [0x6E, 0xB0, 0x69, 0x75] (.aw { r1 := 11, x2 := 0, b2 := 6, d2 := 0x975 }) &&
  reads [0x6F, 0x25, 0x9A, 0xAA] (.sw { r1 := 2, x2 := 5, b2 := 9, d2 := 0xAAA })) = true := by decide

theorem test_decode_float_short_rx : (
  reads [0x70, 0x9A, 0xCB, 0xDF] (.ste { r1 := 9, x2 := 10, b2 := 12, d2 := 0xBDF }) &&
  reads [0x78, 0x0F, 0xFD, 0x14] (.le { r1 := 0, x2 := 15, b2 := 15, d2 := 0xD14 }) &&
  reads [0x79, 0x74, 0x2E, 0x49] (.ce { r1 := 7, x2 := 4, b2 := 2, d2 := 0xE49 }) &&
  reads [0x7A, 0xE9, 0x5F, 0x7E] (.ae { r1 := 14, x2 := 9, b2 := 5, d2 := 0xF7E }) &&
  reads [0x7B, 0x5E, 0x80, 0xB3] (.se { r1 := 5, x2 := 14, b2 := 8, d2 := 0x0B3 }) &&
  reads [0x7C, 0xC3, 0xB1, 0xE8] (.me { r1 := 12, x2 := 3, b2 := 11, d2 := 0x1E8 }) &&
  reads [0x7D, 0x38, 0xE3, 0x1D] (.de { r1 := 3, x2 := 8, b2 := 14, d2 := 0x31D }) &&
  reads [0x7E, 0xAD, 0x14, 0x52] (.au { r1 := 10, x2 := 13, b2 := 1, d2 := 0x452 }) &&
  reads [0x7F, 0x12, 0x45, 0x87] (.su { r1 := 1, x2 := 2, b2 := 4, d2 := 0x587 }) &&
  reads [0xB1, 0xD6, 0x00, 0xFB] (.lra { r1 := 13, x2 := 6, b2 := 0, d2 := 0x0FB })) = true := by decide

theorem test_decode_rs : (
  reads [0x83, 0x61, 0xD9, 0x26] (.diag { r1 := 6, r3 := 1, b2 := 13, d2 := 0x926 }) &&
  reads [0x86, 0xB0, 0x6C, 0xC5] (.bxh { r1 := 11, r3 := 0, b2 := 6, d2 := 0xCC5 }) &&
  reads [0x87, 0x25, 0x9D, 0xFA] (.bxle { r1 := 2, r3 := 5, b2 := 9, d2 := 0xDFA }) &&
  reads [0x88, 0x9A, 0xCF, 0x2F] (.srl { r1 := 9, r3 := 10, b2 := 12, d2 := 0xF2F }) &&
  reads [0x89, 0x0F, 0xF0, 0x64] (.sll { r1 := 0, r3 := 15, b2 := 15, d2 := 0x064 }) &&
  reads [0x8A, 0x74, 0x21, 0x99] (.sra { r1 := 7, r3 := 4, b2 := 2, d2 := 0x199 }) &&
  reads [0x8B, 0xE9, 0x52, 0xCE] (.sla { r1 := 14, r3 := 9, b2 := 5, d2 := 0x2CE }) &&
  reads [0x8C, 0x5E, 0x84, 0x03] (.srdl { r1 := 5, r3 := 14, b2 := 8, d2 := 0x403 }) &&
  reads [0x8D, 0xC3, 0xB5, 0x38] (.sldl { r1 := 12, r3 := 3, b2 := 11, d2 := 0x538 }) &&
  reads [0x8E, 0x38, 0xE6, 0x6D] (.srda { r1 := 3, r3 := 8, b2 := 14, d2 := 0x66D }) &&
  reads [0x8F, 0xAD, 0x17, 0xA2] (.slda { r1 := 10, r3 := 13, b2 := 1, d2 := 0x7A2 }) &&
  reads [0x90, 0x12, 0x48, 0xD7] (.stm { r1 := 1, r3 := 2, b2 := 4, d2 := 0x8D7 }) &&
  reads [0x98, 0x9A, 0xC2, 0x7F] (.lm { r1 := 9, r3 := 10, b2 := 12, d2 := 0x27F }) &&
  reads [0xAE, 0xFC, 0xAE, 0x91] (.sigp { r1 := 15, r3 := 12, b2 := 10, d2 := 0xE91 }) &&
  reads [0xB6, 0x4B, 0x35, 0x80] (.stctl { r1 := 4, r3 := 11, b2 := 3, d2 := 0x580 }) &&
  reads [0xB7, 0xB0, 0x66, 0xB5] (.lctl { r1 := 11, r3 := 0, b2 := 6, d2 := 0x6B5 }) &&
  reads [0xBA, 0x25, 0x97, 0xEA] (.cs { r1 := 2, r3 := 5, b2 := 9, d2 := 0x7EA }) &&
  reads [0xBB, 0x9A, 0xC9, 0x1F] (.cds { r1 := 9, r3 := 10, b2 := 12, d2 := 0x91F }) &&
  reads [0xBD, 0x0F, 0xFA, 0x54] (.clm { r1 := 0, r3 := 15, b2 := 15, d2 := 0xA54 }) &&
  reads [0xBE, 0x74, 0x2B, 0x89] (.stcm { r1 := 7, r3 := 4, b2 := 2, d2 := 0xB89 }) &&
  reads [0xBF, 0xE9, 0x5C, 0xBE] (.icm { r1 := 14, r3 := 9, b2 := 5, d2 := 0xCBE })) = true := by decide

theorem test_decode_si : (
  reads [0x80, 0x87, 0x76, 0xBC] (.ssm { i2 := 0x87, b1 := 7, d1 := 0x6BC }) &&
  reads [0x82, 0xFC, 0xA7, 0xF1] (.lpsw { i2 := 0xFC, b1 := 10, d1 := 0x7F1 }) &&
  reads [0x84, 0xD6, 0x0A, 0x5B] (.wrd { i2 := 0xD6, b1 := 0, d1 := 0xA5B }) &&
  reads [0x85, 0x4B, 0x3B, 0x90] (.rdd { i2 := 0x4B, b1 := 3, d1 := 0xB90 }) &&
  reads [0x91, 0x87, 0x7A, 0x0C] (.tm { i2 := 0x87, b1 := 7, d1 := 0xA0C }) &&
  reads [0x92, 0xFC, 0xAB, 0x41] (.mvi { i2 := 0xFC, b1 := 10, d1 := 0xB41 }) &&
  reads [0x94, 0xD6, 0x0D, 0xAB] (.ni { i2 := 0xD6, b1 := 0, d1 := 0xDAB }) &&
  reads [0x95, 0x4B, 0x3E, 0xE0] (.cli { i2 := 0x4B, b1 := 3, d1 := 0xEE0 }) &&
  reads [0x96, 0xB0, 0x60, 0x15] (.oi { i2 := 0xB0, b1 := 6, d1 := 0x015 }) &&
  reads [0x97, 0x25, 0x91, 0x4A] (.xi { i2 := 0x25, b1 := 9, d1 := 0x14A }) &&
  reads [0xAC, 0x12, 0x4C, 0x27] (.stnsm { i2 := 0x12, b1 := 4, d1 := 0xC27 }) &&
  reads [0xAD, 0x87, 0x7D, 0x5C] (.stosm { i2 := 0x87, b1 := 7, d1 := 0xD5C }) &&
  reads [0xAF, 0x61, 0xDF, 0xC6] (.mc { i2 := 0x61, b1 := 13, d1 := 0xFC6 })) = true := by decide

theorem test_decode_channel : (
  reads [0x93, 0x61, 0xDC, 0x76] (.ts { i2 := 0x61, b1 := 13, d1 := 0xC76 }) &&
  reads [0x9C, 0x70, 0xF3, 0xB4] (.sio 0x38 { b2 := 15, d2 := 0x3B4 }) &&
  reads [0x9C, 0xAB, 0x24, 0xE9] (.siof 0x55 { b2 := 2, d2 := 0x4E9 }) &&
  reads [0x9D, 0xE4, 0x56, 0x1E] (.tio 0x72 { b2 := 5, d2 := 0x61E }) &&
  reads [0x9D, 0x1F, 0x87, 0x53] (.clrio 0x0F { b2 := 8, d2 := 0x753 }) &&
  reads [0x9E, 0x58, 0xB8, 0x88] (.hio 0x2C { b2 := 11, d2 := 0x888 }) &&
  reads [0x9E, 0x93, 0xE9, 0xBD] (.hdv 0x49 { b2 := 14, d2 := 0x9BD }) &&
  reads [0x9F, 0xA5, 0x1A, 0xF2] (.tch 0xA5 { b2 := 1, d2 := 0xAF2 })) = true := by decide

theorem test_decode_b2 : (
  reads [0xB2, 0x02, 0x32, 0x30] (.stidp { b2 := 3, d2 := 0x230 }) &&
  reads [0xB2, 0x03, 0x63, 0x65] (.stidc { b2 := 6, d2 := 0x365 }) &&
  reads [0xB2, 0x04, 0x94, 0x9A] (.sck { b2 := 9, d2 := 0x49A }) &&
  reads [0xB2, 0x05, 0xC5, 0xCF] (.stck { b2 := 12, d2 := 0x5CF }) &&
  reads [0xB2, 0x06, 0xF7, 0x04] (.sckc { b2 := 15, d2 := 0x704 }) &&
  reads [0xB2, 0x07, 0x28, 0x39] (.stckc { b2 := 2, d2 := 0x839 }) &&
  reads [0xB2, 0x08, 0x59, 0x6E] (.spt { b2 := 5, d2 := 0x96E }) &&
  reads [0xB2, 0x09, 0x8A, 0xA3] (.stpt { b2 := 8, d2 := 0xAA3 }) &&
  reads [0xB2, 0x0A, 0xBB, 0xD8] (.spka { b2 := 11, d2 := 0xBD8 }) &&
  reads [0xB2, 0x0B, 0xED, 0x0D] (.ipk { b2 := 14, d2 := 0xD0D }) &&
  reads [0xB2, 0x0D, 0x1E, 0x42] (.ptlb { b2 := 1, d2 := 0xE42 }) &&
  reads [0xB2, 0x10, 0x4F, 0x77] (.spx { b2 := 4, d2 := 0xF77 }) &&
  reads [0xB2, 0x11, 0x70, 0xAC] (.stpx { b2 := 7, d2 := 0x0AC }) &&
  reads [0xB2, 0x12, 0xA1, 0xE1] (.stap { b2 := 10, d2 := 0x1E1 }) &&
  reads [0xB2, 0x13, 0xD3, 0x16] (.rrb { b2 := 13, d2 := 0x316 }) &&
  reads [0xB2, 0x2C, 0x04, 0x4B] (.b2xx 0x2C { b2 := 0, d2 := 0x44B })) = true := by decide

theorem test_decode_character : (
  reads [0xD1, 0x5E, 0x8D, 0xF3, 0xDF, 0xE1]
    (.mvn { l := 0x5E, b1 := 8, d1 := 0xDF3, b2 := 13, d2 := 0xFE1 }) &&
  reads [0xD2, 0xC3, 0xBF, 0x28, 0x82, 0x92]
    (.mvc { l := 0xC3, b1 := 11, d1 := 0xF28, b2 := 8, d2 := 0x292 }) &&
  reads [0xD3, 0x38, 0xE0, 0x5D, 0x35, 0x43]
    (.mvz { l := 0x38, b1 := 14, d1 := 0x05D, b2 := 3, d2 := 0x543 }) &&
  reads [0xD4, 0xAD, 0x11, 0x92, 0xE7, 0xF4]
    (.nc { l := 0xAD, b1 := 1, d1 := 0x192, b2 := 14, d2 := 0x7F4 }) &&
  reads [0xD5, 0x12, 0x42, 0xC7, 0x9A, 0xA5]
    (.clc { l := 0x12, b1 := 4, d1 := 0x2C7, b2 := 9, d2 := 0xAA5 }) &&
  reads [0xD6, 0x87, 0x73, 0xFC, 0x4D, 0x56] (.oc { l := 0x87, b1 := 7, d1 := 0x3FC, b2 := 4, d2 := 0xD56 }) &&
  reads [0xD7, 0xFC, 0xA5, 0x31, 0xF0, 0x07]
    (.xc { l := 0xFC, b1 := 10, d1 := 0x531, b2 := 15, d2 := 0x007 }) &&
  reads [0xDC, 0x61, 0xD6, 0x66, 0xA2, 0xB8]
    (.tr { l := 0x61, b1 := 13, d1 := 0x666, b2 := 10, d2 := 0x2B8 }) &&
  reads [0xDD, 0xD6, 0x07, 0x9B, 0x55, 0x69]
    (.trt { l := 0xD6, b1 := 0, d1 := 0x79B, b2 := 5, d2 := 0x569 }) &&
  reads [0xDE, 0x4B, 0x38, 0xD0, 0x08, 0x1A] (.ed { l := 0x4B, b1 := 3, d1 := 0x8D0, b2 := 0, d2 := 0x81A }) &&
  reads [0xDF, 0xB0, 0x6A, 0x05, 0xBA, 0xCB]
    (.edmk { l := 0xB0, b1 := 6, d1 := 0xA05, b2 := 11, d2 := 0xACB })) = true := by decide

theorem test_decode_decimal : (
  reads [0xF0, 0x25, 0x9B, 0x3A, 0x6D, 0x7C]
    (.srp { l1 := 2, l2 := 5, b1 := 9, d1 := 0xB3A, b2 := 6, d2 := 0xD7C }) &&
  reads [0xF1, 0x9A, 0xCC, 0x6F, 0x10, 0x2D]
    (.mvo { l1 := 9, l2 := 10, b1 := 12, d1 := 0xC6F, b2 := 1, d2 := 0x02D }) &&
  reads [0xF2, 0x0F, 0xFD, 0xA4, 0xC2, 0xDE]
    (.pack { l1 := 0, l2 := 15, b1 := 15, d1 := 0xDA4, b2 := 12, d2 := 0x2DE }) &&
  reads [0xF3, 0x74, 0x2E, 0xD9, 0x75, 0x8F]
    (.unpk { l1 := 7, l2 := 4, b1 := 2, d1 := 0xED9, b2 := 7, d2 := 0x58F }) &&
  reads [0xF8, 0xE9, 0x50, 0x0E, 0x28, 0x40]
    (.zap { l1 := 14, l2 := 9, b1 := 5, d1 := 0x00E, b2 := 2, d2 := 0x840 }) &&
  reads [0xF9, 0x5E, 0x81, 0x43, 0xDA, 0xF1]
    (.cp { l1 := 5, l2 := 14, b1 := 8, d1 := 0x143, b2 := 13, d2 := 0xAF1 }) &&
  reads [0xFA, 0xC3, 0xB2, 0x78, 0x8D, 0xA2]
    (.ap { l1 := 12, l2 := 3, b1 := 11, d1 := 0x278, b2 := 8, d2 := 0xDA2 }) &&
  reads [0xFB, 0x38, 0xE3, 0xAD, 0x30, 0x53]
    (.sp { l1 := 3, l2 := 8, b1 := 14, d1 := 0x3AD, b2 := 3, d2 := 0x053 }) &&
  reads [0xFC, 0xAD, 0x14, 0xE2, 0xE3, 0x04]
    (.mp { l1 := 10, l2 := 13, b1 := 1, d1 := 0x4E2, b2 := 14, d2 := 0x304 }) &&
  reads [0xFD, 0x12, 0x46, 0x17, 0x95, 0xB5]
    (.dp { l1 := 1, l2 := 2, b1 := 4, d1 := 0x617, b2 := 9, d2 := 0x5B5 })) = true := by decide

/-! ## One step each, from `spec/95_test_vectors.md`: the name ends in the vector's label -/

theorem test_lr_vf1 : stepsTo (placed 0x1000 [0x18, 0x35] |>.setGr 5 0x12345678 |>.setGr 6 0x3000) fun t =>
      t.getGr 3 == 0x12345678 && t.psw.cc == 0 && ended t 0x1002 1 := by decide

theorem test_ltr_vf3 : stepsTo (placed 0x1000 [0x12, 0x11] |>.setGr 1 0) fun t =>
      t.psw.cc == 0 && ended t 0x1002 1 := by decide

theorem test_lcr_vf4 : stepsTo (placed 0x1000 [0x13, 0x22] |>.setGr 2 5) fun t =>
      t.getGr 2 == 0xFFFFFFFB && t.psw.cc == 1 && ended t 0x1002 1 := by decide

theorem test_lpr_vf7 :
    stepsTo (placed 0x1000 [0x10, 0x33] |>.setGr 3 0x80000000 |>.setPm 0) fun t =>
      t.getGr 3 == 0x80000000 && t.psw.cc == 3 && ended t 0x1002 1 := by decide

theorem test_lnr_vf8 : stepsTo (placed 0x1000 [0x11, 0x44] |>.setGr 4 0x80000000) fun t =>
      t.getGr 4 == 0x80000000 && t.psw.cc == 1 && ended t 0x1002 1 := by decide

theorem test_ar_vf11 :
    stepsTo (placed 0x1000 [0x1A, 0x12]
      |>.setBytes 0x68 [0x00, 0x00, 0x00, 0x00, 0x00, 0x00, 0x20, 0x00] |>.setGr 1 0x7FFFFFFF
      |>.setGr 2 1 |>.setPm 8) fun t =>
      t.getGr 1 == 0x80000000 &&
      t.bytesAt 40 8 == [0x00, 0x00, 0x00, 0x08, 0x78, 0x00, 0x10, 0x02] && t.psw.cc == 0 &&
      t.psw.ia == 0x2000 && t.result == .ok := by decide

theorem test_sr_vf14 :
    stepsTo (placed 0x1000 [0x1B, 0x12] |>.setGr 1 0 |>.setGr 2 0x80000000) fun t =>
      t.getGr 1 == 0x80000000 && t.psw.cc == 3 && ended t 0x1002 1 := by decide

theorem test_ah_vf16 :
    stepsTo (placed 0x1000 [0x4A, 0x20, 0x60, 0x00] |>.setBytes 0x3000 [0xFF, 0xFF] |>.setGr 2 10
      |>.setGr 6 0x3000) fun t =>
      t.getGr 2 == 9 && t.psw.cc == 2 && ended t 0x1004 2 := by decide

theorem test_sh_vf17 :
    stepsTo (placed 0x1000 [0x4B, 0x10, 0x60, 0x00] |>.setBytes 0x3000 [0x80, 0x00]
      |>.setGr 1 0x7FFFFFFF |>.setGr 6 0x3000) fun t =>
      t.getGr 1 == 0x80007FFF && t.psw.cc == 3 && ended t 0x1004 2 := by decide

theorem test_alr_vf20 :
    stepsTo (placed 0x1000 [0x1E, 0x12] |>.setGr 1 0xFFFFFFFF |>.setGr 2 1) fun t =>
      t.getGr 1 == 0 && t.psw.cc == 2 && ended t 0x1002 1 := by decide

theorem test_slr_vf24 :
    stepsTo (placed 0x1000 [0x1F, 0x12] |>.setGr 1 6 |>.setGr 2 5) fun t =>
      t.getGr 1 == 1 && t.psw.cc == 3 && ended t 0x1002 1 := by decide

theorem test_cr_vf25 :
    stepsTo (placed 0x1000 [0x19, 0x12] |>.setGr 1 0xFFFFFFFF |>.setGr 2 1) fun t =>
      t.psw.cc == 1 && ended t 0x1002 1 := by decide

theorem test_clr_vf26 :
    stepsTo (placed 0x1000 [0x15, 0x12] |>.setGr 1 0xFFFFFFFF |>.setGr 2 1) fun t =>
      t.psw.cc == 2 && ended t 0x1002 1 := by decide

theorem test_ch_vf27 :
    stepsTo (placed 0x1000 [0x49, 0x10, 0x60, 0x00] |>.setBytes 0x3000 [0x80, 0x00]
      |>.setGr 1 0xFFFF8000 |>.setGr 6 0x3000) fun t =>
      t.psw.cc == 0 && ended t 0x1004 2 := by decide

theorem test_mr_vf29 :
    stepsTo (placed 0x1000 [0x1C, 0x22] |>.setGr 2 0x80000000 |>.setGr 3 0x80000000) fun t =>
      t.getGr 2 == 0x40000000 && t.getGr 3 == 0 && t.psw.cc == 0 && ended t 0x1002 1 := by decide

theorem test_mr_vf30 : stepsTo (placed 0x1000 [0x1C, 0x35] |>.setGr 6 0x3000) fun t =>
      t.bytesAt 40 8 == [0x00, 0x00, 0x00, 0x06, 0x40, 0x00, 0x10, 0x02] && t.psw.ia == 0 &&
      t.result == .ok := by decide

theorem test_mh_vf32 :
    stepsTo (placed 0x1000 [0x4C, 0x40, 0x60, 0x00] |>.setBytes 0x3000 [0x00, 0x04]
      |>.setGr 4 0x40000000 |>.setGr 6 0x3000) fun t =>
      t.getGr 4 == 0 && t.psw.cc == 0 && ended t 0x1004 2 := by decide

theorem test_dr_vf33 :
    stepsTo (placed 0x1000 [0x1D, 0x24] |>.setGr 2 0 |>.setGr 3 17 |>.setGr 4 0xFFFFFFFB) fun t =>
      t.getGr 2 == 2 && t.getGr 3 == 0xFFFFFFFD && t.psw.cc == 0 && ended t 0x1002 1 := by decide

theorem test_dr_vf37 :
    stepsTo (placed 0x1000 [0x1D, 0x24] |>.setGr 2 0xFFFFFFFF |>.setGr 3 0x80000000
      |>.setGr 4 0xFFFFFFFF) fun t =>
      t.bytesAt 40 8 == [0x00, 0x00, 0x00, 0x09, 0x40, 0x00, 0x10, 0x02] && t.psw.ia == 0 &&
      t.result == .ok := by decide

theorem test_d_vf38 :
    stepsTo (placed 0x1000 [0x5D, 0x00, 0x60, 0x00] |>.setBytes 0x3000 [0x00, 0x00, 0x00, 0x02]
      |>.setGr 0 0xFFFFFFFF |>.setGr 1 0xFFFFFFF9 |>.setGr 6 0x3000) fun t =>
      t.getGr 0 == 0xFFFFFFFF && t.getGr 1 == 0xFFFFFFFD && t.psw.cc == 0 && ended t 0x1004 2 := by decide

theorem test_sla_vf41 :
    stepsTo (placed 0x1000 [0x8B, 0x10, 0x00, 0x20] |>.setGr 1 0xFFFFFFFF |>.setGr 6 0x3000) fun t =>
      t.getGr 1 == 0x80000000 && t.psw.cc == 3 && ended t 0x1004 2 := by decide

theorem test_sla_vf42 :
    stepsTo (placed 0x1000 [0x8B, 0x10, 0x20, 0x01] |>.setGr 1 5 |>.setGr 2 63 |>.setGr 6 0x3000) fun t =>
      t.getGr 1 == 5 && t.psw.cc == 2 && ended t 0x1004 2 := by decide

theorem test_sra_vf44 :
    stepsTo (placed 0x1000 [0x8A, 0x10, 0x00, 0x3F] |>.setGr 1 0x7FFFFFFF |>.setGr 6 0x3000) fun t =>
      t.getGr 1 == 0 && t.psw.cc == 0 && ended t 0x1004 2 := by decide

theorem test_slda_vf45 :
    stepsTo (placed 0x1000 [0x8F, 0x20, 0x00, 0x20] |>.setGr 2 0 |>.setGr 3 1 |>.setGr 6 0x3000) fun t =>
      t.getGr 2 == 1 && t.getGr 3 == 0 && t.psw.cc == 2 && ended t 0x1004 2 := by decide

theorem test_srda_vf46 :
    stepsTo (placed 0x1000 [0x8E, 0x20, 0x00, 0x04] |>.setGr 2 0xFFFFFFFF |>.setGr 3 0xFFFFFF00
      |>.setGr 6 0x3000) fun t =>
      t.getGr 3 == 0xFFFFFFF0 && t.psw.cc == 1 && ended t 0x1004 2 := by decide

theorem test_sll_vf47 :
    stepsTo (placed 0x1000 [0x89, 0x10, 0x00, 0x01] |>.setGr 1 0x80000001 |>.setGr 6 0x3000) fun t =>
      t.getGr 1 == 2 && t.psw.cc == 0 && ended t 0x1004 2 := by decide

theorem test_sldl_vf50 :
    stepsTo (placed 0x1000 [0x8D, 0x40, 0x00, 0x01] |>.setGr 4 0 |>.setGr 5 0x80000000
      |>.setGr 6 0x3000) fun t =>
      t.getGr 4 == 1 && t.getGr 5 == 0 && t.psw.cc == 0 && ended t 0x1004 2 := by decide

theorem test_srdl_vf52 : stepsTo (placed 0x1000 [0x8C, 0x10, 0x00, 0x04] |>.setGr 6 0x3000) fun t =>
      t.bytesAt 40 8 == [0x00, 0x00, 0x00, 0x06, 0x80, 0x00, 0x10, 0x04] && t.psw.ia == 0 &&
      t.result == .ok := by decide

theorem test_aer_vh1 :
    stepsTo (placed 0x1000 [0x3A, 0x02] |>.setFrh 0 0x41100000 |>.setFrh 1 0x41200000) fun t =>
      t.getFrh 0 == 0x41300000 && t.psw.cc == 2 && ended t 0x1002 1 := by decide

theorem test_ae_vh3 :
    stepsTo (placed 0x1000 [0x7A, 0x00, 0x60, 0x00] |>.setBytes 0x3000 [0x7F, 0x80, 0x00, 0x00]
      |>.setGr 6 0x3000 |>.setFrh 0 0x7F800000) fun t =>
      t.getFrh 0 == 0x100000 &&
      t.bytesAt 40 8 == [0x00, 0x00, 0x00, 0x0C, 0xA0, 0x00, 0x10, 0x04] && t.psw.ia == 0 &&
      t.result == .ok := by decide

theorem test_ser_vh5 :
    stepsTo (placed 0x1000 [0x3B, 0x02] |>.setFrh 0 0x41100000 |>.setFrh 1 0x41100000
      |>.setPm 1) fun t =>
      t.getFrh 0 == 0x41000000 &&
      t.bytesAt 40 8 == [0x00, 0x00, 0x00, 0x0E, 0x41, 0x00, 0x10, 0x02] && t.psw.ia == 0 &&
      t.result == .ok := by decide

theorem test_ser_vh7 :
    stepsTo (placed 0x1000 [0x3B, 0x02] |>.setFrh 0 0x100000 |>.setFrh 1 0xF0000
      |>.setPm 2) fun t =>
      t.getFrh 0 == 0x7F100000 &&
      t.bytesAt 40 8 == [0x00, 0x00, 0x00, 0x0D, 0x62, 0x00, 0x10, 0x02] && t.psw.ia == 0 &&
      t.result == .ok := by decide

theorem test_aur_vh12 :
    stepsTo (placed 0x1000 [0x3E, 0x02] |>.setFrh 0 0x41000001 |>.setFrh 1 0x3F100000) fun t =>
      t.getFrh 0 == 0x41001001 && t.psw.cc == 2 && ended t 0x1002 1 := by decide

theorem test_adr_vh14 :
    stepsTo (placed 0x1000 [0x2A, 0x02] |>.setFr 0 0x4110000000000000
      |>.setFr 1 0xC110000000000000 |>.setPm 0) fun t =>
      t.getFr 0 == 0 && t.psw.cc == 0 && ended t 0x1002 1 := by decide

theorem test_sw_vh17 :
    stepsTo (placed 0x1000 [0x6F, 0x00, 0x60, 0x00]
      |>.setBytes 0x3000 [0x40, 0x10, 0x00, 0x00, 0x00, 0x00, 0x00, 0x00] |>.setGr 6 0x3000
      |>.setFr 0 0x4110000000000000) fun t =>
      t.getFr 0 == 0x410F000000000000 && t.psw.cc == 2 && ended t 0x1004 2 := by decide

theorem test_cer_vh20 :
    stepsTo (placed 0x1000 [0x39, 0x02] |>.setFrh 0 0xC1100000 |>.setFrh 1 0) fun t =>
      t.psw.cc == 1 && ended t 0x1002 1 := by decide

theorem test_lter_vh22 :
    stepsTo (placed 0x1000 [0x32, 0x02] |>.setFrh 1 0x80000000) fun t =>
      t.getFrh 0 == 0x80000000 && t.psw.cc == 0 && ended t 0x1002 1 := by decide

theorem test_lcer_vh23 :
    stepsTo (placed 0x1000 [0x33, 0x00] |>.setFrh 0 0x41100000) fun t =>
      t.getFrh 0 == 0xC1100000 && t.psw.cc == 1 && ended t 0x1002 1 := by decide

theorem test_lpdr_vh25 :
    stepsTo (placed 0x1000 [0x20, 0x06] |>.setGr 6 0x3000 |>.setFr 3 0x8000000000000000) fun t =>
      t.getFr 0 == 0 && t.psw.cc == 0 && ended t 0x1002 1 := by decide

theorem test_mer_vh27 :
    stepsTo (placed 0x1000 [0x3C, 0x02] |>.setFrh 0 0x41200000 |>.setFrh 1 0x41300000
      |>.setCc 1) fun t =>
      t.getFr 0 == 0x4160000000000000 && t.psw.cc == 1 && ended t 0x1002 1 := by decide

theorem test_me_vh29 :
    stepsTo (placed 0x1000 [0x7C, 0x00, 0x60, 0x00] |>.setBytes 0x3000 [0x00, 0x10, 0x00, 0x00]
      |>.setGr 6 0x3000 |>.setFrh 0 0x100000 |>.setPm 0) fun t =>
      t.getFr 0 == 0 && t.psw.cc == 0 && ended t 0x1004 2 := by decide

theorem test_mdr_vh32 :
    stepsTo (placed 0x1000 [0x2C, 0x02] |>.setFr 0 0x4055555555555555
      |>.setFr 1 0x4130000000000000) fun t =>
      t.getFr 0 == 0x40FFFFFFFFFFFFFF && t.psw.cc == 0 && ended t 0x1002 1 := by decide

theorem test_der_vh33 :
    stepsTo (placed 0x1000 [0x3D, 0x02] |>.setFrh 0 0x41600000 |>.setFrh 1 0x41200000) fun t =>
      t.getFrh 0 == 0x41300000 && t.psw.cc == 0 && ended t 0x1002 1 := by decide

theorem test_der_vh36 :
    stepsTo (placed 0x1000 [0x3D, 0x02] |>.setFrh 0 0x41100000 |>.setFrh 1 0x80000000) fun t =>
      t.bytesAt 40 8 == [0x00, 0x00, 0x00, 0x0F, 0x40, 0x00, 0x10, 0x02] && t.psw.ia == 0 &&
      t.result == .ok := by decide

theorem test_her_vh41 :
    stepsTo (placed 0x1000 [0x34, 0x02] |>.setFrh 1 0x41300000) fun t =>
      t.getFrh 0 == 0x41180000 && t.psw.cc == 0 && ended t 0x1002 1 := by decide

theorem test_hdr_vh45 :
    stepsTo (placed 0x1000 [0x24, 0x02] |>.setFr 1 0x4120000000000000) fun t =>
      t.getFr 0 == 0x4110000000000000 && t.psw.cc == 0 && ended t 0x1002 1 := by decide

theorem test_nr_vl1 :
    stepsTo (placed 0x1000 [0x14, 0x12] |>.setGr 1 0xF0F0F0F0 |>.setGr 2 0xF0F0F0F |>.setGr 5 0x3000
      |>.setGr 6 0x3100) fun t =>
      t.getGr 1 == 0 && t.psw.cc == 0 && ended t 0x1002 1 := by decide

theorem test_oi_vl4 :
    stepsTo (placed 0x1000 [0x96, 0x80, 0x50, 0x00] |>.setBytes 0x3000 [0x00] |>.setGr 5 0x3000
      |>.setGr 6 0x3100) fun t =>
      t.psw.cc == 1 && ended t 0x1004 2 && t.bytesAt 0x3000 1 == [0x80] := by decide

theorem test_xc_vl6 :
    stepsTo (placed 0x1000 [0xD7, 0x03, 0x50, 0x00, 0x50, 0x00]
      |>.setBytes 0x3000 [0x01, 0x02, 0x03, 0x04] |>.setGr 5 0x3000 |>.setGr 6 0x3100) fun t =>
      t.psw.cc == 0 && ended t 0x1006 3 && t.bytesAt 0x3000 4 == [0x00, 0x00, 0x00, 0x00] := by decide

theorem test_cli_vl9 :
    stepsTo (placed 0x1000 [0x95, 0x41, 0x50, 0x00] |>.setBytes 0x3000 [0x40] |>.setGr 5 0x3000
      |>.setGr 6 0x3100) fun t =>
      t.psw.cc == 1 && ended t 0x1004 2 := by decide

theorem test_clc_vl10 :
    stepsTo (placed 0x1000 [0xD5, 0x02, 0x50, 0x00, 0x60, 0x00] |>.setBytes 0x3000 [0xC1, 0xC2, 0xC3]
      |>.setBytes 0x3100 [0xC1, 0xC3, 0xC0] |>.setGr 5 0x3000 |>.setGr 6 0x3100) fun t =>
      t.psw.cc == 1 && ended t 0x1006 3 := by decide

theorem test_clm_vl12 :
    stepsTo (placed 0x1000 [0xBD, 0x10, 0x60, 0x00] |>.setGr 6 0xFFFFFF |>.setGr 5 0x3000) fun t =>
      t.psw.cc == 0 && ended t 0x1004 2 := by decide

theorem test_clcl_vl14 :
    stepsTo (placed 0x800 [0x0F, 0x24] |>.setBytes 0x1000 [0xC1, 0x40, 0x40] |>.setBytes 0x2000 [0xC1]
      |>.setGr 2 0x1000 |>.setGr 3 3 |>.setGr 4 0x2000 |>.setGr 5 0x40000001 |>.setGr 6 0x3100) fun t =>
      t.getGr 2 == 0x1003 && t.getGr 3 == 0 && t.getGr 4 == 0x2001 && t.getGr 5 == 0x40000000 &&
      t.psw.cc == 0 && ended t 0x802 1 := by decide

theorem test_tm_vl18 :
    stepsTo (placed 0x1000 [0x91, 0xC0, 0x50, 0x00] |>.setBytes 0x3000 [0xC0] |>.setGr 5 0x3000
      |>.setGr 6 0x3100) fun t =>
      t.psw.cc == 3 && ended t 0x1004 2 := by decide

theorem test_tr_vl20 :
    stepsTo (placed 0x1000 [0xDC, 0x00, 0x50, 0x00, 0x60, 0x00] |>.setBytes 0x3000 [0x03]
      |>.setBytes 0x3103 [0xC4] |>.setGr 5 0x3000 |>.setGr 6 0x3100) fun t =>
      t.psw.cc == 0 && ended t 0x1006 3 && t.bytesAt 0x3000 1 == [0xC4] := by decide

theorem test_trt_vl22 :
    stepsTo (placed 0x1000 [0xDD, 0x02, 0x50, 0x00, 0x60, 0x00] |>.setBytes 0x3000 [0x40, 0x40, 0x5C]
      |>.setGr 1 0xAA000000 |>.setGr 2 0xBBBBBB00 |>.setGr 5 0x3000 |>.setGr 6 0x3100) fun t =>
      t.psw.cc == 0 && ended t 0x1006 3 := by decide

theorem test_lh_vs2 :
    stepsTo (placed 0x1000 [0x48, 0x10, 0x60, 0x00] |>.setBytes 0x3000 [0x80, 0x01] |>.setGr 5 0x3000
      |>.setGr 6 0x3000) fun t =>
      t.getGr 1 == 0xFFFF8001 && t.psw.cc == 0 && ended t 0x1004 2 := by decide

theorem test_sth_vs4 :
    stepsTo (placed 0x1000 [0x40, 0x10, 0x60, 0x00] |>.setGr 1 0x12345678 |>.setGr 5 0x3000
      |>.setGr 6 0x3000) fun t =>
      t.psw.cc == 0 && ended t 0x1004 2 && t.bytesAt 0x3000 2 == [0x56, 0x78] := by decide

theorem test_la_vs6 :
    stepsTo (placed 0x1000 [0x41, 0x00, 0x00, 0x00] |>.setGr 0 0x12345678 |>.setGr 5 0x3000
      |>.setGr 6 0x3000) fun t =>
      t.getGr 0 == 0 && t.psw.cc == 0 && ended t 0x1004 2 := by decide

theorem test_ic_vs7 :
    stepsTo (placed 0x1000 [0x43, 0x10, 0x60, 0x00] |>.setBytes 0x3000 [0x11] |>.setGr 1 0xAABBCCDD
      |>.setGr 5 0x3000 |>.setGr 6 0x3000) fun t =>
      t.getGr 1 == 0xAABBCC11 && t.psw.cc == 0 && ended t 0x1004 2 := by decide

theorem test_icm_vs10 :
    stepsTo (placed 0x1000 [0xBF, 0x20, 0x60, 0x00] |>.setGr 2 0x12345678 |>.setGr 5 0x3000
      |>.setGr 6 0x3000 |>.setCc 2) fun t =>
      t.psw.cc == 0 && ended t 0x1004 2 := by decide

theorem test_stcm_vs12 :
    stepsTo (placed 0x1000 [0xBE, 0x1A, 0x50, 0x00] |>.setBytes 0x3000 [0xAA, 0xBB, 0xCC]
      |>.setGr 1 0x11223344 |>.setGr 5 0x3000 |>.setGr 6 0x3000) fun t =>
      t.psw.cc == 0 && ended t 0x1004 2 && t.bytesAt 0x3000 3 == [0x11, 0x33, 0xCC] := by decide

theorem test_lm_vs13 :
    stepsTo (placed 0x1000 [0x98, 0xE1, 0xD0, 0x00]
      |>.setBytes 0x3000 [0x00, 0x00, 0x00, 0x01, 0x00, 0x00, 0x00, 0x02, 0x00, 0x00, 0x00, 0x03, 0x00,
        0x00, 0x00, 0x04]
      |>.setGr 13 0x3000 |>.setGr 5 0x3000 |>.setGr 6 0x3000) fun t =>
      t.getGr 14 == 1 && t.getGr 15 == 2 && t.getGr 0 == 3 && t.getGr 1 == 4 && t.psw.cc == 0 &&
      ended t 0x1004 2 := by decide

theorem test_stm_vs15 :
    stepsTo (placed 0x1000 [0x90, 0xEC, 0xD0, 0x0C] |>.setGr 13 0x3000 |>.setGr 5 0x3000
      |>.setGr 6 0x3000) fun t =>
      t.psw.cc == 0 && ended t 0x1004 2 := by decide

theorem test_mvc_vs17 :
    stepsTo (placed 0x1000 [0xD2, 0x02, 0x50, 0x01, 0x50, 0x00] |>.setBytes 0x3000 [0x40]
      |>.setGr 5 0x3000 |>.setGr 6 0x3000) fun t =>
      t.psw.cc == 0 && ended t 0x1006 3 && t.bytesAt 0x3000 4 == [0x40, 0x40, 0x40, 0x40] := by decide

theorem test_mvn_vs18 :
    stepsTo (placed 0x1000 [0xD1, 0x01, 0x50, 0x00, 0x60, 0x00] |>.setBytes 0x3000 [0xF1, 0xF2]
      |>.setBytes 0x3100 [0x0A, 0x0B] |>.setGr 5 0x3000 |>.setGr 6 0x3100) fun t =>
      t.psw.cc == 0 && ended t 0x1006 3 && t.bytesAt 0x3000 2 == [0xFA, 0xFB] := by decide

theorem test_mvz_vs19 :
    stepsTo (placed 0x1000 [0xD3, 0x01, 0x50, 0x00, 0x60, 0x00] |>.setBytes 0x3000 [0x01, 0x02]
      |>.setBytes 0x3100 [0xF0, 0xF0] |>.setGr 5 0x3000 |>.setGr 6 0x3100) fun t =>
      t.psw.cc == 0 && ended t 0x1006 3 && t.bytesAt 0x3000 2 == [0xF1, 0xF2] := by decide

theorem test_mvcl_vs20 :
    stepsTo (placed 0x800 [0x0E, 0x24] |>.setBytes 0x2000 [0xC1] |>.setGr 2 0x1000 |>.setGr 3 4
      |>.setGr 4 0x2000 |>.setGr 5 0x40000001 |>.setGr 6 0x3000) fun t =>
      t.getGr 2 == 0x1004 && t.getGr 3 == 0 && t.getGr 4 == 0x2001 && t.getGr 5 == 0x40000000 &&
      t.psw.cc == 2 && ended t 0x802 1 && t.bytesAt 0x1000 4 == [0xC1, 0x40, 0x40, 0x40] := by decide

theorem test_mvcl_vs22 :
    stepsTo (placed 0x800 [0x0E, 0x24] |>.setBytes 0x1000 [0x01, 0x02, 0x03, 0x04] |>.setGr 2 0x1000
      |>.setGr 3 3 |>.setGr 4 0x1001 |>.setGr 5 3 |>.setGr 6 0x3000) fun t =>
      t.getGr 2 == 0x1003 && t.getGr 3 == 0 && t.getGr 4 == 0x1004 && t.getGr 5 == 0 &&
      t.psw.cc == 0 && ended t 0x802 1 && t.bytesAt 0x1000 4 == [0x02, 0x03, 0x04, 0x04] := by decide

theorem test_ts_vs23 :
    stepsTo (placed 0x1000 [0x93, 0x00, 0x50, 0x00] |>.setBytes 0x3000 [0x00] |>.setGr 5 0x3000
      |>.setGr 6 0x3000) fun t =>
      t.psw.cc == 0 && ended t 0x1004 2 && t.bytesAt 0x3000 1 == [0xFF] := by decide

theorem test_cs_vs25 :
    stepsTo (placed 0x1000 [0xBA, 0x13, 0x60, 0x00] |>.setBytes 0x3000 [0x00, 0x00, 0x00, 0x07]
      |>.setGr 1 5 |>.setGr 3 9 |>.setGr 5 0x3000 |>.setGr 6 0x3000) fun t =>
      t.getGr 1 == 7 && t.psw.cc == 1 && ended t 0x1004 2 &&
      t.bytesAt 0x3000 4 == [0x00, 0x00, 0x00, 0x07] := by decide

theorem test_cds_vs27 :
    stepsTo (placed 0x1000 [0xBB, 0x24, 0x60, 0x00] |>.setBytes 0x3000 [0, 0, 0, 0, 0, 0, 0, 1]
      |>.setGr 3 1 |>.setGr 4 2 |>.setGr 5 3 |>.setGr 6 0x3000) fun t =>
      t.psw.cc == 0 && ended t 0x1004 2 && t.bytesAt 0x3000 8 == [0, 0, 0, 2, 0, 0, 0, 3] := by decide

theorem test_balr_vb2 : stepsTo (placed 0x1000 [0x05, 0xEF] |>.setGr 15 0x81002000) fun t =>
      t.getGr 14 == 0x40001002 && t.psw.cc == 0 && t.psw.ia == 0x2000 && t.result == .ok := by decide

theorem test_bc_vb6 : stepsTo (placed 0x1000 [0x47, 0x20, 0x01, 0x00] |>.setCc 2) fun t =>
      t.psw.cc == 2 && t.psw.ia == 0x100 && t.result == .ok := by decide

theorem test_bcr_vb12 : stepsTo (placed 0x1000 [0x07, 0x8E] |>.setGr 14 0 |>.setCc 0) fun t =>
      t.psw.cc == 0 && t.psw.ia == 0 && t.result == .ok := by decide

theorem test_bct_vb14 : stepsTo (placed 0x1000 [0x46, 0x30, 0x02, 0x00] |>.setGr 3 1) fun t =>
      t.getGr 3 == 0 && t.psw.cc == 0 && t.psw.ia == 0x1004 && t.result == .ok := by decide

theorem test_bctr_vb17 : stepsTo (placed 0x1000 [0x06, 0x44] |>.setGr 4 0x3000) fun t =>
      t.getGr 4 == 0x2FFF && t.psw.cc == 0 && t.psw.ia == 0x3000 && t.result == .ok := by decide

theorem test_bxh_vb18 :
    stepsTo (placed 0x1000 [0x86, 0x14, 0x03, 0x00] |>.setGr 1 8 |>.setGr 4 4 |>.setGr 5 10) fun t =>
      t.getGr 1 == 12 && t.psw.cc == 0 && t.psw.ia == 0x300 && t.result == .ok := by decide

theorem test_bxle_vb20 : stepsTo (placed 0x1000 [0x87, 0x54, 0x03, 0x00] |>.setGr 4 1 |>.setGr 5 3) fun t =>
      t.getGr 5 == 4 && t.psw.cc == 0 && t.result == .ok := by decide

theorem test_ssm_vc9 : stepsTo (placed 0x1000 [0x80, 0x00, 0x03, 0x00] |>.setBytes 0x300 [0xFF]) fun t =>
      t.psw.sysMask == 0xFF && ended t 0x1004 2 := by decide

theorem test_stnsm_vc10 : stepsTo (placed 0x1000 [0xAC, 0x04, 0x03, 0x00] |>.setSysMask 0xFF) fun t =>
      t.psw.sysMask == 4 && ended t 0x1004 2 && t.bytesAt 0x300 1 == [0xFF] := by decide

theorem test_stosm_vc11 :
    stepsTo (placed 0x1000 [0xAD, 0x01, 0x03, 0x00] |>.setBytes 0x300 [0x77] |>.setSysMask 0) fun t =>
      t.psw.sysMask == 1 && ended t 0x1004 2 && t.bytesAt 0x300 1 == [0x00] := by decide

theorem test_isk_vc12 :
    stepsTo (placed 0x1000 [0x09, 0x12] |>.setGr 2 0x1000 |>.setGr 1 0x12345678 |>.setKey 2 9) fun t =>
      t.getGr 1 == 0x12345690 && ended t 0x1002 1 := by decide

theorem test_ssk_vc13 : stepsTo (placed 0x1000 [0x08, 0x12] |>.setGr 1 0xF0 |>.setGr 2 0xFFF800) fun t =>
      t.keyOf 0x1FFF == 15 && ended t 0x1002 1 := by decide

theorem test_svc_vc17 :
    stepsTo (placed 0x1000 [0x0A, 0x03] |>.setBytes 96 [0x00, 0x00, 0x00, 0x00, 0x00, 0x00, 0x30, 0x00])
        fun t =>
      t.bytesAt 32 8 == [0x00, 0x00, 0x00, 0x03, 0x40, 0x00, 0x10, 0x02] && t.psw.ia == 0x3000 &&
      t.result == .ok := by decide

theorem test_diag_vc20 : handsOver [0x83, 0x12, 0x34, 0x56] 0x83123456 := by decide

theorem test_sio_vc21 : handsOver [0x9C, 0x00, 0x02, 0x80] 0x9C00 := by decide

theorem test_stck_vc24 : handsOver [0xB2, 0x05, 0x03, 0x00] 0xB205 := by decide

theorem test_ap_vd1 :
    stepsTo (placed 0x1000 [0xFA, 0x10, 0x50, 0x00, 0x60, 0x00] |>.setBytes 0x3000 [0x01, 0x2C]
      |>.setBytes 0x3100 [0x3D] |>.setGr 5 0x3000 |>.setGr 6 0x3100) fun t =>
      t.psw.cc == 2 && ended t 0x1006 3 && t.bytesAt 0x3000 2 == [0x00, 0x9C] := by decide

theorem test_sp_vd4 :
    stepsTo (placed 0x1000 [0xFB, 0x11, 0x50, 0x00, 0x60, 0x00] |>.setBytes 0x3000 [0x99, 0x9C]
      |>.setBytes 0x3100 [0x00, 0x1D] |>.setGr 5 0x3000 |>.setGr 6 0x3100 |>.setPm 0) fun t =>
      t.psw.cc == 3 && ended t 0x1006 3 && t.bytesAt 0x3000 2 == [0x00, 0x0C] := by decide

theorem test_zap_vd6 :
    stepsTo (placed 0x1000 [0xF8, 0x12, 0x50, 0x00, 0x60, 0x00] |>.setBytes 0x3100 [0x00, 0x12, 0x3D]
      |>.setGr 5 0x3000 |>.setGr 6 0x3100) fun t =>
      t.psw.cc == 1 && ended t 0x1006 3 && t.bytesAt 0x3000 2 == [0x12, 0x3D] := by decide

theorem test_cp_vd8 :
    stepsTo (placed 0x1000 [0xF9, 0x01, 0x50, 0x00, 0x60, 0x00] |>.setBytes 0x3000 [0x1C]
      |>.setBytes 0x3100 [0x00, 0x2D] |>.setGr 5 0x3000 |>.setGr 6 0x3100) fun t =>
      t.psw.cc == 2 && ended t 0x1006 3 && t.bytesAt 0x3000 1 == [0x1C] := by decide

theorem test_mp_vd10 :
    stepsTo (placed 0x1000 [0xFC, 0x20, 0x50, 0x00, 0x60, 0x00] |>.setBytes 0x3000 [0x00, 0x00, 0x5C]
      |>.setBytes 0x3100 [0x3D] |>.setGr 5 0x3000 |>.setGr 6 0x3100) fun t =>
      t.psw.cc == 0 && ended t 0x1006 3 && t.bytesAt 0x3000 3 == [0x00, 0x01, 0x5D] := by decide

theorem test_dp_vd12 :
    stepsTo (placed 0x1000 [0xFD, 0x20, 0x50, 0x00, 0x60, 0x00] |>.setBytes 0x3000 [0x00, 0x07, 0x5C]
      |>.setBytes 0x3100 [0x2C] |>.setGr 5 0x3000 |>.setGr 6 0x3100) fun t =>
      t.psw.cc == 0 && ended t 0x1006 3 && t.bytesAt 0x3000 3 == [0x03, 0x7C, 0x1C] := by decide

theorem test_ap_vd15 :
    stepsTo (placed 0x1000 [0xFA, 0x10, 0x50, 0x00, 0x60, 0x00] |>.setBytes 0x3000 [0xA1, 0x2C]
      |>.setBytes 0x3100 [0x3D] |>.setGr 5 0x3000 |>.setGr 6 0x3100) fun t =>
      t.bytesAt 40 8 == [0x00, 0x00, 0x00, 0x07, 0xC0, 0x00, 0x10, 0x06] && t.psw.ia == 0 &&
      t.result == .ok && t.bytesAt 0x3000 2 == [0xA1, 0x2C] := by decide

theorem test_srp_vd17 :
    stepsTo (placed 0x1000 [0xF0, 0x25, 0x50, 0x00, 0x00, 0x3F] |>.setBytes 0x3000 [0x12, 0x34, 0x5C]
      |>.setGr 5 0x3000 |>.setGr 6 0x3100) fun t =>
      t.psw.cc == 2 && ended t 0x1006 3 && t.bytesAt 0x3000 3 == [0x01, 0x23, 0x5C] := by decide

theorem test_mvo_vd18 :
    stepsTo (placed 0x1000 [0xF1, 0x21, 0x50, 0x00, 0x60, 0x00] |>.setBytes 0x3000 [0x77, 0x77, 0x7C]
      |>.setBytes 0x3100 [0x12, 0x34] |>.setGr 5 0x3000 |>.setGr 6 0x3100) fun t =>
      t.psw.cc == 0 && ended t 0x1006 3 && t.bytesAt 0x3000 3 == [0x01, 0x23, 0x4C] := by decide

theorem test_pack_vd19 :
    stepsTo (placed 0x1000 [0xF2, 0x22, 0x50, 0x00, 0x60, 0x00] |>.setBytes 0x3100 [0xF1, 0xF2, 0xF3]
      |>.setGr 5 0x3000 |>.setGr 6 0x3100) fun t =>
      t.psw.cc == 0 && ended t 0x1006 3 && t.bytesAt 0x3000 3 == [0x00, 0x12, 0x3F] := by decide

theorem test_unpk_vd20 :
    stepsTo (placed 0x1000 [0xF3, 0x31, 0x50, 0x00, 0x60, 0x00] |>.setBytes 0x3100 [0x12, 0x3C]
      |>.setGr 5 0x3000 |>.setGr 6 0x3100) fun t =>
      t.psw.cc == 0 && ended t 0x1006 3 && t.bytesAt 0x3000 4 == [0xF0, 0xF1, 0xF2, 0xC3] := by decide

theorem test_cvb_vd22 :
    stepsTo (placed 0x1000 [0x4F, 0x10, 0x60, 0x00]
      |>.setBytes 0x3100 [0x00, 0x00, 0x02, 0x14, 0x74, 0x83, 0x64, 0x8C] |>.setGr 5 0x3000
      |>.setGr 6 0x3100) fun t =>
      t.getGr 1 == 0x80000000 &&
      t.bytesAt 40 8 == [0x00, 0x00, 0x00, 0x09, 0x80, 0x00, 0x10, 0x04] && t.psw.ia == 0 &&
      t.result == .ok := by decide

theorem test_cvd_vd24 :
    stepsTo (placed 0x1000 [0x4E, 0x10, 0x60, 0x00] |>.setGr 1 0x80000000 |>.setGr 5 0x3000
      |>.setGr 6 0x3100) fun t =>
      t.psw.cc == 0 && ended t 0x1004 2 &&
      t.bytesAt 0x3100 8 == [0x00, 0x00, 0x02, 0x14, 0x74, 0x83, 0x64, 0x8D] := by decide

theorem test_ed_vd26 :
    stepsTo (placed 0x1000 [0xDE, 0x03, 0x50, 0x00, 0x60, 0x00]
      |>.setBytes 0x3000 [0x40, 0x20, 0x21, 0x20] |>.setBytes 0x3100 [0x00, 0x0D] |>.setGr 5 0x3000
      |>.setGr 6 0x3100) fun t =>
      t.psw.cc == 0 && ended t 0x1006 3 && t.bytesAt 0x3000 4 == [0x40, 0x40, 0x40, 0xF0] := by decide

theorem test_edmk_vd27 :
    stepsTo (placed 0x1000 [0xDF, 0x03, 0x50, 0x00, 0x60, 0x00]
      |>.setBytes 0x3000 [0x40, 0x20, 0x21, 0x20] |>.setBytes 0x3100 [0x01, 0x2C] |>.setGr 5 0x3000
      |>.setGr 6 0x3100 |>.setGr 1 0xAA000000) fun t =>
      t.getGr 1 == 0xAA003002 && t.psw.cc == 2 && ended t 0x1006 3 &&
      t.bytesAt 0x3000 4 == [0x40, 0x40, 0xF1, 0xF2] := by decide

/-- W1. -/
theorem test_bal_w1 :
    stepsTo (placed 0x1000 [0x45, 0x30, 0x2F, 0x80] |>.setGr 2 0x10000 |>.setCc 1 |>.setPm 9) fun t =>
      t.getGr 3 == 0x99001004 && t.psw.cc == 1 && ended t 0x10F80 2 := by decide

/-- W2, with the mask on. -/
theorem test_lcr_w2 :
    stepsTo (placed 0x1000 [0x13, 0x2A] |>.setBytes 104 [0, 0, 0, 0, 0, 0, 0x20, 0]
      |>.setGr 10 0x80000000 |>.setPm 8) fun t =>
      t.getGr 2 == 0x80000000 && t.bytesAt 40 8 == [0x00, 0x00, 0x00, 0x08, 0x78, 0x00, 0x10, 0x02] &&
      t.psw.ia == 0x2000 := by decide

/-- W3: the target in storage is not changed. -/
theorem test_ex_w3 :
    stepsTo (placed 0x1000 [0x44, 0x40, 0xB0, 0x00] |>.setBytes 0x2000 [0x1A, 0x00, 0x00, 0x00]
      |>.setGr 11 0x2000 |>.setGr 4 0x78 |>.setGr 7 2 |>.setGr 8 3) fun t =>
      t.getGr 7 == 5 && t.psw.cc == 2 && ended t 0x1004 2 && t.bytesAt 0x2000 2 == [0x1A, 0x00] := by decide

/-- W5. -/
theorem test_icm_w5 :
    stepsTo (placed 0x1000 [0xBF, 0x25, 0x60, 0x00] |>.setBytes 0x3000 [0x12, 0x34, 0x56, 0x78]
      |>.setGr 6 0x3000 |>.setGr 2 0xAAAAAAAA) fun t =>
      t.getGr 2 == 0xAA12AA34 && t.psw.cc == 2 && ended t 0x1004 2 := by decide

/-- VB24's point, with the base register that its bytes name: an EX of an SVC has the EX's ILC and address. -/
theorem test_ex_of_svc :
    stepsTo (placed 0x1000 [0x44, 0x50, 0x20, 0x00] |>.setBytes 0x2000 [0x0A, 0x00] |>.setGr 2 0x2000
      |>.setGr 5 0xC) fun t =>
      t.bytesAt 32 8 == [0x00, 0x00, 0x00, 0x0C, 0x80, 0x00, 0x10, 0x04] &&
      t.bytesAt 0x2000 2 == [0x0A, 0x00] := by decide

/-- VC2: every field of a loaded PSW. -/
theorem test_lpsw_vc2 :
    stepsTo (placed 0x1000 [0x82, 0x00, 0x02, 0x00]
      |>.setBytes 0x200 [0xFF, 0x35, 0x00, 0x08, 0x78, 0x00, 0x04, 0x0C]) fun t =>
      t.psw == ⟨0xFF, 3, false, true, false, true, 8, 1, 3, 8, 0x40C⟩ && t.result == .ok := by decide

/-- R653: EC mode is loaded, and then rejected. -/
theorem test_lpsw_ecMode :
    stepsTo (placed 0x1000 [0x82, 0x00, 0x02, 0x00]
      |>.setBytes 0x200 [0x00, 0x08, 0x00, 0x00, 0x00, 0x00, 0x20, 0x00]) fun t =>
      t.psw.e && t.psw.ia == 0x2000 && t.result == .pswInvalid .ecMode := by decide

/-- R650: a privileged instruction in problem state. -/
theorem test_ssm_in_problem_state :
    exec (.ssm { i2 := 0, b1 := 0, d1 := 0x300 }) problem =
      .next { problem with result := .privileged 0x80 } := rfl

/-- R661: bits 2-3 of the register go to the CC and bits 4-7 to the program mask. -/
theorem test_spm :
    stepsTo (placed 0x1000 [0x04, 0x10] |>.setGr 1 0x29000000) fun t =>
      t.psw.cc == 2 && t.psw.pm == 9 && ended t 0x1002 1 := by decide

/-- R905, R83: MVC across the end of storage keeps the bytes already stored. -/
theorem test_mvc_terminated :
    stepsTo ({ small with psw := { Psw.reset with ia := 0x100 } }
      |>.setBytes 0x100 [0xD2, 0x03, 0x50, 0x00, 0x60, 0x00] |>.setBytes 0x200 [0x11, 0x22, 0x33, 0x44]
      |>.setGr 5 0xFFE |>.setGr 6 0x200) fun t =>
      t.bytesAt 40 8 == [0x00, 0x00, 0x00, 0x05, 0xC0, 0x00, 0x01, 0x06] &&
      t.bytesAt 0xFFE 2 == [0x11, 0x22] := by decide

/-- R722, R723: a digit code of 10 ends EDMK with the bytes before it stored, the CC kept, and the mark made. -/
theorem test_edmk_terminated :
    stepsTo (placed 0x1000 [0xDF, 0x03, 0x50, 0x00, 0x60, 0x00]
      |>.setBytes 0x200 [0x40, 0x20, 0x20, 0x20] |>.setBytes 0x300 [0x12, 0xA0]
      |>.setGr 5 0x200 |>.setGr 6 0x300 |>.setGr 1 0xAB000000 |>.setCc 3) fun t =>
      t.bytesAt 40 8 == [0x00, 0x00, 0x00, 0x07, 0xF0, 0x00, 0x10, 0x06] &&
      t.bytesAt 0x200 4 == [0x40, 0xF1, 0xF2, 0x20] && t.getGr 1 == 0xAB000201 := by decide

/-- R722: a pattern that is its own source; the third selector fetches the byte F1 that the second stored. -/
theorem test_ed_overlap :
    stepsTo (placed 0x1000 [0xDE, 0x02, 0x50, 0x00, 0x50, 0x00]
      |>.setBytes 0x200 [0x21, 0x20, 0x20] |>.setGr 5 0x200) fun t =>
      t.bytesAt 42 2 == [0x00, 0x07] && t.bytesAt 0x200 3 == [0xF2, 0xF1, 0x20] := by decide

/-- R83, R905: PACK whose first operand runs below address 0 keeps the bytes stored to its right. -/
theorem test_pack_terminated :
    stepsTo ({ small with psw := { Psw.reset with ia := 0x100 } }
      |>.setBytes 0x100 [0xF2, 0x20, 0x50, 0x00, 0x60, 0x00] |>.setByte 0x200 0xC5
      |>.setGr 5 0xFFFFFF |>.setGr 6 0x200) fun t =>
      t.bytesAt 40 8 == [0x00, 0x00, 0x00, 0x05, 0xC0, 0x00, 0x01, 0x06] &&
      t.bytesAt 0 2 == [0x00, 0x5C] := by decide

/-- R83, R702, R712: ZAP of -123 across the end of storage keeps the bytes already stored, and the CC. -/
theorem test_zap_terminated :
    stepsTo ({ small with psw := { Psw.reset with ia := 0x100 } }
      |>.setBytes 0x100 [0xF8, 0x21, 0x50, 0x00, 0x60, 0x00] |>.setBytes 0x200 [0x12, 0x3D]
      |>.setBytes 0xFFE [0x55, 0x55] |>.setGr 5 0xFFE |>.setGr 6 0x200 |>.setCc 3) fun t =>
      t.bytesAt 40 8 == [0x00, 0x00, 0x00, 0x05, 0xF0, 0x00, 0x01, 0x06] &&
      t.bytesAt 0xFFE 2 == [0x00, 0x12] := by decide

/-- R305: an unnormalized difference of which only the guard digit is nonzero (log 11). -/
theorem test_sur_guard :
    stepsTo (placed 0x1000 [0x3F, 0x02]
      |>.setFr 0 0x4100000100000000 |>.setFr 1 0x4000000F00000000 |>.setCc 3) fun t =>
      t.getFr 0 == 0x4100000000000000 && t.psw.cc == 0 && ended t 0x1002 1 := by decide

/-- R141: a fetch at an odd address, ILC 0 and the same address. -/
theorem test_fetch_odd :
    stepsTo { State.reset with psw := { Psw.reset with ia := 0x1001, cc := 2 } } fun t =>
      t.bytesAt 40 8 == [0x00, 0x00, 0x00, 0x06, 0x20, 0x00, 0x10, 0x01] := by decide

/-- R146 with the other action, and R150: undefined opcodes. -/
theorem test_undefined_opcode :
    stepsTo ({ placed 0x1000 [0xB3, 0x00, 0x00, 0x00] with
      cfg := { Config.default with undefOpcodeAction := .operationException } }) (fun t =>
      t.bytesAt 40 8 == [0x00, 0x00, 0x00, 0x01, 0x80, 0x00, 0x10, 0x04]) ∧
    stepsTo State.reset (fun t => t == { State.reset with result := .invalidOpcode }) := by decide

/-- R84: a word at the top of the address space goes on at 0. -/
theorem test_wraparound :
    (let s := State.reset.poke 0xFFFFFE (0xAABBCCDD : Word)
     [s.byteAt 0xFFFFFE, s.byteAt 0xFFFFFF, s.byteAt 0, s.byteAt 1]) = [0xAA, 0xBB, 0xCC, 0xDD] := by decide

/-- R67, R9: the host's reset keeps the parameters. -/
theorem test_hostReset : (small.setGr 3 7).hostReset = small := by decide


/-! ## States and operands that meet the hypotheses of the statements, at the edges of their ranges -/

/-- 4096 bytes of storage, and registers that address the bytes before its end and after it. -/
def edge : State := ((small.setGr 8 0xFF0).setGr 9 0x1000).setGr 10 0x300

/-- An RX operand `k` bytes after 0xFF0. -/
def rx (r : Nib) (k : Disp) : OpsRX := { r1 := r, x2 := 0, b2 := 8, d2 := k }

/-- An RS operand `k` bytes after 0xFF0. -/
def rs (r q : Nib) (k : Disp) : OpsRS := { r1 := r, r3 := q, b2 := 8, d2 := k }

/-- An SI operand `k` bytes after 0xFF0. -/
def si (k : Disp) : OpsSI := { i2 := 0x80, b1 := 8, d1 := k }

theorem witness_DecodeEncodeAgree :
    (Instr.b2xx 0x01 { b2 := 0, d2 := 0 }).wellFormed = true ∧
    (Instr.b2xx 0x14 { b2 := 15, d2 := 0xFFF }).wellFormed = true := by decide

theorem witness_EncodeDecodeAgree :
    decode [0xB2, 0x01, 0xFF, 0xFF, 0x18] = .ok (.b2xx 0x01 { b2 := 15, d2 := 0xFFF }, [0x18]) := by decide

theorem witness_StepRunsDecoded :
    let s := ({ small with psw := { Psw.reset with ia := 0xFFE } } : State).setBytes 0xFFE [0x18, 0x35]
    let i : Instr := .lr { r1 := 3, r2 := 5 }
    s.psw.w = false ∧ s.psw.ia.toNat % 2 = 0 ∧ s.installed s.psw.ia i.length = true ∧
    i.wellFormed = true ∧ decode (s.bytesAt s.psw.ia i.length) = .ok (i, []) := by decide

theorem witness_CallsWithoutInstruction :
    let at_ := fun (a : Addr) => ({ small with psw := { Psw.reset with ia := a } } : State)
    ({ small with psw := { Psw.reset with w := true } } : State).psw.w = true ∧
    ((at_ 0xFFF).psw.w = false ∧ (at_ 0xFFF).psw.ia.toNat % 2 = 1) ∧
    ((at_ 0x1000).psw.ia.toNat % 2 = 0 ∧ (at_ 0x1000).installed 0x1000 2 = false) ∧
    let s := (at_ 0xFFE).setByte 0xFFE 0x58
    s.psw.w = false ∧ s.psw.ia.toNat % 2 = 0 ∧ s.installed s.psw.ia 2 = true ∧
      s.byteAt s.psw.ia ∈ opcodeBytes ∧ s.installed s.psw.ia (instrLength (s.byteAt s.psw.ia)) = false := by
  decide

theorem witness_UndefinedOpcodes :
    (0x00 : Byte) ∉ opcodeBytes ∧ (0xFF : Byte) ∉ opcodeBytes ∧
    State.reset.psw.w = false ∧ State.reset.psw.ia.toNat % 2 = 0 ∧
    State.reset.installed State.reset.psw.ia 2 = true ∧
    State.reset.byteAt State.reset.psw.ia ∉ opcodeBytes ∧
    State.reset.cfg.undefOpcodeAction = .returnInvalid ∧
    ({ Config.default with undefOpcodeAction := .operationException } : Config).undefOpcodeAction =
      .operationException := by decide

/-- UndefinedOpcodes: a 4-byte opcode of which only the first halfword is installed (log 12). -/
theorem witness_UndefinedOpcodes_last :
    let s := ({ small with psw := { Psw.reset with ia := 0xFFE } } : State).setByte 0xFFE 0x71
    s.installed s.psw.ia 2 = true ∧ s.byteAt s.psw.ia ∉ opcodeBytes ∧
    s.installed s.psw.ia (instrLength (s.byteAt s.psw.ia)) = false := by decide

theorem witness_invariant (ia : Addr) :
    State.Inv { edge with psw := { Psw.reset with ia := ia } } :=
  ⟨rfl, rfl, rfl⟩

theorem witness_RunsAreSafe : State.Inv (placed 0x1000 [0x18, 0x35]) := ⟨rfl, rfl, rfl⟩

theorem witness_InvariantKept :
    State.Inv (placed 0x1000 [0x18, 0x35]) ∧ ∃ t, step (placed 0x1000 [0x18, 0x35]) = .next t :=
  ⟨⟨rfl, rfl, rfl⟩, _, rfl⟩

theorem witness_RegisterFrame :
    (∃ t, exec (.lm (rs 14 1 0)) edge = .next t) ∧
    writesGr (edge.executed (.lm (rs 14 1 0))) 2 = false ∧
    writesGr (edge.executed (.lm (rs 14 1 0))) 13 = false ∧
    writesFr (edge.executed (.lm (rs 14 1 0))) 0 = false :=
  ⟨⟨_, rfl⟩, by decide, by decide, by decide⟩

theorem witness_StorageFrame :
    Memory.wf edge.mem = true ∧ (∃ t, exec (.st (rx 1 12)) edge = .next t) ∧
    (∃ t, exec (.st (rx 1 13)) edge = .next t) ∧ ∃ t, exec (.svc 7) edge = .next t :=
  ⟨rfl, ⟨_, rfl⟩, ⟨_, rfl⟩, ⟨_, rfl⟩⟩

theorem witness_KeyAndParameterFrame :
    (∃ t, exec (.ssk { r1 := 1, r2 := 2 }) edge = .next t) ∧ Keys.wf edge.keys = true ∧
    edge.executed (.ssk { r1 := 1, r2 := 2 }) = .ssk { r1 := 1, r2 := 2 } ∧
    (8191 : Nat) ≠ (edge.regTarget 2).toNat / 2048 ∧ problem.psw.p = true ∧
    ∃ t, exec (.ssk { r1 := 1, r2 := 2 }) problem = .next t :=
  ⟨⟨_, rfl⟩, rfl, rfl, by decide, rfl, ⟨_, rfl⟩⟩

theorem witness_PswFrame :
    (∃ t, exec (.spm { r1 := 1, r2 := 0 }) edge = .next t) ∧
    ∃ t, exec (.lpsw { i2 := 0, b1 := 0, d1 := 40 }) edge = .next t :=
  ⟨⟨_, rfl⟩, ⟨_, rfl⟩⟩

theorem witness_InterruptionEntry : Memory.wf (placed 0x1000 [0x18, 0x35]).mem = true := by decide

theorem witness_LoadPsw :
    State.reset.psw.p = false ∧ (edge.ea 0 0x301).toNat % 8 ≠ 0 ∧
    ((edge.ea 9 0).toNat % 8 = 0 ∧ edge.installed (edge.ea 9 0) 8 = false) ∧
    (edge.ea 8 8).toNat % 8 = 0 ∧ edge.installed (edge.ea 8 8) 8 = true := by decide

theorem witness_HandlerReturn :
    let s := placed 0x1000 [0x18, 0x35]
    State.Inv s ∧ s.psw.e = false ∧ s.psw.w = false ∧
    (s.programInterrupt .addressing 2 0x1004).psw.p = false ∧
    (s.svcInterrupt 255 1 0x1002).psw.p = false :=
  ⟨⟨rfl, rfl, rfl⟩, rfl, rfl, by decide, by decide⟩

theorem witness_Interceptions : problem.psw.p = true := rfl

theorem witness_SpecificationExceptions :
    (15 : Nib).toNat % 2 = 1 ∧ (edge.ea 8 2).toNat % 4 ≠ 0 ∧ (edge.ea 8 4).toNat % 8 ≠ 0 ∧
    (8 : Nib) ∉ [(0 : Nib), 2, 4, 6] ∧ (1 : Nib) ∉ [(0 : Nib), 2, 4, 6] ∧
    (7 < (8 : Nib).toNat ∧ (7 : Nib).toNat ≤ (7 : Nib).toNat) ∧
    (edge.psw.p = false ∧ ((edge.setGr 2 0x808).getGr 2).toNat % 16 ≠ 0) ∧ 16 ≤ (16 : Byte).toNat := by
  decide

theorem witness_OperandAddressing :
    edge.installed (edge.eaRX (rx 1 16)) 1 = false ∧ edge.installed (edge.eaRX (rx 1 15)) 2 = false ∧
    (edge.installed (edge.eaRX (rx 2 13)) 4 = false ∧ (rx 2 13).r1.toNat % 2 = 0) ∧
    edge.installed (edge.eaRX (rx 6 9)) 8 = false ∧ (rx 6 9).r1 ∈ [(0 : Nib), 2, 4, 6] ∧
    (edge.installed (edge.ea (si 16).b1 (si 16).d1) 1 = false ∧ edge.psw.p = false) ∧
    edge.installed (edge.ea 8 5) (4 * (((1 : Nib) - 15).toNat + 1)) = false ∧
    edge.installed (edge.ea 8 14) (maskBytes 0xD).length = false ∧
    (edge.installed (edge.ea 8 16) 4 = false ∧ (edge.ea 8 16).toNat % 4 = 0) ∧
    (edge.installed (edge.ea 8 16) 8 = false ∧ (edge.ea 8 16).toNat % 8 = 0 ∧ (14 : Nib).toNat % 2 = 0) ∧
    -- decimal: the first operand of 16 bytes one byte too long, then the second of 8; MP and DP at their length limit
    edge.installed (edge.ea 8 1) ((15 : Nib).toNat + 1) = false ∧
    edge.installed (edge.ea 8 9) ((7 : Nib).toNat + 1) = false ∧ (7 : Nib).toNat < (8 : Nib).toNat := by
  decide

/-- The last operand of each width in storage: RegisterLoads, SignedArithmetic, LogicalArithmetic,
Comparisons, MultiplyDivide, LogicalRegister and StorageByte. -/
theorem witness_installed_operands :
    edge.installed (edge.eaRX (rx 15 12)) 4 = true ∧ edge.installed (edge.eaRX (rx 15 14)) 2 = true ∧
    edge.installed (edge.eaRX (rx 15 15)) 1 = true ∧ edge.installed (edge.ea (si 15).b1 (si 15).d1) 1 = true ∧
    (rx 14 12).r1.toNat % 2 = 0 ∧ edge.installed (edge.eaRX (rx 14 12)) 4 = true := by decide

theorem witness_Shifts : (14 : Nib).toNat % 2 = 0 := by decide

/-- FloatLoadStore, FloatSigns, FloatAddSubtract, FloatCompare, FloatMultiply, FloatDivide and FloatHalve. -/
theorem witness_float_operands :
    frPlace 0 = some 0 ∧ frPlace 6 = some 3 ∧ edge.installed (edge.eaRX (rx 6 12)) 4 = true ∧
    edge.installed (edge.eaRX (rx 6 8)) 8 = true := by decide

/-- CharacterStores: 256 bytes up to the end of storage; a first operand that ends after one byte, at the last byte
but one of the operand and at its last; a second that is not there at all. -/
theorem witness_CharacterStores :
    let s := edge.setGr 9 0xF00
    let ok := fun (a b : Addr) k => s.installed (after a k) 1 = true ∧ s.installed (after b k) 1 = true
    Memory.wf s.mem = true ∧ (∀ k ≤ (255 : Byte).toNat, ok (s.ea 9 0) (s.ea 10 0) k) ∧
    ((∀ k < 1, ok (s.ea 8 15) (s.ea 10 0) k) ∧ ¬ok (s.ea 8 15) (s.ea 10 0) 1 ∧
      1 ≤ (1 : Byte).toNat ∧ 1 ≤ (2 : Byte).toNat) ∧
    ¬ok (s.ea 10 0) (s.ea 8 16) 0 := by decide +kernel

/-- CharacterCompare: an unequal byte at the end of storage, operands equal to the end, the byte after it. -/
theorem witness_CharacterCompare :
    let s := (edge.setBytes 0xFFE [1, 2]).setBytes 0x300 [1, 3]
    let x := fun k => s.byteAt (after (s.ea 8 14) k)
    let y := fun k => s.byteAt (after (s.ea 10 0) k)
    let ok := fun k => s.installed (after (s.ea 8 14) k) 1 = true ∧ s.installed (after (s.ea 10 0) k) 1 = true
    ((∀ k < 1, ok k ∧ x k = y k) ∧ 1 ≤ (2 : Byte).toNat ∧ ok 1 ∧ x 1 ≠ y 1) ∧ 1 = (0 : Byte).toNat + 1 ∧
    (let u := s.setByte 0x301 2
     (∀ k < 2, u.byteAt (after (u.ea 8 14) k) = u.byteAt (after (u.ea 10 0) k)) ∧ ok 1 ∧ ¬ok 2) ∧
    (let js := maskBytes 0x9
     let z := fun k => byteOfWord ((s.setGr 1 0x01000003).getGr 1) (js.getD k 0)
     (∀ k < 1, s.installed (after (s.ea 8 14) k) 1 = true ∧ z k = x k) ∧ 1 < js.length ∧
      s.installed (after (s.ea 8 14) 1) 1 = true ∧ z 1 ≠ x 1) ∧
    (0 < (maskBytes 0x9).length ∧ s.installed (after (s.ea 8 16) 0) 1 = false) ∧
    0 = (maskBytes 0).length := by decide

/-- CompareLong: two bytes and three, the third equal to the pad or not; then the third not installed. -/
theorem witness_CompareLong :
    let s := ((((edge.setBytes 0x300 [7, 7, 0x40]).setGr 2 0x300).setGr 3 2).setGr 4 0x300).setGr 5 0x40000003
    let x := fun k => if k < 2 then s.byteAt (after (s.regTarget 2) k) else 0x40
    let y := fun k => if k < 3 then s.byteAt (after (s.regTarget 4) k) else 0x40
    let ok := fun (t : State) k => (k < 2 → t.installed (after (t.regTarget 2) k) 1 = true) ∧
      (k < 3 → t.installed (after (t.regTarget 4) k) 1 = true)
    (2 : Nib).toNat % 2 = 0 ∧ (4 : Nib).toNat % 2 = 0 ∧
    ((s.getGr (2 + 1)).extractLsb' 0 24).toNat = 2 ∧ ((s.getGr (4 + 1)).extractLsb' 0 24).toNat = 3 ∧
    (∀ k < 3, ok s k ∧ x k = y k) ∧ (3 = max 2 3) ∧
    (let u := s.setByte 0x302 0x41
     ok u 2 ∧ u.byteAt (after (u.regTarget 4) 2) ≠ 0x40 ∧ u.byteAt (after (u.regTarget 4) 1) = u.byteAt 0x301) ∧
    let u := (s.setBytes 0xFFE [7, 7]).setGr 4 0xFFE
    (∀ k < 2, ok u k ∧ u.byteAt (after (u.regTarget 2) k) = u.byteAt (after (u.regTarget 4) k)) ∧ ¬ok u 2 := by
  decide

/-- Translate: a table that ends at the end of storage, the last byte of both operands, a function byte at the
operand's last byte; then an operand byte, and a table byte, just past the end. -/
theorem witness_Translate :
    let s := ((edge.setBytes 0xFFE [0, 255]).setGr 9 0xF00).setByte 0x3FF 5
    let ok := fun (t : Addr) k => s.installed (after (s.ea 8 14) k) 1 = true ∧
      s.installed (after t (s.byteAt (after (s.ea 8 14) k)).toNat) 1 = true
    Memory.wf s.mem = true ∧ (∀ k ≤ (1 : Byte).toNat, ok (s.ea 9 0) k) ∧ (∀ k ≤ 1, ok (s.ea 10 0) k) ∧
    s.byteAt (after (s.ea 10 0) (s.byteAt (after (s.ea 8 14) 0)).toNat) = 0 ∧
    s.byteAt (after (s.ea 10 0) (s.byteAt (after (s.ea 8 14) 1)).toNat) ≠ 0 ∧
    ¬ok (s.ea 10 0) 2 ∧ ¬ok (s.ea 9 1) 1 ∧ ok (s.ea 9 1) 0 ∧
    let u := s.setByte 0x3FF 0
    (∀ k ≤ 1, u.byteAt (after (u.ea 10 0) (u.byteAt (after (u.ea 8 14) k)).toNat) = 0) := by decide +kernel

theorem witness_StorageStores :
    Memory.wf edge.mem = true ∧ edge.installed (edge.eaRX (rx 6 12)) 4 = true ∧
    edge.installed (edge.eaRX (rx 6 14)) 2 = true ∧ edge.installed (edge.eaRX (rx 6 15)) 1 = true ∧
    frPlace (rx 6 8).r1 = some 3 ∧ edge.installed (edge.eaRX (rx 6 8)) 8 = true ∧
    edge.installed (edge.ea 8 13) (maskBytes 0xB).length = true ∧
    edge.installed (edge.ea 9 0) (maskBytes 0).length = true := by decide

theorem witness_RoundTripLaw :
    Memory.wf edge.mem = true ∧ frPlace (rx 6 8).r1 = some 3 ∧ frPlace (rx 0 8).r1 = some 0 ∧
    edge.installed (edge.eaRX (rx 6 8)) 8 = true ∧ edge.installed (edge.eaRX (rx 6 8)) 4 = true ∧
    (∃ t, exec (.st (rx 6 8)) edge = .next t ∧ t.eaRX (rx 0 8) = edge.eaRX (rx 6 8)) ∧
    (∃ t, exec (.sth (rx 6 8)) edge = .next t ∧ t.eaRX (rx 0 8) = edge.eaRX (rx 6 8)) ∧
    (∃ t, exec (.stc (rx 6 8)) edge = .next t ∧ t.eaRX (rx 0 8) = edge.eaRX (rx 6 8)) ∧
    (∃ t, exec (.ste (rx 6 8)) edge = .next t ∧ t.eaRX (rx 0 8) = edge.eaRX (rx 6 8)) ∧
    ∃ t, exec (.std (rx 6 8)) edge = .next t ∧ t.eaRX (rx 0 8) = edge.eaRX (rx 6 8) :=
  ⟨rfl, rfl, rfl, rfl, rfl, ⟨_, rfl, rfl⟩, ⟨_, rfl, rfl⟩, ⟨_, rfl, rfl⟩, ⟨_, rfl, rfl⟩, ⟨_, rfl, rfl⟩⟩

theorem witness_InsertUnderMask :
    edge.installed (edge.ea 8 12) (maskBytes 0xF).length = true ∧
    edge.installed (edge.ea 9 0) (maskBytes 0).length = true := by decide

/-- MultipleRegisters: all sixteen registers from 1 to 0, and one register at the end of storage. -/
theorem witness_MultipleRegisters :
    edge.installed (edge.ea 10 0) (4 * (((0 : Nib) - 1).toNat + 1)) = true ∧
    edge.installed (edge.ea 8 12) (4 * (((5 : Nib) - 5).toNat + 1)) = true ∧ Memory.wf edge.mem = true := by
  decide

/-- MoveLong: distances 1 and 2 of 3 bytes overlap, 0 and 3 do not; operands that end at the end of storage; then
a destination byte, and a source byte, just past it. -/
theorem witness_MoveLong :
    let overlap := fun (a b : Addr) (n l : Nat) =>
      1 < min n l ∧ 1 ≤ (a - b).toNat ∧ (a - b).toNat ≤ min n l - 1
    (2 : Nib).toNat % 2 = 0 ∧ (4 : Nib).toNat % 2 = 0 ∧ Memory.wf edge.mem = true ∧
    overlap 0x301 0x300 3 3 ∧ overlap 0x302 0x300 3 4 ∧ ¬overlap 0x300 0x300 3 3 ∧ ¬overlap 0x303 0x300 3 3 ∧
    ¬overlap 0x301 0x300 1 1 ∧
    let s := (((edge.setGr 2 0xFFD).setGr 3 3).setGr 4 0xFFE).setGr 5 0x40000002
    let ok := fun (t : State) (l k : Nat) => t.installed (after (t.regTarget 2) k) 1 = true ∧
      (k < l → t.installed (after (t.regTarget 4) k) 1 = true)
    ¬overlap (s.regTarget 2) (s.regTarget 4) ((s.getGr (2 + 1)).extractLsb' 0 24).toNat
      ((s.getGr (4 + 1)).extractLsb' 0 24).toNat ∧
    (∀ k < 3, ok s 2 k) ∧ ((∀ k < 2, ok s 3 k) ∧ ¬ok s 3 2) ∧ ¬ok s 2 3 ∧ ¬overlap 0xFFD 0xFFE 4 3 := by decide

theorem witness_CompareAndSwap :
    ((edge.ea 8 12).toNat % 4 = 0 ∧ edge.installed (edge.ea 8 12) 4 = true) ∧
    (14 : Nib).toNat % 2 = 0 ∧ (0 : Nib).toNat % 2 = 0 ∧ (edge.ea 8 8).toNat % 8 = 0 ∧
    edge.installed (edge.ea 8 8) 8 = true := by decide

theorem witness_Execute :
    (∀ o, Instr.lr { r1 := 1, r2 := 2 } ≠ .ex o) ∧
    (edge.eaRX (rx 1 15)).toNat % 2 = 1 ∧
    ((edge.eaRX (rx 1 16)).toNat % 2 = 0 ∧ edge.installed (edge.eaRX (rx 1 16)) 2 = false) ∧
    (let s := edge.setByte 0xFFE 0x44
     s.installed (s.eaRX (rx 1 14)) 2 = true ∧ s.byteAt (s.eaRX (rx 1 14)) = 0x44) ∧
    (let s := edge.setByte 0xFFE 0x58
     s.installed (s.eaRX (rx 1 14)) 2 = true ∧ s.byteAt (s.eaRX (rx 1 14)) ≠ 0x44 ∧
      s.installed (s.eaRX (rx 1 14)) (instrLength (s.byteAt (s.eaRX (rx 1 14)))) = false) ∧
    (let s := edge.setBytes 0xFFC [0x58, 0x00, 0x80, 0x08]
     let t := s.eaRX (rx 8 12)
     t.toNat % 2 = 0 ∧ s.installed t (instrLength (s.byteAt t)) = true ∧ s.byteAt t ≠ 0x44 ∧
      decode (s.byteAt t :: (s.byteAt (t + 1) ||| (s.getGr 8).extractLsb' 0 8) ::
        s.bytesAt (t + 2) (instrLength (s.byteAt t) - 2)) =
        .ok (.l { r1 := 15, x2 := 0, b2 := 8, d2 := 8 }, []) ∧
      (Instr.l { r1 := 15, x2 := 0, b2 := 8, d2 := 8 }).length = 4) ∧
    (let s := edge.setByte 0xFFE 0x25
     s.installed (s.eaRX (rx 1 14)) (instrLength (s.byteAt (s.eaRX (rx 1 14)))) = true ∧
      s.byteAt (s.eaRX (rx 1 14)) ∉ opcodeBytes) ∧
    (let s := edge.setBytes 0xFFE [0x1A, 0x78]
     s.installed (s.eaRX (rx 0 14)) (instrLength (s.byteAt (s.eaRX (rx 0 14)))) = true ∧
      decode (s.bytesAt (s.eaRX (rx 0 14)) 2) = .ok (.ar { r1 := 7, r2 := 8 }, [])) :=
  ⟨(fun _ h => nomatch h), by decide, by decide, by decide, by decide, by decide, by decide, by decide⟩

theorem witness_ControlInstructions :
    (edge.psw.p = false ∧ edge.installed (edge.ea (si 15).b1 (si 15).d1) 1 = true) ∧
    ((edge.setGr 2 0xFFFFF0).getGr 2).toNat % 16 = 0 ∧ (15 : Byte).toNat < 16 := by decide

theorem witness_PackedResult : 9 < 10 ^ (2 * 0 + 1) ∧ 999 < 10 ^ (2 * 1 + 1) := by decide

/-- Storage with packed fields: +12 and -3 to their left ends, a bad sign code, a bad digit. -/
def packed : State :=
  ((((edge.setBytes 0x300 [0x01, 0x2C]).setBytes 0xFFF [0x3D]).setBytes 0x310 [0x12]).setBytes 0x320
    [0xA0, 0x0C])

theorem witness_DecimalArithmetic :
    packed.installed (packed.ea 10 0) ((1 : Nib).toNat + 1) = true ∧
    packed.installed (packed.ea 8 15) ((0 : Nib).toNat + 1) = true ∧
    packedOfBytes (packed.bytesAt (packed.ea 10 0) ((1 : Nib).toNat + 1)) = some { mag := 12, neg := false } ∧
    packedOfBytes (packed.bytesAt (packed.ea 8 15) ((0 : Nib).toNat + 1)) = some { mag := 3, neg := true } ∧
    packedOfBytes (packed.bytesAt (packed.ea 10 0x10) ((0 : Nib).toNat + 1)) = none ∧
    packedOfBytes (packed.bytesAt (packed.ea 10 0x20) ((1 : Nib).toNat + 1)) = none := by decide

/-- ZapDestination: a destination whose first byte, and whose last one, is the one past the end of storage. -/
theorem witness_ZapDestination :
    packed.installed (packed.ea 10 0) ((1 : Nib).toNat + 1) = true ∧
    (packed.installed (packed.ea 8 16) 0 = true ∧ packed.installed (after (packed.ea 8 16) 0) 1 = false) ∧
    ((15 : Nat) ≤ (15 : Nib).toNat ∧ packed.installed (packed.ea 8 1) 15 = true ∧
      packed.installed (after (packed.ea 8 1) 15) 1 = false) ∧
    packedOfBytes (packed.bytesAt (packed.ea 10 0) ((1 : Nib).toNat + 1)) = some { mag := 12, neg := false } ∧
    packedOfBytes (packed.bytesAt (packed.ea 10 0x20) ((1 : Nib).toNat + 1)) = none := by decide

/-- DecimalMultiplyDivide: the longest second operand with the shortest first one it allows; with no byte set,
neither has a sign code. -/
theorem witness_DecimalMultiplyDivide :
    let s := (packed.setByte 0x408 0x5C).setByte 0xFFF 0x2D
    (7 : Nib).toNat ≤ 7 ∧ (7 : Nib).toNat < (8 : Nib).toNat ∧
    s.installed (s.ea 10 0x100) ((8 : Nib).toNat + 1) = true ∧
    s.installed (s.ea 8 8) ((7 : Nib).toNat + 1) = true ∧
    packedOfBytes (s.bytesAt (s.ea 10 0x100) ((8 : Nib).toNat + 1)) = some { mag := 5, neg := false } ∧
    packedOfBytes (s.bytesAt (s.ea 8 8) ((7 : Nib).toNat + 1)) = some { mag := 2, neg := true } ∧
    packedOfBytes (edge.bytesAt (edge.ea 10 0x100) ((8 : Nib).toNat + 1)) = none ∧
    packedOfBytes (edge.bytesAt (edge.ea 8 8) ((7 : Nib).toNat + 1)) = none := by decide

theorem witness_DecimalShift :
    packed.installed (packed.ea 10 0) ((1 : Nib).toNat + 1) = true ∧ 9 < (10 : Nib).toNat ∧
    (9 : Nib).toNat ≤ 9 ∧
    packedOfBytes (packed.bytesAt (packed.ea 10 0) ((1 : Nib).toNat + 1)) = some { mag := 12, neg := false } ∧
    packedOfBytes (packed.bytesAt (packed.ea 10 0x20) ((1 : Nib).toNat + 1)) = none := by decide

theorem witness_DecimalConversion :
    let s := packed.setByte 0xFFF 0x7C
    s.installed (s.eaRX (rx 1 8)) 8 = true ∧
    packedOfBytes (s.bytesAt (s.eaRX (rx 1 8)) 8) = some { mag := 7, neg := false } ∧
    packedOfBytes (edge.bytesAt (edge.eaRX (rx 1 8)) 8) = none := by decide

theorem witness_ConversionRoundTrip :
    Memory.wf edge.mem = true ∧ edge.installed (edge.eaRX (rx 10 8)) 8 = true ∧
    ∃ t, exec (.cvd (rx 10 8)) edge = .next t ∧ t.eaRX (rx 1 8) = edge.eaRX (rx 10 8) :=
  ⟨rfl, rfl, _, rfl, rfl⟩

/-- FormatMoves: 16 bytes up to the end of storage; operands that reach one byte past it at the right end, and ones
that reach below address 0, which is past it, after four bytes of the first operand or two of the second. -/
theorem witness_FormatMoves :
    let a := after (packed.ea 8 0) (15 : Nib).toNat
    let b := after (packed.ea 8 15) (0 : Nib).toNat
    let low := before (0x003 : Addr)
    let s := packed
    Memory.wf s.mem = true ∧
    (∀ k ≤ (15 : Nib).toNat, s.installed (before a k) 1 = true ∧ s.installed (before b 0) 1 = true) ∧
    s.installed (before (after (s.ea 8 1) (15 : Nib).toNat) 0) 1 = false ∧
    after (s.ea 0 0 - 1) (4 : Nib).toNat = 0x003 ∧
    (∀ k < 4, s.installed (low k) 1 = true) ∧ s.installed (low 4) 1 = false ∧
    -- PACK's and UNPK's source bytes for the byte `m` that is not stored
    (∀ k < 2, ∀ j ∈ [2 * k - 1, 2 * k], s.installed (low j) 1 = true) ∧
    (∃ j ∈ [2 * 2 - 1, 2 * 2], j ≤ (4 : Nib).toNat ∧ s.installed (low j) 1 = false) ∧
    (∀ k < 7, ∀ j ∈ (if k % 2 = 1 ∨ k = 0 then [(k + 1) / 2] else []), s.installed (low j) 1 = true) ∧
    ∃ j ∈ (if 7 % 2 = 1 ∨ 7 = 0 then [(7 + 1) / 2] else []), j ≤ (4 : Nib).toNat ∧
      s.installed (low j) 1 = false := by decide

/-- Edit: operands that lie apart, up to the end of storage. -/
theorem witness_Edit :
    let s := (edge.setBytes 0xFFC [0x40, 0x20, 0x21, 0x20]).setBytes 0xFFA [0x01, 0x2C]
    Memory.wf s.mem = true ∧ s.installed (s.ea 8 12) ((3 : Byte).toNat + 1) = true ∧
    s.installed (s.ea 8 10) 2 = true ∧ (3 : Byte).toNat < (s.ea 8 10 - s.ea 8 12).toNat ∧
    2 ≤ (s.ea 8 12 - s.ea 8 10).toNat ∧
    editBytes (s.byteAt (s.ea 8 12)) 0 (s.bytesAt (s.ea 8 12) ((3 : Byte).toNat + 1)) (s.bytesAt (s.ea 8 10) 2)
      { sig := false, nonzero := false, half := none, marked := none } =
      some ([0x40, 0x40, 0xF1, 0xF2], { sig := false, nonzero := true, half := none, marked := some 2 }) := by
  decide

/-- Edit, byte after byte: a pattern that is its own source, to its end, and to the digit code that it stored there
itself; a pattern byte, and a source byte, just past the end of storage. -/
theorem witness_Edit_run :
    let e : EditScan := { sig := true, nonzero := true, half := none, marked := some 0 }
    (let s := edge.setBytes 0x300 [0x21, 0x20, 0x20]
     let a := s.ea 10 0
     let u := s.setBytes 0x300 [0xF2, 0xF1]
     Memory.wf s.mem = true ∧ s.installed a 2 = true ∧ editRun s a a 2 = some (u, 1, e) ∧
      2 = (1 : Byte).toNat + 1 ∧ 2 ≤ (2 : Byte).toNat ∧ s.installed (after a 2) 1 = true ∧
      s.installed (after a 1) 1 = true ∧ editRun s a a 3 = none) ∧
    (let s := (edge.setBytes 0xFFE [0x21, 0x20]).setByte 0x300 0x21
     s.installed (s.ea 8 14) 2 = true ∧ s.installed (s.ea 10 0) 1 = true ∧
      editRun s (s.ea 8 14) (s.ea 10 0) 2 = some (s.setBytes 0xFFE [0xF2, 0xF1], 1, e) ∧
      s.installed (after (s.ea 8 14) 2) 1 = false) ∧
    let s := edge.setByte 0x300 0x20
    editRun s (s.ea 10 0) (s.ea 8 16) 0 =
      some (s, 0, { sig := false, nonzero := false, half := none, marked := none }) ∧
    s.byteAt (after (s.ea 10 0) 0) = 0x20 ∧ s.installed (after (s.ea 8 16) 0) 1 = false := by decide

end Sys2Proof.Tests
end

section
/-! PROOFS. The statements of `spec/10_state.md`: the invariant, the frames of the registers, of the keys and
of the PSW, and the packed PSW. The frames are read off `ended_exec` (`Sys2Proof/Laws/Bounds.lean`): the ways a
call can end, each within the scope of the instruction that ran. -/

namespace Sys2Proof.Machine

/-! ## What taking an interruption leaves unchanged (R930, R931) -/

section
variable (s : State) (old new : Addr) (code : Half) (ilc : BitVec 2) (ia : Addr)

@[simp] theorem State.interrupt_keys : (s.interrupt old new code ilc ia).keys = s.keys := by
  simp [State.interrupt]

@[simp] theorem State.interrupt_cfg : (s.interrupt old new code ilc ia).cfg = s.cfg := by
  simp [State.interrupt]

@[simp] theorem State.getGr_interrupt (q : Nib) :
    (s.interrupt old new code ilc ia).getGr q = s.getGr q := by
  simp [State.interrupt, State.getGr]

@[simp] theorem State.getFr_interrupt (k : Fin 4) :
    (s.interrupt old new code ilc ia).getFr k = s.getFr k := by
  simp [State.interrupt, State.getFr]

theorem State.interrupt_wf (h : Memory.wf s.mem = true) :
    Memory.wf (s.interrupt old new code ilc ia).mem = true := State.poke_wf h old _

/-- The PSW that is live after an interruption is the one its new slot holds then. -/
theorem State.interrupt_psw :
    (s.interrupt old new code ilc ia).psw =
      Psw.unpack ((s.interrupt old new code ilc ia).peek 64 new) :=
  congrArg Psw.unpack (State.peek_congr rfl 64 new)

end

/-- An opcode without a row returns to the host, or interrupts (R146). -/
theorem State.undefinedOpcode_cases (s : State) (c : Ctx) :
    s.undefinedOpcode c = { s with result := .invalidOpcode } ∨
      s.undefinedOpcode c = s.programInterrupt .operation c.ilc c.next := by
  unfold State.undefinedOpcode
  cases s.cfg.undefOpcodeAction
  · exact .inl rfl
  · exact .inr rfl

/-! ## The invariant -/

theorem State.interrupt_inv {s : State} (h : s.Inv) (old new : Addr) (code : Half) (ilc : BitVec 2)
    (ia : Addr) : (s.interrupt old new code ilc ia).Inv := by
  obtain ⟨hmem, hkeys, hcfg⟩ := h
  exact ⟨State.interrupt_wf s old new code ilc ia hmem, by simpa using hkeys, by simpa using hcfg⟩

theorem Kept.inv {w : Scope} {s t : State} (h : Kept w s t) (hs : s.Inv) : t.Inv := by
  obtain ⟨hmem, hkeys, hcfg⟩ := hs
  exact ⟨h.wf hmem, h.keysWf hkeys, by rw [h.cfg]; exact hcfg⟩

theorem State.undefinedOpcode_inv {s : State} (h : s.Inv) (c : Ctx) : (s.undefinedOpcode c).Inv := by
  rcases s.undefinedOpcode_cases c with e | e <;> rw [e]
  · exact h
  · exact State.interrupt_inv h ..

/-- However an instruction ends, the invariant is kept. -/
theorem Ended.inv {s t : State} {j : Instr} (h : Ended s j t) (hs : s.Inv) : t.Inv := by
  cases h with
  | done u ia ilc r h e => subst e; exact h.inv hs
  | trap u code ilc ia h e => subst e; exact State.interrupt_inv (h.inv hs) ..
  | svc n ilc ia hj e => subst e; exact State.interrupt_inv hs ..
  | lpsw o r hj hp e => subst e; exact hs

/-- Settles O8, by what the call's fetch finds and, for an instruction, by how it ends. -/
theorem invariantKept : Obligations.InvariantKept := by
  intro s t hs h
  cases hw : s.psw.w with
  | true =>
    rw [step_wait hw] at h
    cases h; exact hs
  | false =>
    cases hf : s.fetch s.psw.ia with
    | odd =>
      rw [step_odd hw hf] at h
      cases h; exact State.interrupt_inv hs ..
    | notInstalled =>
      rw [step_notInstalled hw hf] at h
      cases h; exact State.interrupt_inv hs ..
    | undefined op =>
      rw [step_undefined hw hf] at h
      cases h; exact State.undefinedOpcode_inv hs _
    | instr i =>
      rw [step_instr hw hf] at h
      exact (ended_exec h).inv hs

/-! ## Registers -/

theorem Ended.getGr {s t : State} {j : Instr} (h : Ended s j t) {q : Nib} (hq : writesGr j q = false) :
    t.getGr q = s.getGr q := by
  cases h with
  | done u ia ilc r h e => subst e; exact h.gr q hq
  | trap u code ilc ia h e =>
    subst e; exact (State.getGr_interrupt ..).trans (h.gr q hq)
  | svc n ilc ia hj e => subst e; exact State.getGr_interrupt ..
  | lpsw o r hj hp e => subst e; rfl

theorem Ended.getFr {s t : State} {j : Instr} (h : Ended s j t) {k : Fin 4} (hk : writesFr j k = false) :
    t.getFr k = s.getFr k := by
  cases h with
  | done u ia ilc r h e => subst e; exact h.fr k hk
  | trap u code ilc ia h e =>
    subst e; exact (State.getFr_interrupt ..).trans (h.fr k hk)
  | svc n ilc ia hj e => subst e; exact State.getFr_interrupt ..
  | lpsw o r hj hp e => subst e; rfl

/-- Settles O11: each way a call can end leaves the registers outside the instruction's scope. -/
theorem registerFrame : Obligations.RegisterFrame := by
  intro i s t h
  exact ⟨fun _ hq => (ended_exec h).getGr hq, fun _ hk => (ended_exec h).getFr hk⟩

/-! ## Keys and parameters -/

theorem Ended.cfg {s t : State} {j : Instr} (h : Ended s j t) : t.cfg = s.cfg := by
  cases h with
  | done u ia ilc r h e => subst e; exact h.cfg
  | trap u code ilc ia h e => subst e; exact (State.interrupt_cfg ..).trans h.cfg
  | svc n ilc ia hj e => subst e; exact State.interrupt_cfg ..
  | lpsw o r hj hp e => subst e; rfl

theorem scopeOf_keys {s : State} {j : Instr} (h : (scopeOf s j).keys = true) : ∃ o, j = .ssk o := by
  simp only [scopeOf] at h
  split at h
  · exact ⟨_, rfl⟩
  · cases h

/-- No instruction but SSK changes a key. -/
theorem Ended.keys {s t : State} {j : Instr} (h : Ended s j t) (hj : ∀ o, j ≠ .ssk o) :
    t.keys = s.keys := by
  have hk : (scopeOf s j).keys = false :=
    Bool.eq_false_iff.2 fun hk => (scopeOf_keys hk).elim hj
  cases h with
  | done u ia ilc r h e => subst e; exact h.keys hk
  | trap u code ilc ia h e => subst e; exact (State.interrupt_keys ..).trans (h.keys hk)
  | svc n ilc ia hj e => subst e; exact State.interrupt_keys ..
  | lpsw o r hj hp e => subst e; rfl

/-- EX runs its target's rule, unless it raises an exception of its own or finds an undefined target; then
nothing has been written (R620). -/
theorem opEx_cases (o : OpsRX) (c : Ctx) (s : State) :
    (∃ code, opEx o c s = .error (.program code s)) ∨ opEx o c s = .error .undefinedOpcode ∨
      opEx o c s = targetRule (s.executed (.ex o)) c s := by
  unfold opEx State.executed
  dsimp only
  cases !(s.eaRX o).getLsbD 0
  · exact .inl ⟨_, rfl⟩
  cases s.installed (s.eaRX o) 2
  · exact .inl ⟨_, rfl⟩
  cases s.byteAt (s.eaRX o) != 0x44
  · exact .inl ⟨_, rfl⟩
  cases s.installed (s.eaRX o) (instrLength (s.byteAt (s.eaRX o)))
  · exact .inl ⟨_, rfl⟩
  simp only [demand_true, ok_bind]
  cases decode (modifiedCopy o.r1 s (s.bytesAt (s.eaRX o) (instrLength (s.byteAt (s.eaRX o))))) with
  | ok p => exact .inr (.inr rfl)
  | error e => exact .inr (.inl rfl)

/-- A call concludes the rule of the instruction that it executes, or, for EX, an exception raised before any
rule was run. -/
theorem exec_conclude {i : Instr} {s t : State} (h : exec i s = .next t) :
    ∃ c e, t = conclude c s e ∧ ((∃ code, e = .error (.program code s)) ∨ e = .error .undefinedOpcode ∨
      e = targetRule (s.executed i) c s) := by
  have hc : ∃ c e, exec i s = .next (conclude c s e) ∧
      ((∃ code, e = .error (.program code s)) ∨ e = .error .undefinedOpcode ∨
        e = targetRule (s.executed i) c s) := by
    cases i
    case ex o => exact ⟨_, _, rfl, opEx_cases o (s.ctx 4) s⟩
    all_goals exact ⟨_, _, rfl, .inr (.inr rfl)⟩
  obtain ⟨c, e, hx, he⟩ := hc
  exact ⟨c, e, Host.Outcome.next.inj (h.symm.trans hx), he⟩

/-- What holds of the keys wherever a rule can end holds of them after the call. -/
theorem conclude_keys {R : List (Nat × BitVec 4) → Prop} {s : State} {e : Effect} (c : Ctx)
    (hs : R s.keys) (he : Bound (fun u => R u.keys) (Done fun u => R u.keys) e) :
    R (conclude c s e).keys := by
  cases e with
  | ok x =>
    cases x with
    | advance u => exact he
    | branch a u => exact he
    | pswLoaded u => exact he.elim
  | error r =>
    cases r with
    | program code u => rw [conclude, State.programInterrupt, State.interrupt_keys]; exact he
    | supervisorCall n u => exact he.elim
    | pswInvalid reason u => exact he.elim
    | intercepted v => exact hs
    | undefinedOpcode =>
      rcases s.undefinedOpcode_cases c with h | h
      · rw [conclude, h]; exact hs
      · rw [conclude, h, State.programInterrupt, State.interrupt_keys]; exact hs

/-- The keys that SSK can leave: those it found or, in supervisor state, those with the addressed page's key
set (R657). -/
def SskKeys (o : OpsRR) (s : State) (keys : List (Nat × BitVec 4)) : Prop :=
  keys = s.keys ∨ s.psw.p = false ∧ ∃ v, keys = (s.setKey (pageOf (s.regTarget o.r2)) v).keys

theorem Bound.keyPage (r : Nib) {s : State} {P : State → Prop} (h : P s) :
    Bound P (fun p => p = pageOf (s.regTarget r)) (keyPage r s) :=
  Bound.bind (Bound.demand _ _ h) fun _ _ => rfl

theorem opSsk_keys (o : OpsRR) (c : Ctx) (s : State) :
    Bound (fun u => SskKeys o s u.keys) (Done fun u => SskKeys o s u.keys) (opSsk o c s) := by
  have hs : SskKeys o s s.keys := .inl rfl
  refine Bound.bind (Bound.supervisorOnly _ s) fun _ hp => Bound.bind (Bound.keyPage o.r2 hs) ?_
  rintro _ rfl
  exact .inr ⟨hp, _, rfl⟩

theorem exec_ssk_keys {i : Instr} {s t : State} {o : OpsRR} (h : exec i s = .next t)
    (hj : s.executed i = .ssk o) : SskKeys o s t.keys := by
  obtain ⟨c, e, rfl, he⟩ := exec_conclude h
  have hs : SskKeys o s s.keys := .inl rfl
  apply conclude_keys c hs
  rcases he with ⟨code, rfl⟩ | rfl | rfl
  · exact hs
  · trivial
  · rw [hj]; exact opSsk_keys o c s

theorem State.keyOf_setKey_of_ne {s : State} (h : Keys.wf s.keys = true) {p q : Nat} (hpq : p ≠ q)
    (v : BitVec 4) : (s.setKey p v).keyOf q = s.keyOf q := by
  simp only [State.keyOf, State.setKey, Sparse.read_write h, if_neg hpq]

theorem pageOf_eq_div (a : Addr) : pageOf a = a.toNat / 2048 := Nat.shiftRight_eq_div_pow a.toNat 11

/-- Settles O13: no scope but SSK's holds the keys, and SSK sets one key, in supervisor state. -/
theorem keyAndParameterFrame : Obligations.KeyAndParameterFrame := by
  intro i s t h
  have hend := ended_exec h
  refine ⟨hend.cfg, fun hk => ?_, fun hwf o p hj hp => ?_⟩
  · by_cases hj : ∃ o, s.executed i = .ssk o
    · obtain ⟨o, hj⟩ := hj
      have hprob : s.psw.p = true := hk.resolve_left fun hne => hne o hj
      exact (exec_ssk_keys h hj).resolve_right fun ⟨hsup, _⟩ => by simp [hprob] at hsup
    · exact hend.keys fun o ho => hj ⟨o, ho⟩
  · rcases exec_ssk_keys h hj with hk | ⟨_, v, hk⟩
    · rw [State.keyOf, hk]; rfl
    · rw [← pageOf_eq_div] at hp
      rw [State.keyOf, hk]
      exact State.keyOf_setKey_of_ne hwf hp.symm v

/-! ## The live PSW -/

theorem scopeOf_pm {s : State} {j : Instr} (h : (scopeOf s j).pm = true) : ∃ o, j = .spm o := by
  simp only [scopeOf] at h
  split at h
  · exact ⟨_, rfl⟩
  · cases h

theorem scopeOf_sysMask {s : State} {j : Instr} (h : (scopeOf s j).sysMask = true) :
    ∃ o, j = .ssm o ∨ j = .stnsm o ∨ j = .stosm o := by
  simp only [scopeOf] at h
  split at h
  · exact ⟨_, .inl rfl⟩
  · exact ⟨_, .inr (.inl rfl)⟩
  · exact ⟨_, .inr (.inr rfl)⟩
  · cases h

/-- No scope holds the key, the mode bits or the interruption code. -/
theorem Kept.pswFields {w : Scope} {s t : State} (h : Kept w s t) :
    t.psw.key = s.psw.key ∧ t.psw.e = s.psw.e ∧ t.psw.m = s.psw.m ∧ t.psw.w = s.psw.w ∧
      t.psw.p = s.psw.p ∧ t.psw.intCode = s.psw.intCode := by
  rw [h.psw]
  exact ⟨rfl, rfl, rfl, rfl, rfl, rfl⟩

/-- A field that can change only under a flag of the scope stayed, or what the flag stands for holds. -/
theorem eq_or_of_scope {α : Type} {a b : α} {c : Bool} {P : Prop} (h : c = false → a = b)
    (hc : c = true → P) : a = b ∨ P := by
  cases c
  · exact .inl (h rfl)
  · exact .inr (hc rfl)

/-- Settles O14: a completion keeps the PSW within the instruction's scope, and every other end loads one. -/
theorem pswFrame : Obligations.PswFrame := by
  intro i s t h
  cases ended_exec h with
  | done u ia ilc r hu e =>
    subst e
    obtain ⟨hkey, he, hm, hw, hp, hcode⟩ := hu.pswFields
    exact .inl ⟨hkey, he, hm, hw, hp, hcode, eq_or_of_scope hu.sysMask scopeOf_sysMask,
      eq_or_of_scope hu.pm scopeOf_pm, eq_or_of_scope hu.cc id⟩
  | trap u code ilc ia hu e => subst e; exact .inr (.inl (State.interrupt_psw ..))
  | svc n ilc ia hj e => subst e; exact .inr (.inr (.inl ⟨⟨n, hj⟩, State.interrupt_psw ..⟩))
  | lpsw o r hj hp e => subst e; exact .inr (.inr (.inr ⟨o, hj, hp, rfl⟩))

/-! ## The packed PSW (R50, R51) -/

theorem ofBool_getLsbD_eq_extractLsb' {n : Nat} (v : BitVec n) (i : Nat) :
    BitVec.ofBool (v.getLsbD i) = v.extractLsb' i 1 := by
  ext j hj
  obtain rfl : j = 0 := by omega
  simp

theorem getLsbD_of_extractLsb' {n i : Nat} {v : BitVec n} {b : Bool}
    (h : v.extractLsb' i 1 = BitVec.ofBool b) : v.getLsbD i = b := by
  rw [← ofBool_getLsbD_eq_extractLsb'] at h
  simpa using congrArg (BitVec.getLsbD · 0) h

theorem Psw.unpack_pack (p : Psw) : Psw.unpack p.pack = p := by
  obtain ⟨sysMask, key, e, m, w, p, intCode, ilc, cc, pm, ia⟩ := p
  simp only [Psw.unpack, Psw.mk.injEq]
  refine ⟨?_, ?_, getLsbD_of_extractLsb' ?_, getLsbD_of_extractLsb' ?_, getLsbD_of_extractLsb' ?_,
    getLsbD_of_extractLsb' ?_, ?_, ?_, ?_, ?_, ?_⟩ <;>
  · simp (disch := omega) only [Psw.pack, linkByte, BitVec.extractLsb'_append_eq_of_le,
      BitVec.extractLsb'_append_eq_of_add_le]
    exact BitVec.extractLsb'_eq_self

/-- The fields of a doubleword stand side by side, so that packing them puts it together again. -/
theorem Psw.pack_unpack (w : DWord) : (Psw.unpack w).pack = w := by
  simp only [Psw.pack, Psw.unpack, linkByte, ofBool_getLsbD_eq_extractLsb',
    BitVec.extractLsb'_append_extractLsb'_eq_extractLsb', BitVec.extractLsb'_eq_self]

/-- The low byte under `SYSMASK` is the key and the four mode bits: byte 1 of the packed PSW. -/
theorem extractLsb'_key_bits (a : Byte) (k : Nib) (e m w p : BitVec 1) :
    (a ++ k ++ e ++ m ++ w ++ p).extractLsb' 0 8 = k ++ e ++ m ++ w ++ p := by
  simp only [BitVec.append_assoc, BitVec.cast_eq]
  exact BitVec.extractLsb'_append_eq_right

theorem Psw.beBytes_pack (p : Psw) :
    beBytes 8 p.pack =
      [p.sysMask, p.key ++ BitVec.ofBool p.e ++ BitVec.ofBool p.m ++ BitVec.ofBool p.w ++
          BitVec.ofBool p.p, p.intCode.extractLsb' 8 8, p.intCode.extractLsb' 0 8,
        p.ilc ++ p.cc ++ p.pm, p.ia.extractLsb' 16 8, p.ia.extractLsb' 8 8, p.ia.extractLsb' 0 8] := by
  simp (disch := omega) only [beBytes, Psw.pack, linkByte, BitVec.extractLsb'_append_eq_of_le,
    BitVec.extractLsb'_append_eq_of_add_le, List.cons.injEq,
    and_true, true_and]
  exact ⟨BitVec.extractLsb'_eq_self, extractLsb'_key_bits .., BitVec.extractLsb'_eq_self⟩

/-- Settles O15, from the byte images and the two inverses above. -/
theorem pswPacking : Obligations.PswPacking :=
  ⟨Psw.beBytes_pack, Psw.unpack_pack, Psw.pack_unpack⟩

end Sys2Proof.Machine
end

section
/-! PROOFS. The statement of `spec/20_memory.md`: the frame of main storage. It is read off `ended_exec`
(`Sys2Proof/Laws/Bounds.lean`): what the instruction itself stores stays within its scope, and an interruption
stores the 8 bytes of an old PSW and nothing else. -/

namespace Sys2Proof.Machine

/-- Taking an interruption stores the old PSW alone (R930, R931). -/
theorem State.byteAt_interrupt_of_outside {s : State} (h : Memory.wf s.mem = true) {old x : Addr}
    (hx : 8 ≤ (x - old).toNat) (new : Addr) (code : Half) (ilc : BitVec 2) (ia : Addr) :
    (s.interrupt old new code ilc ia).byteAt x = s.byteAt x :=
  State.byteAt_poke_of_outside h old x _ (by decide) hx

/-- Within an instruction's scope, a byte outside the stored ones keeps its value. -/
theorem Kept.byteAt_of_not_stored {s t : State} {j : Instr} (h : Kept (scopeOf s j) s t)
    (hwf : Memory.wf s.mem = true) {x : Addr}
    (hx : (storedBytes s j).2 ≤ (x - (storedBytes s j).1).toNat) : t.byteAt x = s.byteAt x :=
  h.mem hwf x (Nat.not_lt.2 hx)

/-- Settles O12, by how the call ends: a completion stores within the scope, a program interruption stores its
old PSW besides, SVC's interruption stores only the old PSW, and a loaded PSW changes no storage. -/
theorem storageFrame : Obligations.StorageFrame := by
  intro i s t hwf h
  cases ended_exec h with
  | done u ia ilc r hu e => subst e; exact .inl fun x hx => hu.byteAt_of_not_stored hwf hx
  | trap u code ilc ia hu e =>
    subst e
    refine .inr (.inl ⟨State.interrupt_psw .., fun x hold hx => ?_⟩)
    exact (State.byteAt_interrupt_of_outside (hu.wf hwf) hold ..).trans (hu.byteAt_of_not_stored hwf hx)
  | svc n ilc ia hj e =>
    subst e
    exact .inr (.inr ⟨⟨n, hj⟩, State.interrupt_psw .., fun x hold _ =>
      State.byteAt_interrupt_of_outside hwf hold ..⟩)
  | lpsw o r hj hp e => subst e; exact .inl fun x _ => rfl

end Sys2Proof.Machine
end

section
/-! PROOFS. The statements of `spec/30_encoding.md`: the decoder and the encoder are inverse to each other, the
opcode map, and what a call does when it executes no instruction. -/

namespace Sys2Proof.Machine

/-! ## Decoding what the encoder of a format wrote (R121 to R126)

`mk` is a row's constructor; each lemma asks of the row only that it reads its fields where the format has them. -/

/-- Bytes as many as the opcode byte says are read whole, whatever follows them. -/
theorem decode_append {b0 : Byte} {bs : List Byte} {i : Instr} (rest : List Byte)
    (hl : instrLength b0 = (b0 :: bs).length)
    (ha : assemble b0 ((bs ++ rest).getD 0 0) ((bs ++ rest).getD 1 0) ((bs ++ rest).getD 2 0)
      ((bs ++ rest).getD 3 0) ((bs ++ rest).getD 4 0) = some i) :
    decode (b0 :: bs ++ rest) = .ok (i, rest) :=
  (decode_eq_ok_iff b0 (bs ++ rest) rest i).2 ⟨ha, by simp [hl], by simp [hl]⟩

theorem decode_encRR {op : Byte} {mk : OpsRR → Instr} (hl : instrLength op = 2)
    (hrow : ∀ b1 b2 b3 b4 b5,
      assemble op b1 b2 b3 b4 b5 = some (mk { r1 := hiNib b1, r2 := loNib b1 }))
    (o : OpsRR) (rest : List Byte) : decode (encRR op o ++ rest) = .ok (mk o, rest) :=
  decode_append rest hl (by simp [hrow])

theorem decode_encRX {op : Byte} {mk : OpsRX → Instr} (hl : instrLength op = 4)
    (hrow : ∀ b1 b2 b3 b4 b5, assemble op b1 b2 b3 b4 b5 =
      some (mk { r1 := hiNib b1, x2 := loNib b1, b2 := hiNib b2, d2 := dispOf b2 b3 }))
    (o : OpsRX) (rest : List Byte) : decode (encRX op o ++ rest) = .ok (mk o, rest) :=
  decode_append rest hl (by simp [hrow])

theorem decode_encRS {op : Byte} {mk : OpsRS → Instr} (hl : instrLength op = 4)
    (hrow : ∀ b1 b2 b3 b4 b5, assemble op b1 b2 b3 b4 b5 =
      some (mk { r1 := hiNib b1, r3 := loNib b1, b2 := hiNib b2, d2 := dispOf b2 b3 }))
    (o : OpsRS) (rest : List Byte) : decode (encRS op o ++ rest) = .ok (mk o, rest) :=
  decode_append rest hl (by simp [hrow])

theorem decode_encSI {op : Byte} {mk : OpsSI → Instr} (hl : instrLength op = 4)
    (hrow : ∀ b1 b2 b3 b4 b5, assemble op b1 b2 b3 b4 b5 =
      some (mk { i2 := b1, b1 := hiNib b2, d1 := dispOf b2 b3 }))
    (o : OpsSI) (rest : List Byte) : decode (encSI op o ++ rest) = .ok (mk o, rest) :=
  decode_append rest hl (by simp [hrow])

/-- An S row may be chosen by its second byte too (R140). -/
theorem decode_encS {op b1 : Byte} {mk : OpsS → Instr} (hl : instrLength op = 4)
    (hrow : ∀ b2 b3 b4 b5, assemble op b1 b2 b3 b4 b5 =
      some (mk { b2 := hiNib b2, d2 := dispOf b2 b3 }))
    (o : OpsS) (rest : List Byte) : decode (encS op b1 o ++ rest) = .ok (mk o, rest) :=
  decode_append rest hl (by simp [hrow])

theorem decode_encSS {op : Byte} {mk : OpsSS → Instr} (hl : instrLength op = 6)
    (hrow : ∀ b1 b2 b3 b4 b5, assemble op b1 b2 b3 b4 b5 =
      some (mk { l := b1, b1 := hiNib b2, d1 := dispOf b2 b3, b2 := hiNib b4, d2 := dispOf b4 b5 }))
    (o : OpsSS) (rest : List Byte) : decode (encSS op o ++ rest) = .ok (mk o, rest) :=
  decode_append rest hl (by simp [hrow])

theorem decode_encSS2 {op : Byte} {mk : OpsSS2 → Instr} (hl : instrLength op = 6)
    (hrow : ∀ b1 b2 b3 b4 b5, assemble op b1 b2 b3 b4 b5 =
      some (mk
        { l1 := hiNib b1, l2 := loNib b1, b1 := hiNib b2, d1 := dispOf b2 b3, b2 := hiNib b4,
          d2 := dispOf b4 b5 }))
    (o : OpsSS2) (rest : List Byte) : decode (encSS2 op o ++ rest) = .ok (mk o, rest) :=
  decode_append rest hl (by simp [hrow])

/-! ## Rows chosen by the second byte (R140) -/

/-- A well-formed catch-all instruction holds no named row's second byte (R680). -/
theorem wellFormed_b2xx {fn : Byte} {o : OpsS} (h : (Instr.b2xx fn o).wellFormed = true) :
    namedB2.contains fn = false := by
  simpa only [Instr.wellFormed, Bool.not_eq_true'] using h

theorem decode_encode_b2xx {fn : Byte} (h : namedB2.contains fn = false) (o : OpsS) (rest : List Byte) :
    decode (encode (.b2xx fn o) ++ rest) = .ok (.b2xx fn o, rest) :=
  decode_encS (op := 0xB2) rfl (fun b2 b3 _ _ => rowS_b2xx fn b2 b3 h) o rest

/-- Bit 15 says which of the two channel instructions of an opcode was written. -/
theorem decode_encode_channel (fn : BitVec 7) (o : OpsS) (rest : List Byte) :
    ∀ i ∈ [Instr.sio fn o, .siof fn o, .tio fn o, .clrio fn o, .hio fn o, .hdv fn o],
      decode (encode i ++ rest) = .ok (i, rest) := by
  have row := rowS_channel fn
  simp only [forall_and] at row
  obtain ⟨sio, siof, tio, clrio, hio, hdv⟩ := row
  simp only [List.forall_mem_cons]
  exact ⟨decode_encS (op := 0x9C) rfl (fun b2 b3 _ _ => sio b2 b3) o rest,
    decode_encS (op := 0x9C) rfl (fun b2 b3 _ _ => siof b2 b3) o rest,
    decode_encS (op := 0x9D) rfl (fun b2 b3 _ _ => tio b2 b3) o rest,
    decode_encS (op := 0x9D) rfl (fun b2 b3 _ _ => clrio b2 b3) o rest,
    decode_encS (op := 0x9E) rfl (fun b2 b3 _ _ => hio b2 b3) o rest,
    decode_encS (op := 0x9E) rfl (fun b2 b3 _ _ => hdv b2 b3) o rest, by simp⟩

/-- The encoder and the decoder are written from the same rows: each instruction by its format. -/
theorem decode_encode (i : Instr) (rest : List Byte) (h : i.wellFormed = true) :
    decode (encode i ++ rest) = .ok (i, rest) := by
  cases i
  case spm o | balr o | bctr o | bcr o | ssk o | isk o | mvcl o | clcl o | lpr o | lnr o | ltr o | lcr o
      | nr o | clr o | or o | xr o | lr o | cr o | ar o | sr o | mr o | dr o | alr o | slr o | lpdr o
      | lndr o | ltdr o | lcdr o | hdr o | ldr o | cdr o | adr o | sdr o | mdr o | ddr o | awr o | swr o
      | lper o | lner o | lter o | lcer o | her o | ler o | cer o | aer o | ser o | mer o | der o | aur o
      | sur o =>
    exact decode_encRR rfl (fun _ _ _ _ _ => rfl) o rest
  case svc b => exact decode_append rest rfl rfl
  case sth o | la o | stc o | ic o | ex o | bal o | bct o | bc o | lh o | ch o | ah o | sh o | mh o | cvd o
      | cvb o | st o | n o | cl o | o o | x o | l o | c o | a o | s o | m o | d o | al o | sl o | std o
      | ld o | cd o | ad o | sd o | md o | dd o | aw o | sw o | ste o | le o | ce o | ae o | se o | me o
      | de o | au o | su o | lra o =>
    exact decode_encRX rfl (fun _ _ _ _ _ => rfl) o rest
  case diag o | bxh o | bxle o | srl o | sll o | sra o | sla o | srdl o | sldl o | srda o | slda o | stm o
      | lm o | sigp o | stctl o | lctl o | cs o | cds o | clm o | stcm o | icm o =>
    exact decode_encRS rfl (fun _ _ _ _ _ => rfl) o rest
  case ssm o | lpsw o | wrd o | rdd o | tm o | mvi o | ts o | ni o | cli o | oi o | xi o | stnsm o | stosm o
      | mc o =>
    exact decode_encSI rfl (fun _ _ _ _ _ => rfl) o rest
  case mvn o | mvc o | mvz o | nc o | clc o | oc o | xc o | tr o | trt o | ed o | edmk o =>
    exact decode_encSS rfl (fun _ _ _ _ _ => rfl) o rest
  case srp o | mvo o | pack o | unpk o | zap o | cp o | ap o | sp o | mp o | dp o =>
    exact decode_encSS2 rfl (fun _ _ _ _ _ => rfl) o rest
  case tch fn o => exact decode_encS rfl (fun _ _ _ _ => rfl) o rest
  case stidp o | stidc o | sck o | stck o | sckc o | stckc o | spt o | stpt o | spka o | ipk o | ptlb o
      | spx o | stpx o | stap o | rrb o =>
    exact decode_encS rfl (fun _ _ _ _ => rfl) o rest
  case b2xx fn o => exact decode_encode_b2xx (wellFormed_b2xx h) o rest
  case sio fn o | siof fn o | tio fn o | clrio fn o | hio fn o | hdv fn o =>
    exact decode_encode_channel fn o rest _ (by simp)

/-- Settles O1, one format of instruction after the other. -/
theorem decodeEncodeAgree : Obligations.DecodeEncodeAgree := decode_encode

/-! ## Encoding what was decoded -/

/-- The decoder pads missing bytes with zeros; where enough bytes are given it reads only those. -/
theorem take_getD_eq_take {bs : List Byte} {n : Nat} (hn : n ≤ 5) (hl : n ≤ bs.length) :
    [bs.getD 0 0, bs.getD 1 0, bs.getD 2 0, bs.getD 3 0, bs.getD 4 0].take n = bs.take n := by
  have hofFn : [bs.getD 0 0, bs.getD 1 0, bs.getD 2 0, bs.getD 3 0, bs.getD 4 0] =
      List.ofFn fun k : Fin 5 => bs.getD k 0 := rfl
  rw [hofFn]
  apply List.ext_getElem
  · simp only [List.length_take, List.length_ofFn]
    omega
  · intro k hk _
    rw [List.length_take, List.length_ofFn] at hk
    have hkl : k < bs.length := by omega
    simp only [List.getElem_take, List.getElem_ofFn, List.getD_eq_getElem bs 0 hkl]

/-- Behind the opcode byte at most five bytes are read (R120). -/
theorem instrLength_eq_succ (op : Byte) : ∃ m ≤ 5, instrLength op = m + 1 := by
  rcases instrLength_cases op with h | h | h
  · exact ⟨1, by decide, h⟩
  · exact ⟨3, by decide, h⟩
  · exact ⟨5, by decide, h⟩

/-- What decodes was its own encoding, followed by the bytes that are left. -/
theorem encode_decode {bs rest : List Byte} {i : Instr} (h : decode bs = .ok (i, rest)) :
    i.wellFormed = true ∧ encode i ++ rest = bs := by
  cases bs with
  | nil => cases h
  | cons b0 bs =>
    obtain ⟨hrow, hlen, hrest⟩ := (decode_eq_ok_iff b0 bs rest i).1 h
    obtain ⟨henc, hwf⟩ := assemble_encode hrow
    obtain ⟨m, hm, hop⟩ := instrLength_eq_succ b0
    rw [hop] at henc hlen hrest
    refine ⟨hwf, ?_⟩
    rw [henc, hrest, List.take_succ_cons, take_getD_eq_take hm (Nat.le_of_succ_le_succ hlen),
      List.drop_succ_cons, List.cons_append, List.take_append_drop]

/-- Settles O2: a row's encoding is the bytes it was read from. -/
theorem encodeDecodeAgree : Obligations.EncodeDecodeAgree := fun _ _ _ => encode_decode

/-- Settles O3, by decoding each word. -/
theorem writtenWordsDecode : Obligations.WrittenWordsDecode := by
  unfold Obligations.WrittenWordsDecode
  decide

/-! ## The opcode map -/

/-- Bytes whose opcode has no row are refused by its name, however many they are (R146). -/
theorem decode_undefined {op : Byte} (h : opcodeDefined op = false) (bs : List Byte) :
    decode (op :: bs) = .error (.undefinedOpcode op) := by
  have hnone : assemble op (bs.getD 0 0) (bs.getD 1 0) (bs.getD 2 0) (bs.getD 3 0) (bs.getD 4 0) = none := by
    rw [← Option.not_isSome_iff_eq_none, assemble_isSome, h]
    exact Bool.false_ne_true
  simp only [decode, hnone]

theorem opcodeDefined_of_mem {op : Byte} (h : op ∈ opcodeBytes) : opcodeDefined op = true := by
  rw [opcodeDefined_eq, decide_eq_true h]

theorem opcodeDefined_of_not_mem {op : Byte} (h : op ∉ opcodeBytes) : opcodeDefined op = false := by
  rw [opcodeDefined_eq, decide_eq_false h]

/-! ## One call -/

theorem State.length_of_decode_bytesAt {s : State} {a : Addr} {n : Nat} {i : Instr} {rest : List Byte}
    (h : decode (s.bytesAt a n) = .ok (i, rest)) : i.length = instrLength (s.byteAt a) := by
  cases n with
  | zero => cases h
  | succ n => exact length_of_decode h

theorem two_le_instrLength (op : Byte) : 2 ≤ instrLength op := by
  rcases instrLength_cases op with h | h | h <;> omega

/-- Settles O4: the fetch at IA finds what the bytes there decode to. -/
theorem stepRunsDecoded : Obligations.StepRunsDecoded := by
  intro s i rest hw heven hinst _ hdec
  rw [State.length_of_decode_bytesAt hdec] at hinst hdec
  have hfirst : s.installed s.psw.ia 2 = true := State.installed_mono hinst (two_le_instrLength _)
  exact step_instr hw (State.fetch_instr heven hfirst hinst hdec)

/-- Settles O5, by what the fetch at IA finds in each clause. -/
theorem callsWithoutInstruction : Obligations.CallsWithoutInstruction := fun _ =>
  ⟨step_wait,
    fun hw hodd => step_odd hw (State.fetch_odd hodd),
    fun hw heven hmissing => step_notInstalled hw (State.fetch_missing heven hmissing),
    fun hw heven hfirst hop hmissing =>
      step_notInstalled hw (State.fetch_short heven hfirst (opcodeDefined_of_mem hop) hmissing)⟩

/-- Settles O6: no row matches, so the fetch finds an undefined opcode, whatever bytes follow it. -/
theorem undefinedOpcodes : Obligations.UndefinedOpcodes := by
  refine ⟨fun op bs hop => decode_undefined (opcodeDefined_of_not_mem hop) bs, ?_⟩
  intro s hw heven hfirst hop
  have hstep := step_undefined hw (State.fetch_undefined heven hfirst (opcodeDefined_of_not_mem hop))
  refine ⟨fun hreturn => ?_, fun htrap => ?_⟩
  · rw [hstep, State.undefinedOpcode, hreturn]
  · rw [hstep, State.undefinedOpcode, htrap]
    rfl

end Sys2Proof.Machine
end

section
/-! PROOFS. The statements of `spec/40_fixed_point.md`, with the specification exceptions of R906. A call ends
as its rule does (`call_advance`, `call_program`); what the rules share, a storage operand, a checked register
field, a logical sum, a quotient, a shift, is said once, as arithmetic on the operands' values. -/

namespace Sys2Proof.Machine

/-! ## From a rule's outcome to the call -/

section
variable {s t : State} {len : Nat} {sem : Ctx → State → Effect}

theorem call_advance (h : sem (s.ctx len) s = .ok (.advance t)) :
    call len sem s = .next (s.completed len t) := by
  rw [call_eq, h, conclude_advance]

theorem call_program {code : ProgramCode} (h : sem (s.ctx len) s = .error (.program code t)) :
    call len sem s = .next (s.trapped len code t) := by
  rw [call_eq, h, conclude_program]

theorem call_signedResult {r : Nib} {v : Int} (h : sem (s.ctx len) s = signedResult r v s) :
    call len sem s = .next (s.signedSum len r v) := by
  rw [call_eq, h, conclude_signedResult]

end

/-! ## Storage operands (R11, R217) -/

theorem State.wordRX_installed {s : State} {o : OpsRX} (h : s.installed (s.eaRX o) 4 = true) :
    s.wordRX o = .ok (s.peek 32 (s.eaRX o)) := State.load_installed h

theorem State.halfRX_installed {s : State} {o : OpsRX} (h : s.installed (s.eaRX o) 2 = true) :
    s.halfRX o = .ok (BitVec.ofInt 32 (s.peek 16 (s.eaRX o)).toInt) := by
  rw [State.halfRX, State.load_installed h]
  rfl

/-- Sign extension keeps a halfword's value. -/
theorem toInt_ofInt_half (h : Half) : (BitVec.ofInt 32 h.toInt).toInt = h.toInt :=
  BitVec.toInt_signExtend_of_le (x := h) (v := 32) (by decide)

/-! ## Forbidden fields -/

/-- A check of the same kind before one that fails changes nothing: either raises the same exception. -/
theorem demand_bind_raised {α : Type} {ok : Bool} {code : ProgramCode} {s : State} {k : Except Raise α}
    (h : k = .error (.program code s)) : (demand ok code s >>= fun _ => k) = .error (.program code s) := by
  cases ok
  · rfl
  · exact h

theorem demandEven_odd_bind {α : Type} {r : Nib} {s : State} (h : r.toNat % 2 = 1)
    (k : Unit → Except Raise α) : (demandEven r s >>= k) = .error (.program .specification s) := by
  rw [demandEven_of_odd h, error_bind]

theorem demandEven_even_bind {α : Type} {r : Nib} {s : State} (h : r.toNat % 2 = 0)
    (k : Unit → Except Raise α) : (demandEven r s >>= k) = k () := by
  rw [demandEven_of_even h, ok_bind]

theorem demand_fails_bind {α : Type} {ok : Bool} {code : ProgramCode} {s : State} (h : ok = false)
    (k : Unit → Except Raise α) : (demand ok code s >>= k) = .error (.program code s) := by
  rw [h, demand_false, error_bind]

theorem floatReg_forbidden_bind {α : Type} {r : Nib} {s : State} (h : r ∉ [(0 : Nib), 2, 4, 6])
    (k : Fin 4 → Except Raise α) : (floatReg r s >>= k) = .error (.program .specification s) := by
  rw [floatReg_of_none ((frPlace_eq_none_iff r).2 h), error_bind]

/-- An RR instruction with a forbidden floating-point register, whichever field names it (R35). -/
theorem floatRR_forbidden {o : OpsRR} {s : State}
    (h : o.r1 ∉ [(0 : Nib), 2, 4, 6] ∨ o.r2 ∉ [(0 : Nib), 2, 4, 6]) (k : Fin 4 → Fin 4 → Effect) :
    floatRR o k s = .error (.program .specification s) := by
  rcases h with h1 | h2
  · exact floatReg_forbidden_bind h1 _
  · have second : ∀ a, (floatReg o.r2 s >>= k a) = .error (.program .specification s) :=
      fun a => floatReg_forbidden_bind h2 (k a)
    unfold floatRR
    cases hp : frPlace o.r1 with
    | none => rw [floatReg_of_none hp, error_bind]
    | some a => rw [floatReg_of_place hp, ok_bind, second]

theorem lengthsOk_eq_false {o : OpsSS2} (h : 7 < o.l2.toNat ∨ o.l1.toNat ≤ o.l2.toNat) :
    lengthsOk o = false := by
  simp only [lengthsOk, Bool.and_eq_false_iff, decide_eq_false_iff_not]
  omega

/-- In supervisor state a privileged instruction's rule goes on (R650). -/
theorem supervisorOnly_bind {α : Type} {i : Instr} {s : State} (h : s.psw.p = false)
    (k : Unit → Except Raise α) : (supervisorOnly i s >>= k) = k () := by
  rw [supervisorOnly, h]
  rfl

theorem extractLsb'_low_ne_zero {v : Word} (h : v.toNat % 16 ≠ 0) : v.extractLsb' 0 4 ≠ 0 := by
  intro e
  exact h (by simpa using congrArg BitVec.toNat e)

/-- A key's address with bits 28-31 not zero (R656, R657). -/
theorem keyPage_unaligned_bind {α : Type} {r : Nib} {s : State} (h : (s.getGr r).toNat % 16 ≠ 0)
    (k : Nat → Except Raise α) : (keyPage r s >>= k) = .error (.program .specification s) := by
  rw [keyPage, demand_fails_bind (decide_eq_false (extractLsb'_low_ne_zero h)), error_bind]

theorem hiNib_ne_zero {b : Byte} (h : 16 ≤ b.toNat) : hiNib b ≠ 0 := by
  intro e
  have hdiv : b.toNat / 16 % 16 = 0 := by
    simpa [hiNib, Nat.shiftRight_eq_div_pow] using congrArg BitVec.toNat e
  omega

/-- Settles O21, check by check: of the register fields, of the alignments, of the lengths. -/
theorem specificationExceptions : Obligations.SpecificationExceptions := by
  intro s
  simp only [List.forall_mem_cons, List.not_mem_nil, false_imp_iff, implies_true, and_true]
  refine ⟨fun o h => ?pairRR, fun o h => ?longRR, fun o h => ?pairRX, fun o h => ?pairRS,
    fun o h => ?cdsR3, fun o h => ?csAligned, fun o h => ?cdsAligned, fun o h => ?floatRR,
    fun o h => ?floatRX, fun o h => ?lengths, fun o hp h => ?keys, fun o h => ?monitor⟩
  case pairRR | pairRX | pairRS =>
    and_intros <;> exact call_program (demandEven_odd_bind h _)
  case longRR =>
    have second {k : Unit → Effect} : (demandEven o.r1 s >>= fun _ => demandEven o.r2 s >>= k) =
        .error (.program .specification s) := demand_bind_raised (demandEven_odd_bind h _)
    exact ⟨call_program second, call_program second⟩
  case cdsR3 => exact call_program (demand_bind_raised (demandEven_odd_bind h _))
  case csAligned => exact call_program (demand_fails_bind (beq_false_of_ne h) _)
  case cdsAligned =>
    exact call_program (demand_bind_raised (demand_bind_raised (demand_fails_bind (beq_false_of_ne h) _)))
  case floatRR =>
    and_intros <;> exact call_program (floatRR_forbidden h _)
  case floatRX =>
    and_intros <;> exact call_program (floatReg_forbidden_bind h _)
  case lengths =>
    have refused := lengthsOk_eq_false h
    exact ⟨call_program (demand_fails_bind refused _), call_program (demand_fails_bind refused _)⟩
  case keys =>
    have refused {i : Instr} {k : Nat → Effect} :
        (supervisorOnly i s >>= fun _ => keyPage o.r2 s >>= k) = .error (.program .specification s) := by
      rw [supervisorOnly_bind hp, keyPage_unaligned_bind h]
    exact ⟨call_program refused, call_program refused⟩
  case monitor => exact call_program (demand_fails_bind (decide_eq_false (hiNib_ne_zero h)) _)

/-! ## Loads (R210, R211, R501 to R506) -/

/-- The CC of a word's value, read off the word. -/
theorem ccArith_toInt (v : Word) : ccArith v.toInt = if v = 0 then 0 else if v.msb then 1 else 2 := by
  have hz : v.toInt = 0 ↔ v = 0 := by rw [← BitVec.toInt_inj]; rfl
  simp only [ccArith, hz, BitVec.msb_eq_toInt, decide_eq_true_eq]

theorem setWidth_eq_zero_append (a : Addr) : a.setWidth 32 = 0#8 ++ a :=
  BitVec.setWidth_eq_append (by decide)

/-- The mask that keeps bits 0-23 of a word. -/
theorem getLsbD_high_mask : ∀ i < 32, (0xFFFFFF00 : Word).getLsbD i = decide (8 ≤ i) := by decide

/-- A byte put into bits 24-31 of a register (R506). -/
theorem insert_low_byte (v : Word) (b : Byte) :
    (v &&& 0xFFFFFF00) ||| b.setWidth 32 = v.extractLsb' 8 24 ++ b := by
  apply BitVec.eq_of_getLsbD_eq
  intro i hi
  rw [BitVec.getLsbD_or, BitVec.getLsbD_and, getLsbD_high_mask i hi, BitVec.getLsbD_setWidth,
    BitVec.getLsbD_append, BitVec.getLsbD_extractLsb']
  by_cases low : i < 8
  · simp [low, hi, Nat.not_le.2 low]
  · have hbit : 8 + (i - 8) = i := by omega
    have hlen : i - 8 < 24 := by omega
    simp [low, hbit, hlen, Nat.not_lt.1 low]

/-- Settles O23, each load by its rule. -/
theorem registerLoads : Obligations.RegisterLoads := by
  intro s
  refine ⟨fun o => rfl, fun o => ?ltr, fun o => ⟨?la, fun h => ?l, fun h => ?lh, fun h => ?ic⟩⟩
  case ltr => exact call_advance (by rw [opLtr, ccArith_toInt])
  case la => exact call_advance (by rw [opLa, setWidth_eq_zero_append])
  case l => exact call_advance (by rw [opL, State.wordRX_installed h, ok_bind, pure_ok])
  case lh => exact call_advance (by rw [opLh, State.halfRX_installed h, ok_bind, pure_ok])
  case ic => exact call_advance (by rw [opIc, State.load_byte h, ok_bind, insert_low_byte, pure_ok])

/-! ## Signed sums (R200, R201, R212 to R220) -/

/-- The negative of a magnitude always fits (R213). -/
theorem overflows_neg_abs (v : Word) : overflows 32 (-|v.toInt|) = false := by
  have hlow := v.le_toInt
  have hhigh := v.toInt_lt
  rw [overflows, decide_eq_false_iff_not]
  rcases abs_cases v.toInt with ⟨habs, _⟩ | ⟨habs, _⟩ <;> omega

theorem ccOfExact_of_fits {w : Nat} {v : Int} (h : overflows w v = false) : ccOfExact w v = ccArith v := by
  rw [ccOfExact, h]
  rfl

theorem State.signedSum_of_fits (s : State) (len : Nat) (r : Nib) {v : Int} (h : overflows 32 v = false) :
    s.signedSum len r v = s.completed len ((s.setGr r (BitVec.ofInt 32 v)).setCc (ccArith v)) := by
  rw [State.signedSum, State.signedEnd, h, ccOfExact_of_fits h]
  rfl

theorem neg_abs_eq_ite (v : Int) : -|v| = if v ≤ 0 then v else -v := by
  split
  case isTrue h => rw [abs_of_nonpos h, neg_neg]
  case isFalse h => rw [abs_of_pos (not_le.1 h)]

/-- Settles O24: each rule ends as R201 says, LNR's, which cannot overflow, too. -/
theorem signedArithmetic : Obligations.SignedArithmetic := by
  intro s
  simp only [List.forall_mem_cons, List.not_mem_nil, false_imp_iff, implies_true, and_true]
  refine ⟨fun o => ⟨?lcr, ?lpr, ?lnr, ?ar, ?sr⟩, fun o h => ⟨?a, ?s⟩, fun o h => ⟨?ah, ?sh⟩⟩
  case lcr | ar | sr => exact call_signedResult rfl
  case lpr => exact call_signedResult (by rw [opLpr, Int.abs_eq_natAbs])
  case lnr =>
    rw [State.signedSum_of_fits s 2 o.r1 (overflows_neg_abs _), neg_abs_eq_ite]
    rfl
  case a => exact call_signedResult (by rw [opA, State.wordRX_installed h, ok_bind])
  case s => exact call_signedResult (by rw [opS, State.wordRX_installed h, ok_bind])
  case ah => exact call_signedResult (by rw [opAh, State.halfRX_installed h, ok_bind, toInt_ofInt_half])
  case sh => exact call_signedResult (by rw [opSh, State.halfRX_installed h, ok_bind, toInt_ofInt_half])

/-! ## Logical sums and differences (R202, R221 to R224) -/

/-- Without a carry in, R202's primitive adds modulo 2^32. -/
theorem addLogical_sum (x y : Word) :
    addLogical x y false = (x + y,
      (if x + y = 0 then 0 else 1) + (if 2 ^ 32 ≤ x.toNat + y.toNat then 2 else 0)) := by
  have hres : BitVec.ofNat 32 (x.toNat + y.toNat) = x + y := (BitVec.add_def x y).symm
  simp only [addLogical, Bool.toNat_false, Nat.add_zero, hres, ite_not, ne_eq]

/-- With the complement and a carry in it subtracts, and its carry is the absence of a borrow (R223). -/
theorem addLogical_difference (x y : Word) :
    addLogical x (~~~y) true = (x - y,
      (if x = y then 0 else 1) + (if y.toNat ≤ x.toNat then 2 else 0)) := by
  have hnot : (~~~y).toNat = 2 ^ 32 - 1 - y.toNat := BitVec.toNat_not
  have hy := y.isLt
  have hres : BitVec.ofNat 32 (x.toNat + (~~~y).toNat + 1) = x - y := by
    apply BitVec.eq_of_toNat_eq
    rw [BitVec.toNat_ofNat, BitVec.toNat_sub, hnot]
    congr 1
    omega
  have hcarry : 2 ^ 32 ≤ x.toNat + (~~~y).toNat + 1 ↔ y.toNat ≤ x.toNat := by omega
  have hzero : x - y = 0 ↔ x = y := sub_eq_zero
  simp only [addLogical, Bool.toNat_true, hres, hcarry, hzero, ite_not, ne_eq]

theorem logicalSum_eq (r : Nib) (x y : Word) (cin : Bool) (s : State) :
    logicalSum r x y cin s =
      .ok (.advance ((s.setGr r (addLogical x y cin).1).setCc (addLogical x y cin).2)) := rfl

/-- Settles O25, by R202's primitive for a sum and for a difference. -/
theorem logicalArithmetic : Obligations.LogicalArithmetic := by
  intro s
  refine ⟨fun o => ⟨call_advance ?alr, call_advance ?slr⟩,
    fun o h => ⟨call_advance ?al, call_advance ?sl⟩⟩
  case alr => rw [opAlr, logicalSum_eq, addLogical_sum]
  case slr => rw [opSlr, logicalSum_eq, addLogical_difference]
  case al => rw [opAl, State.wordRX_installed h, ok_bind, logicalSum_eq, addLogical_sum]
  case sl => rw [opSl, State.wordRX_installed h, ok_bind, logicalSum_eq, addLogical_difference]

/-! ## Comparisons (R225 to R227, R413 to R415) -/

/-- Settles O26: every comparison is of exact values. -/
theorem comparisons : Obligations.Comparisons := by
  intro s
  simp only [← ccCmp_eq]
  refine ⟨fun o => ⟨rfl, rfl⟩, fun o h => ⟨call_advance ?c, call_advance ?cl⟩,
    fun o h => call_advance ?ch, fun o h => call_advance ?cli⟩
  case c => rw [opC, State.wordRX_installed h, ok_bind]; rfl
  case cl => rw [opCl, State.wordRX_installed h, ok_bind]; rfl
  case ch => rw [opCh, State.halfRX_installed h, ok_bind, toInt_ofInt_half]; rfl
  case cli => rw [opCli, State.load_byte h, ok_bind]; rfl

/-! ## Multiply and divide (R228 to R232) -/

theorem State.setPair_append (s : State) (r : Nib) (hi lo : Word) :
    s.setPair r (hi ++ lo) = (s.setGr r hi).setGr (r + 1) lo := by
  rw [State.setPair, BitVec.extractLsb'_append_eq_left, BitVec.extractLsb'_append_eq_right]

/-- The end of a division of the pair at `r` by `d` (R231). -/
theorem call_dividePair {s : State} {len : Nat} {r : Nib} {d : Word} {sem : Ctx → State → Effect}
    (h : sem (s.ctx len) s = dividePair r d s) :
    call len sem s = .next (
      if d = 0 ∨ overflows 32 ((s.getPair r).toInt.tdiv d.toInt) then s.trapped len .fixedDivide s
      else s.completed len (s.setPair r (BitVec.ofInt 32 ((s.getPair r).toInt.tmod d.toInt) ++
        BitVec.ofInt 32 ((s.getPair r).toInt.tdiv d.toInt)))) := by
  rw [call_eq, h, dividePair]
  generalize hq : (s.getPair r).toInt.tdiv d.toInt = q
  have hrem : (s.getPair r).toInt.tmod d.toInt = (s.getPair r).toInt - q * d.toInt := by
    rw [Int.tmod_def, hq, mul_comm]
  rw [State.setPair_append, hrem]
  split
  case isTrue h =>
    rw [demand_fails_bind (by rw [fitsSigned_eq]; rcases h with h | h <;> simp [h])]
    rfl
  case isFalse h =>
    obtain ⟨hd, hfit⟩ := not_or.1 h
    rw [fitsSigned_eq, decide_eq_true hd, Bool.eq_false_of_not_eq_true hfit]
    rfl

/-- Settles O27: the register check, the operand, then the shared product or quotient. -/
theorem multiplyDivide : Obligations.MultiplyDivide := by
  intro s
  refine ⟨fun o even => call_advance ?mr, fun o even h => call_advance ?m, fun o h => call_advance ?mh,
    fun o even => ?dr, fun o even h => ?d⟩
  case mr => rw [opMr, demandEven_even_bind even]; rfl
  case m => rw [opM, demandEven_even_bind even, State.wordRX_installed h]; rfl
  case mh => rw [opMh, State.halfRX_installed h, ok_bind, toInt_ofInt_half]; rfl
  case dr => exact call_dividePair (demandEven_even_bind even _)
  case d =>
    exact call_dividePair (by rw [opD, demandEven_even_bind even, State.wordRX_installed h, ok_bind])

/-! ## Shifts (R134, R233 to R240) -/

theorem call_fixedOverflowExit {s t : State} {len w : Nat} {v : Int} {sem : Ctx → State → Effect}
    (h : sem (s.ctx len) s = fixedOverflowExit (overflows w v) t) (hpm : t.psw.pm = s.psw.pm) :
    call len sem s = .next (s.signedEnd len w v t) := by
  rw [call_eq, h, conclude_fixedOverflowExit s t len w v hpm]

section
variable {w k : Nat}

theorem shiftLeft_eq_ofNat (v : BitVec w) (n : Nat) : v <<< n = BitVec.ofNat w (v.toNat * 2 ^ n) := by
  apply BitVec.eq_of_toNat_eq
  rw [BitVec.toNat_shiftLeft, BitVec.toNat_ofNat, Nat.shiftLeft_eq]

theorem ushiftRight_eq_ofNat (v : BitVec w) (n : Nat) : v >>> n = BitVec.ofNat w (v.toNat / 2 ^ n) := by
  apply BitVec.eq_of_toNat_eq
  rw [BitVec.toNat_ushiftRight, BitVec.toNat_ofNat, Nat.shiftRight_eq_div_pow,
    Nat.mod_eq_of_lt (lt_of_le_of_lt (Nat.div_le_self _ _) v.isLt)]

theorem sshiftRight_eq_ofInt (v : BitVec w) (n : Nat) :
    v.sshiftRight n = BitVec.ofInt w (v.toInt / 2 ^ n) := by
  rw [BitVec.sshiftRight, Int.shiftRight_eq_div_pow]
  norm_cast

theorem shiftLeft_eq_ofInt (v : BitVec w) (n : Nat) : v <<< n = BitVec.ofInt w (v.toInt * 2 ^ n) := by
  have hpow : BitVec.ofInt w (2 ^ n) = BitVec.twoPow w n := by
    have hcast : (2 : Int) ^ n = ((2 ^ n : Nat) : Int) := by norm_cast
    apply BitVec.eq_of_toNat_eq
    rw [hcast, BitVec.ofInt_natCast, BitVec.toNat_ofNat, BitVec.toNat_twoPow]
  rw [BitVec.ofInt_mul, BitVec.ofInt_toInt, hpow, BitVec.shiftLeft_eq_mul_twoPow]

/-- A quotient by a power of two is no longer than its dividend. -/
theorem overflows_toInt_div (v : BitVec w) (n : Nat) : overflows w (v.toInt / 2 ^ n) = false := by
  have hpow : (1 : Int) ≤ 2 ^ n := one_le_pow₀ (by decide)
  have hbound : (0 : Int) ≤ 2 ^ (w - 1) := by positivity
  have hlow : -(2 ^ (w - 1)) ≤ v.toInt / 2 ^ n :=
    Int.le_ediv_of_mul_le (by omega) (le_trans (by nlinarith) v.le_toInt)
  have hhigh : v.toInt / 2 ^ n < 2 ^ (w - 1) :=
    Int.ediv_lt_of_lt_mul (by omega) (lt_of_lt_of_le v.toInt_lt (by nlinarith))
  rw [overflows, decide_eq_false_iff_not]
  omega

/-- The CC of an arithmetic right shift, which cannot overflow (R234, R236). -/
theorem ccArith_sshiftRight (hw : 0 < w) (v : BitVec w) (n : Nat) :
    ccArith (v.sshiftRight n).toInt = ccOfExact w (v.toInt / 2 ^ n) := by
  have hfits := overflows_toInt_div v n
  rw [sshiftRight_eq_ofInt, toInt_ofInt_of_fits hw hfits, ccOfExact_of_fits hfits]

/-- A word is its sign bit and the bits below it. -/
theorem ofBool_msb_append (v : BitVec (1 + k)) : BitVec.ofBool v.msb ++ v.setWidth k = v := by
  apply BitVec.eq_of_getLsbD_eq
  intro i hi
  rw [BitVec.getLsbD_append, BitVec.getLsbD_setWidth, BitVec.getLsbD_ofBool, BitVec.msb_eq_getLsbD_last]
  by_cases low : i < k
  · simp [low]
  · have : i = k := by omega
    simp [this]

theorem setWidth_ofInt (x : Int) : (BitVec.ofInt (1 + k) x).setWidth k = BitVec.ofInt k x := by
  have hdvd : ((2 ^ k : Nat) : Int) ∣ ((2 ^ (1 + k) : Nat) : Int) :=
    Int.natCast_dvd_natCast.2 (pow_dvd_pow 2 (by omega))
  apply BitVec.eq_of_toNat_eq
  rw [BitVec.toNat_setWidth, BitVec.toNat_ofInt, BitVec.toNat_ofInt, ← Int.natCast_inj, Int.natCast_emod,
    Int.toNat_of_nonneg (Int.emod_nonneg _ (by positivity)),
    Int.toNat_of_nonneg (Int.emod_nonneg _ (by positivity)), Int.emod_emod_of_dvd _ hdvd]

/-- The left shift that keeps the sign bit and shifts the bits below it (R233, R235). -/
theorem shiftLeftSigned_eq (v : BitVec (1 + k)) (n : Nat) :
    shiftLeftSigned v n = (BitVec.ofBool v.msb ++ BitVec.ofInt k (v.toInt * 2 ^ n),
      overflows (1 + k) (v.toInt * 2 ^ n)) := by
  have hbits : (v &&& BitVec.intMin (1 + k)) ||| ((v <<< n) &&& ~~~BitVec.intMin (1 + k)) =
      BitVec.ofBool v.msb ++ (v <<< n).setWidth k := by
    apply BitVec.eq_of_getLsbD_eq
    intro i hi
    simp only [BitVec.getLsbD_or, BitVec.getLsbD_and, BitVec.getLsbD_not, BitVec.getLsbD_intMin,
      BitVec.getLsbD_append, BitVec.getLsbD_setWidth, BitVec.getLsbD_ofBool, BitVec.msb_eq_getLsbD_last]
    by_cases low : i < k
    · have : i + 1 ≠ 1 + k := by omega
      simp [low, this, hi]
    · have : i = k := by omega
      simp [this, Nat.add_comm]
  rw [shiftLeftSigned, hbits, shiftLeft_eq_ofInt, setWidth_ofInt, not_fitsSigned]

/-- A product that fits has the sign of what was shifted, so that the CC is the product's (R233). -/
theorem ccSigned_shiftLeft (v : BitVec (1 + k)) (n : Nat) :
    ccSigned (overflows (1 + k) (v.toInt * 2 ^ n)) (BitVec.ofBool v.msb ++ BitVec.ofInt k (v.toInt * 2 ^ n)) =
      ccOfExact (1 + k) (v.toInt * 2 ^ n) := by
  cases h : overflows (1 + k) (v.toInt * 2 ^ n) with
  | true => rw [ccOfExact, h]; rfl
  | false =>
    have hpow : (0 : Int) < 2 ^ n := by positivity
    have hsign : (BitVec.ofInt (1 + k) (v.toInt * 2 ^ n)).msb = v.msb := by
      rw [BitVec.msb_eq_toInt, BitVec.msb_eq_toInt, toInt_ofInt_of_fits (by omega) h]
      exact decide_eq_decide.2
        ⟨fun hneg => neg_of_mul_neg_left hneg hpow.le, fun hneg => mul_neg_of_neg_of_pos hneg hpow⟩
    have hres : BitVec.ofBool v.msb ++ BitVec.ofInt k (v.toInt * 2 ^ n) =
        BitVec.ofInt (1 + k) (v.toInt * 2 ^ n) := by
      rw [← hsign, ← setWidth_ofInt (k := k), ofBool_msb_append]
    rw [hres, ← h, ccSigned_ofInt (by omega)]

/-- The end of SLA and SLDA; `write` puts the result into the register or the pair. -/
theorem fixedOverflowExit_shiftLeft (write : BitVec (1 + k) → State) (v : BitVec (1 + k)) (n : Nat) :
    fixedOverflowExit (shiftLeftSigned v n).2 ((write (shiftLeftSigned v n).1).setCc
        (ccSigned (shiftLeftSigned v n).2 (shiftLeftSigned v n).1)) =
      fixedOverflowExit (overflows (1 + k) (v.toInt * 2 ^ n))
        ((write (BitVec.ofBool v.msb ++ BitVec.ofInt k (v.toInt * 2 ^ n))).setCc
          (ccOfExact (1 + k) (v.toInt * 2 ^ n))) := by
  rw [shiftLeftSigned_eq, ccSigned_shiftLeft]

/-- The end of SRA and SRDA. -/
theorem advance_sshiftRight (hw : 0 < w) (write : BitVec w → State) (v : BitVec w) (n : Nat) :
    (Except.ok (.advance ((write (v.sshiftRight n)).setCc (ccArith (v.sshiftRight n).toInt))) : Effect) =
      .ok (.advance ((write (BitVec.ofInt w (v.toInt / 2 ^ n))).setCc (ccOfExact w (v.toInt / 2 ^ n)))) := by
  rw [ccArith_sshiftRight hw, sshiftRight_eq_ofInt]

end

/-- Settles O28: each rule shifts by the low 6 bits of the address, and a shift is a product or a quotient. -/
theorem shifts : Obligations.Shifts := by
  intro s o
  refine ⟨⟨call_fixedOverflowExit ?sla rfl, call_advance ?sra, call_advance ?sll, call_advance ?srl⟩,
    fun even => ⟨call_fixedOverflowExit ?slda rfl, call_advance ?srda, call_advance ?sldl,
      call_advance ?srdl⟩⟩
  case sla => exact fixedOverflowExit_shiftLeft (k := 31) (s.setGr o.r1) _ _
  case sra => exact advance_sshiftRight (by decide) (s.setGr o.r1) _ _
  case sll => rw [opSll, shiftLeft_eq_ofNat]; rfl
  case srl => rw [opSrl, ushiftRight_eq_ofNat]; rfl
  case slda =>
    exact (demandEven_even_bind even _).trans (fixedOverflowExit_shiftLeft (k := 63) (s.setPair o.r1) _ _)
  case srda =>
    exact (demandEven_even_bind even _).trans (advance_sshiftRight (by decide) (s.setPair o.r1) _ _)
  case sldl => rw [opSldl, demandEven_even_bind even, shiftLeft_eq_ofNat]; rfl
  case srdl => rw [opSrdl, demandEven_even_bind even, ushiftRight_eq_ofNat]; rfl

end Sys2Proof.Machine
end

section
/-! PROOFS. The statements of `spec/41_floating_point.md`. The arithmetic instructions differ in where their
operands stand (`TakesOperands`) and in what they compute, whose closed forms are the `conclude_` lemmas;
the sign instructions write a sign bit before the bits they keep. -/

namespace Sys2Proof.Machine

/-! ## Loads and stores (R320 to R325) -/

section
variable {s : State} {a b : Fin 4}

theorem floatReg_place_bind {α : Type} {r : Nib} (ha : frPlace r = some a) (k : Fin 4 → Except Raise α) :
    (floatReg r s >>= k) = k a := by
  rw [floatReg_of_place ha, ok_bind]

theorem floatRR_places {o : OpsRR} (ha : frPlace o.r1 = some a) (hb : frPlace o.r2 = some b)
    (k : Fin 4 → Fin 4 → Effect) : floatRR o k s = k a b := by
  rw [floatRR, floatReg_place_bind ha, floatReg_place_bind hb]

theorem State.dwordRX_installed {o : OpsRX} (h : s.installed (s.eaRX o) 8 = true) :
    s.dwordRX o = .ok (s.peek 64 (s.eaRX o)) := State.load_installed h

end

/-- Settles O29: the register fields, then the storage operand, then the move. -/
theorem floatLoadStore : Obligations.FloatLoadStore := by
  intro s a
  refine ⟨fun o b ha hb => ⟨?ldr, ?ler⟩, fun o ha h => ⟨?le, ?ste⟩, fun o ha h => ⟨?ld, ?std⟩⟩
  case ldr | ler => exact call_advance (floatRR_places ha hb _)
  case le => exact call_advance (by rw [opLe, floatReg_place_bind ha, State.wordRX_installed h]; rfl)
  case ste => exact call_advance (by rw [opSte, floatReg_place_bind ha, State.store_installed h]; rfl)
  case ld => exact call_advance (by rw [opLd, floatReg_place_bind ha, State.dwordRX_installed h]; rfl)
  case std => exact call_advance (by rw [opStd, floatReg_place_bind ha, State.store_installed h]; rfl)

/-! ## Sign bits (R326 to R333) -/

section
variable {w k : Nat}

theorem setWidth_intMin : (BitVec.intMin (1 + k)).setWidth k = 0 := by
  apply BitVec.eq_of_getLsbD_eq
  intro i hi
  have hlow : i + 1 ≠ 1 + k := by omega
  simp [BitVec.getLsbD_intMin, hlow]

/-- A pattern is known by its sign bit and the bits below it. -/
theorem eq_ofBool_append {u v : BitVec (1 + k)} {sign : Bool} (hsign : u.msb = sign)
    (hlow : u.setWidth k = v.setWidth k) : u = BitVec.ofBool sign ++ v.setWidth k := by
  rw [← hsign, ← hlow, ofBool_msb_append]

/-- Complementing inverts the sign bit. -/
theorem xor_intMin (v : BitVec (1 + k)) :
    v ^^^ BitVec.intMin (1 + k) = BitVec.ofBool (!v.msb) ++ v.setWidth k :=
  eq_ofBool_append (by simp [BitVec.msb_intMin])
    (by rw [BitVec.setWidth_xor, setWidth_intMin]; exact BitVec.xor_zero)

/-- Making negative sets the sign bit. -/
theorem or_intMin (v : BitVec (1 + k)) :
    v ||| BitVec.intMin (1 + k) = BitVec.ofBool true ++ v.setWidth k :=
  eq_ofBool_append (by simp [BitVec.msb_intMin])
    (by rw [BitVec.setWidth_or, setWidth_intMin]; exact BitVec.or_zero)

/-- Making positive clears the sign bit. -/
theorem and_not_intMin (v : BitVec (1 + k)) :
    v &&& ~~~BitVec.intMin (1 + k) = BitVec.ofBool false ++ v.setWidth k :=
  eq_ofBool_append (by simp [BitVec.msb_intMin])
    (by rw [BitVec.setWidth_and, BitVec.setWidth_not (by omega), setWidth_intMin]; simp)

/-- A field of the bits kept below a new sign bit. -/
theorem extractLsb'_ofBool_append (sign : Bool) (v : BitVec w) (i : Nat) {n l : Nat} (h : l ≤ n) :
    (BitVec.ofBool sign ++ v.extractLsb' i n).extractLsb' 0 l = v.extractLsb' i l := by
  rw [BitVec.extractLsb'_append_eq_of_add_le (by omega), ← BitVec.setWidth_eq_extractLsb' h,
    BitVec.setWidth_extractLsb'_of_le h]

theorem ofBool_append_getLsbD_last (sign : Bool) (m : BitVec k) :
    (BitVec.ofBool sign ++ m).getLsbD k = sign := by
  rw [BitVec.getLsbD_append]
  simp

/-- The CC of a number whose fraction is the field `frac` of its pattern (R303). -/
theorem ccHfp_of_frac {x : Hfp} {sign : Bool} {frac : BitVec w} (hs : x.sign = sign)
    (hf : x.frac = frac.toNat) :
    ccHfp x = if decide (frac = 0) then 0 else if sign then 1 else 2 := by
  have hzero : frac.toNat = 0 ↔ frac = 0 := by rw [← BitVec.toNat_inj]; rfl
  simp only [ccHfp, hs, hf, hzero, decide_eq_true_eq]

theorem ccHfp_hfpOfWord (sign : Bool) (x : DWord) :
    ccHfp (hfpOfWord (BitVec.ofBool sign ++ x.extractLsb' 32 31)) =
      if decide (x.extractLsb' 32 24 = 0) then 0 else if sign then 1 else 2 :=
  ccHfp_of_frac (ofBool_append_getLsbD_last sign _)
    (congrArg BitVec.toNat (extractLsb'_ofBool_append sign x _ (by decide)))

theorem ccHfp_hfpOfDWord (sign : Bool) (x : DWord) :
    ccHfp (hfpOfDWord (BitVec.ofBool sign ++ x.extractLsb' 0 63)) =
      if decide (x.extractLsb' 0 56 = 0) then 0 else if sign then 1 else 2 :=
  ccHfp_of_frac (ofBool_append_getLsbD_last sign _)
    (congrArg BitVec.toNat (extractLsb'_ofBool_append sign x _ (by decide)))

end

section
variable {s : State} {o : OpsRR} {a b : Fin 4} {sem : Ctx → State → Effect} {sign : Bool}

theorem State.getFrh_msb (s : State) (b : Fin 4) : (s.getFrh b).msb = (s.getFr b).msb := by
  simp [State.getFrh, BitVec.msb_eq_getLsbD_last]

/-- An instruction that puts a sign bit before bits 1-31 of the second register. -/
theorem call_signShort {f : Word → Word} (ha : frPlace o.r1 = some a) (hb : frPlace o.r2 = some b)
    (h : sem (s.ctx 2) s = signShort o f s)
    (hf : f (s.getFrh b) = BitVec.ofBool sign ++ (s.getFrh b).setWidth 31) :
    call 2 sem s = .next (s.completed 2
      ((s.setFr a (BitVec.ofBool sign ++ (s.getFr b).extractLsb' 32 31 ++
        (s.getFr a).extractLsb' 0 32)).setCc
          (if decide ((s.getFr b).extractLsb' 32 24 = 0) then 0 else if sign then 1 else 2))) := by
  have hbits : (s.getFrh b).setWidth 31 = (s.getFr b).extractLsb' 32 31 :=
    BitVec.setWidth_extractLsb'_of_le (by decide)
  exact call_advance (by
    simp only [h, signShort, floatRR_places ha hb, hf, hbits, ccHfp_hfpOfWord, State.setFrh])

/-- An instruction that puts a sign bit before bits 1-63 of the second register. -/
theorem call_signLong {f : DWord → DWord} (ha : frPlace o.r1 = some a) (hb : frPlace o.r2 = some b)
    (h : sem (s.ctx 2) s = signLong o f s)
    (hf : f (s.getFr b) = BitVec.ofBool sign ++ (s.getFr b).setWidth 63) :
    call 2 sem s = .next (s.completed 2
      ((s.setFr a (BitVec.ofBool sign ++ (s.getFr b).extractLsb' 0 63)).setCc
        (if decide ((s.getFr b).extractLsb' 0 56 = 0) then 0 else if sign then 1 else 2))) := by
  have hbits : (s.getFr b).setWidth 63 = (s.getFr b).extractLsb' 0 63 :=
    BitVec.setWidth_eq_extractLsb' (by decide)
  exact call_advance (by simp only [h, signLong, floatRR_places ha hb, hf, hbits, ccHfp_hfpOfDWord])

end

/-- Settles O30: each instruction is a sign bit before the bits it keeps. -/
theorem floatSigns : Obligations.FloatSigns := by
  intro s o a b ha hb
  refine ⟨call_signShort ha hb rfl ?lter, call_signLong ha hb rfl ?ltdr,
    call_signShort ha hb rfl ?lcer, call_signLong ha hb rfl ?lcdr,
    call_signShort ha hb rfl ?lner, call_signLong ha hb rfl ?lndr,
    call_signShort ha hb rfl ?lper, call_signLong ha hb rfl ?lpdr⟩
  case lter => rw [← State.getFrh_msb]; exact (ofBool_msb_append (k := 31) _).symm
  case ltdr => exact (ofBool_msb_append (k := 63) _).symm
  case lcer => rw [← State.getFrh_msb]; exact xor_intMin (k := 31) _
  case lcdr => exact xor_intMin (k := 63) _
  case lner => exact or_intMin (k := 31) _
  case lndr => exact or_intMin (k := 63) _
  case lper => exact and_not_intMin (k := 31) _
  case lpdr => exact and_not_intMin (k := 63) _

/-! ## Operands of the arithmetic (R302) -/

/-- A number in a format's range: its digits, and a characteristic of seven bits (R300). -/
structure Hfp.InFormat (x : Hfp) (f : HfpFormat) : Prop where
  frac : x.frac < 16 ^ hfpDigits f
  char : 0 ≤ x.char ∧ x.char ≤ 127

theorem State.getHfp_inFormat (s : State) (f : HfpFormat) (r : Fin 4) : (s.getHfp f r).InFormat f := by
  obtain ⟨hfrac, hchar⟩ := s.getHfp_range f r
  exact ⟨hfrac, hchar⟩

theorem hfpOfWord_inFormat (v : Word) : (hfpOfWord v).InFormat .short :=
  ⟨hfpOfWord_frac v, hfpOfWord_char v⟩

theorem hfpOfDWord_inFormat (v : DWord) : (hfpOfDWord v).InFormat .long :=
  ⟨hfpOfDWord_frac v, hfpOfDWord_char v⟩

/-- An instruction shape that hands register `a` and the operands `x` and `y`, of format `f`, to its rule. -/
structure TakesOperands (s : State) (shape : (Fin 4 → Hfp → Hfp → State → Effect) → State → Effect)
    (f : HfpFormat) (a : Fin 4) (x y : Hfp) : Prop where
  runs : ∀ rule, shape rule s = rule a x y s
  first : x.InFormat f
  second : y.InFormat f

section
variable {s : State} {f : HfpFormat} {a b : Fin 4}

theorem arithRR_operands {o : OpsRR} (f : HfpFormat) (ha : frPlace o.r1 = some a)
    (hb : frPlace o.r2 = some b) :
    TakesOperands s (arithRR f o) f a (s.getHfp f a) (s.getHfp f b) where
  runs _ := floatRR_places ha hb _
  first := s.getHfp_inFormat f a
  second := s.getHfp_inFormat f b

theorem arithRX_runs {o : OpsRX} {y : Hfp} (ha : frPlace o.r1 = some a)
    (hy : s.loadHfp f (s.eaRX o) = .ok y) (rule : Fin 4 → Hfp → Hfp → State → Effect) :
    arithRX f o rule s = rule a (s.getHfp f a) y s := by
  rw [arithRX, floatReg_place_bind ha, hy, ok_bind]

theorem arithRX_short_operands {o : OpsRX} (ha : frPlace o.r1 = some a)
    (h : s.installed (s.eaRX o) 4 = true) :
    TakesOperands s (arithRX .short o) .short a (s.getHfp .short a)
      (hfpOfWord (s.peek 32 (s.eaRX o))) where
  runs := arithRX_runs ha (by rw [State.loadHfp, State.load_installed h]; rfl)
  first := s.getHfp_inFormat .short a
  second := hfpOfWord_inFormat _

theorem arithRX_long_operands {o : OpsRX} (ha : frPlace o.r1 = some a)
    (h : s.installed (s.eaRX o) 8 = true) :
    TakesOperands s (arithRX .long o) .long a (s.getHfp .long a)
      (hfpOfDWord (s.peek 64 (s.eaRX o))) where
  runs := arithRX_runs ha (by rw [State.loadHfp, State.load_installed h]; rfl)
  first := s.getHfp_inFormat .long a
  second := hfpOfDWord_inFormat _

end

/-! ## Calls of the arithmetic instructions (R334 to R363) -/

section
variable {s t : State} {len : Nat} {sem : Ctx → State → Effect} {f g : HfpFormat} {a : Fin 4} {x y : Hfp}
  {shape : (Fin 4 → Hfp → Hfp → State → Effect) → State → Effect}

theorem call_shape {rule : Fin 4 → Hfp → Hfp → State → Effect} (ops : TakesOperands s shape f a x y)
    (h : sem (s.ctx len) s = shape rule s) (ht : conclude (s.ctx len) s (rule a x y s) = t) :
    call len sem s = .next t := by
  rw [call_eq, h, ops.runs, ht]

theorem call_addSub {negate norm : Bool} (ops : TakesOperands s shape f a x y)
    (h : sem (s.ctx len) s = shape (addSub f negate norm) s) :
    call len sem s = .next (s.sumEnd len f a norm negate x y) :=
  call_shape ops h
    (conclude_addSub s len f a norm negate x y ops.first.frac ops.second.frac ops.first.char ops.second.char)

theorem call_compareHfp (ops : TakesOperands s shape f a x y)
    (h : sem (s.ctx len) s = shape (compareHfp f) s) :
    call len sem s = .next (s.completed len (s.setCc (ccOfOrder (alignedFrac (commonChar x y) x)
      (alignedFrac (commonChar x y) y)))) :=
  call_shape ops h (by rw [compareHfp_eq, conclude_advance])

theorem call_hfpMul (ops : TakesOperands s shape f a x y) (h : sem (s.ctx len) s = shape (hfpMul f g) s) :
    call len sem s = .next (s.resultEnd len g a (decide (x.frac = 0 ∨ y.frac = 0))
      (productResult (hfpDigits f) (hfpDigits g) x y)) :=
  call_shape ops h (conclude_hfpMul s len f g a x y ops.first.frac ops.second.frac)

theorem call_hfpDiv (ops : TakesOperands s shape f a x y) (h : sem (s.ctx len) s = shape (hfpDiv f) s) :
    call len sem s = .next (if y.frac = 0 then s.trapped len .floatDivide s
      else s.resultEnd len f a (decide (x.frac = 0)) (quotientResult (hfpDigits f) x y)) :=
  call_shape ops h (conclude_hfpDiv s len f a x y ops.first.frac ops.second.frac)

theorem call_hfpHalve (ops : TakesOperands s shape f a x y)
    (h : sem (s.ctx len) s = shape (fun r _ y => hfpHalve f r y) s) :
    call len sem s = .next (s.resultEnd len f a (decide (y.frac = 0)) (halfResult (hfpDigits f) y)) :=
  call_shape ops h (conclude_hfpHalve s len f a y ops.second.frac)

end

/-- Settles O31, by where the operands stand. -/
theorem floatAddSubtract : Obligations.FloatAddSubtract := by
  intro s a
  refine ⟨fun o b ha hb => ?registers, fun o ha h => ?short, fun o ha h => ?long⟩
  case registers =>
    have short := arithRR_operands (s := s) .short ha hb
    have long := arithRR_operands (s := s) .long ha hb
    exact ⟨call_addSub short rfl, call_addSub long rfl, call_addSub short rfl, call_addSub long rfl,
      call_addSub short rfl, call_addSub long rfl, call_addSub short rfl, call_addSub long rfl⟩
  case short =>
    have ops := arithRX_short_operands ha h
    exact ⟨call_addSub ops rfl, call_addSub ops rfl, call_addSub ops rfl, call_addSub ops rfl⟩
  case long =>
    have ops := arithRX_long_operands ha h
    exact ⟨call_addSub ops rfl, call_addSub ops rfl, call_addSub ops rfl, call_addSub ops rfl⟩

/-- Settles O32, by where the operands stand. -/
theorem floatCompare : Obligations.FloatCompare := fun _ _ =>
  ⟨fun _ _ ha hb => ⟨call_compareHfp (arithRR_operands .short ha hb) rfl,
      call_compareHfp (arithRR_operands .long ha hb) rfl⟩,
    fun _ ha h => call_compareHfp (arithRX_short_operands ha h) rfl,
    fun _ ha h => call_compareHfp (arithRX_long_operands ha h) rfl⟩

/-- Settles O33, by where the operands stand. -/
theorem floatMultiply : Obligations.FloatMultiply := fun _ _ =>
  ⟨fun _ _ ha hb => ⟨call_hfpMul (arithRR_operands .short ha hb) rfl,
      call_hfpMul (arithRR_operands .long ha hb) rfl⟩,
    fun _ ha h => call_hfpMul (arithRX_short_operands ha h) rfl,
    fun _ ha h => call_hfpMul (arithRX_long_operands ha h) rfl⟩

/-- Settles O34, by where the operands stand. -/
theorem floatDivide : Obligations.FloatDivide := fun _ _ =>
  ⟨fun _ _ ha hb => ⟨call_hfpDiv (arithRR_operands .short ha hb) rfl,
      call_hfpDiv (arithRR_operands .long ha hb) rfl⟩,
    fun _ ha h => call_hfpDiv (arithRX_short_operands ha h) rfl,
    fun _ ha h => call_hfpDiv (arithRX_long_operands ha h) rfl⟩

/-- Settles O35: the second register's number is halved, in either format. -/
theorem floatHalve : Obligations.FloatHalve := fun _ _ _ _ ha hb =>
  ⟨call_hfpHalve (arithRR_operands .short ha hb) rfl, call_hfpHalve (arithRR_operands .long ha hb) rfl⟩

end Sys2Proof.Machine
end

section
/-! PROOFS. The statements of `spec/42_logical.md`, with the character moves of `spec/43_load_store.md`. Each loop
over characters is run to the step that ends it by a `_steps` lemma of `Sys2Proof/Laws/Sweep.lean`; what is said
here is how that step ends it, and what the call makes of it. -/

namespace Sys2Proof.Machine

/-! ## Results in a register and in one storage byte (R400) -/

/-- Settles O36: the operands are two registers, or a register and a word of storage. -/
theorem logicalRegister : Obligations.LogicalRegister := by
  intro s
  refine ⟨fun o => ⟨rfl, rfl, rfl⟩, fun o h => ⟨call_advance ?n, call_advance ?o, call_advance ?x⟩⟩
  case n => rw [opN, State.wordRX_installed h]; rfl
  case o => rw [opO, State.wordRX_installed h]; rfl
  case x => rw [opX, State.wordRX_installed h]; rfl

theorem logicalImm_installed {s : State} {o : OpsSI} (f : Byte → Byte → Byte)
    (h : s.installed (s.ea o.b1 o.d1) 1 = true) :
    logicalImm f o s =
      .ok (.advance ((s.setByte (s.ea o.b1 o.d1) (f (s.byteAt (s.ea o.b1 o.d1)) o.i2)).setCc
        (ccLogic (f (s.byteAt (s.ea o.b1 o.d1)) o.i2)))) := by
  simp only [logicalImm, State.load_byte h, State.store_byte h, ok_bind, pure_ok]

/-- Settles O37: the byte is read, stored, or both. -/
theorem storageByte : Obligations.StorageByte := by
  intro s o h
  refine ⟨call_advance (logicalImm_installed _ h), call_advance (logicalImm_installed _ h),
    call_advance (logicalImm_installed _ h), call_advance ?mvi, call_advance ?ts, call_advance ?tm⟩
  case mvi => rw [opMvi, State.store_byte h]; rfl
  case ts =>
    rw [BitVec.msb_eq_getLsbD_last]
    simp only [opTs, State.load_byte h, State.store_byte h, ok_bind, pure_ok]
  case tm => rw [opTm, State.load_byte h]; rfl

/-! ## A byte that is not installed (R83) -/

/-- Two bytes are loaded, the second where the first may say: the access fails if either is not installed. -/
theorem load_load_missing {α : Type} {s : State} {x : Addr} {y : Byte → Addr}
    (h : ¬(s.installed x 1 = true ∧ s.installed (y (s.byteAt x)) 1 = true)) (k : Byte → Byte → Except Raise α) :
    (s.load 8 x >>= fun p => s.load 8 (y p) >>= k p) = .error (.program .addressing s) := by
  cases hx : s.installed x 1 with
  | false => rw [State.load_missing (w := 8) hx, error_bind]
  | true =>
    have hy := Bool.eq_false_of_not_eq_true fun hy => h ⟨hx, hy⟩
    rw [State.load_byte hx, ok_bind, State.load_missing (w := 8) hy, error_bind]

/-- A byte is loaded and stored elsewhere: the access fails if either is not installed. -/
theorem load_store_missing {α : Type} {s : State} {x y : Addr}
    (h : ¬(s.installed x 1 = true ∧ s.installed y 1 = true)) (k : State → Except Raise α) :
    (s.load 8 y >>= fun p => s.store x p >>= k) = .error (.program .addressing s) := by
  cases hy : s.installed y 1 with
  | false => rw [State.load_missing (w := 8) hy, error_bind]
  | true =>
    have hx := Bool.eq_false_of_not_eq_true fun hx => h ⟨hx, hy⟩
    rw [State.load_byte hy, ok_bind, State.store_missing (w := 8) hx, error_bind]

/-- Byte `k` of two operands, from `a` and from `b` on, is installed. -/
def BothInstalled (s : State) (a b : Addr) (k : Nat) : Prop :=
  s.installed (after a k) 1 = true ∧ s.installed (after b k) 1 = true

/-! ## What a left-to-right loop has stored -/

/-- `u` is `s` with `m` bytes stored from `a` on, the byte of step `k` computed by `f k` from the byte at `src k`
as that step sees it. -/
def StoredFrom (s : State) (a : Addr) (src : Nat → Addr) (f : Nat → Byte → Byte) (m : Nat) (u : State) : Prop :=
  u = { s with mem := u.mem } ∧
  (∀ k < m, u.byteAt (after a k) = f k (seenAfter s u a k (src k))) ∧
  ∀ x : Addr, m ≤ (x - a).toNat → u.byteAt x = s.byteAt x

theorem sweep_storedFrom {s : State} {a : Addr} {src : Nat → Addr} {f : Nat → Byte → Byte}
    {g : Nat → State → Byte} {m : Nat} (hw : Memory.wf s.mem = true) (hm : m ≤ 2 ^ 24)
    (hg : ∀ k < m, g k (sweep (after a) g k s) = f k ((sweep (after a) g k s).byteAt (src k))) :
    StoredFrom s a src f m (sweep (after a) g m s) := by
  refine ⟨sweep_eq _ _ _ _, fun k hk => ?_, fun x hx => sweep_after_outside hw hx⟩
  rw [sweep_after_at hw hm hk, hg k hk, sweep_seenAfter hw hm hk.le]

/-! ## Character moves and character logic (R404, R408, R412, R513 to R515) -/

/-- Combine `m` bytes from `a` on with those from `b` on, in place, one after the other. -/
def charSweep (f : Byte → Byte → Byte) (a b : Addr) (m : Nat) (s : State) : State :=
  sweep (after a) (fun k u => f (u.byteAt (after a k)) (u.byteAt (after b k))) m s

section
variable {f : Byte → Byte → Byte} {a b : Addr} {m n : Nat} {nz : Byte} {s : State}

/-- Stores install nothing. -/
theorem charSweep_bothInstalled {k : Nat} :
    BothInstalled (charSweep f a b m s) a b k ↔ BothInstalled s a b k := by
  simp only [BothInstalled, charSweep, sweep_installed]

/-- A byte of the first operand is still the one from before when its step comes. -/
theorem charSweep_storedFrom (hw : Memory.wf s.mem = true) (hm : m ≤ 2 ^ 24) :
    StoredFrom s a (after b) (fun k => f (s.byteAt (after a k))) m (charSweep f a b m s) :=
  sweep_storedFrom hw hm fun k hk => by
    rw [sweep_after_outside hw (by rw [after_sub (by omega)])]

theorem moveChars_complete (h : ∀ k < n, BothInstalled s a b k) :
    moveChars n a b s = .ok (charSweep (fun _ y => y) a b n s) :=
  moveChars_steps 0 h

theorem moveChars_terminated (hm : m < n) (h : ∀ k < m, BothInstalled s a b k)
    (hmiss : ¬BothInstalled s a b m) :
    moveChars n a b s = .error (.program .addressing (charSweep (fun _ y => y) a b m s)) := by
  obtain ⟨r, rfl⟩ : ∃ r, n = m + (r + 1) := ⟨n - m - 1, by omega⟩
  rw [moveChars_steps (r + 1) h, moveChars]
  exact load_store_missing ((charSweep_bothInstalled (f := fun _ y => y)).not.2 hmiss) _

/-- What the loop gathers is zero exactly if every byte it stored is. -/
theorem combineChars_complete (hw : Memory.wf s.mem = true) (hn : n ≤ 2 ^ 24)
    (h : ∀ k < n, BothInstalled s a b k) :
    ∃ nz, combineChars f n a b 0 s = .ok (nz, charSweep f a b n s) ∧
      (nz = 0 ↔ ∀ k < n, (charSweep f a b n s).byteAt (after a k) = 0) := by
  obtain ⟨nz, hrun, hzero⟩ := combineChars_steps f 0 (nz := 0) h
  have hstored : ∀ k < n, (charSweep f a b n s).byteAt (after a k) = _ := fun k hk => sweep_after_at hw hn hk
  refine ⟨nz, hrun, hzero.trans ⟨fun hz k hk => ?_, fun hz => ⟨rfl, fun k hk => ?_⟩⟩⟩
  · rw [hstored k hk]; exact hz.2 k hk
  · exact (hstored k hk).symm.trans (hz k hk)

theorem combineChars_terminated (hm : m < n) (h : ∀ k < m, BothInstalled s a b k)
    (hmiss : ¬BothInstalled s a b m) :
    combineChars f n a b nz s = .error (.program .addressing (charSweep f a b m s)) := by
  obtain ⟨r, rfl⟩ : ∃ r, n = m + (r + 1) := ⟨n - m - 1, by omega⟩
  obtain ⟨nz', hrun, -⟩ := combineChars_steps f (r + 1) (nz := nz) h
  rw [hrun, combineChars]
  exact load_load_missing (y := fun _ => after b m) ((charSweep_bothInstalled (f := f)).not.2 hmiss) _

end

/-- Byte `k` of both operands of an SS instruction is installed. -/
def PairInstalled (s : State) (o : OpsSS) (k : Nat) : Prop := BothInstalled s (s.ea o.b1 o.d1) (s.ea o.b2 o.d2) k

/-- `m` steps of an SS instruction that combines its operands' bytes by `f`. -/
def State.combined (s : State) (o : OpsSS) (f : Byte → Byte → Byte) (m : Nat) : State :=
  charSweep f (s.ea o.b1 o.d1) (s.ea o.b2 o.d2) m s

/-- From `s`, a rule combines the operands' bytes by `f`, ends with `done` of what it has stored, and is terminated
by a byte that is not installed. -/
structure CombinesChars (s : State) (o : OpsSS) (f : Byte → Byte → Byte) (done : State → State)
    (sem : Ctx → State → Effect) : Prop where
  complete : (∀ k < o.l.toNat + 1, PairInstalled s o k) →
    ∀ c, sem c s = .ok (.advance (done (s.combined o f (o.l.toNat + 1))))
  terminated : ∀ m < o.l.toNat + 1, (∀ k < m, PairInstalled s o k) → ¬PairInstalled s o m →
    ∀ c, sem c s = .error (.program .addressing (s.combined o f m))

/-- The CC of a whole combined result (R400). -/
def State.setCcOfField (o : OpsSS) (a : Addr) (u : State) : State :=
  u.setCc (if ∀ k ≤ o.l.toNat, u.byteAt (after a k) = 0 then 0 else 1)

section
variable {s : State} {o : OpsSS}

theorem opMvc_combines : CombinesChars s o (fun _ y => y) id (opMvc o) where
  complete h c := by rw [opMvc, moveChars_complete h]; rfl
  terminated m hm h hmiss c := by rw [opMvc, moveChars_terminated hm h hmiss]; rfl

/-- MVN and MVZ drop what the loop gathers. -/
theorem combineMove_combines {f : Byte → Byte → Byte} {sem : Ctx → State → Effect} (hw : Memory.wf s.mem = true)
    (hsem : ∀ c, sem c s = combineChars f (o.l.toNat + 1) (s.ea o.b1 o.d1) (s.ea o.b2 o.d2) 0 s >>=
      fun p => .ok (.advance p.2)) :
    CombinesChars s o f id sem where
  complete h c := by
    obtain ⟨nz, hrun, -⟩ := combineChars_complete (f := f) hw (by omega) h
    rw [hsem, hrun]; rfl
  terminated m hm h hmiss c := by rw [hsem, combineChars_terminated hm h hmiss]; rfl

theorem logicalChars_combines (hw : Memory.wf s.mem = true) (f : Byte → Byte → Byte) :
    CombinesChars s o f (State.setCcOfField o (s.ea o.b1 o.d1)) fun _ => logicalChars f o where
  complete h c := by
    obtain ⟨nz, hrun, hzero⟩ := combineChars_complete (f := f) hw (by omega) h
    simp only [Nat.lt_succ_iff] at hzero
    simp only [logicalChars, hrun, ok_bind, pure_ok, ccLogic, hzero]
    rfl
  terminated m hm h hmiss c := by rw [logicalChars, combineChars_terminated hm h hmiss]; rfl

variable {f : Byte → Byte → Byte} {done : State → State} {sem : Ctx → State → Effect}

theorem State.combined_storedFrom (hw : Memory.wf s.mem = true) {m : Nat} (hm : m ≤ o.l.toNat + 1) :
    StoredFrom s (s.ea o.b1 o.d1) (after (s.ea o.b2 o.d2)) (fun k => f (s.byteAt (after (s.ea o.b1 o.d1) k))) m
      (s.combined o f m) :=
  charSweep_storedFrom hw (by omega)

theorem CombinesChars.call_complete (hc : CombinesChars s o f done sem) (hw : Memory.wf s.mem = true)
    (h : ∀ k < o.l.toNat + 1, PairInstalled s o k) :
    ∃ u, StoredFrom s (s.ea o.b1 o.d1) (after (s.ea o.b2 o.d2))
        (fun k => f (s.byteAt (after (s.ea o.b1 o.d1) k))) (o.l.toNat + 1) u ∧
      call 6 sem s = .next (s.completed 6 (done u)) :=
  ⟨_, State.combined_storedFrom hw le_rfl, call_advance (hc.complete h _)⟩

theorem CombinesChars.call_terminated (hc : CombinesChars s o f done sem) (hw : Memory.wf s.mem = true) {m : Nat}
    (hm : m < o.l.toNat + 1) (h : ∀ k < m, PairInstalled s o k) (hmiss : ¬PairInstalled s o m) :
    ∃ u, StoredFrom s (s.ea o.b1 o.d1) (after (s.ea o.b2 o.d2))
        (fun k => f (s.byteAt (after (s.ea o.b1 o.d1) k))) m u ∧
      call 6 sem s = .next (s.trapped 6 .addressing u) :=
  ⟨_, State.combined_storedFrom hw hm.le, call_program (hc.terminated m hm h hmiss _)⟩

end

/-- Settles O38: each of the six rules combines characters, and a call ends as they do. -/
theorem characterStores : Obligations.CharacterStores := by
  intro s o hw
  simp only [List.cons_append, List.nil_append, List.forall_mem_cons, List.not_mem_nil, false_imp_iff,
    implies_true, and_true]
  have mvc := opMvc_combines (s := s) (o := o)
  have mvn : CombinesChars s o (fun x y => (x &&& 0xF0) ||| (y &&& 0x0F)) id (opMvn o) :=
    combineMove_combines hw fun _ => rfl
  have mvz : CombinesChars s o (fun x y => (y &&& 0xF0) ||| (x &&& 0x0F)) id (opMvz o) :=
    combineMove_combines hw fun _ => rfl
  have nc := logicalChars_combines (o := o) hw (· &&& ·)
  have oc := logicalChars_combines (o := o) hw (· ||| ·)
  have xc := logicalChars_combines (o := o) hw (· ^^^ ·)
  refine ⟨fun h => ?complete, fun m hm h hmiss => ?terminated⟩
  case complete =>
    have h : ∀ k < o.l.toNat + 1, PairInstalled s o k := fun k hk => h k (Nat.le_of_lt_succ hk)
    exact ⟨⟨mvc.call_complete hw h, mvn.call_complete hw h, mvz.call_complete hw h⟩,
      nc.call_complete hw h, oc.call_complete hw h, xc.call_complete hw h⟩
  case terminated =>
    have hm := Nat.lt_add_one_of_le hm
    exact ⟨mvc.call_terminated hw hm h hmiss, mvn.call_terminated hw hm h hmiss,
      mvz.call_terminated hw hm h hmiss, nc.call_terminated hw hm h hmiss,
      oc.call_terminated hw hm h hmiss, xc.call_terminated hw hm h hmiss⟩

/-! ## Character comparisons (R416, R417) -/

/-- The CC of an unsigned comparison, by the operands' values. -/
theorem ccUnsigned_eq {w : Nat} (x y : BitVec w) : ccUnsigned x y = ccOfOrder x.toNat y.toNat := ccCmp_eq _ _

section
variable {s : State} {a b : Addr} {v : Word} {js : List Nat} {n m : Nat}

theorem compareChars_unequal (hm : m < n)
    (h : ∀ k < m, BothInstalled s a b k ∧ s.byteAt (after a k) = s.byteAt (after b k))
    (hok : BothInstalled s a b m) (hne : s.byteAt (after a m) ≠ s.byteAt (after b m)) :
    compareChars s n a b = .ok (ccOfOrder (s.byteAt (after a m)).toNat (s.byteAt (after b m)).toNat) := by
  obtain ⟨r, rfl⟩ : ∃ r, n = m + (r + 1) := ⟨n - m - 1, by omega⟩
  rw [compareChars_steps s (r + 1) h, compareChars, State.load_byte hok.1, ok_bind, State.load_byte hok.2,
    ok_bind, if_neg hne, ccUnsigned_eq]

theorem compareChars_terminated (hm : m < n)
    (h : ∀ k < m, BothInstalled s a b k ∧ s.byteAt (after a k) = s.byteAt (after b k))
    (hmiss : ¬BothInstalled s a b m) :
    compareChars s n a b = .error (.program .addressing s) := by
  obtain ⟨r, rfl⟩ : ∃ r, n = m + (r + 1) := ⟨n - m - 1, by omega⟩
  rw [compareChars_steps s (r + 1) h, compareChars]
  exact load_load_missing (y := fun _ => after b m) hmiss _

theorem compareMasked_complete
    (h : ∀ k < js.length, s.installed (after b k) 1 = true ∧
      byteOfWord v (js.getD k 0) = s.byteAt (after b k)) :
    compareMasked s v js b = .ok 0 := by
  rw [compareMasked_steps s v js le_rfl h, List.drop_length, compareMasked]

/-- The register byte that is reached after `m` equal ones decides, or the storage byte ends the comparison. -/
theorem compareMasked_reached (hm : m < js.length)
    (h : ∀ k < m, s.installed (after b k) 1 = true ∧ byteOfWord v (js.getD k 0) = s.byteAt (after b k)) :
    compareMasked s v js b = compareMasked s v (js.getD m 0 :: js.drop (m + 1)) (after b m) := by
  rw [compareMasked_steps s v js hm.le h, List.drop_eq_getElem_cons hm, List.getD_eq_getElem _ _ hm]

theorem compareMasked_unequal (hm : m < js.length)
    (h : ∀ k < m, s.installed (after b k) 1 = true ∧ byteOfWord v (js.getD k 0) = s.byteAt (after b k))
    (hok : s.installed (after b m) 1 = true) (hne : byteOfWord v (js.getD m 0) ≠ s.byteAt (after b m)) :
    compareMasked s v js b =
      .ok (ccOfOrder (byteOfWord v (js.getD m 0)).toNat (s.byteAt (after b m)).toNat) := by
  rw [compareMasked_reached hm h, compareMasked, State.load_byte hok, ok_bind, if_neg hne, ccUnsigned_eq]

theorem compareMasked_terminated (hm : m < js.length)
    (h : ∀ k < m, s.installed (after b k) 1 = true ∧ byteOfWord v (js.getD k 0) = s.byteAt (after b k))
    (hmiss : s.installed (after b m) 1 = false) :
    compareMasked s v js b = .error (.program .addressing s) := by
  rw [compareMasked_reached hm h, compareMasked, State.load_missing (w := 8) hmiss, error_bind]

end

/-- Settles O39, by the step that ends each comparison. -/
theorem characterCompare : Obligations.CharacterCompare := by
  refine fun s => ⟨fun o m => ?clc, fun o m => ?clm⟩
  case clc =>
    intro a b x y ok h
    refine ⟨fun hm => call_advance ?_, fun hm hok hne => call_advance ?_, fun hm hmiss => call_program ?_⟩
    · subst hm
      rw [opClc, show o.l.toNat + 1 = o.l.toNat + 1 + 0 from rfl, compareChars_steps s 0 h]; rfl
    · rw [opClc, compareChars_unequal (Nat.lt_add_one_of_le hm) h hok hne]; rfl
    · rw [opClc, compareChars_terminated (Nat.lt_add_one_of_le hm) h hmiss]; rfl
  case clm =>
    intro js b x y h
    refine ⟨fun hm => call_advance ?_, fun hm hok hne => call_advance ?_, fun hm hmiss => call_program ?_⟩
    · subst hm
      rw [opClm, compareMasked_complete h]; rfl
    · rw [opClm, compareMasked_unequal hm h hok hne]; rfl
    · rw [opClm, compareMasked_terminated hm h hmiss]; rfl

/-! ## Compare logical long (R418) -/

/-- An operand put back: an address with bits 0-7 zero, and a length under the register's own bits 0-7. -/
theorem State.setLongOperand_eq (s : State) (r : Nib) {x : LongOperand} (hx : x.left < 2 ^ 24) :
    s.setLongOperand r x =
      let s1 := s.setGr r (0#8 ++ x.addr)
      s1.setGr (r + 1) ((s1.getGr (r + 1)).extractLsb' 24 8 ++ BitVec.ofNat 24 x.left) := by
  have hleft : BitVec.ofNat 32 x.left = (BitVec.ofNat 24 x.left).setWidth 32 := by
    apply BitVec.eq_of_toNat_eq
    simp only [BitVec.toNat_setWidth, BitVec.toNat_ofNat]
    omega
  rw [State.setLongOperand, hleft, or_setWidth_eq_append, setWidth_eq_zero_append]

theorem State.longOperand_left (s : State) (r : Nib) :
    (s.longOperand r).left = ((s.getGr (r + 1)).extractLsb' 0 24).toNat :=
  congrArg BitVec.toNat (BitVec.setWidth_eq_extractLsb' (by decide))

theorem State.longOperand_left_lt (s : State) (r : Nib) : (s.longOperand r).left < 2 ^ 24 := BitVec.isLt _

theorem LongOperand.advance_left_lt {x : LongOperand} (hx : x.left < 2 ^ 24) (m : Nat) :
    (x.advance m).left < 2 ^ 24 := by
  unfold LongOperand.advance
  dsimp only
  omega

section
variable {s : State} {pad : Byte} {x y : LongOperand} {n m : Nat}

/-- The byte of step `m` is the pad, or one that is installed. -/
def LongOperand.Reaches (x : LongOperand) (s : State) (m : Nat) : Prop :=
  m < x.left → s.installed (after x.addr m) 1 = true

theorem LongOperand.byte_of_not_reaches (h : ¬x.Reaches s m) :
    (x.advance m).byte pad s = .error (.program .addressing s) := by
  obtain ⟨hm, hmiss⟩ := Classical.not_imp.1 h
  exact LongOperand.byte_missing hm (Bool.eq_false_of_not_eq_true hmiss)

theorem compareLong_unequal (hm : m < n)
    (h : ∀ k < m, (x.Reaches s k ∧ y.Reaches s k) ∧ x.nth pad k s = y.nth pad k s)
    (hok : x.Reaches s m ∧ y.Reaches s m) (hne : x.nth pad m s ≠ y.nth pad m s) :
    compareLong s pad n x y =
      .ok (ccOfOrder (x.nth pad m s).toNat (y.nth pad m s).toNat, x.advance m, y.advance m) := by
  obtain ⟨r, rfl⟩ : ∃ r, n = m + (r + 1) := ⟨n - m - 1, by omega⟩
  rw [compareLong_steps s pad (r + 1) h, compareLong, LongOperand.byte_advance hok.1, ok_bind,
    LongOperand.byte_advance hok.2, ok_bind, if_neg hne, ccUnsigned_eq]

theorem compareLong_terminated (hm : m < n)
    (h : ∀ k < m, (x.Reaches s k ∧ y.Reaches s k) ∧ x.nth pad k s = y.nth pad k s)
    (hmiss : ¬(x.Reaches s m ∧ y.Reaches s m)) :
    compareLong s pad n x y = .error (.program .addressing s) := by
  obtain ⟨r, rfl⟩ : ∃ r, n = m + (r + 1) := ⟨n - m - 1, by omega⟩
  rw [compareLong_steps s pad (r + 1) h, compareLong]
  by_cases hx : x.Reaches s m
  · rw [LongOperand.byte_advance hx, ok_bind, LongOperand.byte_of_not_reaches fun hy => hmiss ⟨hx, hy⟩,
      error_bind]
  · rw [LongOperand.byte_of_not_reaches hx, error_bind]

end

/-- The state CLCL leaves when it ends with `cc` after `m` equal bytes. -/
def State.clclEnd (s : State) (o : OpsRR) (m : Nat) (cc : BitVec 2) : State :=
  ((s.setLongOperand o.r1 ((s.longOperand o.r1).advance m)).setLongOperand o.r2
    ((s.longOperand o.r2).advance m)).setCc cc

theorem State.clclEnd_eq (s : State) (o : OpsRR) (m : Nat) (cc : BitVec 2) :
    s.clclEnd o m cc =
      let n := (s.longOperand o.r1).left
      let l := (s.longOperand o.r2).left
      let s1 := s.setGr o.r1 (0#8 ++ after (s.regTarget o.r1) (min m n))
      let s2 := s1.setGr (o.r1 + 1) ((s1.getGr (o.r1 + 1)).extractLsb' 24 8 ++ BitVec.ofNat 24 (n - min m n))
      let s3 := s2.setGr o.r2 (0#8 ++ after (s.regTarget o.r2) (min m l))
      let s4 := s3.setGr (o.r2 + 1) ((s3.getGr (o.r2 + 1)).extractLsb' 24 8 ++ BitVec.ofNat 24 (l - min m l))
      s4.setCc cc := by
  rw [State.clclEnd, State.setLongOperand_eq _ _ (LongOperand.advance_left_lt (s.longOperand_left_lt o.r1) m),
    State.setLongOperand_eq _ _ (LongOperand.advance_left_lt (s.longOperand_left_lt o.r2) m)]
  rfl

/-- CLCL's comparison of its two operands. -/
def State.compareOperands (s : State) (o : OpsRR) : Except Raise (BitVec 2 × LongOperand × LongOperand) :=
  compareLong s ((s.getGr (o.r2 + 1)).extractLsb' 24 8)
    (max (s.longOperand o.r1).left (s.longOperand o.r2).left) (s.longOperand o.r1) (s.longOperand o.r2)

section
variable {s : State} {o : OpsRR} {m : Nat}

/-- With even registers, CLCL's rule ends as its comparison does. -/
theorem opClcl_even (h1 : o.r1.toNat % 2 = 0) (h2 : o.r2.toNat % 2 = 0) (c : Ctx) :
    opClcl o c s = s.compareOperands o >>= fun p =>
      .ok (.advance (((s.setLongOperand o.r1 p.2.1).setLongOperand o.r2 p.2.2).setCc p.1)) := by
  rw [opClcl, demandEven_even_bind h1, demandEven_even_bind h2]
  rfl

theorem call_clcl_of_compared {cc : BitVec 2} (h1 : o.r1.toNat % 2 = 0) (h2 : o.r2.toNat % 2 = 0)
    (h : s.compareOperands o = .ok (cc, (s.longOperand o.r1).advance m, (s.longOperand o.r2).advance m)) :
    call 2 (opClcl o) s = .next (s.completed 2 (s.clclEnd o m cc)) :=
  call_advance (by rw [opClcl_even h1 h2, h]; rfl)

theorem call_clcl_of_raised {code : ProgramCode} (h1 : o.r1.toNat % 2 = 0) (h2 : o.r2.toNat % 2 = 0)
    (h : s.compareOperands o = .error (.program code s)) :
    call 2 (opClcl o) s = .next (s.trapped 2 code s) :=
  call_program (by rw [opClcl_even h1 h2, h]; rfl)

end

/-- Settles O40, by the step that ends the comparison. The loop itself has the name `compareLong`. -/
theorem compareLong_holds : Obligations.CompareLong := by
  intro s o m even1 even2
  simp only [← State.longOperand_left, ← State.clclEnd_eq]
  intro h
  refine ⟨fun hm => call_clcl_of_compared even1 even2 ?equal,
    fun hm hok hne => call_clcl_of_compared even1 even2 ?unequal,
    fun hm hmiss => call_clcl_of_raised even1 even2 ?missing⟩
  case equal =>
    rw [State.compareOperands, ← hm]
    exact compareLong_steps s _ 0 h
  case unequal => exact compareLong_unequal hm h hok hne
  case missing => exact compareLong_terminated hm h hmiss

/-! ## Translate, translate and test (R425, R426) -/

section
variable {s : State} {table a : Addr} {n m : Nat}

/-- The state TR's loop leaves after `m` steps; `s` holds the argument bytes. -/
def State.translated (s : State) (table a : Addr) (m : Nat) : State :=
  sweep (after a) (fun k u => u.byteAt (after table (s.byteAt (after a k)).toNat)) m s

@[simp] theorem State.translated_installed (x : Addr) (k : Nat) :
    (s.translated table a m).installed x k = s.installed x k := sweep_installed ..

/-- Argument byte `k` and its entry in the table are installed. -/
def EntryInstalled (s : State) (table a : Addr) (k : Nat) : Prop :=
  s.installed (after a k) 1 = true ∧ s.installed (after table (s.byteAt (after a k)).toNat) 1 = true

theorem State.translated_storedFrom (hw : Memory.wf s.mem = true) (hm : m ≤ 2 ^ 24) :
    StoredFrom s a (fun k => after table (s.byteAt (after a k)).toNat) (fun _ y => y) m (s.translated table a m) :=
  sweep_storedFrom hw hm fun _ _ => rfl

theorem translateChars_complete (hw : Memory.wf s.mem = true) (hn : n ≤ 2 ^ 24)
    (h : ∀ k < n, EntryInstalled s table a k) :
    translateChars table n a s = .ok (s.translated table a n) :=
  translateChars_steps table 0 hw hn h

theorem translateChars_terminated (hw : Memory.wf s.mem = true) (hn : n ≤ 2 ^ 24) (hm : m < n)
    (h : ∀ k < m, EntryInstalled s table a k) (hmiss : ¬EntryInstalled s table a m) :
    translateChars table n a s = .error (.program .addressing (s.translated table a m)) := by
  obtain ⟨r, rfl⟩ : ∃ r, n = m + (r + 1) := ⟨n - m - 1, by omega⟩
  have harg : (s.translated table a m).byteAt (after a m) = s.byteAt (after a m) :=
    sweep_after_outside hw (by rw [after_sub (by omega)])
  rw [translateChars_steps table (r + 1) hw (by omega) h, translateChars]
  simp only [table_entry]
  refine load_load_missing (y := fun b => after table b.toNat) ?_ _
  rw [← State.translated, harg, State.translated_installed, State.translated_installed]
  exact hmiss

theorem scanChars_found (hm : m < n)
    (h : ∀ k < m, EntryInstalled s table a k ∧ s.byteAt (after table (s.byteAt (after a k)).toNat) = 0)
    (hok : EntryInstalled s table a m) (hne : s.byteAt (after table (s.byteAt (after a m)).toNat) ≠ 0) :
    scanChars s table n a = .ok (some (after a m, s.byteAt (after table (s.byteAt (after a m)).toNat),
      decide (m + 1 = n))) := by
  obtain ⟨r, rfl⟩ : ∃ r, n = m + (r + 1) := ⟨n - m - 1, by omega⟩
  have hlast : (r == 0) = decide (m + 1 = m + (r + 1)) := by
    rw [Bool.eq_iff_iff, beq_iff_eq, decide_eq_true_eq]; omega
  rw [scanChars_steps s table (r + 1) h, scanChars, State.load_byte hok.1, ok_bind, table_entry,
    State.load_byte hok.2, ok_bind, if_neg hne, hlast]

theorem scanChars_terminated (hm : m < n)
    (h : ∀ k < m, EntryInstalled s table a k ∧ s.byteAt (after table (s.byteAt (after a k)).toNat) = 0)
    (hmiss : ¬EntryInstalled s table a m) :
    scanChars s table n a = .error (.program .addressing s) := by
  obtain ⟨r, rfl⟩ : ∃ r, n = m + (r + 1) := ⟨n - m - 1, by omega⟩
  rw [scanChars_steps s table (r + 1) h, scanChars]
  simp only [table_entry]
  exact load_load_missing (y := fun b => after table b.toNat) hmiss _

end

/-- Settles O41: what TR has stored when it ends, and the step that ends TRT's search. -/
theorem translate : Obligations.Translate := by
  intro s o a entry ok
  have hlen : o.l.toNat + 1 ≤ 2 ^ 24 := by have := o.l.isLt; omega
  refine ⟨fun hw => ⟨fun h => ?tr, fun m hm h hmiss => ?trTerminated⟩,
    fun m h => ⟨fun hm => call_advance ?trtZero, fun hm hok hne => call_advance ?trtFound,
      fun hm hmiss => call_program ?trtTerminated⟩⟩
  case tr =>
    exact ⟨_, State.translated_storedFrom hw hlen, call_advance (by
      rw [opTr, translateChars_complete hw hlen fun k hk => h k (Nat.le_of_lt_succ hk)]; rfl)⟩
  case trTerminated =>
    exact ⟨_, State.translated_storedFrom hw (by omega), call_program (by
      rw [opTr, translateChars_terminated hw hlen (Nat.lt_add_one_of_le hm) h hmiss]; rfl)⟩
  case trtZero =>
    subst hm
    rw [opTrt, scanChars_steps s _ 0 h]; rfl
  case trtFound =>
    rw [opTrt, scanChars_found (Nat.lt_add_one_of_le hm) h hok hne]
    simp only [ok_bind, or_setWidth_eq_append, insert_low_byte, decide_eq_true_eq, Nat.add_right_cancel_iff]
    rfl
  case trtTerminated =>
    rw [opTrt, scanChars_terminated (Nat.lt_add_one_of_le hm) h hmiss]; rfl

end Sys2Proof.Machine
end

section
/-! PROOFS. The statements of `spec/43_load_store.md`. A store leaves what `StoresBytes` says, and the matching load
reads it back; ICM's bytes are found in its register one by one; MVCL's loop is run to the step that ends it by
`moveLong_steps`, and without destructive overlap each of its source bytes is still the one from before. -/

namespace Sys2Proof.Machine

/-! ## What a store leaves (R84, R503, R504, R507, R509, R324, R325) -/

/-- `t` is `s` after an instruction of four bytes that only stores `bs` from `a` on. -/
def StoresBytes (s : State) (a : Addr) (bs : List Byte) (t : State) : Prop :=
  t = s.completed 4 { s with mem := t.mem } ∧ t.bytesAt a bs.length = bs ∧
    ∀ x : Addr, bs.length ≤ (x - a).toNat → t.byteAt x = s.byteAt x

/-- Bits of a field are bits of what the field was cut out of. -/
theorem extractLsb'_extractLsb'_add {w n i l : Nat} (v : BitVec w) (k : Nat) (h : i + l ≤ n) :
    (v.extractLsb' k n).extractLsb' i l = v.extractLsb' (k + i) l := by
  apply BitVec.eq_of_getLsbD_eq
  intro j hj
  have hin : i + j < n := by omega
  simp only [BitVec.getLsbD_extractLsb', hin, decide_true, Bool.true_and, Nat.add_assoc]

section
variable {s : State} {a : Addr} {sem : Ctx → State → Effect}

theorem call_storesBytes {bs : List Byte} (hw : Memory.wf s.mem = true) (hl : bs.length ≤ 2 ^ 24)
    (h : call 4 sem s = .next (s.completed 4 (s.setBytes a bs))) :
    ∃ t, call 4 sem s = .next t ∧ StoresBytes s a bs t :=
  ⟨_, h, completed_setBytes s hw a bs hl⟩

/-- A value is stored as its bytes, the most significant first. -/
theorem call_stores_value {w : Nat} {v : BitVec w} (hw : Memory.wf s.mem = true) (hl : w / 8 ≤ 2 ^ 24)
    (h : call 4 sem s = .next (s.completed 4 (s.poke a v))) :
    ∃ t, call 4 sem s = .next t ∧ StoresBytes s a (beBytes (w / 8) v) t :=
  call_storesBytes hw (by rwa [beBytes_length]) h

end

section
variable {s : State} {o : OpsRX}

theorem call_st (h : s.installed (s.eaRX o) 4 = true) :
    call 4 (opSt o) s = .next (s.completed 4 (s.poke (s.eaRX o) (s.getGr o.r1))) :=
  call_advance (by rw [opSt, State.store_installed h]; rfl)

theorem call_sth (h : s.installed (s.eaRX o) 2 = true) :
    call 4 (opSth o) s = .next (s.completed 4 (s.poke (s.eaRX o) ((s.getGr o.r1).extractLsb' 0 16))) :=
  call_advance (by rw [opSth, State.store_installed h]; rfl)

theorem call_stc (h : s.installed (s.eaRX o) 1 = true) :
    call 4 (opStc o) s = .next (s.completed 4 (s.poke (s.eaRX o) ((s.getGr o.r1).extractLsb' 0 8))) :=
  call_advance (by rw [opStc, State.store_installed h]; rfl)

theorem call_ste {k : Fin 4} (hk : frPlace o.r1 = some k) (h : s.installed (s.eaRX o) 4 = true) :
    call 4 (opSte o) s = .next (s.completed 4 (s.poke (s.eaRX o) (s.getFrh k))) := by
  obtain ⟨-, short, -⟩ := floatLoadStore s k
  exact (short o hk h).2

theorem call_std {k : Fin 4} (hk : frPlace o.r1 = some k) (h : s.installed (s.eaRX o) 8 = true) :
    call 4 (opStd o) s = .next (s.completed 4 (s.poke (s.eaRX o) (s.getFr k))) := by
  obtain ⟨-, -, long⟩ := floatLoadStore s k
  exact (long o hk h).2

end

/-- The bytes that STH stores. -/
theorem beBytes_low_half (v : Word) : beBytes 2 (v.extractLsb' 0 16) = [byteOfWord v 2, byteOfWord v 3] := by
  simp only [beBytes, byteOfWord, extractLsb'_extractLsb'_add v 0 (show 8 * 1 + 8 ≤ 16 by decide),
    extractLsb'_extractLsb'_add v 0 (show 8 * 0 + 8 ≤ 16 by decide)]

/-- The byte that STC stores. -/
theorem beBytes_low_byte (v : Word) : beBytes 1 (v.extractLsb' 0 8) = [byteOfWord v 3] := by
  simp only [beBytes, byteOfWord, extractLsb'_extractLsb'_add v 0 (show 8 * 0 + 8 ≤ 8 by decide)]

/-- The bytes that STE stores: bits 0-31 of the register. -/
theorem beBytes_high_word (v : DWord) :
    beBytes 4 (v.extractLsb' 32 32) =
      [v.extractLsb' 56 8, v.extractLsb' 48 8, v.extractLsb' 40 8, v.extractLsb' 32 8] := by
  simp (disch := decide) only [beBytes, extractLsb'_extractLsb'_add]

/-- Settles O42: each store puts down the bytes of a value, and STCM the bytes it selects. -/
theorem storageStores : Obligations.StorageStores := by
  intro s hw
  refine ⟨fun o => ⟨fun h => ?st, fun h => ?sth, fun h => ?stc, fun k hk => ⟨fun h => ?ste, fun h => ?std⟩⟩,
    fun o h => ?stcm⟩
  case st => exact call_stores_value hw (by decide) (call_st h)
  case sth =>
    rw [← beBytes_low_half]
    exact call_stores_value hw (by decide) (call_sth h)
  case stc =>
    rw [← beBytes_low_byte]
    exact call_stores_value hw (by decide) (call_stc h)
  case ste =>
    have stored := call_stores_value hw (by decide) (call_ste hk h)
    rw [State.getFrh, beBytes_high_word] at stored
    exact stored
  case std => exact call_stores_value hw (by decide) (call_std hk h)
  case stcm =>
    have hlen := maskBytes_length_le o.r3
    refine call_storesBytes hw (by rw [List.length_map]; omega) (call_advance ?_)
    rw [opStcm, State.storeBytes_installed (by rwa [List.length_map])]
    rfl

/-! ## A load after the matching store (R87, R500) -/

/-- After a call that stores `v` at `a`, `v` is read there, and what is installed is so still. -/
theorem reads_after_store {s t : State} {a : Addr} {w len : Nat} {v : BitVec w} {sem : Ctx → State → Effect}
    (hw : Memory.wf s.mem = true) (h8 : w = 8 * (w / 8)) (hl : w / 8 ≤ 2 ^ 24)
    (hstore : call len sem s = .next (s.completed len (s.poke a v))) (ht : call len sem s = .next t) :
    t.peek w a = v ∧ ∀ n, t.installed a n = s.installed a n := by
  obtain rfl : s.completed len (s.poke a v) = t := Host.Outcome.next.inj (hstore.symm.trans ht)
  have hmem : (s.completed len (s.poke a v)).mem = (s.poke a v).mem := rfl
  have hcfg : (s.completed len (s.poke a v)).cfg = s.cfg := State.poke_cfg s a v
  exact ⟨(State.peek_congr hmem w a).trans (State.peek_poke hw a v h8 hl), State.installed_congr hcfg a⟩

/-- A halfword that LH loads stands in bits 16-31 of the register. -/
theorem extractLsb'_ofInt_half (h : Half) : (BitVec.ofInt 32 h.toInt).extractLsb' 0 16 = h := by
  have hext : BitVec.ofInt 32 h.toInt = h.signExtend 32 := rfl
  rw [hext, BitVec.signExtend_eq_append_of_le (by decide)]
  exact BitVec.extractLsb'_append_eq_right

section
variable {s : State} {r : Nib} {k : Fin 4} {len : Nat}

theorem State.getGr_completed_setGr (v : Word) : (s.completed len (s.setGr r v)).getGr r = v :=
  s.getGr_setGr_self r v

theorem State.getFr_completed_setFr (v : DWord) : (s.completed len (s.setFr k v)).getFr k = v :=
  s.getFr_setFr_self k v

end

/-- Settles O43: the value is read back from storage, and the load puts it into the register. -/
theorem roundTripLaw : Obligations.RoundTripLaw := by
  intro s t o q hw hea
  obtain ⟨-, -, loads⟩ := registerLoads t
  obtain ⟨-, l, lh, ic⟩ := loads q
  rw [hea] at l lh ic
  refine ⟨fun h ht => ?st, fun h ht => ?sth, fun h ht => ?stc,
    fun a b ha hb => ⟨fun h ht => ?ste, fun h ht => ?std⟩⟩
  case st =>
    obtain ⟨hread, hinst⟩ := reads_after_store hw (by decide) (by decide) (call_st h) ht
    exact ⟨_, l ((hinst 4).trans h), by rw [State.getGr_completed_setGr, hread]⟩
  case sth =>
    obtain ⟨hread, hinst⟩ := reads_after_store hw (by decide) (by decide) (call_sth h) ht
    exact ⟨_, lh ((hinst 2).trans h), by rw [State.getGr_completed_setGr, extractLsb'_ofInt_half, hread]⟩
  case stc =>
    obtain ⟨hread, hinst⟩ := reads_after_store hw (by decide) (by decide) (call_stc h) ht
    refine ⟨_, ic ((hinst 1).trans h), ?_⟩
    rw [State.getGr_completed_setGr, BitVec.extractLsb'_append_eq_right, ← State.peek_byte, hread]
  case ste =>
    obtain ⟨hread, hinst⟩ := reads_after_store hw (by decide) (by decide) (call_ste ha h) ht
    obtain ⟨-, le, -⟩ := floatLoadStore t b
    refine ⟨_, (le q hb (by rw [hea, hinst, h])).1, ?_⟩
    rw [State.getFrh, State.getFr_completed_setFr, BitVec.extractLsb'_append_eq_left, hea, hread]
  case std =>
    obtain ⟨hread, hinst⟩ := reads_after_store hw (by decide) (by decide) (call_std ha h) ht
    obtain ⟨-, -, ld⟩ := floatLoadStore t b
    refine ⟨_, (ld q hb (by rw [hea, hinst, h])).1, ?_⟩
    rw [State.getFr_completed_setFr, hea, hread]

/-! ## Bytes put into a word (R133, R508) -/

/-- The mask of one byte of a word. -/
theorem getLsbD_byte_mask : ∀ i < 32, (0xFF : Word).getLsbD i = decide (i < 8) := by decide

/-- A word after one of its bytes is replaced. -/
theorem byteOfWord_setByteOfWord (v : Word) (b : Byte) {j k : Nat} (hj : j < 4) (hk : k < 4) :
    byteOfWord (setByteOfWord v j b) k = if k = j then b else byteOfWord v k := by
  apply BitVec.eq_of_getLsbD_eq
  intro i hi
  have hbit : 24 - 8 * k + i < 32 := by omega
  have hmask : (0xFF : Word).getLsbD (24 - 8 * k + i - (24 - 8 * j)) =
      decide (24 - 8 * k + i - (24 - 8 * j) < 8) := getLsbD_byte_mask _ (by omega)
  simp only [byteOfWord, setByteOfWord, BitVec.getLsbD_extractLsb', BitVec.getLsbD_or, BitVec.getLsbD_and,
    BitVec.getLsbD_not, BitVec.getLsbD_shiftLeft, BitVec.getLsbD_setWidth, hmask, hbit, hi, decide_true,
    Bool.true_and]
  by_cases same : k = j
  · subst same
    simp [hi, show i < 32 by omega]
  · rcases Nat.lt_or_gt_of_ne same with left | right
    · have habove : ¬24 - 8 * k + i < 24 - 8 * j := by omega
      have hpast : 8 ≤ 24 - 8 * k + i - (24 - 8 * j) := by omega
      simp [same, hi, habove, Nat.not_lt.2 hpast, BitVec.getLsbD_of_ge b _ hpast]
    · have hbelow : 24 - 8 * k + i < 24 - 8 * j := by omega
      simp [same, hi, hbelow]

section
variable {js : List Nat}

/-- A byte that is not listed stays. -/
theorem byteOfWord_insertBytes_of_not_mem {j : Nat} (hlt : ∀ i ∈ js, i < 4) (hj : j < 4) (hmem : j ∉ js)
    (bs : List Byte) (v : Word) : byteOfWord (insertBytes js bs v) j = byteOfWord v j := by
  induction js generalizing bs v with
  | nil => rfl
  | cons i js ih =>
    obtain ⟨hi, hlt⟩ := List.forall_mem_cons.1 hlt
    obtain ⟨hne, hmem⟩ := List.ne_and_not_mem_of_not_mem_cons hmem
    cases bs with
    | nil => rfl
    | cons b bs => rw [insertBytes, ih hlt hmem, byteOfWord_setByteOfWord v b hi hj, if_neg hne]

/-- Each listed place gets its byte; no later one overwrites it. -/
theorem byteOfWord_insertBytes_getElem (hlt : ∀ i ∈ js, i < 4) (hnodup : js.Nodup) (bs : List Byte) (v : Word)
    {k : Nat} (hk : k < js.length) (hb : k < bs.length) : byteOfWord (insertBytes js bs v) js[k] = bs[k] := by
  induction js generalizing bs v k with
  | nil => exact absurd hk (Nat.not_lt_zero k)
  | cons i js ih =>
    obtain ⟨hi, hlt⟩ := List.forall_mem_cons.1 hlt
    obtain ⟨hfresh, hnodup⟩ := List.nodup_cons.1 hnodup
    cases bs with
    | nil => exact absurd hb (Nat.not_lt_zero k)
    | cons b bs =>
      rw [insertBytes]
      cases k with
      | zero =>
        rw [List.getElem_cons_zero, byteOfWord_insertBytes_of_not_mem hlt hi hfresh,
          byteOfWord_setByteOfWord v b hi hi, if_pos rfl, List.getElem_cons_zero]
      | succ k => exact ih hlt hnodup bs _ (Nat.lt_of_succ_lt_succ hk) (Nat.lt_of_succ_lt_succ hb)

end

theorem maskBytes_lt (m : Nib) : ∀ j ∈ maskBytes m, j < 4 := by
  intro j hj
  have hplace : j ∈ [0, 1, 2, 3] := List.mem_of_mem_filter hj
  simp only [List.mem_cons, List.not_mem_nil, or_false] at hplace
  omega

theorem maskBytes_nodup (m : Nib) : (maskBytes m).Nodup := List.Nodup.filter _ (by decide)

theorem State.forall_mem_bytesAt (s : State) (a : Addr) (n : Nat) (p : Byte → Prop) :
    (∀ b ∈ s.bytesAt a n, p b) ↔ ∀ k < n, p (s.byteAt (after a k)) := by
  induction n generalizing a with
  | zero => simp [State.bytesAt]
  | succ n ih => simp only [State.bytesAt, List.forall_mem_cons, ih, after_succ, Nat.forall_lt_succ_left, after_zero]

/-- ICM's CC, by the storage bytes. -/
theorem ccInserted_bytesAt (s : State) (a : Addr) (n : Nat) :
    ccInserted (s.bytesAt a n) =
      if ∀ k < n, s.byteAt (after a k) = 0 then 0 else if (s.byteAt (after a 0)).msb then 1 else 2 := by
  have hzero : (s.bytesAt a n).all (· == 0) = true ↔ ∀ k < n, s.byteAt (after a k) = 0 := by
    rw [← s.forall_mem_bytesAt a n (· = 0), List.all_eq_true]
    simp only [beq_iff_eq]
  simp only [ccInserted, hzero]
  cases n with
  | zero => simp
  | succ n => rw [after_zero, BitVec.msb_eq_getLsbD_last]; rfl

/-- Settles O44: the bytes are found in the register one by one. -/
theorem insertUnderMask : Obligations.InsertUnderMask := by
  intro s o h js b
  have hlt := maskBytes_lt o.r3
  refine ⟨insertBytes js (s.bytesAt (s.ea o.b2 o.d2) js.length) (s.getGr o.r1), call_advance ?call,
    fun k hk => ?selected, fun j hj hmem => byteOfWord_insertBytes_of_not_mem hlt hj hmem _ _⟩
  case call => rw [opIcm, State.loadBytes_installed h, ok_bind, ccInserted_bytesAt, pure_ok]
  case selected =>
    rw [List.getD_eq_getElem _ _ hk,
      byteOfWord_insertBytes_getElem hlt (maskBytes_nodup o.r3) _ _ hk (by rwa [State.bytesAt_length])]
    exact State.bytesAt_getElem _ _ _ _ hk

/-! ## Multiple registers (R510, R511) -/

/-- A demand that is met. -/
theorem demand_holds_bind {α : Type} {ok : Bool} {code : ProgramCode} {s : State} (h : ok = true)
    (k : Unit → Except Raise α) : (demand ok code s >>= k) = k () := by
  rw [h, demand_true, ok_bind]

theorem registerCount_le (o : OpsRS) : registerCount o ≤ 16 := (o.r3 - o.r1).isLt

/-- Settles O45, from what the two runs over the registers do. -/
theorem multipleRegisters : Obligations.MultipleRegisters := by
  intro s o n a h
  refine ⟨?lm, fun hw => ?stm⟩
  case lm =>
    obtain ⟨hloaded, hkept, hframe⟩ := s.loadRegisters_spec o.r1 (registerCount o) a (registerCount_le o)
    exact ⟨_, call_advance (demand_holds_bind h _), congrArg (s.completed 4) hframe,
      fun k hk => hloaded k (Nat.lt_succ_of_le hk), fun q hq => hkept q hq⟩
  case stm =>
    obtain ⟨hstored, hkept, hframe⟩ := s.storeRegisters_spec hw o.r1 (registerCount o) a (registerCount_le o)
    exact ⟨_, call_advance (demand_holds_bind h _), congrArg (s.completed 4) hframe,
      fun k hk => (State.peek_congr rfl 32 _).trans (hstored k (Nat.lt_succ_of_le hk)), hkept⟩

/-! ## Move long (R83, R516) -/

theorem destructiveOverlap_iff (x y : LongOperand) :
    destructiveOverlap x y = true ↔
      1 < min x.left y.left ∧ 1 ≤ (x.addr - y.addr).toNat ∧
        (x.addr - y.addr).toNat ≤ min x.left y.left - 1 := by
  simp only [destructiveOverlap, Bool.and_eq_true, decide_eq_true_eq, and_assoc]

/-- The byte that step `k` stores is installed, and so is the one it fetches. -/
def MoveInstalled (s : State) (x y : LongOperand) (k : Nat) : Prop :=
  s.installed (after x.addr k) 1 = true ∧ y.Reaches s k

/-- `u` is `s` with the first `m` bytes that `y` gives, then `pad`, stored from `a` on. -/
def StoresLong (s : State) (a : Addr) (y : LongOperand) (pad : Byte) (m : Nat) (u : State) : Prop :=
  u = { s with mem := u.mem } ∧ (∀ k < m, u.byteAt (after a k) = y.nth pad k s) ∧
    ∀ x : Addr, m ≤ (x - a).toNat → u.byteAt x = s.byteAt x

/-- What MVCL's loop has stored after `m` steps. -/
def State.movedLong (s : State) (x y : LongOperand) (pad : Byte) (m : Nat) : State :=
  sweep (after x.addr) (y.nth pad) m s

section
variable {s : State} {x y : LongOperand} {pad : Byte} {k m : Nat}

/-- Without destructive overlap no byte is a source after it was a destination. -/
theorem source_not_yet_stored (h : ¬destructiveOverlap x y = true) (hx : k < x.left) (hy : k < y.left)
    (hk : k < 2 ^ 24) : k ≤ (after y.addr k - x.addr).toNat := by
  rw [destructiveOverlap_iff] at h
  have hxa := x.addr.isLt
  have hya := y.addr.isLt
  simp only [after, BitVec.toNat_sub, BitVec.toNat_add, BitVec.toNat_ofNat] at h ⊢
  omega

theorem State.movedLong_stores (hw : Memory.wf s.mem = true) (h : ¬destructiveOverlap x y = true)
    (hx : x.left < 2 ^ 24) (hm : m ≤ x.left) : StoresLong s x.addr y pad m (s.movedLong x y pad m) := by
  refine ⟨sweep_eq _ _ _ _, fun k hk => ?_, fun z hz => sweep_after_outside hw hz⟩
  rw [State.movedLong, sweep_after_at hw (by omega) hk, LongOperand.nth, LongOperand.nth]
  by_cases hy : k < y.left
  · rw [if_pos hy, if_pos hy, sweep_after_outside hw (source_not_yet_stored h (by omega) hy (by omega))]
  · rw [if_neg hy, if_neg hy]

theorem moveLong_complete (h : ∀ k < x.left, MoveInstalled s x y k) :
    moveLong pad x.left x.addr y s = .ok (s.movedLong x y pad x.left) :=
  moveLong_steps pad 0 h

theorem moveLong_terminated (hm : m < x.left) (h : ∀ k < m, MoveInstalled s x y k)
    (hmiss : ¬MoveInstalled s x y m) :
    moveLong pad x.left x.addr y s = .error (.program .addressing (s.movedLong x y pad m)) := by
  obtain ⟨r, hr⟩ : ∃ r, x.left = m + (r + 1) := ⟨x.left - m - 1, by omega⟩
  have hinst (b : Addr) : (s.movedLong x y pad m).installed b 1 = s.installed b 1 := sweep_installed ..
  rw [hr, moveLong_steps pad (r + 1) h, moveLong, ← State.movedLong]
  by_cases hy : y.Reaches (s.movedLong x y pad m) m
  · have hsource : y.Reaches s m := fun hlt => (hinst _).symm.trans (hy hlt)
    have hx : (s.movedLong x y pad m).installed (after x.addr m) 1 = false :=
      Bool.eq_false_of_not_eq_true fun hx => hmiss ⟨(hinst _).symm.trans hx, hsource⟩
    rw [LongOperand.byte_advance hy, ok_bind, State.store_missing (w := 8) hx, error_bind]
  · rw [LongOperand.byte_of_not_reaches hy, error_bind]

end

/-- The state MVCL leaves, without destructive overlap, when its bytes are stored in `u`. -/
def State.mvclEnd (s : State) (o : OpsRR) (u : State) : State :=
  let x := s.longOperand o.r1
  let y := s.longOperand o.r2
  ((u.setLongOperand o.r1 { addr := after x.addr x.left, left := 0 }).setLongOperand o.r2
    { addr := after y.addr (min x.left y.left), left := y.left - min x.left y.left }).setCc (ccOfOrder x.left y.left)

theorem State.mvclEnd_eq (s : State) (o : OpsRR) (u : State) :
    s.mvclEnd o u =
      let n := (s.longOperand o.r1).left
      let l := (s.longOperand o.r2).left
      let s1 := u.setGr o.r1 (0#8 ++ after (s.regTarget o.r1) n)
      let s2 := s1.setGr (o.r1 + 1) ((s1.getGr (o.r1 + 1)).extractLsb' 24 8 ++ 0#24)
      let s3 := s2.setGr o.r2 (0#8 ++ after (s.regTarget o.r2) (min n l))
      let s4 := s3.setGr (o.r2 + 1) ((s3.getGr (o.r2 + 1)).extractLsb' 24 8 ++ BitVec.ofNat 24 (l - min n l))
      s4.setCc (ccOfOrder n l) := by
  have hleft (k : Nat) : (s.longOperand o.r2).left - k < 2 ^ 24 :=
    Nat.lt_of_le_of_lt (Nat.sub_le _ k) (s.longOperand_left_lt o.r2)
  simp only [State.mvclEnd]
  rw [State.setLongOperand_eq (x := ⟨_, 0⟩) _ o.r1 (Nat.two_pow_pos 24),
    State.setLongOperand_eq (x := ⟨_, _⟩) _ o.r2 (hleft _)]
  rfl

/-- With even registers, MVCL's rule ends by the overlap, or as its loop does. -/
theorem opMvcl_even {s : State} {o : OpsRR} (h1 : o.r1.toNat % 2 = 0) (h2 : o.r2.toNat % 2 = 0) (c : Ctx) :
    opMvcl o c s =
      let x := s.longOperand o.r1
      let y := s.longOperand o.r2
      if destructiveOverlap x y then .ok (.advance (s.setCc 3))
      else moveLong ((s.getGr (o.r2 + 1)).extractLsb' 24 8) x.left x.addr y s >>= fun u =>
        .ok (.advance (s.mvclEnd o u)) := by
  simp only [State.mvclEnd, ← ccCmp_eq]
  rw [opMvcl, demandEven_even_bind h1, demandEven_even_bind h2]
  rfl

/-- Settles O46, by the step that ends the loop. The loop itself has the name `moveLong`. -/
theorem moveLong_holds : Obligations.MoveLong := by
  intro s o even1 even2 hw
  simp only [← State.longOperand_left, ← State.mvclEnd_eq]
  have hx := s.longOperand_left_lt o.r1
  have overlap := destructiveOverlap_iff (s.longOperand o.r1) (s.longOperand o.r2)
  refine ⟨fun h => call_advance ?overlapping, fun h hok => ?complete, fun h m hm hok hmiss => ?terminated⟩
  case overlapping => rw [opMvcl_even even1 even2, if_pos (overlap.2 h)]
  case complete =>
    have apart := overlap.not.2 h
    exact ⟨_, State.movedLong_stores hw apart hx le_rfl, call_advance (by
      rw [opMvcl_even even1 even2, if_neg apart, moveLong_complete hok, ok_bind])⟩
  case terminated =>
    have apart := overlap.not.2 h
    exact ⟨_, State.movedLong_stores hw apart hx hm.le, call_program (by
      rw [opMvcl_even even1 even2, if_neg apart, moveLong_terminated hm hok hmiss, error_bind])⟩

/-! ## Interlocked update (R518, R519) -/

/-- Settles O47: the alignment and the operand are checked, then the comparison decides. -/
theorem compareAndSwap : Obligations.CompareAndSwap := by
  intro s o a
  refine ⟨fun aligned h => call_advance ?cs, fun even1 even3 aligned h => call_advance ?cds⟩
  case cs =>
    rw [opCs, demand_holds_bind (beq_iff_eq.2 aligned), State.load_installed h, ok_bind,
      State.store_installed h]
    split <;> rfl
  case cds =>
    rw [opCds, demandEven_even_bind even1, demandEven_even_bind even3,
      demand_holds_bind (beq_iff_eq.2 aligned), State.load_installed h, ok_bind, State.store_installed h]
    split <;> rfl

end Sys2Proof.Machine
end

section
/-! PROOFS. The statements of `spec/44_branch.md`. A branch ends as its condition says (`call_branchIf`), and the
closed terms of the statement are the model's target, mask and comparand, said once each. EX makes its own checks
and then runs a rule (`opEx_target`), the one that the target has when it is executed directly
(`exec_eq_targetRule`). -/

namespace Sys2Proof.Machine

/-! ## Branches (R600 to R603, R610 to R615, R630 to R632) -/

theorem call_concluded {s : State} {len : Nat} {sem : Ctx → State → Effect} {e : Effect}
    (h : sem (s.ctx len) s = e) : call len sem s = .next (conclude (s.ctx len) s e) := by
  rw [call_eq, h]

theorem call_branchIf {s t : State} {len : Nat} {sem : Ctx → State → Effect} {c : Bool} {a : Addr}
    (h : sem (s.ctx len) s = branchIf c a t) : call len sem s = .next (s.branchedIf len c a t) := by
  rw [call_eq, h, conclude_branchIf]

theorem State.regTarget_eq_extractLsb' (s : State) (r : Nib) :
    s.regTarget r = (s.getGr r).extractLsb' 0 24 := BitVec.setWidth_eq_extractLsb' (by decide)

/-- The mask's bit for a CC, as a digit of the mask's value (R610). -/
theorem maskSelects_eq (m : Nib) (cc : BitVec 2) :
    maskSelects m cc = (m.toNat / 2 ^ (3 - cc.toNat) % 2 == 1) := by
  rw [maskSelects, BitVec.getLsbD, Nat.testBit_eq_decide_div_mod_eq, beq_eq_decide]

/-- A count is zero after the decrement if it was one before (R614, R615). -/
theorem sub_one_bne_zero (v : Word) : (v - 1 != 0) = (v != 1) := by
  rw [Bool.eq_iff_iff, bne_iff_ne, bne_iff_ne, sub_ne_zero]

/-- The odd register of the pair that a field names, or the field's register if it is odd (R630). -/
theorem or_one_eq : ∀ r : Nib, r ||| 1 = if r.toNat % 2 = 0 then r + 1 else r := by decide

theorem indexComparand_eq (o : OpsRS) (s : State) :
    indexComparand o s = s.getGr (if o.r3.toNat % 2 = 0 then o.r3 + 1 else o.r3) := by
  rw [indexComparand, or_one_eq]

/-- Settles O48: BAL always branches, the other forms as their condition says. -/
theorem branches : Obligations.Branches := by
  intro s
  simp only [← maskSelects_eq, ← State.regTarget_eq_extractLsb', ← indexComparand_eq, ← sub_one_bne_zero]
  exact ⟨fun o => ⟨rfl, call_branchIf rfl, call_branchIf rfl⟩,
    fun o => ⟨call_branchIf rfl, call_branchIf rfl, call_branchIf rfl⟩,
    fun o => ⟨call_branchIf rfl, call_branchIf rfl⟩⟩

/-! ## EX (R620, R621) -/

/-- A call runs the rule that the instruction has as EX's target; EX itself has none there (R903). -/
theorem exec_eq_targetRule {i : Instr} (h : ∀ o, i ≠ .ex o) (s : State) :
    exec i s = .next (conclude (s.ctx i.length) s (targetRule i (s.ctx i.length) s)) := by
  cases i
  case ex o => exact absurd rfl (h o)
  all_goals rfl

/-- An even address passes EX's first check, whatever comes after it. -/
theorem demand_even_bind {α : Type} {s : State} {t : Addr} (even : t.toNat % 2 = 0)
    (k : Unit → Except Raise α) : (demand (!t.getLsbD 0) .specification s >>= k) = k () :=
  demand_holds_bind (by rw [getLsbD_zero_of_even even, Bool.not_false]) k

/-- The copy of its target that EX decodes: field 0 puts nothing into the second byte (R620). -/
def exCopy (o : OpsRX) (s : State) : List Byte :=
  let t := s.eaRX o
  s.byteAt t :: (s.byteAt (t + 1) ||| if o.r1 = 0 then 0 else (s.getGr o.r1).extractLsb' 0 8) ::
    s.bytesAt (t + 2) (instrLength (s.byteAt t) - 2)

theorem modifiedCopy_eq_exCopy (o : OpsRX) (s : State) :
    modifiedCopy o.r1 s (s.bytesAt (s.eaRX o) (instrLength (s.byteAt (s.eaRX o)))) = exCopy o s := by
  obtain ⟨n, hn⟩ := Nat.exists_eq_add_of_le' (two_le_instrLength (s.byteAt (s.eaRX o)))
  have hnext : s.eaRX o + 1 + 1 = s.eaRX o + 2 := add_assoc _ 1 1
  rw [exCopy, hn, State.bytesAt, State.bytesAt, modifiedCopy, hnext, Nat.add_sub_cancel]
  split
  case isTrue => exact congrArg (_ :: · :: _) BitVec.or_zero.symm
  case isFalse => rfl

/-- What EX does with what its copy decoded to. -/
def decodedRule (c : Ctx) (s : State) : Except DecodeError (Instr × List Byte) → Effect
  | .ok (i, _) => targetRule i c s
  | .error _ => .error .undefinedOpcode

/-- An undefined opcode takes the action that the configuration names (R146). -/
theorem conclude_undefinedOpcode (s : State) (len : Nat) :
    conclude (s.ctx len) s (.error .undefinedOpcode) = if s.cfg.undefOpcodeAction = .returnInvalid
      then { s with result := .invalidOpcode } else s.trapped len .operation s := by
  rw [conclude, State.undefinedOpcode]
  cases s.cfg.undefOpcodeAction <;> rfl

section
variable {s : State} {o : OpsRX} (c : Ctx)

theorem opEx_odd (odd : (s.eaRX o).toNat % 2 = 1) : opEx o c s = .error (.program .specification s) :=
  demand_fails_bind (by rw [getLsbD_zero_of_odd odd, Bool.not_true]) _

theorem opEx_missing (even : (s.eaRX o).toNat % 2 = 0) (missing : s.installed (s.eaRX o) 2 = false) :
    opEx o c s = .error (.program .addressing s) := by
  rw [opEx, demand_even_bind even, demand_fails_bind missing]

theorem opEx_execute (even : (s.eaRX o).toNat % 2 = 0) (first : s.installed (s.eaRX o) 2 = true)
    (ex : s.byteAt (s.eaRX o) = 0x44) : opEx o c s = .error (.program .execute s) := by
  rw [opEx, demand_even_bind even, demand_holds_bind first, demand_fails_bind (bne_eq_false_iff_eq.2 ex)]

theorem opEx_short (even : (s.eaRX o).toNat % 2 = 0) (first : s.installed (s.eaRX o) 2 = true)
    (plain : s.byteAt (s.eaRX o) ≠ 0x44)
    (short : s.installed (s.eaRX o) (instrLength (s.byteAt (s.eaRX o))) = false) :
    opEx o c s = .error (.program .addressing s) := by
  rw [opEx, demand_even_bind even, demand_holds_bind first, demand_holds_bind (bne_iff_ne.2 plain),
    demand_fails_bind short]

/-- A target that passes EX's own checks is decoded from the copy (R620). -/
theorem opEx_fetched (even : (s.eaRX o).toNat % 2 = 0) (plain : s.byteAt (s.eaRX o) ≠ 0x44)
    (whole : s.installed (s.eaRX o) (instrLength (s.byteAt (s.eaRX o))) = true) :
    opEx o c s = decodedRule c s (decode (exCopy o s)) := by
  have first := State.installed_mono whole (two_le_instrLength _)
  rw [opEx, demand_even_bind even, demand_holds_bind first, demand_holds_bind (bne_iff_ne.2 plain),
    demand_holds_bind whole, modifiedCopy_eq_exCopy]
  rfl

theorem opEx_undefined (even : (s.eaRX o).toNat % 2 = 0) (undef : s.byteAt (s.eaRX o) ∉ opcodeBytes)
    (whole : s.installed (s.eaRX o) (instrLength (s.byteAt (s.eaRX o))) = true) :
    opEx o c s = .error .undefinedOpcode := by
  have plain : s.byteAt (s.eaRX o) ≠ 0x44 := fun ex => undef (ex ▸ by decide)
  rw [opEx_fetched c even plain whole, exCopy, decode_undefined (opcodeDefined_of_not_mem undef)]
  rfl

theorem opEx_target (even : (s.eaRX o).toNat % 2 = 0) (plain : s.byteAt (s.eaRX o) ≠ 0x44)
    (whole : s.installed (s.eaRX o) (instrLength (s.byteAt (s.eaRX o))) = true) {i : Instr}
    {rest : List Byte} (dec : decode (exCopy o s) = .ok (i, rest)) : opEx o c s = targetRule i c s := by
  rw [opEx_fetched c even plain whole, dec]
  rfl

end

/-- EX's encoding begins with its opcode, so bytes that begin otherwise decode to another instruction. -/
theorem ne_ex_of_decode {b0 : Byte} {bs rest : List Byte} {i : Instr} (h : decode (b0 :: bs) = .ok (i, rest))
    (plain : b0 ≠ 0x44) (o : OpsRX) : i ≠ .ex o := by
  rintro rfl
  have bytes : encode (.ex o) ++ rest = b0 :: bs := (encode_decode h).2
  exact plain (List.cons.inj bytes).1.symm

/-- Settles O49, by the first of EX's checks that fails; if none does, EX ends as its target's rule. -/
theorem execute : Obligations.Execute := by
  refine ⟨fun i s h => exec_eq_targetRule h s, fun s o => ?_⟩
  refine ⟨fun odd => call_program (opEx_odd _ odd), fun even missing => call_program (opEx_missing _ even missing),
    fun even first ex => call_program (opEx_execute _ even first ex),
    fun even first plain short => call_program (opEx_short _ even first plain short),
    fun even whole undef => ?undefined, fun i rest even whole plain dec => ?target⟩
  case undefined =>
    rw [← conclude_undefinedOpcode]
    exact call_concluded (opEx_undefined _ even undef whole)
  case target =>
    have runs : exec (.ex o) s = .next (conclude (s.ctx 4) s (targetRule i (s.ctx 4) s)) :=
      call_concluded (opEx_target _ even plain whole dec)
    refine ⟨runs, fun len4 => ?inPlace, fun q ar => ?sum⟩
    case inPlace => rw [runs, exec_eq_targetRule (ne_ex_of_decode dec plain), len4]
    case sum =>
      rw [runs, ar, ← conclude_signedResult]
      rfl

end Sys2Proof.Machine
end

section
/-! PROOFS. The statements of `spec/45_control.md`. In supervisor state a privileged rule goes on past its first
check, and the operand's checks decide; in problem state, as an intercepted rule in either, it ends by handing the
instruction's word to the host (`call_intercepted`), and what is left to say is the word, read off its encoding. -/

namespace Sys2Proof.Machine

/-! ## Supervisor call (R660, R917) -/

theorem call_supervisorCall {s t : State} {n : Byte} {len : Nat} {sem : Ctx → State → Effect}
    (h : sem (s.ctx len) s = .error (.supervisorCall n t)) :
    call len sem s = .next (t.svcInterrupt n (BitVec.ofNat 2 (len / 2)) (s.psw.ia + BitVec.ofNat 24 len)) :=
  call_concluded h

/-- Settles O17: SVC's rule is the raise, and nothing before it looks at the state. -/
theorem supervisorCall : Obligations.SupervisorCall := fun _ _ => call_supervisorCall rfl

/-! ## LPSW (R652, R653) -/

/-- The end of a call that loads a PSW: it is live whichever result its validation gives. -/
theorem conclude_loadPsw (c : Ctx) (s t : State) (v : DWord) :
    conclude c s (t.loadPsw v) =
      let p := Psw.unpack v
      { t with
        psw := p
        result := if p.e = true then .pswInvalid .ecMode
          else if p.w = true ∧ p.sysMask = 0 then .pswInvalid .disabledWait else .ok } := by
  simp only [State.loadPsw, Psw.rejection, Bool.and_eq_true, decide_eq_true_eq]
  split_ifs <;> rfl

section
variable {s : State} {o : OpsSI} (c : Ctx)

theorem opLpsw_unaligned (super : s.psw.p = false) (h : (s.ea o.b1 o.d1).toNat % 8 ≠ 0) :
    opLpsw o c s = .error (.program .specification s) := by
  rw [opLpsw, supervisorOnly_bind super, demand_fails_bind (beq_false_of_ne h)]

theorem opLpsw_missing (super : s.psw.p = false) (aligned : (s.ea o.b1 o.d1).toNat % 8 = 0)
    (h : s.installed (s.ea o.b1 o.d1) 8 = false) : opLpsw o c s = .error (.program .addressing s) := by
  rw [opLpsw, supervisorOnly_bind super, demand_holds_bind (beq_iff_eq.2 aligned),
    State.load_missing (w := 64) h, error_bind]

theorem opLpsw_installed (super : s.psw.p = false) (aligned : (s.ea o.b1 o.d1).toNat % 8 = 0)
    (h : s.installed (s.ea o.b1 o.d1) 8 = true) :
    opLpsw o c s = s.loadPsw (s.peek 64 (s.ea o.b1 o.d1)) := by
  rw [opLpsw, supervisorOnly_bind super, demand_holds_bind (beq_iff_eq.2 aligned),
    State.load_installed (w := 64) h, ok_bind]

end

/-- Settles O18, by the first of LPSW's checks that fails; if none does, the PSW is loaded. -/
theorem loadPsw : Obligations.LoadPsw := by
  intro s o super a p
  refine ⟨fun h => call_program (opLpsw_unaligned _ super h),
    fun aligned h => call_program (opLpsw_missing _ super aligned h), fun aligned h => ?loaded⟩
  case loaded =>
    have loaded := call_concluded (opLpsw_installed (s.ctx 4) super aligned h)
    rwa [conclude_loadPsw] at loaded

/-! ## The word that is handed to the host (R651) -/

/-- The opcodes that the word holds together with the second byte, and nothing more. -/
def extendedOpcodes : List Byte := [0x9C, 0x9D, 0x9E, 0x9F, 0xB2]

theorem privValue_opcode {op : Byte} (bs : List Byte) (h : op ∉ 0x83 :: extendedOpcodes) :
    privValue (op :: bs) = op.setWidth 32 := by
  have single : ¬extendedOpcodes.contains op = true :=
    mt List.contains_iff_mem.1 (List.not_mem_of_not_mem_cons h)
  exact (if_neg (List.ne_of_not_mem_cons h)).trans (if_neg single)

theorem privValue_encS {op b1 : Byte} (o : OpsS) (h : op ∈ extendedOpcodes) :
    privValue (encS op b1 o) = 0#16 ++ op ++ b1 := by
  have diag : op ≠ 0x83 := fun e => absurd (e ▸ h) (by decide)
  calc privValue (encS op b1 o) = (op ++ b1).setWidth 32 :=
        (if_neg diag).trans (if_pos (List.contains_iff_mem.2 h))
    _ = 0#16 ++ (op ++ b1) := BitVec.setWidth_eq_append (by decide)
    _ = 0#16 ++ op ++ b1 := (BitVec.append_assoc ..).symm

/-- Of DIAG the whole word (R673): its fields stand side by side. -/
theorem privValue_diag (o : OpsRS) :
    privValue (encode (.diag o)) = (0x83#8 ++ o.r1 ++ o.r3 ++ o.b2 ++ o.d2 : BitVec 32) := by
  have disp : o.d2.extractLsb' 8 4 ++ o.d2.extractLsb' 0 8 = o.d2 := by
    simpa only [dispOf, loNib_baseByte, dispByte] using dispOf_baseByte o.b2 o.d2
  have whole : privValue (encode (.diag o)) =
      0x83#8 ++ (o.r1 ++ o.r3) ++ (o.b2 ++ o.d2.extractLsb' 8 4) ++ o.d2.extractLsb' 0 8 := rfl
  rw [whole]
  conv_rhs => rw [← disp]
  simp only [BitVec.append_assoc, BitVec.cast_eq]

/-- Bit 15 tells two channel instructions of one opcode apart in the word (R677 to R683). -/
theorem privValue_channel {op : Byte} (fn : BitVec 7) (b : BitVec 1) (o : OpsS) (h : op ∈ extendedOpcodes) :
    privValue (encS op (fn ++ b) o) = 0#16 ++ op ++ fn ++ b := by
  rw [privValue_encS o h]
  simp only [BitVec.append_assoc, BitVec.cast_eq]

/-! ## Hand-overs (R650, R670 to R699) -/

theorem call_intercepted {s : State} {i : Instr} {v : Word} {len : Nat} {sem : Ctx → State → Effect}
    (h : sem (s.ctx len) s = intercept i) (hv : privValue (encode i) = v) :
    call len sem s = .next (s.handedOver v) := by
  rw [call_concluded h, intercept, conclude_intercepted, hv]

theorem supervisorOnly_problem_bind {α : Type} {i : Instr} {s : State} (h : s.psw.p = true)
    (k : Unit → Except Raise α) : (supervisorOnly i s >>= k) = intercept i := by
  rw [supervisorOnly, if_pos h]
  rfl

/-- Settles O20: each rule ends by its hand-over, and the word is one of R651's three forms. -/
theorem interceptions : Obligations.Interceptions := by
  simp only [Obligations.Interceptions, List.forall_mem_cons, List.not_mem_nil, false_imp_iff, implies_true,
    and_true]
  refine ⟨fun s o p problem => ?privileged, fun s x r i o fn b => ⟨?lra, ?stctl, ?lctl, ?wrd, ?rdd, ?sigp, ?diag,
    ?sio, ?siof, ?tio, ?clrio, ?hio, ?hdv, ?secondByte⟩⟩
  case privileged =>
    and_intros <;>
      exact call_intercepted (supervisorOnly_problem_bind problem _) (privValue_opcode _ (by decide))
  case lra | stctl | lctl | wrd | rdd | sigp => exact call_intercepted rfl (privValue_opcode _ (by decide))
  case diag => exact call_intercepted rfl (privValue_diag r)
  case sio | siof | tio | clrio | hio | hdv =>
    exact call_intercepted rfl (privValue_channel fn _ o (by decide))
  case secondByte =>
    and_intros <;> exact call_intercepted rfl (privValue_encS o (by decide))

/-! ## Control instructions (R654 to R658, R661, R662) -/

/-- A key's address with bits 28-31 zero: the page is that of bits 8-31 (R55, R656, R657). -/
theorem keyPage_aligned_bind {α : Type} {r : Nib} {s : State} (h : (s.getGr r).toNat % 16 = 0)
    (k : Nat → Except Raise α) : (keyPage r s >>= k) = k ((s.getGr r).toNat % 2 ^ 24 / 2048) := by
  have low : (s.getGr r).extractLsb' 0 4 = 0 := BitVec.eq_of_toNat_eq (by simpa using h)
  rw [keyPage, demand_holds_bind (decide_eq_true low), pageOf_eq_div, State.regTarget, BitVec.toNat_setWidth]
  rfl

/-- A key put into bits 24-27 of a register, with zeros after it (R656). -/
theorem insert_key (v : Word) (key : Nib) :
    (v &&& 0xFFFFFF00) ||| (key ++ 0#4 : Byte).setWidth 32 = v.extractLsb' 8 24 ++ key ++ 0#4 := by
  rw [insert_low_byte, BitVec.append_assoc]
  rfl

theorem hiNib_eq_zero {b : Byte} (h : b.toNat < 16) : hiNib b = 0 :=
  BitVec.eq_of_toNat_eq ((nibbles_toNat b).1.trans (Nat.div_eq_of_lt h))

/-- Settles O50: past their checks the rules write one mask, one key or one register. -/
theorem controlInstructions : Obligations.ControlInstructions := by
  intro s
  refine ⟨fun o super h => ⟨call_advance ?ssm, call_advance ?stnsm, call_advance ?stosm⟩,
    fun o super aligned => ⟨call_advance ?isk, call_advance ?ssk⟩, fun o => call_advance rfl,
    fun o low => call_advance ?mc⟩
  case ssm => rw [opSsm, supervisorOnly_bind super, State.load_byte h, ok_bind, pure_ok]
  case stnsm => rw [opStnsm, supervisorOnly_bind super, State.store_byte h, ok_bind, pure_ok]
  case stosm => rw [opStosm, supervisorOnly_bind super, State.store_byte h, ok_bind, pure_ok]
  case isk =>
    rw [← insert_key, opIsk, supervisorOnly_bind super, keyPage_aligned_bind aligned]
    rfl
  case ssk => rw [opSsk, supervisorOnly_bind super, keyPage_aligned_bind aligned, pure_ok]
  case mc => rw [opMc, demand_holds_bind (decide_eq_true (hiNib_eq_zero low)), pure_ok]

end Sys2Proof.Machine
end

section
/-! PROOFS. The statements of `spec/46_decimal.md`. The arithmetic instructions read their packed operands
(`State.packedPair_some`, `State.packedPair_none`) and end in one stored result (`call_decimalResult`); MVO, PACK
and UNPK are runs of right-to-left steps (`RightToLeft`) that a byte not installed cuts short; ED and EDMK run one
loop, and what it has edited when it ends is `EditedTo`. -/

namespace Sys2Proof.Machine

/-! ## Packed fields (R700 to R702) -/

/-- Half-bytes that are decimal digits before a sign code are a packed number. -/
theorem packedOfBytes_of_nibbles {bs : List Byte} {ds : List Nat} {sign : Nat}
    (hbs : nibblesOf bs = ds ++ [sign]) (digits : ∀ d ∈ ds, d ≤ 9) (code : 0xA ≤ sign) :
    packedOfBytes bs = some { mag := digitsValue ds, neg := sign == 0xB || sign == 0xD } := by
  have valid : (ds.all (· ≤ 9) && decide (0xA ≤ sign)) = true := by
    simpa only [Bool.and_eq_true, List.all_eq_true, decide_eq_true_eq] using ⟨digits, code⟩
  simp only [packedOfBytes, hbs, List.dropLast_concat, List.getLastD_concat, valid, if_true]

/-- A packed result reads back as the number it was made from. -/
theorem packedOfBytes_packedBytes {mag n : Nat} (neg : Bool) (h : mag < 10 ^ (2 * n + 1)) :
    packedOfBytes (packedBytes mag neg n) = some { mag := mag, neg := neg } := by
  rw [packedOfBytes_of_nibbles (nibblesOf_packedBytes mag neg n) ?digits (by cases neg <;> decide)]
  case digits =>
    intro d hd
    obtain ⟨i, -, rfl⟩ := List.mem_map.1 hd
    exact Nat.le_of_lt_succ (Nat.mod_lt _ (by decide))
  have value := digitsValue_range mag (2 * n + 1)
  rw [Nat.add_sub_cancel, Nat.mod_eq_of_lt h] at value
  rw [value]
  cases neg <;> rfl

/-- The last byte of a packed result: the units digit and the sign. -/
theorem packedBytes_getLastD (mag : Nat) (neg : Bool) (n : Nat) (b : Byte) :
    (packedBytes mag neg n).getLastD b = digitAt mag 0 ++ (if neg then 0xD else 0xC : Nib) := by
  induction n generalizing b with
  | zero => rfl
  | succ n ih => rw [packedBytes, List.getLastD_cons, ih]

/-- Settles O51, half-byte by half-byte. -/
theorem packedResult : Obligations.PackedResult := by
  intro n mag neg h
  refine ⟨packedBytes_length mag neg n, packedOfBytes_packedBytes neg h, ?_⟩
  rw [packedBytes_getLastD, ← (nibbles_toNat _).2, loNib_append]
  cases neg <;> rfl

/-! ## Packed operands (R701, R907, R925) -/

/-- The bytes of the first operand. -/
abbrev State.bytes1 (s : State) (o : OpsSS2) : List Byte := s.bytesAt (s.ea o.b1 o.d1) (o.l1.toNat + 1)

/-- The bytes of the second operand. -/
abbrev State.bytes2 (s : State) (o : OpsSS2) : List Byte := s.bytesAt (s.ea o.b2 o.d2) (o.l2.toNat + 1)

section
variable {s : State} {o : OpsSS2} {x y : Packed}

theorem State.field1_installed (h1 : s.installed (s.ea o.b1 o.d1) (o.l1.toNat + 1) = true) :
    s.field1 o = .ok (s.bytes1 o) := State.loadBytes_installed h1

theorem State.field2_installed (h2 : s.installed (s.ea o.b2 o.d2) (o.l2.toNat + 1) = true) :
    s.field2 o = .ok (s.bytes2 o) := State.loadBytes_installed h2

/-- With both fields installed, their codes decide. -/
theorem State.packedPair_installed (h1 : s.installed (s.ea o.b1 o.d1) (o.l1.toNat + 1) = true)
    (h2 : s.installed (s.ea o.b2 o.d2) (o.l2.toNat + 1) = true) :
    s.packedPair o = demandPacked (s.bytes1 o) s >>= fun x =>
      demandPacked (s.bytes2 o) s >>= fun y => .ok (x, y) := by
  rw [State.packedPair, State.field1_installed h1, ok_bind, State.field2_installed h2]
  rfl

theorem State.packedPair_some (h1 : s.installed (s.ea o.b1 o.d1) (o.l1.toNat + 1) = true)
    (h2 : s.installed (s.ea o.b2 o.d2) (o.l2.toNat + 1) = true) (hx : packedOfBytes (s.bytes1 o) = some x)
    (hy : packedOfBytes (s.bytes2 o) = some y) : s.packedPair o = .ok (x, y) := by
  rw [State.packedPair_installed h1 h2, demandPacked_some hx, ok_bind, demandPacked_some hy, ok_bind]

/-- An invalid code in either field. -/
theorem State.packedPair_none (h1 : s.installed (s.ea o.b1 o.d1) (o.l1.toNat + 1) = true)
    (h2 : s.installed (s.ea o.b2 o.d2) (o.l2.toNat + 1) = true)
    (h : packedOfBytes (s.bytes1 o) = none ∨ packedOfBytes (s.bytes2 o) = none) :
    s.packedPair o = .error (.program .data s) := by
  rw [State.packedPair_installed h1 h2]
  cases hx : packedOfBytes (s.bytes1 o) with
  | none => rw [demandPacked_none hx, error_bind]
  | some x =>
    rw [demandPacked_some hx, ok_bind, demandPacked_none (h.resolve_left (by rw [hx]; nofun)), error_bind]

end

/-! ## Decimal results (R703, R910) -/

/-- The end of a decimal instruction that stores `mag` and its sign in the `l + 1` bytes at `a`. -/
def State.decimalEnd (s : State) (a : Addr) (l mag : Nat) (neg ovf : Bool) : State :=
  let t := (s.setBytes a (packedBytes mag neg l)).setCc (ccDecimal ovf mag neg)
  if ovf && s.psw.pm.getLsbD 2 then s.trapped 6 .decimalOverflow t else s.completed 6 t

section
variable {s : State} {a : Addr} {l mag : Nat} {neg ovf : Bool} {sem : Ctx → State → Effect}

theorem conclude_decimalResult (h : s.installed a (l + 1) = true) :
    conclude (s.ctx 6) s (decimalResult a l mag neg ovf s) = s.decimalEnd a l mag neg ovf := by
  have pm : ((s.setBytes a (packedBytes mag neg l)).setCc (ccDecimal ovf mag neg)).psw.pmDo =
      s.psw.pm.getLsbD 2 := by
    rw [State.setCc_psw, State.setBytes_psw]
    rfl
  rw [decimalResult, decWrite_installed h, ok_bind, State.decimalEnd]
  dsimp only
  rw [pm]
  split <;> rfl

theorem call_decimalResult (h : s.installed a (l + 1) = true)
    (hsem : sem (s.ctx 6) s = decimalResult a l mag neg ovf s) :
    call 6 sem s = .next (s.decimalEnd a l mag neg ovf) := by
  rw [call_eq, hsem, conclude_decimalResult h]

/-- The end of a decimal instruction, in the terms of the statements. -/
theorem State.decimalEnd_eq (s : State) (a : Addr) (l mag : Nat) (neg : Bool) (lost : Prop) [Decidable lost] :
    s.decimalEnd a l mag neg (decide lost) =
      let t := (s.setBytes a (packedBytes mag neg l)).setCc
        (if lost then 3 else if mag = 0 then 0 else if neg then 1 else 2)
      if lost ∧ s.psw.pm.getLsbD 2 = true then s.trapped 6 .decimalOverflow t else s.completed 6 t := by
  simp only [State.decimalEnd, ccDecimal, Bool.and_eq_true, decide_eq_true_eq]

/-- The result's first byte that is not installed ends the instruction before the CC is set (log 5). -/
theorem decimalResult_missing {m : Nat} (hm : m ≤ l) (h : s.installed a m = true)
    (hmiss : s.installed (after a m) 1 = false) :
    decimalResult a l mag neg ovf s =
      .error (.program .addressing (s.setBytes a ((packedBytes mag neg l).take m))) := by
  rw [decimalResult, decWrite_missing hm h hmiss, error_bind]

end

/-- The CC that the low-order digits and their sign give is the exact value's, 3 if digits are lost (R703). -/
theorem ccDecimal_eq (cap : Nat) (v : Int) :
    ccDecimal (decide (cap ≤ v.natAbs)) (v.natAbs % cap)
        (decide (v < 0) && (decide (v.natAbs % cap ≠ 0) || decide (cap ≤ v.natAbs))) =
      if cap ≤ v.natAbs then 3 else if v = 0 then 0 else if v < 0 then 1 else 2 := by
  by_cases overflow : cap ≤ v.natAbs
  · simp only [ccDecimal, overflow, decide_true, if_true]
  · rw [Nat.mod_eq_of_lt (Nat.lt_of_not_le overflow)]
    by_cases zero : v = 0
    · subst zero; simp [ccDecimal]
    · simp [ccDecimal, overflow, zero]

/-- `DecFinish` for the result of AP, SP and ZAP, in the terms of their statement (R703). -/
def State.finished (s : State) (a : Addr) (l : Nat) (v : Int) : State :=
  let cap := 10 ^ (2 * l + 1)
  let m := v.natAbs % cap
  let neg := decide (v < 0) && (decide (m ≠ 0) || decide (cap ≤ v.natAbs))
  let t := (s.setBytes a (packedBytes m neg l)).setCc
    (if cap ≤ v.natAbs then 3 else if v = 0 then 0 else if v < 0 then 1 else 2)
  if cap ≤ v.natAbs ∧ s.psw.pm.getLsbD 2 = true then s.trapped 6 .decimalOverflow t else s.completed 6 t

theorem call_decFinish {s : State} {a : Addr} {l : Nat} {v : Int} {sem : Ctx → State → Effect}
    (h : s.installed a (l + 1) = true) (hsem : sem (s.ctx 6) s = decFinish a l v s) :
    call 6 sem s = .next (s.finished a l v) := by
  rw [call_decimalResult h hsem, State.decimalEnd, ccDecimal_eq]
  simp only [State.finished, Bool.and_eq_true, decide_eq_true_eq]

/-! ## AP, SP, ZAP and CP (R710 to R713) -/

section
variable {s : State} {o : OpsSS2} {y : Packed} (c : Ctx)

/-- ZAP reads its second operand alone. -/
theorem opZap_some (h2 : s.installed (s.ea o.b2 o.d2) (o.l2.toNat + 1) = true)
    (hy : packedOfBytes (s.bytes2 o) = some y) :
    opZap o c s = decFinish (s.ea o.b1 o.d1) o.l1.toNat (packedValue y) s := by
  rw [opZap, State.field2_installed h2, ok_bind, demand_holds_bind (by rw [hy]; rfl), demandPacked_some hy]
  rfl

/-- With an invalid code, ZAP's destination is checked first (R925, log 5). -/
theorem opZap_none (h2 : s.installed (s.ea o.b2 o.d2) (o.l2.toNat + 1) = true)
    (hy : packedOfBytes (s.bytes2 o) = none) :
    opZap o c s = .error (.program
      (if s.installed (s.ea o.b1 o.d1) (o.l1.toNat + 1) then .data else .addressing) s) := by
  rw [opZap, State.field2_installed h2, ok_bind, hy, Option.isSome_none, Bool.false_or]
  cases h1 : s.installed (s.addr1 o) (o.l1.toNat + 1) with
  | false => rw [demand_fails_bind rfl, show s.installed (s.ea o.b1 o.d1) _ = false from h1]; rfl
  | true =>
    rw [demand_holds_bind rfl, demandPacked_none hy, show s.installed (s.ea o.b1 o.d1) _ = true from h1]
    rfl

end

/-- Settles O52: the two operands' numbers, or ZAP's one, give the exact result that `decFinish` stores. -/
theorem decimalArithmetic : Obligations.DecimalArithmetic := by
  intro s o h1 h2
  refine ⟨fun x y hx hy => ?valid, fun y hy => ?zap, fun bad => ?invalid, fun bad => call_program ?zapInvalid⟩
  case valid =>
    have pair := State.packedPair_some h1 h2 hx hy
    refine ⟨call_decFinish h1 ?ap, call_decFinish h1 ?sp, call_advance ?cp⟩
    case ap => rw [opAp, pair]; rfl
    case sp => rw [opSp, pair]; rfl
    case cp => rw [← ccCmp_eq, opCp, pair]; rfl
  case zap => exact call_decFinish h1 (opZap_some _ h2 hy)
  case invalid =>
    have pair := State.packedPair_none h1 h2 bad
    simp only [List.forall_mem_cons, List.not_mem_nil, false_imp_iff, implies_true, and_true]
    refine ⟨call_program ?ap, call_program ?sp, call_program ?cp⟩
    case ap => rw [opAp, pair, error_bind]
    case sp => rw [opSp, pair, error_bind]
    case cp => rw [opCp, pair, error_bind]
  case zapInvalid => rw [opZap_none _ h2 bad, h1]; rfl

theorem packedValue_natAbs (x : Packed) : (packedValue x).natAbs = x.mag := by
  unfold packedValue
  split <;> simp

theorem packedValue_neg_iff (x : Packed) : packedValue x < 0 ↔ x.neg = true ∧ x.mag ≠ 0 := by
  unfold packedValue
  split <;> simp [*, Nat.pos_iff_ne_zero]

/-- A minus sign counts only before a number that is not zero (R703). -/
theorem negative_result_eq (y : Packed) {cap : Nat} (hcap : 0 < cap) :
    (decide (packedValue y < 0) && (decide (y.mag % cap ≠ 0) || decide (cap ≤ y.mag))) =
      (y.neg && (decide (y.mag % cap ≠ 0) || decide (cap ≤ y.mag))) := by
  by_cases zero : y.mag = 0
  · have none_lost : ¬cap ≤ 0 := by omega
    simp [zero, none_lost]
  · simp [packedValue_neg_iff, zero]

/-- Settles O53: the stores of `decFinish` go as far as the destination is installed. -/
theorem zapDestination : Obligations.ZapDestination := by
  intro s o m h2 hm h hmiss
  refine ⟨fun y hy => call_program ?stored, fun bad => call_program ?invalid⟩
  case stored =>
    rw [opZap_some _ h2 hy, decFinish, decimalResult_missing hm h hmiss, packedValue_natAbs,
      negative_result_eq y (Nat.pow_pos (by decide))]
  case invalid =>
    have missing : s.installed (s.ea o.b1 o.d1) (o.l1.toNat + 1) = false :=
      Bool.eq_false_of_not_eq_true fun all => by
        rw [State.installed_after all (Nat.lt_add_one_of_le hm)] at hmiss
        cases hmiss
    rw [opZap_none _ h2 bad, missing]
    rfl

/-! ## MP and DP (R714, R715) -/

theorem lengthsOk_eq_true {o : OpsSS2} (h7 : o.l2.toNat ≤ 7) (hlt : o.l2.toNat < o.l1.toNat) :
    lengthsOk o = true := by
  simp only [lengthsOk, h7, hlt, decide_true, Bool.and_self]

/-- Part of an installed run is installed. -/
theorem State.installed_part {s : State} {a : Addr} {n k m : Nat} (h : s.installed a n = true) (hkm : k + m ≤ n) :
    s.installed (after a k) m = true := by
  rw [State.installed_iff] at h ⊢
  intro j hj
  have shifted : after a k + BitVec.ofNat 24 j = a + BitVec.ofNat 24 (k + j) := by
    rw [after, BitVec.add_assoc, ← BitVec.ofNat_add]
  rw [shifted]
  exact h (k + j) (by omega)

@[simp] theorem State.setBytes_installed (s : State) (a : Addr) (bs : List Byte) (b : Addr) (n : Nat) :
    (s.setBytes a bs).installed b n = s.installed b n := State.installed_congr (State.setBytes_cfg s a bs) b n

section
variable {s : State} {o : OpsSS2} {x y : Packed} (c : Ctx)

theorem opMp_valid (hl : lengthsOk o = true) (h1 : s.installed (s.ea o.b1 o.d1) (o.l1.toNat + 1) = true)
    (pair : s.packedPair o = .ok (x, y)) :
    opMp o c s =
      if 10 ^ (2 * (o.l1.toNat - o.l2.toNat) - 1) ≤ x.mag then .error (.program .data s)
      else .ok (.advance
        (s.setBytes (s.ea o.b1 o.d1) (packedBytes (x.mag * y.mag) (xor x.neg y.neg) o.l1.toNat))) := by
  rw [opMp, demand_holds_bind hl, pair, ok_bind]
  dsimp only
  split
  case isTrue large => exact demand_fails_bind (decide_eq_false (Nat.not_lt.2 large)) _
  case isFalse small =>
    have product := decWrite_installed h1 (x.mag * y.mag) (xor x.neg y.neg)
    rw [demand_holds_bind (decide_eq_true (Nat.lt_of_not_le small)), State.addr1, product]
    rfl

theorem opDp_valid (hl : lengthsOk o = true) (hlt : o.l2.toNat < o.l1.toNat)
    (h1 : s.installed (s.ea o.b1 o.d1) (o.l1.toNat + 1) = true) (pair : s.packedPair o = .ok (x, y)) :
    let a := s.ea o.b1 o.d1
    let d := o.l1.toNat - o.l2.toNat
    opDp o c s =
      if y.mag = 0 ∨ 10 ^ (2 * d - 1) ≤ x.mag / y.mag then .error (.program .decimalDivide s)
      else .ok (.advance ((s.setBytes a (packedBytes (x.mag / y.mag) (xor x.neg y.neg) (d - 1))).setBytes
        (after a d) (packedBytes (x.mag % y.mag) x.neg o.l2.toNat))) := by
  intro a d
  have fits : (decide (y.mag ≠ 0) && decide (x.mag / y.mag < 10 ^ (2 * d - 1))) =
      !decide (y.mag = 0 ∨ 10 ^ (2 * d - 1) ≤ x.mag / y.mag) := by
    simp only [← decide_not, not_or, Nat.not_le, Bool.decide_and, ne_eq]
  rw [opDp, demand_holds_bind hl, pair, ok_bind]
  dsimp only
  rw [fits]
  split
  case isTrue bad => rw [decide_eq_true bad, Bool.not_true, demand_fails_bind rfl]
  case isFalse good =>
    have quotient := decWrite_installed (s := s) (a := a) (l := d - 1)
      (State.installed_mono h1 (by omega)) (x.mag / y.mag) (xor x.neg y.neg)
    have remainder := decWrite_installed
      (s := s.setBytes a (packedBytes (x.mag / y.mag) (xor x.neg y.neg) (d - 1))) (a := after a d)
      (l := o.l2.toNat) (by rw [State.setBytes_installed]; exact State.installed_part h1 (by omega))
      (x.mag % y.mag) x.neg
    rw [decide_eq_false good, Bool.not_false, demand_holds_bind rfl]
    change (decWrite a (d - 1) _ _ s >>= fun t => decWrite (after a d) _ _ _ t >>= fun u =>
      .ok (Completion.advance u)) = _
    rw [quotient, ok_bind, remainder, ok_bind]

end

/-- The ends of a call whose rule makes one last check. -/
theorem call_checked {s t : State} {len : Nat} {sem : Ctx → State → Effect} {code : ProgramCode} {p : Prop}
    [Decidable p] (h : sem (s.ctx len) s = if p then .error (.program code s) else .ok (.advance t)) :
    call len sem s = .next (if p then s.trapped len code s else s.completed len t) := by
  rw [call_eq, h]
  split <;> rfl

/-- Settles O54: the lengths, the codes and the size of the result are checked in this order. -/
theorem decimalMultiplyDivide : Obligations.DecimalMultiplyDivide := by
  intro s o h7 hlt h1 h2
  have lengths := lengthsOk_eq_true h7 hlt
  refine ⟨fun x y hx hy => ?valid, fun bad => ?invalid⟩
  case valid =>
    have pair := State.packedPair_some h1 h2 hx hy
    exact ⟨call_checked (opMp_valid _ lengths h1 pair), call_checked (opDp_valid _ lengths hlt h1 pair)⟩
  case invalid =>
    have pair := State.packedPair_none h1 h2 bad
    simp only [List.forall_mem_cons, List.not_mem_nil, false_imp_iff, implies_true, and_true]
    refine ⟨call_program ?mp, call_program ?dp⟩
    case mp => rw [opMp, demand_holds_bind lengths, pair, error_bind]
    case dp => rw [opDp, demand_holds_bind lengths, pair, error_bind]

/-! ## SRP (R716) -/

/-- Shifting right by at least one digit, the rounding carry cannot lengthen the number. -/
theorem rounded_lt {mag cap r k : Nat} (hmag : mag < cap) (hr : r ≤ 9) :
    (mag + r * 10 ^ k) / 10 ^ (k + 1) < cap := by
  have pos : 0 < 10 ^ k := Nat.pow_pos (by decide)
  have round : r * 10 ^ k ≤ 9 * 10 ^ k := Nat.mul_le_mul_right _ hr
  rw [Nat.div_lt_iff_lt_mul (Nat.pow_pos (by decide)), pow_succ]
  nlinarith

/-- SRP's exact result: the digits shifted left, or right after the rounding digit is added to the last one lost. -/
def srpExact (n round mag : Nat) : Nat :=
  if n < 32 then mag * 10 ^ n else (mag + round * 10 ^ (63 - n)) / 10 ^ (64 - n)

section
variable {s : State} {o : OpsSS2} {x : Packed}

/-- Either way SRP stores the low-order digits of the exact result; only a shift to the left can lose some. -/
theorem opSrp_valid (c : Ctx) {n : Nat} (hn : s.shiftCount o.b2 o.d2 = n)
    (h1 : s.installed (s.ea o.b1 o.d1) (o.l1.toNat + 1) = true) (hround : o.l2.toNat ≤ 9)
    (hx : packedOfBytes (s.bytes1 o) = some x) :
    let cap := 10 ^ (2 * o.l1.toNat + 1)
    let value := srpExact n o.l2.toNat x.mag
    opSrp o c s = decimalResult (s.ea o.b1 o.d1) o.l1.toNat (value % cap)
      (x.neg && (decide (value % cap ≠ 0) || decide (cap ≤ value))) (decide (cap ≤ value)) s := by
  intro cap value
  have digits : x.mag < cap := mag_lt_of_packedOfBytes hx (State.bytesAt_length _ _ _)
  have range : n < 64 := hn ▸ Nat.mod_lt _ (by decide)
  rw [opSrp, State.field1_installed h1, ok_bind, demand_holds_bind (decide_eq_true hround), demandPacked_some hx,
    ok_bind, hn]
  dsimp only
  split
  case isTrue left =>
    have shifted : value = x.mag * 10 ^ n := if_pos (Nat.lt_succ_of_le left)
    rw [shifted]
    rfl
  case isFalse right =>
    obtain ⟨k, hk⟩ : ∃ k, 64 - n = k + 1 := ⟨63 - n, by omega⟩
    have shifted : value = (x.mag + o.l2.toNat * 10 ^ k) / 10 ^ (k + 1) := by
      simp only [value]
      rw [srpExact, if_neg (by omega), hk, show 63 - n = k by omega]
    have fits : value < cap := shifted ▸ rounded_lt digits hround
    rw [Nat.mod_eq_of_lt fits, decide_eq_false (Nat.not_le.2 fits), Bool.or_false, hk, Nat.add_sub_cancel, shifted]
    rfl

theorem opSrp_invalid (c : Ctx) (h1 : s.installed (s.ea o.b1 o.d1) (o.l1.toNat + 1) = true)
    (h : 9 < o.l2.toNat ∨ packedOfBytes (s.bytes1 o) = none) : opSrp o c s = .error (.program .data s) := by
  rw [opSrp, State.field1_installed h1, ok_bind]
  by_cases hround : o.l2.toNat ≤ 9
  · rw [demand_holds_bind (decide_eq_true hround), demandPacked_none (h.resolve_left (Nat.not_lt.2 hround)),
      error_bind]
  · rw [demand_fails_bind (decide_eq_false hround)]

end

/-- Settles O55: the exact shifted number ends as every decimal result does. -/
theorem decimalShift : Obligations.DecimalShift := by
  intro s o h1
  refine ⟨fun bad => call_program (opSrp_invalid _ h1 bad), fun x hround hx => ?_⟩
  exact (call_decimalResult h1 (opSrp_valid _ rfl h1 hround hx)).trans (by rw [State.decimalEnd_eq]; rfl)

/-! ## CVB and CVD (R720, R721) -/

/-- A value, as a packed number. -/
def packedOfInt (v : Int) : Packed := { mag := v.natAbs, neg := decide (v < 0) }

theorem packedValue_packedOfInt (v : Int) : packedValue (packedOfInt v) = v := by
  simp only [packedValue, packedOfInt, decide_eq_true_eq]
  split <;> omega

section
variable {s : State} {o : OpsRX}

/-- The state that CVD leaves. -/
def State.convertedToDecimal (s : State) (o : OpsRX) : State :=
  s.completed 4 (s.setBytes (s.eaRX o)
    (packedBytes (s.getGr o.r1).toInt.natAbs (decide ((s.getGr o.r1).toInt < 0)) 7))

theorem call_cvd (h : s.installed (s.eaRX o) 8 = true) :
    call 4 (opCvd o) s = .next (s.convertedToDecimal o) :=
  call_advance (by rw [opCvd, State.storeBytes_installed (by rwa [packedBytes_length])]; rfl)

/-- CVB loads its number; one that does not fit is loaded truncated before the exception (D28). -/
theorem call_cvb_some {x : Packed} (h : s.installed (s.eaRX o) 8 = true)
    (hx : packedOfBytes (s.bytesAt (s.eaRX o) 8) = some x) :
    let t := s.setGr o.r1 (BitVec.ofInt 32 (packedValue x))
    call 4 (opCvb o) s = .next
      (if overflows 32 (packedValue x) then s.trapped 4 .fixedDivide t else s.completed 4 t) := by
  have loaded (c : Ctx) : opCvb o c s =
      let t := s.setGr o.r1 (BitVec.ofInt 32 (packedValue x))
      demand (!overflows 32 (packedValue x)) .fixedDivide t >>= fun _ => .ok (.advance t) := by
    rw [opCvb, State.loadBytes_installed h, ok_bind, demandPacked_some hx, ok_bind, fitsSigned_eq]
    rfl
  rw [call_eq, loaded]
  cases overflows 32 (packedValue x) <;> rfl

theorem call_cvb_none (h : s.installed (s.eaRX o) 8 = true)
    (hx : packedOfBytes (s.bytesAt (s.eaRX o) 8) = none) :
    call 4 (opCvb o) s = .next (s.trapped 4 .data s) :=
  call_program (by rw [opCvb, State.loadBytes_installed h, ok_bind, demandPacked_none hx, error_bind])

end

/-- Settles O56, from the ends of CVD and CVB. -/
theorem decimalConversion : Obligations.DecimalConversion := fun _ _ h =>
  ⟨call_cvd h, fun _ hx => call_cvb_some h hx, fun hx => call_cvb_none h hx⟩

/-- A register's value has at most 15 digits. -/
theorem toInt_natAbs_lt (v : Word) : v.toInt.natAbs < 10 ^ (2 * 7 + 1) := by
  have low := v.le_toInt
  have high := v.toInt_lt
  norm_num at low high ⊢
  omega

theorem overflows_toInt (v : Word) : overflows 32 v.toInt = false := by
  have low := v.le_toInt
  have high := v.toInt_lt
  rw [overflows, decide_eq_false_iff_not]
  omega

/-- CVD's bytes read back as the register's value. -/
theorem packed_convertedToDecimal {s : State} (hw : Memory.wf s.mem = true) (o : OpsRX) :
    packedOfBytes ((s.convertedToDecimal o).bytesAt (s.eaRX o) 8) = some (packedOfInt (s.getGr o.r1).toInt) := by
  have stored := State.bytesAt_setBytes hw (s.eaRX o)
    (packedBytes (s.getGr o.r1).toInt.natAbs (decide ((s.getGr o.r1).toInt < 0)) 7)
    (by rw [packedBytes_length]; decide)
  rw [packedBytes_length] at stored
  have read : (s.convertedToDecimal o).bytesAt (s.eaRX o) 8 = _ := (State.bytesAt_congr rfl _ _).trans stored
  rw [read]
  exact packedOfBytes_packedBytes _ (toInt_natAbs_lt _)

/-- Settles O57: what CVD stored is read back, and it fits the register. -/
theorem conversionRoundTrip : Obligations.ConversionRoundTrip := by
  intro s t o q hw h ht hea
  obtain rfl : s.convertedToDecimal o = t := Host.Outcome.next.inj ((call_cvd h).symm.trans ht)
  have inst : (s.convertedToDecimal o).installed (s.eaRX o) 8 = true :=
    (State.installed_congr (State.setBytes_cfg s _ _) _ _).trans h
  have back := call_cvb_some (s := s.convertedToDecimal o) (o := q) (by rwa [hea])
    (by rw [hea]; exact packed_convertedToDecimal hw o)
  simp only [packedValue_packedOfInt, overflows_toInt, Bool.false_eq_true, if_false, BitVec.ofInt_toInt] at back
  exact ⟨_, back, State.getGr_completed_setGr _, rfl, rfl⟩

/-! ## MVO, PACK and UNPK: right-to-left steps (R705, R717 to R719) -/

/-- The byte that step `k` of a right-to-left loop stores is installed, and so is every byte it fetches from an
operand of `n + 1` bytes that ends at `b`. -/
def StepInstalled (s : State) (e b : Addr) (n : Nat) (reads : Nat → List Nat) (k : Nat) : Prop :=
  s.installed (before e k) 1 = true ∧ ∀ j ∈ reads k, j ≤ n → s.installed (before b j) 1 = true

/-- `s` after `m` right-to-left steps up to `e`, the byte of step `k` computed by `byte` from the state it finds. -/
def State.storedUpTo (s : State) (e : Addr) (byte : State → Nat → Byte) (m : Nat) : State :=
  sweep (before e) (fun k u => byte u k) m s

/-- The byte of step `k` depends on a state only by what the steps up to `k` see of it. -/
def SeesBefore (s : State) (e : Addr) (byte : State → Nat → Byte) : Prop :=
  ∀ (k : Nat) (u v : State), (∀ j ≤ k, ∀ x, seenBefore s u e j x = seenBefore s v e j x) → byte u k = byte v k

/-- `u` is `s` with `m` bytes stored up to `e`, each the one that `byte` says of `u` itself. -/
def StoredUpTo (s : State) (e : Addr) (byte : State → Nat → Byte) (m : Nat) (u : State) : Prop :=
  u = { s with mem := u.mem } ∧ (∀ k < m, u.byteAt (before e k) = byte u k) ∧
    ∀ x : Addr, m ≤ (e - x).toNat → u.byteAt x = s.byteAt x

section
variable {s : State} {e b : Addr} {n : Nat} {byte : State → Nat → Byte} {reads : Nat → List Nat}

theorem stepInstalled_storedUpTo {m k : Nat} :
    StepInstalled (s.storedUpTo e byte m) e b n reads k ↔ StepInstalled s e b n reads k := by
  simp only [StepInstalled, State.storedUpTo, sweep_installed]

/-- What a step stored from what it saw, it stored from what the final state shows of that. -/
theorem State.storedUpTo_stored (hw : Memory.wf s.mem = true) (sees : SeesBefore s e byte) {m : Nat}
    (hm : m ≤ 2 ^ 24) : StoredUpTo s e byte m (s.storedUpTo e byte m) := by
  refine ⟨sweep_eq _ _ _ _, fun k hk => ?_, fun x hx => sweep_before_outside hw hx⟩
  rw [State.storedUpTo, sweep_before_at hw hm hk]
  exact sees k _ _ fun j hj x => sweep_seenBefore_earlier hw hj hk.le hm x

theorem rightHalf_congr {u v : State} {j k : Nat} (h : ∀ x, seenBefore s u e k x = seenBefore s v e k x) :
    rightHalf s u e b n k j = rightHalf s v e b n k j := by
  simp only [rightHalf, h]

theorem leftHalf_congr {u v : State} {j k : Nat} (h : ∀ x, seenBefore s u e k x = seenBefore s v e k x) :
    leftHalf s u e b n k j = leftHalf s v e b n k j := by
  simp only [leftHalf, h]

theorem offsetByte_sees : SeesBefore s e fun u k => offsetByte s u e b n k := by
  intro k u v h
  simp only [offsetByte, rightHalf_congr (h k le_rfl), leftHalf_congr (h (k - 1) (Nat.sub_le k 1))]

theorem packByte_sees : SeesBefore s e fun u k => packByte s u e b n k := by
  intro k u v h
  simp only [packByte, rightHalf_congr (h k le_rfl)]

theorem unpackByte_sees : SeesBefore s e fun u k => unpackByte s u e b n k := by
  intro k u v h
  simp only [unpackByte, rightHalf_congr (h k le_rfl), leftHalf_congr (h (k - 1) (Nat.sub_le k 1))]

/-- The first store of a right-to-left loop. -/
theorem State.store_first (hi : s.installed e 1 = true) {v : Byte} (hv : v = byte s 0) :
    s.store e v = .ok (s.storedUpTo e byte 1) :=
  sweep_store (k := 0) (before_zero e).symm hv hi

end

/-- `run` stores `l + 1` bytes up to the end of the operand at `a1`, and a byte that is not installed ends it with
those to its right stored. -/
structure RightToLeft (s : State) (a1 a2 : Addr) (l n : Nat) (byte : State → Nat → Byte)
    (reads : Nat → List Nat) (run : Except Raise State) : Prop where
  sees : SeesBefore s (after a1 l) byte
  complete : (∀ k ≤ l, StepInstalled s (after a1 l) (after a2 n) n reads k) →
    run = .ok (s.storedUpTo (after a1 l) byte (l + 1))
  terminated : ∀ m ≤ l, (∀ k < m, StepInstalled s (after a1 l) (after a2 n) n reads k) →
    ¬StepInstalled s (after a1 l) (after a2 n) n reads m →
    run = .error (.program .addressing (s.storedUpTo (after a1 l) byte m))

/-- A call ends as the run does that its rule makes. -/
theorem RightToLeft.call {s : State} {a1 a2 : Addr} {l n : Nat} {byte : State → Nat → Byte}
    {reads : Nat → List Nat} {run : Except Raise State} {sem : Ctx → State → Effect}
    (hrun : RightToLeft s a1 a2 l n byte reads run) (hw : Memory.wf s.mem = true) (hl : l < 2 ^ 24)
    (hsem : sem (s.ctx 6) s = run >>= fun u => .ok (.advance u)) :
    ((∀ k ≤ l, StepInstalled s (after a1 l) (after a2 n) n reads k) →
      ∃ u, StoredUpTo s (after a1 l) byte (l + 1) u ∧ call 6 sem s = .next (s.completed 6 u)) ∧
    ∀ m ≤ l, (∀ k < m, StepInstalled s (after a1 l) (after a2 n) n reads k) →
      ¬StepInstalled s (after a1 l) (after a2 n) n reads m →
      ∃ u, StoredUpTo s (after a1 l) byte m u ∧ call 6 sem s = .next (s.trapped 6 .addressing u) := by
  refine ⟨fun h => ⟨_, State.storedUpTo_stored hw hrun.sees hl, call_advance ?_⟩,
    fun m hm h hmiss => ⟨_, State.storedUpTo_stored hw hrun.sees (by omega), call_program ?_⟩⟩
  · rw [hsem, hrun.complete h, ok_bind]
  · rw [hsem, hrun.terminated m hm h hmiss, error_bind]

/-- A byte is loaded and one computed from it stored elsewhere: the access fails if either is not installed. -/
theorem load_compute_store_missing {α : Type} {s : State} {x y : Addr}
    (h : ¬(s.installed x 1 = true ∧ s.installed y 1 = true)) (f : Byte → Byte) (k : Byte → State → Except Raise α) :
    (s.load 8 y >>= fun p => s.store x (f p) >>= k p) = .error (.program .addressing s) := by
  cases hy : s.installed y 1 with
  | false => rw [State.load_missing (w := 8) hy, error_bind]
  | true =>
    have hx := Bool.eq_false_of_not_eq_true fun hx => h ⟨hx, hy⟩
    rw [State.load_byte hy, ok_bind, State.store_missing (w := 8) hx, error_bind]

theorem State.store_missing_bind {α : Type} {s : State} {x : Addr} (h : ¬s.installed x 1 = true) (v : Byte)
    (k : State → Except Raise α) : (s.store x v >>= k) = .error (.program .addressing s) := by
  rw [State.store_missing (w := 8) (Bool.eq_false_of_not_eq_true h), error_bind]

/-- A length code's last byte. -/
theorem lastByte_eq (a : Addr) (l : Nib) : a + l.setWidth 24 = after a l.toNat := by
  unfold after
  congr 1
  apply BitVec.eq_of_toNat_eq
  simp

/-- A source byte, counted from the left or from the right end. -/
theorem after_eq_before (a : Addr) {n j : Nat} (hj : j ≤ n) : a + BitVec.ofNat 24 (n - j) = before (after a n) j := by
  obtain ⟨i, rfl⟩ := Nat.exists_eq_add_of_le hj
  rw [before_after, Nat.add_sub_cancel_left]
  rfl

/-- A step after the first, in a loop that has `r` more bytes to store after it. -/
theorem stepInstalled_succ {u : State} {a1 b : Addr} {n m r : Nat} {reads : Nat → List Nat} :
    StepInstalled u (after a1 (m + (r + 1))) b n reads (m + 1) ↔
      u.installed (after a1 r) 1 = true ∧ ∀ j ∈ reads (m + 1), j ≤ n → u.installed (before b j) 1 = true := by
  rw [StepInstalled, show m + (r + 1) = m + 1 + r by omega, before_after]

/-- A run whose first step goes by itself and the others by a loop; `loop i m x u` has made `m + 1` steps, has `i`
more to make, and carries `x`. -/
theorem rightToLeft_of_loop {γ : Type} {s : State} {a1 a2 : Addr} {l n : Nat} {byte : State → Nat → Byte}
    {reads : Nat → List Nat} {run : Except Raise State} (loop : Nat → Nat → γ → State → Except Raise State)
    (sees : SeesBefore s (after a1 l) byte)
    (first : ¬StepInstalled s (after a1 l) (after a2 n) n reads 0 → run = .error (.program .addressing s))
    (steps : ∀ m i, l = m + i → (∀ k ≤ m, StepInstalled s (after a1 l) (after a2 n) n reads k) →
      ∃ x, run = loop i m x (s.storedUpTo (after a1 l) byte (m + 1)))
    (done : ∀ m x u, loop 0 m x u = .ok u)
    (missing : ∀ m r x u, l = m + (r + 1) → ¬StepInstalled u (after a1 l) (after a2 n) n reads (m + 1) →
      loop (r + 1) m x u = .error (.program .addressing u)) :
    RightToLeft s a1 a2 l n byte reads run where
  sees := sees
  complete h := by
    obtain ⟨x, hrun⟩ := steps l 0 rfl h
    rw [hrun, done]
  terminated m hm h hmiss := by
    cases m with
    | zero => exact first hmiss
    | succ m =>
      obtain ⟨r, hl⟩ : ∃ r, l = m + (r + 1) := ⟨l - m - 1, by omega⟩
      obtain ⟨x, hrun⟩ := steps m (r + 1) hl fun k hk => h k (Nat.lt_succ_of_le hk)
      rw [hrun, missing m r x _ hl (stepInstalled_storedUpTo.not.2 hmiss)]

/-! ### MVO (R717) -/

/-- MVO's accesses to storage, from its addresses and lengths. -/
def offsetBytes (a1 a2 : Addr) (l n : Nat) (s : State) : Except Raise State :=
  s.load 8 (after a1 l) >>= fun x => s.load 8 (after a2 n) >>= fun y =>
    s.store (after a1 l) (loNib y ++ loNib x) >>= moveOffset a1 a2 l n (hiNib y)

theorem opMvo_eq (o : OpsSS2) (c : Ctx) (s : State) :
    opMvo o c s = offsetBytes (s.ea o.b1 o.d1) (s.ea o.b2 o.d2) o.l1.toNat o.l2.toNat s >>= fun u =>
      .ok (.advance u) := by
  simp only [opMvo, offsetBytes, lastByte_eq, bind_assoc]
  rfl

section
variable {s u : State} {a1 a2 : Addr} {l n m r : Nat}

/-- R717's loop at a byte that is not installed. -/
theorem moveOffset_missing (hi : Nib)
    (h : ¬StepInstalled u (after a1 (m + (r + 1))) (after a2 n) n (fun k => [k]) (m + 1)) :
    moveOffset a1 a2 (r + 1) (n - m) hi u = .error (.program .addressing u) := by
  simp only [stepInstalled_succ, List.mem_singleton, forall_eq] at h
  by_cases hmn : m + 1 ≤ n
  · rw [show n - m = n - (m + 1) + 1 by omega, moveOffset, after_eq_before a2 hmn]
    exact load_compute_store_missing (fun both => h ⟨both.1, fun _ => both.2⟩) _ _
  · rw [show n - m = 0 by omega, moveOffset]
    exact State.store_missing_bind (fun ha => h ⟨ha, fun hle => absurd hle hmn⟩) _ _

theorem offsetBytes_rightToLeft (hw : Memory.wf s.mem = true) (hl : l < 2 ^ 24) :
    RightToLeft s a1 a2 l n (fun u k => offsetByte s u (after a1 l) (after a2 n) n k) (fun k => [k])
      (offsetBytes a1 a2 l n s) := by
  refine rightToLeft_of_loop (fun i m hi => moveOffset a1 a2 i (n - m) hi) offsetByte_sees (fun hmiss => ?first)
    (fun m i hmi h => ?steps) (fun m x u => rfl) (fun m r x u hmr hmiss => ?missing)
  case first =>
    simp only [StepInstalled, List.mem_singleton, forall_eq, before_zero, Nat.zero_le, true_implies] at hmiss
    exact load_load_missing (y := fun _ => after a2 n) hmiss _
  case steps =>
    subst hmi
    have inst : ∀ k ≤ m, s.installed (before (after a1 (m + i)) k) 1 = true ∧
        (k ≤ n → s.installed (before (after a2 n) k) 1 = true) :=
      fun k hk => ⟨(h k hk).1, (h k hk).2 k (List.mem_singleton_self k)⟩
    obtain ⟨he, hb⟩ := inst 0 (Nat.zero_le m)
    rw [before_zero] at he hb
    have stored := State.store_first (byte := fun u k => offsetByte s u (after a1 (m + i)) (after a2 n) n k)
      (v := loNib (s.byteAt (after a2 n)) ++ loNib (s.byteAt (after a1 (m + i)))) he rfl
    rw [offsetBytes, State.load_byte he, ok_bind, State.load_byte (hb (Nat.zero_le n)), ok_bind, stored, ok_bind]
    exact ⟨_, moveOffset_steps i hw hl inst⟩
  case missing => exact moveOffset_missing x (hmr ▸ hmiss)

end

/-! ### The rightmost byte of PACK and UNPK (R718, R719) -/

/-- PACK's and UNPK's accesses to storage: the rightmost byte with its halves swapped, then a loop. -/
def swapBytes (a1 a2 : Addr) (l n : Nat) (loop : State → Except Raise State) (s : State) : Except Raise State :=
  s.load 8 (after a2 n) >>= fun p => s.store (after a1 l) (loNib p ++ hiNib p) >>= loop

theorem opPack_eq (o : OpsSS2) (c : Ctx) (s : State) :
    opPack o c s = swapBytes (s.ea o.b1 o.d1) (s.ea o.b2 o.d2) o.l1.toNat o.l2.toNat
      (packLoop (s.ea o.b1 o.d1) (s.ea o.b2 o.d2) o.l1.toNat o.l2.toNat) s >>= fun u => .ok (.advance u) := by
  simp only [opPack, swapRightmost, swapBytes, lastByte_eq, bind_assoc]
  rfl

theorem opUnpk_eq (o : OpsSS2) (c : Ctx) (s : State) :
    opUnpk o c s = swapBytes (s.ea o.b1 o.d1) (s.ea o.b2 o.d2) o.l1.toNat o.l2.toNat
      (unpackLoop (s.ea o.b1 o.d1) (s.ea o.b2 o.d2) o.l1.toNat o.l2.toNat none) s >>= fun u =>
        .ok (.advance u) := by
  simp only [opUnpk, swapRightmost, swapBytes, lastByte_eq, bind_assoc]
  rfl

section
variable {s u : State} {a1 a2 : Addr} {l n m r : Nat} {loop : State → Except Raise State}

theorem swapBytes_missing {reads : Nat → List Nat} (h0 : ∀ j ∈ reads 0, j = 0)
    (h : ¬StepInstalled s (after a1 l) (after a2 n) n reads 0) :
    swapBytes a1 a2 l n loop s = .error (.program .addressing s) := by
  refine load_compute_store_missing (fun both => h ⟨?_, fun j hj _ => ?_⟩) _ _
  · rw [before_zero]; exact both.1
  · rw [h0 j hj, before_zero]; exact both.2

theorem swapBytes_first {reads : Nat → List Nat} {byte : State → Nat → Byte} (h0 : 0 ∈ reads 0)
    (hbyte : byte s 0 = loNib (s.byteAt (after a2 n)) ++ hiNib (s.byteAt (after a2 n)))
    (h : StepInstalled s (after a1 l) (after a2 n) n reads 0) :
    swapBytes a1 a2 l n loop s = loop (s.storedUpTo (after a1 l) byte 1) := by
  obtain ⟨he, hb⟩ := h
  have hb := hb 0 h0 (Nat.zero_le n)
  rw [before_zero] at he hb
  rw [swapBytes, State.load_byte hb, ok_bind, State.store_first he hbyte.symm, ok_bind]

/-! ### PACK (R718) -/

/-- The source bytes that step `k` of PACK fetches, by their distance from the right end. -/
def packReads (k : Nat) : List Nat := [2 * k - 1, 2 * k]

theorem packDigit_missing {j : Nat} (hj : j + 1 ≤ n)
    (h : ¬u.installed (before (after a2 n) (j + 1)) 1 = true) :
    packDigit a2 (n - j) u = .error (.program .addressing u) := by
  rw [show n - j = n - (j + 1) + 1 by omega, packDigit, after_eq_before a2 hj,
    State.load_missing (w := 8) (Bool.eq_false_of_not_eq_true h)]
  rfl

/-- R718's loop at a byte that is not installed. -/
theorem packLoop_missing (h : ¬StepInstalled u (after a1 (m + (r + 1))) (after a2 n) n packReads (m + 1)) :
    packLoop a1 a2 (r + 1) (n - 2 * m) u = .error (.program .addressing u) := by
  have reads : packReads (m + 1) = [2 * m + 1, 2 * m + 1 + 1] := rfl
  rw [stepInstalled_succ, reads] at h
  simp only [List.forall_mem_cons, List.not_mem_nil, false_imp_iff, implies_true, and_true] at h
  rw [packLoop, Nat.sub_sub]
  by_cases lo : 2 * m + 1 ≤ n → u.installed (before (after a2 n) (2 * m + 1)) 1 = true
  · rw [packDigit_eq lo, ok_bind]
    by_cases hi : 2 * m + 1 + 1 ≤ n → u.installed (before (after a2 n) (2 * m + 1 + 1)) 1 = true
    · rw [packDigit_eq hi, ok_bind]
      exact State.store_missing_bind (fun ha => h ⟨ha, lo, hi⟩) _ _
    · obtain ⟨hle, hmiss⟩ := Classical.not_imp.1 hi
      rw [packDigit_missing hle hmiss, error_bind]
  · obtain ⟨hle, hmiss⟩ := Classical.not_imp.1 lo
    rw [packDigit_missing hle hmiss, error_bind]

theorem packBytes_rightToLeft (hw : Memory.wf s.mem = true) (hl : l < 2 ^ 24) :
    RightToLeft s a1 a2 l n (fun u k => packByte s u (after a1 l) (after a2 n) n k) packReads
      (swapBytes a1 a2 l n (packLoop a1 a2 l n) s) := by
  refine rightToLeft_of_loop (γ := Unit) (fun i m _ => packLoop a1 a2 i (n - 2 * m)) packByte_sees
    (swapBytes_missing (by decide)) (fun m i hmi h => ⟨(), ?steps⟩) (fun m x u => rfl)
    (fun m r x u hmr hmiss => packLoop_missing (hmr ▸ hmiss))
  case steps =>
    subst hmi
    rw [swapBytes_first (byte := fun u k => packByte s u (after a1 (m + i)) (after a2 n) n k) (by decide) rfl
      (h 0 (Nat.zero_le m))]
    exact packLoop_steps i hw hl h

/-! ### UNPK (R719) -/

/-- The source bytes that step `k` of UNPK fetches: one for its right half, none for the left half before it. -/
def unpackReads (k : Nat) : List Nat := if k % 2 = 1 ∨ k = 0 then [(k + 1) / 2] else []

/-- R719's loop at a byte that is not installed; a left half is pending after an odd number of bytes. -/
theorem unpackLoop_missing (d : Nib)
    (h : ¬StepInstalled u (after a1 (m + (r + 1))) (after a2 n) n unpackReads (m + 1)) :
    unpackLoop a1 a2 (r + 1) (n - (m + 1) / 2) (if m % 2 = 1 ∧ (m + 1) / 2 ≤ n then some d else none) u =
      .error (.program .addressing u) := by
  rw [stepInstalled_succ] at h
  by_cases odd : m % 2 = 1
  · have reads : unpackReads (m + 1) = [] := if_neg (by omega)
    have ha : ¬u.installed (after a1 r) 1 = true := fun ha => h ⟨ha, by rw [reads]; nofun⟩
    by_cases hmn : (m + 1) / 2 ≤ n
    · rw [if_pos ⟨odd, hmn⟩, unpackLoop]
      exact State.store_missing_bind ha _ _
    · rw [if_neg (fun both => hmn both.2), show n - (m + 1) / 2 = 0 by omega, unpackLoop]
      exact State.store_missing_bind ha _ _
  · have reads : unpackReads (m + 1) = [(m + 1) / 2 + 1] := by
      rw [unpackReads, if_pos (by omega), show (m + 1 + 1) / 2 = (m + 1) / 2 + 1 by omega]
    simp only [reads, List.mem_singleton, forall_eq] at h
    rw [if_neg (fun both => odd both.1)]
    by_cases hmn : (m + 1) / 2 + 1 ≤ n
    · rw [show n - (m + 1) / 2 = n - ((m + 1) / 2 + 1) + 1 by omega, unpackLoop, after_eq_before a2 hmn]
      exact load_compute_store_missing (fun both => h ⟨both.1, fun _ => both.2⟩) _ _
    · rw [show n - (m + 1) / 2 = 0 by omega, unpackLoop]
      exact State.store_missing_bind (fun ha => h ⟨ha, fun hle => absurd hle hmn⟩) _ _

theorem unpackBytes_rightToLeft (hw : Memory.wf s.mem = true) (hl : l < 2 ^ 24) :
    RightToLeft s a1 a2 l n (fun u k => unpackByte s u (after a1 l) (after a2 n) n k) unpackReads
      (swapBytes a1 a2 l n (unpackLoop a1 a2 l n none) s) := by
  refine rightToLeft_of_loop
    (fun i m d => unpackLoop a1 a2 i (n - (m + 1) / 2) (if m % 2 = 1 ∧ (m + 1) / 2 ≤ n then some d else none))
    unpackByte_sees (swapBytes_missing (by decide)) (fun m i hmi h => ?steps) (fun m x u => by rw [unpackLoop])
    (fun m r d u hmr hmiss => unpackLoop_missing d (hmr ▸ hmiss))
  case steps =>
    subst hmi
    rw [swapBytes_first (byte := fun u k => unpackByte s u (after a1 (m + i)) (after a2 n) n k) (by decide) rfl
      (h 0 (Nat.zero_le m))]
    exact ⟨_, unpackLoop_steps i hw hl h⟩

end

/-- Settles O58: each of the three is a right-to-left run, and a call ends as it does. -/
theorem formatMoves : Obligations.FormatMoves := by
  intro s o hw
  have hl : o.l1.toNat < 2 ^ 24 := by have := o.l1.isLt; omega
  exact ⟨(offsetBytes_rightToLeft hw hl).call hw hl (opMvo_eq o _ s),
    (packBytes_rightToLeft hw hl).call hw hl (opPack_eq o _ s),
    (unpackBytes_rightToLeft hw hl).call hw hl (opUnpk_eq o _ s)⟩

/-! ## ED and EDMK (R722, R723) -/

theorem withMark_setCc (mark : Bool) (a : Addr) (m : Option Nat) (s : State) (cc : BitVec 2) :
    (State.withMark mark a m s).setCc cc = State.withMark mark a m (s.setCc cc) := by
  cases m <;> cases mark <;> rfl

/-- Editing begins with no significance, at the left half of the first source byte. -/
def editStart (src : Addr) : EditState := { sig := false, nz := false, src := src, pend := none }

/-- What editing over lists begins with. -/
def scanStart : EditScan := { sig := false, nonzero := false, half := none, marked := none }

theorem editStart_matches (src : Addr) : (editStart src).Matches scanStart := ⟨rfl, rfl, rfl⟩

/-- The CC of the last field, from what editing ends with (R722). -/
def State.setCcOfScan (e : EditScan) (t : State) : State :=
  t.setCc (if e.nonzero then (if e.sig then 1 else 2) else 0)

theorem setCc_of_matches {e : EditState} {es : EditScan} (hsig : e.sig = es.sig) (hnz : e.nz = es.nonzero)
    (t : State) : t.setCc (if e.nz then (if e.sig then 1 else 2) else 0) = State.setCcOfScan es t := by
  rw [hsig, hnz, State.setCcOfScan]

section
variable {s u : State} {o : OpsSS} {mark : Bool}

/-- The loop of ED and EDMK on the operands of an SS instruction. -/
def State.editAll (s : State) (o : OpsSS) (mark : Bool) : Except Raise (EditState × State) :=
  editLoop mark (s.byteAt (s.ea o.b1 o.d1)) (o.l.toNat + 1) (s.ea o.b1 o.d1) (editStart (s.ea o.b2 o.d2)) s

theorem edit_missing (h : s.installed (s.ea o.b1 o.d1) 1 = false) :
    edit mark o s = .error (.program .addressing s) := by
  rw [edit, State.load_missing (w := 8) h, error_bind]

/-- With the fill byte installed, editing ends as its loop does. -/
theorem edit_of_loop (h : s.installed (s.ea o.b1 o.d1) 1 = true) {e : EditState} {es : EditScan}
    (hloop : s.editAll o mark = .ok (e, u)) (hsig : e.sig = es.sig) (hnz : e.nz = es.nonzero) :
    edit mark o s = .ok (.advance (State.setCcOfScan es u)) := by
  rw [edit, State.load_byte h, ok_bind, ← setCc_of_matches hsig hnz]
  exact congrArg (· >>= _) hloop

theorem edit_of_raise (h : s.installed (s.ea o.b1 o.d1) 1 = true) {r : Raise}
    (hloop : s.editAll o mark = .error r) : edit mark o s = .error r := by
  rw [edit, State.load_byte h, ok_bind]
  exact congrArg (· >>= _) hloop

/-- Nothing stored in the first operand reaches a source that lies apart from it. -/
theorem after_ne_of_apart {a b : Addr} {l n i j : Nat} (hl : l < (b - a).toNat) (hn : n ≤ (a - b).toNat)
    (hi : i < n) (hj : j < l + 1) : after b i ≠ after a j := by
  intro same
  have ha := a.isLt
  have hb := b.isLt
  have same := congrArg BitVec.toNat same
  simp only [after, BitVec.toNat_sub, BitVec.toNat_add, BitVec.toNat_ofNat] at hl hn same
  omega

/-- On operands that lie apart the rule stores what `editBytes` gives. -/
theorem edit_apart (hw : Memory.wf s.mem = true) {n : Nat} {out : List Byte} {es : EditScan}
    (h1 : s.installed (s.ea o.b1 o.d1) (o.l.toNat + 1) = true) (h2 : s.installed (s.ea o.b2 o.d2) n = true)
    (hl : o.l.toNat < (s.ea o.b2 o.d2 - s.ea o.b1 o.d1).toNat)
    (hn : n ≤ (s.ea o.b1 o.d1 - s.ea o.b2 o.d2).toNat)
    (hedit : editBytes (s.byteAt (s.ea o.b1 o.d1)) 0 (s.bytesAt (s.ea o.b1 o.d1) (o.l.toNat + 1))
      (s.bytesAt (s.ea o.b2 o.d2) n) scanStart = some (out, es)) :
    edit mark o s = .ok (.advance (State.withMark mark (s.ea o.b1 o.d1) es.marked
      (State.setCcOfScan es (s.setBytes (s.ea o.b1 o.d1) out)))) := by
  obtain ⟨e, hloop, hsig, hnz⟩ := editLoop_eq mark (s.byteAt (s.ea o.b1 o.d1)) (s.ea o.b1 o.d1) (o.l.toNat + 1) 0
    (editStart (s.ea o.b2 o.d2)) scanStart n s out es hw (by have := o.l.isLt; omega) (editStart_matches _)
    (by rwa [after_zero]) h2
    (fun i hi j hj => by rw [Nat.zero_add]; exact after_ne_of_apart hl hn hi hj) (by rwa [after_zero])
  rw [after_zero] at hloop
  rw [edit_of_loop (State.installed_head h1) hloop hsig hnz, State.setCcOfScan, withMark_setCc]
  rfl

/-! ### Byte after byte, on any operands (R83, R722) -/

/-- `s` edited up to its pattern byte `m`: `u` with the scan `es`, after `n` source bytes, all of them installed. -/
structure EditedTo (s : State) (o : OpsSS) (m n : Nat) (u : State) (es : EditScan) : Prop where
  pattern : s.installed (s.ea o.b1 o.d1) m = true
  source : s.installed (s.ea o.b2 o.d2) n = true
  run : editRun s (s.ea o.b1 o.d1) (s.ea o.b2 o.d2) m = some (u, n, es)

/-- The next pattern byte is installed, and so is the source byte, if it fetches one. -/
def NextInstalled (s : State) (o : OpsSS) (m n : Nat) (u : State) (es : EditScan) : Prop :=
  s.installed (after (s.ea o.b1 o.d1) m) 1 = true ∧
    (es.Fetches (u.byteAt (after (s.ea o.b1 o.d1) m)) → s.installed (after (s.ea o.b2 o.d2) n) 1 = true)

variable {m n : Nat} {es : EditScan}

/-- The loop goes through as far as the operands are edited. -/
theorem EditedTo.loop (h : EditedTo s o m n u es) {r : Nat} (hr : o.l.toNat + 1 = m + r) (mark : Bool) :
    ∃ e, s.editAll o mark = editLoop mark (s.byteAt (s.ea o.b1 o.d1)) r (after (s.ea o.b1 o.d1) m) e
        (State.withMark mark (s.ea o.b1 o.d1) es.marked u) ∧
      e.Matches es ∧ e.src = after (s.ea o.b2 o.d2) n := by
  rw [State.editAll, hr]
  exact editLoop_steps mark r h.run h.pattern h.source

/-- All of the pattern is edited. -/
theorem EditedTo.complete (h : EditedTo s o m n u es) (hm : m = o.l.toNat + 1) (mark : Bool) :
    edit mark o s = .ok (.advance (State.setCcOfScan es (State.withMark mark (s.ea o.b1 o.d1) es.marked u))) := by
  obtain ⟨e, hloop, ⟨hsig, hnz, -⟩, -⟩ := h.loop (r := 0) hm.symm mark
  exact edit_of_loop (State.installed_mono h.pattern (by omega)) hloop hsig hnz

/-- Where the next byte is not installed, or its digit code is above 9, the loop ends. -/
theorem EditedTo.stops (h : EditedTo s o m n u es) (hm : m ≤ o.l.toNat) (mark : Bool) :
    let t := State.withMark mark (s.ea o.b1 o.d1) es.marked u
    (¬NextInstalled s o m n u es → s.editAll o mark = .error (.program .addressing t)) ∧
    (NextInstalled s o m n u es → editRun s (s.ea o.b1 o.d1) (s.ea o.b2 o.d2) (m + 1) = none →
      s.editAll o mark = .error (.program .data t)) := by
  intro t
  obtain ⟨r, hr⟩ : ∃ r, o.l.toNat + 1 = m + (r + 1) := ⟨o.l.toNat - m, by omega⟩
  obtain ⟨e, hloop, hmatch, hsrc⟩ := h.loop hr mark
  obtain ⟨missing, data⟩ := editLoop_stop mark (s.byteAt (s.ea o.b1 o.d1)) (s.ea o.b1 o.d1) m r (u := u) hmatch
  simp only [editRun_installed h.run, hsrc] at missing data
  rw [hloop]
  refine ⟨missing, fun hok hnone => data hok ?_⟩
  rw [editRun, h.run] at hnone
  dsimp only at hnone
  split at hnone
  case h_1 hbytes => exact hbytes
  case h_2 => cases hnone

theorem EditedTo.missing (h : EditedTo s o m n u es) (hm : m ≤ o.l.toNat) (hmiss : ¬NextInstalled s o m n u es)
    (mark : Bool) :
    edit mark o s = .error (.program .addressing (State.withMark mark (s.ea o.b1 o.d1) es.marked u)) := by
  cases hfill : s.installed (s.ea o.b1 o.d1) 1 with
  | true => exact edit_of_raise hfill ((h.stops hm mark).1 hmiss)
  | false =>
    -- the fill byte is the first pattern byte, so nothing has been edited
    obtain rfl : m = 0 := by
      by_contra hpos
      rw [State.installed_mono h.pattern (Nat.one_le_iff_ne_zero.2 hpos)] at hfill
      cases hfill
    obtain ⟨rfl, -, rfl⟩ : s = u ∧ 0 = n ∧ scanStart = es := by
      simpa only [editRun, scanStart, Option.some.injEq, Prod.mk.injEq] using h.run
    rw [edit_missing hfill]
    rfl

theorem EditedTo.data (h : EditedTo s o m n u es) (hm : m ≤ o.l.toNat) (hok : NextInstalled s o m n u es)
    (hnone : editRun s (s.ea o.b1 o.d1) (s.ea o.b2 o.d2) (m + 1) = none) (mark : Bool) :
    edit mark o s = .error (.program .data (State.withMark mark (s.ea o.b1 o.d1) es.marked u)) := by
  have fill : s.installed (s.ea o.b1 o.d1) 1 = true := by
    cases m with
    | zero => rw [← after_zero (s.ea o.b1 o.d1)]; exact hok.1
    | succ m => exact State.installed_head h.pattern
  exact edit_of_raise fill ((h.stops hm mark).2 hok hnone)

end

/-- Settles O59; ED and EDMK differ in the mark alone. The rule itself has the name `edit`. -/
theorem edit_holds : Obligations.Edit := by
  intro s o hw
  simp only [List.forall_mem_cons, List.not_mem_nil, false_imp_iff, implies_true, and_true]
  refine ⟨fun n out es h1 h2 hl hn hedit => ?apart, fun m n u es hm hpattern hsource hrun => ?bytewise⟩
  case apart =>
    exact ⟨call_advance (sem := opEd o) (edit_apart hw h1 h2 hl hn hedit),
      call_advance (sem := opEdmk o) (edit_apart hw h1 h2 hl hn hedit)⟩
  case bytewise =>
    have edited : EditedTo s o m n u es := ⟨hpattern, hsource, hrun⟩
    exact ⟨⟨fun hm => call_advance (sem := opEd o) (edited.complete hm false),
        fun hm hmiss => call_program (sem := opEd o) (edited.missing hm hmiss false),
        fun hm hok hnone => call_program (sem := opEd o) (edited.data hm hok hnone false)⟩,
      fun hm => call_advance (sem := opEdmk o) (edited.complete hm true),
      fun hm hmiss => call_program (sem := opEdmk o) (edited.missing hm hmiss true),
      fun hm hok hnone => call_program (sem := opEdmk o) (edited.data hm hok hnone true)⟩

end Sys2Proof.Machine
end

section
/-! PROOFS. The statements of `spec/60_exceptions.md`. A run goes on because every call answers a next state
(`step_answers`). The slots of an interruption lie apart, so that LPSW finds at the old one what was stored there
(`exec_lpsw_of_interrupt`). Of operands that are not installed, each checked access ends by the same exception
whatever was to follow it, and so does each shape of instruction that begins with one. -/

namespace Sys2Proof.Machine

/-! ## Runs (R900) -/

theorem exec_answers (i : Instr) (s : State) : ∃ t, exec i s = .next t := by
  by_cases ex : ∃ o, i = .ex o
  · obtain ⟨o, rfl⟩ := ex
    exact ⟨_, rfl⟩
  · exact ⟨_, exec_eq_targetRule (fun o ho => ex ⟨o, ho⟩) s⟩

/-- Whatever a call's fetch finds, the call has a next state. -/
theorem step_answers (s : State) : ∃ t, step s = .next t := by
  cases hw : s.psw.w with
  | true => exact ⟨_, step_wait hw⟩
  | false =>
    cases hf : s.fetch s.psw.ia with
    | odd => exact ⟨_, step_odd hw hf⟩
    | notInstalled => exact ⟨_, step_notInstalled hw hf⟩
    | undefined op => exact ⟨_, step_undefined hw hf⟩
    | instr i => rw [step_instr hw hf]; exact exec_answers i s

theorem run_succ_of_step {s t : State} (k : Nat) (h : step s = .next t) :
    Host.Core.run core (k + 1) s = Host.Core.run core k t := by
  have answer : core.step s = .next t := h
  simp only [Host.Core.run, answer]

/-- Settles O7, by induction on the number of calls: each has a next state and keeps the invariant. -/
theorem runsAreSafe : Obligations.RunsAreSafe := by
  intro k
  induction k with
  | zero => exact fun s hs => ⟨s, rfl, hs⟩
  | succ k ih =>
    intro s hs
    obtain ⟨t, ht⟩ := step_answers s
    obtain ⟨u, hu, hinv⟩ := ih t (invariantKept s t hs ht)
    exact ⟨u, (run_succ_of_step k ht).trans hu, hinv⟩

/-! ## Taking an interruption (R930, R931) -/

/-- The 8 bytes of the new PSW lie outside the old one's. -/
def SlotsApart (old new : Addr) : Prop := ∀ k < 8, 8 ≤ (new + BitVec.ofNat 24 k - old).toNat

theorem programSlots_apart : SlotsApart programOldPsw programNewPsw := by unfold SlotsApart; decide

theorem svcSlots_apart : SlotsApart svcOldPsw svcNewPsw := by unfold SlotsApart; decide

section
variable {s : State} {old new : Addr} (code : Half) (ilc : BitVec 2) (ia : Addr)

/-- The old PSW's slot holds the interrupted PSW, with code, ILC and IA put in. -/
theorem State.unpack_interrupt_old (hw : Memory.wf s.mem = true) (apart : SlotsApart old new) :
    Psw.unpack ((s.interrupt old new code ilc ia).peek 64 old) =
      { s.psw with intCode := code, ilc := ilc, ia := ia } := by
  rw [(s.interrupt_spec hw old new code ilc ia apart).1, Psw.unpack_pack]

/-- What an interruption stores, keeps and loads. -/
theorem State.interrupt_entry (hw : Memory.wf s.mem = true) (apart : SlotsApart old new) :
    let t := s.interrupt old new code ilc ia
    Psw.unpack (t.peek 64 old) = { s.psw with intCode := code, ilc := ilc, ia := ia } ∧
      (∀ x : Addr, 8 ≤ (x - old).toNat → t.byteAt x = s.byteAt x) ∧
      t = { s with mem := t.mem, psw := Psw.unpack (s.peek 64 new), result := .ok } :=
  ⟨State.unpack_interrupt_old code ilc ia hw apart,
    fun _ outside => State.byteAt_interrupt_of_outside hw outside new code ilc ia,
    (s.interrupt_spec hw old new code ilc ia apart).2⟩

end

theorem setWidth_byte_eq_zero_append (n : Byte) : n.setWidth 16 = 0#8 ++ n :=
  BitVec.setWidth_eq_append (by decide)

/-- Settles O16: an interruption's entry, at the slots and with the codes of the two classes. -/
theorem interruptionEntry : Obligations.InterruptionEntry := by
  intro s ilc ia hw
  refine ⟨fun p hp => ?program, fun n => ?svc⟩
  case program =>
    have coded : interruptionCode p.1 = p.2 := by
      revert p
      decide
    rw [← coded]
    exact State.interrupt_entry _ ilc ia hw programSlots_apart
  case svc =>
    rw [← setWidth_byte_eq_zero_append]
    exact State.interrupt_entry _ ilc ia hw svcSlots_apart

/-! ## Return from a handler (R940) -/

/-- Base field 0 adds nothing to the displacement (R31, R130). -/
theorem State.ea_zero (s : State) (d : Disp) : s.ea 0 d = d.setWidth 24 := BitVec.zero_add _

/-- The storage that R9 guarantees holds every doubleword that ends below 128. -/
theorem State.installed_low_doubleword {s : State} (h : s.cfg.wf = true) {a : Addr} (ha : a.toNat ≤ 120) :
    s.installed a 8 = true := by
  refine State.installed_low s h a 8 fun k hk => ?_
  rw [BitVec.toNat_add, BitVec.toNat_ofNat]
  omega

/-- LPSW of an aligned doubleword in low storage whose PSW is neither in EC mode nor in the wait state. -/
theorem exec_lpsw_low {t : State} {d : Disp} {p : Psw} (i2 : Byte) (hcfg : t.cfg.wf = true)
    (super : t.psw.p = false) (aligned : d.toNat % 8 = 0) (low : d.toNat ≤ 120)
    (stored : Psw.unpack (t.peek 64 (d.setWidth 24)) = p) (he : p.e = false) (hw : p.w = false) :
    exec (.lpsw { i2 := i2, b1 := 0, d1 := d }) t = .next { t with psw := p, result := .ok } := by
  obtain ⟨-, -, loaded⟩ := loadPsw t { i2 := i2, b1 := 0, d1 := d } super
  have value : (d.setWidth 24).toNat = d.toNat := BitVec.toNat_setWidth_of_le (by decide)
  simp only [State.ea_zero, value, stored, he, hw, Bool.false_eq_true, false_and, if_false] at loaded
  exact loaded aligned (State.installed_low_doubleword hcfg (value ▸ low))

/-- LPSW of the old PSW's slot, right after the interruption that filled it. -/
theorem exec_lpsw_of_interrupt {s : State} {d : Disp} {new : Addr} (i2 : Byte) (code : Half) (ilc : BitVec 2)
    (ia : Addr) (hs : s.Inv) (he : s.psw.e = false) (hw : s.psw.w = false) (aligned : d.toNat % 8 = 0)
    (low : d.toNat ≤ 120) (apart : SlotsApart (d.setWidth 24) new) :
    let t := s.interrupt (d.setWidth 24) new code ilc ia
    t.psw.p = false →
      exec (.lpsw { i2 := i2, b1 := 0, d1 := d }) t = .next
        { t with psw := { s.psw with intCode := code, ilc := ilc, ia := ia } } := by
  intro t super
  obtain ⟨hmem, -, hcfg⟩ := hs
  have installed : t.cfg.wf = true := (congrArg Config.wf (State.interrupt_cfg ..)).trans hcfg
  exact exec_lpsw_low i2 installed super aligned low (State.unpack_interrupt_old code ilc ia hmem apart) he hw

/-- Settles O19: of either class, the slot that LPSW addresses is the one the interruption stored to. -/
theorem handlerReturn : Obligations.HandlerReturn := by
  intro s ilc ia i2 hs he hw
  refine ⟨fun code => ?program, fun n => ?svc⟩
  case program =>
    exact exec_lpsw_of_interrupt (d := 40) i2 (interruptionCode code) ilc ia hs he hw (by decide) (by decide)
      programSlots_apart
  case svc =>
    rw [← setWidth_byte_eq_zero_append]
    exact exec_lpsw_of_interrupt (d := 32) i2 (n.setWidth 16) ilc ia hs he hw (by decide) (by decide) svcSlots_apart

/-! ## Checked accesses that fail (R82, R905) -/

section
variable {α : Type} {s : State} {a : Addr}

theorem State.load_fails_bind {w : Nat} (h : s.installed a (w / 8) = false) (k : BitVec w → Except Raise α) :
    (s.load w a >>= k) = .error (.program .addressing s) := by
  rw [State.load_missing h, error_bind]

theorem State.store_fails_bind {w : Nat} {v : BitVec w} (h : s.installed a (w / 8) = false)
    (k : State → Except Raise α) : (s.store a v >>= k) = .error (.program .addressing s) := by
  rw [State.store_missing h, error_bind]

theorem State.loadBytes_fails_bind {n : Nat} (h : s.installed a n = false) (k : List Byte → Except Raise α) :
    (s.loadBytes a n >>= k) = .error (.program .addressing s) := by
  rw [State.loadBytes_missing h, error_bind]

theorem State.storeBytes_fails_bind {bs : List Byte} (h : s.installed a bs.length = false)
    (k : State → Except Raise α) : (s.storeBytes a bs >>= k) = .error (.program .addressing s) := by
  rw [State.storeBytes_missing h, error_bind]

theorem State.wordRX_fails_bind {o : OpsRX} (h : s.installed (s.eaRX o) 4 = false)
    (k : Word → Except Raise α) : (s.wordRX o >>= k) = .error (.program .addressing s) :=
  State.load_fails_bind h k

theorem State.dwordRX_fails_bind {o : OpsRX} (h : s.installed (s.eaRX o) 8 = false)
    (k : DWord → Except Raise α) : (s.dwordRX o >>= k) = .error (.program .addressing s) :=
  State.load_fails_bind h k

theorem State.halfRX_fails_bind {o : OpsRX} (h : s.installed (s.eaRX o) 2 = false)
    (k : Word → Except Raise α) : (s.halfRX o >>= k) = .error (.program .addressing s) := by
  rw [State.halfRX, State.load_fails_bind (w := 16) h, error_bind]

end

/-! ## Shapes of instructions with an operand that is not installed -/

section
variable {s : State}

theorem logicalImm_missing {o : OpsSI} (f : Byte → Byte → Byte) (h : s.installed (s.ea o.b1 o.d1) 1 = false) :
    logicalImm f o s = .error (.program .addressing s) := State.load_fails_bind h _

/-- A floating-point register that exists lets the rule go on (R35). -/
theorem floatReg_mem_bind {α : Type} {r : Nib} (hr : r ∈ [(0 : Nib), 2, 4, 6]) {k : Fin 4 → Except Raise α}
    {e : Except Raise α} (hk : ∀ a, k a = e) : (floatReg r s >>= k) = e := by
  obtain ⟨a, ha⟩ := Option.ne_none_iff_exists'.1 (mt (frPlace_eq_none_iff r).1 (not_not_intro hr))
  rw [floatReg_place_bind ha, hk]

theorem State.loadHfp_short_missing {a : Addr} (h : s.installed a 4 = false) :
    s.loadHfp .short a = .error (.program .addressing s) := State.load_fails_bind (w := 32) h _

theorem State.loadHfp_long_missing {a : Addr} (h : s.installed a 8 = false) :
    s.loadHfp .long a = .error (.program .addressing s) := State.load_fails_bind (w := 64) h _

theorem arithRX_raised {f : HfpFormat} {o : OpsRX} {e : Raise} (rule : Fin 4 → Hfp → Hfp → State → Effect)
    (hr : o.r1 ∈ [(0 : Nib), 2, 4, 6]) (hy : s.loadHfp f (s.eaRX o) = .error e) :
    arithRX f o rule s = .error e :=
  floatReg_mem_bind hr fun _ => by rw [hy, error_bind]

section
variable {α : Type} {o : OpsSS2}

theorem State.field1_fails_bind (h : s.installed (s.ea o.b1 o.d1) (o.l1.toNat + 1) = false)
    (k : List Byte → Except Raise α) : (s.field1 o >>= k) = .error (.program .addressing s) :=
  State.loadBytes_fails_bind h k

theorem State.field2_fails_bind (h : s.installed (s.ea o.b2 o.d2) (o.l2.toNat + 1) = false)
    (k : List Byte → Except Raise α) : (s.field2 o >>= k) = .error (.program .addressing s) :=
  State.loadBytes_fails_bind h k

/-- Both decimal operands are read before the codes of either are looked at (R701, log 6). -/
theorem State.packedPair_fails_bind
    (h : s.installed (s.ea o.b1 o.d1) (o.l1.toNat + 1) = false ∨
      s.installed (s.ea o.b2 o.d2) (o.l2.toNat + 1) = false) (k : Packed × Packed → Except Raise α) :
    (s.packedPair o >>= k) = .error (.program .addressing s) := by
  cases h1 : s.installed (s.ea o.b1 o.d1) (o.l1.toNat + 1) with
  | false => rw [State.packedPair, State.field1_fails_bind h1, error_bind]
  | true =>
    have h2 := h.resolve_left (by rw [h1]; nofun)
    rw [State.packedPair, State.field1_installed h1, ok_bind, State.field2_fails_bind h2, error_bind]

end

end

/-- Settles O22: the checks that come before the access go on, and the access fails. -/
theorem operandAddressing : Obligations.OperandAddressing := by
  intro s
  simp only [List.forall_mem_cons, List.not_mem_nil, false_imp_iff, implies_true, and_true]
  refine ⟨fun o h => ⟨?ic, ?stc⟩, fun o h => ⟨?lh, ?sth, ?ah, ?sh, ?mh, ?ch⟩,
    fun o h => ⟨?l, ?st, ?a, ?s, ?al, ?sl, ?c, ?cl, ?n, ?o, ?x⟩, fun o h even => ⟨?m, ?d⟩,
    fun o h => ⟨?cvb, ?cvd⟩, fun o h hr => ⟨?le, ?ste, ?shortArith⟩, fun o h hr => ⟨?ld, ?std, ?longArith⟩,
    fun o h => ⟨?mvi, ?ni, ?oi, ?xi, ?tm, ?cli, ?ts⟩, fun o h super => ⟨?ssm, ?stnsm, ?stosm⟩,
    fun o h => ⟨?lm, ?stm⟩, fun o h => ⟨?icm, ?stcm⟩, fun o h aligned => ?cs,
    fun o h aligned even1 even3 => ?cds, fun o h aligned super => ?lpsw, fun o h => ?zap,
    fun o h => ⟨⟨?ap, ?sp, ?cp⟩, fun h7 hlt => ⟨?mp, ?dp⟩⟩, fun o h => ?srp⟩
  case ic | tm | cli | ts => exact call_program (State.load_fails_bind (w := 8) h _)
  case stc | mvi => exact call_program (State.store_fails_bind (w := 8) h _)
  case sth => exact call_program (State.store_fails_bind (w := 16) h _)
  case st => exact call_program (State.store_fails_bind (w := 32) h _)
  case lh | ah | sh | mh | ch => exact call_program (State.halfRX_fails_bind h _)
  case l | a | s | al | sl | c | cl | n | o | x => exact call_program (State.wordRX_fails_bind h _)
  case m | d => exact call_program ((demandEven_even_bind even _).trans (State.wordRX_fails_bind h _))
  case cvb | icm => exact call_program (State.loadBytes_fails_bind h _)
  case cvd => exact call_program (State.storeBytes_fails_bind (by rwa [packedBytes_length]) _)
  case le => exact call_program (floatReg_mem_bind hr fun _ => State.wordRX_fails_bind h _)
  case ste => exact call_program (floatReg_mem_bind hr fun _ => State.store_fails_bind (w := 32) h _)
  case ld => exact call_program (floatReg_mem_bind hr fun _ => State.dwordRX_fails_bind h _)
  case std => exact call_program (floatReg_mem_bind hr fun _ => State.store_fails_bind (w := 64) h _)
  case shortArith => and_intros <;> exact call_program (arithRX_raised _ hr (State.loadHfp_short_missing h))
  case longArith => and_intros <;> exact call_program (arithRX_raised _ hr (State.loadHfp_long_missing h))
  case ni | oi | xi => exact call_program (logicalImm_missing _ h)
  case ssm => exact call_program ((supervisorOnly_bind super _).trans (State.load_fails_bind (w := 8) h _))
  case stnsm | stosm =>
    exact call_program ((supervisorOnly_bind super _).trans (State.store_fails_bind (w := 8) h _))
  case lm | stm => exact call_program (demand_fails_bind h _)
  case stcm => exact call_program (State.storeBytes_fails_bind (by rwa [List.length_map]) _)
  case cs =>
    exact call_program ((demand_holds_bind (beq_iff_eq.2 aligned) _).trans (State.load_fails_bind (w := 32) h _))
  case cds =>
    exact call_program ((demandEven_even_bind even1 _).trans ((demandEven_even_bind even3 _).trans
      ((demand_holds_bind (beq_iff_eq.2 aligned) _).trans (State.load_fails_bind (w := 64) h _))))
  case lpsw => exact call_program (opLpsw_missing _ super aligned h)
  case zap => exact call_program (State.field2_fails_bind h _)
  case ap | sp | cp => exact call_program (State.packedPair_fails_bind h _)
  case mp | dp =>
    exact call_program ((demand_holds_bind (lengthsOk_eq_true h7 hlt) _).trans (State.packedPair_fails_bind h _))
  case srp => exact call_program (State.field1_fails_bind h _)

end Sys2Proof.Machine
end

section
/-! PROOFS. The statements of `spec/70_reset_and_hazards.md`: the state after reset. Each accessor is read once at
reset; storage and keys are the empty sparse arrays, so that no byte and no key is listed. -/

namespace Sys2Proof.Machine

/-! ## What each accessor reads after reset (R1000) -/

@[simp] theorem State.reset_getGr (r : Nib) : State.reset.getGr r = 0 :=
  Vector.getElem_replicate r.isLt

@[simp] theorem State.reset_getFr (r : Fin 4) : State.reset.getFr r = 0 :=
  Vector.getElem_replicate r.isLt

@[simp] theorem State.reset_byteAt (a : Addr) : State.reset.byteAt a = 0 := rfl

@[simp] theorem State.reset_keyOf (p : Nat) : State.reset.keyOf p = 0 := rfl

/-- The PSW after reset is the one of which all 64 bits are 0 (R50, R1001). -/
theorem State.reset_psw : State.reset.psw = Psw.unpack 0 := by decide

/-! ## The parameters after reset (R9) -/

theorem reset_cfg_wf : State.reset.cfg.wf = true := by decide

/-! ## The statements -/

/-- Settles O9: storage and keys are empty, so in canonical form, and R9's defaults are in range. -/
theorem invariantAtReset : Obligations.InvariantAtReset :=
  ⟨reset_mem_wf, reset_keys_wf, reset_cfg_wf⟩

/-- Settles O10: the accessors one by one; each field of the PSW is `Psw.reset`'s. -/
theorem resetIsZero : Obligations.ResetIsZero :=
  ⟨State.reset_getGr, State.reset_getFr, State.reset_psw, rfl, rfl, rfl, rfl, rfl, rfl, rfl, rfl, rfl, rfl, rfl,
    State.reset_byteAt, State.reset_keyOf⟩

end Sys2Proof.Machine
end
